-- ==== Sys2Proof/Word.lean ====
section
/-! DEFINITION. The word types of ESA/XC (spec/00_scope.md R13, R14): 32-bit registers, 31-bit addresses, 4K-byte blocks. Bits are
numbered from the left in the spec; `Machine/Bits.lean` holds the readers that use that numbering. -/

namespace Sys2Proof

/-- A byte, 8 bits (R14). -/
abbrev Byte := BitVec 8
/-- A halfword, 2 bytes (R14). -/
abbrev Half := BitVec 16
/-- A word, 4 bytes: a general, access or control register (R13, R21, R24, R40). -/
abbrev Word := BitVec 32
/-- A doubleword, 8 bytes: a PSW, a clock value, an ASIT (R14, R30, R87). -/
abbrev DWord := BitVec 64
/-- A 4-bit R, B, X or M field of an instruction (R173). -/
abbrev Reg := BitVec 4
/-- A 31-bit logical, real or absolute address (R13, R81). -/
abbrev Addr := BitVec 31
/-- The number of a 4K-byte block, bits 1-19 of a 31-bit address written as a word (R81). -/
abbrev Block := BitVec 19
/-- A 12-bit unsigned displacement (R173). -/
abbrev Disp := BitVec 12

end Sys2Proof
end

