-- ==== Sys2Proof/Syntax.lean ====
section
/-! DEFINITION. The instructions: one constructor per row of spec/opcode_table.json, with the operand fields the row has (R172, R173,
R186). An ignored field (R174) is no field here. The length of an SS operand is the true length, one more than the L field (R185). -/

namespace Sys2Proof

/-- An instruction of the opcode table. -/
inductive Instr where
  -- load and store, arithmetic, comparison, logic, shifts, branches and moves of the base subset (spec/45_base_subset.md)
  /-- SET PROGRAM MASK (SPM), R372. -/
  | spm (r1 : Reg)
  /-- BRANCH AND LINK (BALR), R360. -/
  | balr (r1 : Reg) (r2 : Reg)
  /-- BRANCH ON COUNT (BCTR), R366. -/
  | bctr (r1 : Reg) (r2 : Reg)
  /-- BRANCH ON CONDITION (BCR), R364. -/
  | bcr (m1 : Reg) (r2 : Reg)
  /-- SUPERVISOR CALL (SVC), R371. -/
  | svc (i : Byte)
  /-- BRANCH AND SAVE (BASR), R362. -/
  | basr (r1 : Reg) (r2 : Reg)
  /-- LOAD POSITIVE (LPR), R303. -/
  | lpr (r1 : Reg) (r2 : Reg)
  /-- LOAD NEGATIVE (LNR), R304. -/
  | lnr (r1 : Reg) (r2 : Reg)
  /-- LOAD AND TEST (LTR), R301. -/
  | ltr (r1 : Reg) (r2 : Reg)
  /-- LOAD COMPLEMENT (LCR), R302. -/
  | lcr (r1 : Reg) (r2 : Reg)
  /-- AND (NR), R340. -/
  | nr (r1 : Reg) (r2 : Reg)
  /-- COMPARE LOGICAL (CLR), R334. -/
  | clr (r1 : Reg) (r2 : Reg)
  /-- OR (OR), R343. -/
  | or (r1 : Reg) (r2 : Reg)
  /-- EXCLUSIVE OR (XR), R346. -/
  | xr (r1 : Reg) (r2 : Reg)
  /-- LOAD (LR), R300. -/
  | lr (r1 : Reg) (r2 : Reg)
  /-- COMPARE (CR), R331. -/
  | cr (r1 : Reg) (r2 : Reg)
  /-- ADD (AR), R315. -/
  | ar (r1 : Reg) (r2 : Reg)
  /-- SUBTRACT (SR), R318. -/
  | sr (r1 : Reg) (r2 : Reg)
  /-- MULTIPLY (MR), R325. -/
  | mr (r1 : Reg) (r2 : Reg)
  /-- DIVIDE (DR), R328. -/
  | dr (r1 : Reg) (r2 : Reg)
  /-- ADD LOGICAL (ALR), R321. -/
  | alr (r1 : Reg) (r2 : Reg)
  /-- SUBTRACT LOGICAL (SLR), R323. -/
  | slr (r1 : Reg) (r2 : Reg)
  /-- STORE HALFWORD (STH), R311. -/
  | sth (r1 : Reg) (x2 : Reg) (b2 : Reg) (d2 : Disp)
  /-- LOAD ADDRESS (LA), R307. -/
  | la (r1 : Reg) (x2 : Reg) (b2 : Reg) (d2 : Disp)
  /-- STORE CHARACTER (STC), R312. -/
  | stc (r1 : Reg) (x2 : Reg) (b2 : Reg) (d2 : Disp)
  /-- INSERT CHARACTER (IC), R308. -/
  | ic (r1 : Reg) (x2 : Reg) (b2 : Reg) (d2 : Disp)
  /-- EXECUTE (EX), R370. -/
  | ex (r1 : Reg) (x2 : Reg) (b2 : Reg) (d2 : Disp)
  /-- BRANCH AND LINK (BAL), R361. -/
  | bal (r1 : Reg) (x2 : Reg) (b2 : Reg) (d2 : Disp)
  /-- BRANCH ON COUNT (BCT), R367. -/
  | bct (r1 : Reg) (x2 : Reg) (b2 : Reg) (d2 : Disp)
  /-- BRANCH ON CONDITION (BC), R365. -/
  | bc (m1 : Reg) (x2 : Reg) (b2 : Reg) (d2 : Disp)
  /-- LOAD HALFWORD (LH), R306. -/
  | lh (r1 : Reg) (x2 : Reg) (b2 : Reg) (d2 : Disp)
  /-- COMPARE HALFWORD (CH), R333. -/
  | ch (r1 : Reg) (x2 : Reg) (b2 : Reg) (d2 : Disp)
  /-- ADD HALFWORD (AH), R317. -/
  | ah (r1 : Reg) (x2 : Reg) (b2 : Reg) (d2 : Disp)
  /-- SUBTRACT HALFWORD (SH), R320. -/
  | sh (r1 : Reg) (x2 : Reg) (b2 : Reg) (d2 : Disp)
  /-- MULTIPLY HALFWORD (MH), R327. -/
  | mh (r1 : Reg) (x2 : Reg) (b2 : Reg) (d2 : Disp)
  /-- BRANCH AND SAVE (BAS), R363. -/
  | bas (r1 : Reg) (x2 : Reg) (b2 : Reg) (d2 : Disp)
  /-- STORE (ST), R310. -/
  | st (r1 : Reg) (x2 : Reg) (b2 : Reg) (d2 : Disp)
  /-- AND (N), R341. -/
  | n (r1 : Reg) (x2 : Reg) (b2 : Reg) (d2 : Disp)
  /-- COMPARE LOGICAL (CL), R335. -/
  | cl (r1 : Reg) (x2 : Reg) (b2 : Reg) (d2 : Disp)
  /-- OR (O), R344. -/
  | o (r1 : Reg) (x2 : Reg) (b2 : Reg) (d2 : Disp)
  /-- EXCLUSIVE OR (X), R347. -/
  | x (r1 : Reg) (x2 : Reg) (b2 : Reg) (d2 : Disp)
  /-- LOAD (L), R305. -/
  | l (r1 : Reg) (x2 : Reg) (b2 : Reg) (d2 : Disp)
  /-- COMPARE (C), R332. -/
  | c (r1 : Reg) (x2 : Reg) (b2 : Reg) (d2 : Disp)
  /-- ADD (A), R316. -/
  | a (r1 : Reg) (x2 : Reg) (b2 : Reg) (d2 : Disp)
  /-- SUBTRACT (S), R319. -/
  | s (r1 : Reg) (x2 : Reg) (b2 : Reg) (d2 : Disp)
  /-- MULTIPLY (M), R326. -/
  | m (r1 : Reg) (x2 : Reg) (b2 : Reg) (d2 : Disp)
  /-- DIVIDE (D), R329. -/
  | d (r1 : Reg) (x2 : Reg) (b2 : Reg) (d2 : Disp)
  /-- ADD LOGICAL (AL), R322. -/
  | al (r1 : Reg) (x2 : Reg) (b2 : Reg) (d2 : Disp)
  /-- SUBTRACT LOGICAL (SL), R324. -/
  | sl (r1 : Reg) (x2 : Reg) (b2 : Reg) (d2 : Disp)
  /-- BRANCH ON INDEX HIGH (BXH), R368. -/
  | bxh (r1 : Reg) (r3 : Reg) (b2 : Reg) (d2 : Disp)
  /-- BRANCH ON INDEX LOW OR EQUAL (BXLE), R369. -/
  | bxle (r1 : Reg) (r3 : Reg) (b2 : Reg) (d2 : Disp)
  /-- SHIFT RIGHT SINGLE LOGICAL (SRL), R351. -/
  | srl (r1 : Reg) (b2 : Reg) (d2 : Disp)
  /-- SHIFT LEFT SINGLE LOGICAL (SLL), R350. -/
  | sll (r1 : Reg) (b2 : Reg) (d2 : Disp)
  /-- SHIFT RIGHT SINGLE (SRA), R353. -/
  | sra (r1 : Reg) (b2 : Reg) (d2 : Disp)
  /-- SHIFT LEFT SINGLE (SLA), R352. -/
  | sla (r1 : Reg) (b2 : Reg) (d2 : Disp)
  /-- SHIFT RIGHT DOUBLE LOGICAL (SRDL), R355. -/
  | srdl (r1 : Reg) (b2 : Reg) (d2 : Disp)
  /-- SHIFT LEFT DOUBLE LOGICAL (SLDL), R354. -/
  | sldl (r1 : Reg) (b2 : Reg) (d2 : Disp)
  /-- SHIFT RIGHT DOUBLE (SRDA), R357. -/
  | srda (r1 : Reg) (b2 : Reg) (d2 : Disp)
  /-- SHIFT LEFT DOUBLE (SLDA), R356. -/
  | slda (r1 : Reg) (b2 : Reg) (d2 : Disp)
  /-- STORE MULTIPLE (STM), R314. -/
  | stm (r1 : Reg) (r3 : Reg) (b2 : Reg) (d2 : Disp)
  /-- TEST UNDER MASK (TM), R349. -/
  | tm (i2 : Byte) (b1 : Reg) (d1 : Disp)
  /-- MOVE (MVI), R374. -/
  | mvi (i2 : Byte) (b1 : Reg) (d1 : Disp)
  /-- AND (NI), R342. -/
  | ni (i2 : Byte) (b1 : Reg) (d1 : Disp)
  /-- COMPARE LOGICAL (CLI), R336. -/
  | cli (i2 : Byte) (b1 : Reg) (d1 : Disp)
  /-- OR (OI), R345. -/
  | oi (i2 : Byte) (b1 : Reg) (d1 : Disp)
  /-- EXCLUSIVE OR (XI), R348. -/
  | xi (i2 : Byte) (b1 : Reg) (d1 : Disp)
  /-- LOAD MULTIPLE (LM), R309. -/
  | lm (r1 : Reg) (r3 : Reg) (b2 : Reg) (d2 : Disp)
  /-- BRANCH RELATIVE ON CONDITION (BRC), R392. -/
  | brc (m1 : Reg) (i2 : Half)
  /-- BRANCH RELATIVE AND SAVE (BRAS), R393. -/
  | bras (r1 : Reg) (i2 : Half)
  /-- BRANCH RELATIVE ON COUNT (BRCT), R394. -/
  | brct (r1 : Reg) (i2 : Half)
  /-- LOAD HALFWORD IMMEDIATE (LHI), R388. -/
  | lhi (r1 : Reg) (i2 : Half)
  /-- ADD HALFWORD IMMEDIATE (AHI), R389. -/
  | ahi (r1 : Reg) (i2 : Half)
  /-- MULTIPLY HALFWORD IMMEDIATE (MHI), R390. -/
  | mhi (r1 : Reg) (i2 : Half)
  /-- COMPARE HALFWORD IMMEDIATE (CHI), R391. -/
  | chi (r1 : Reg) (i2 : Half)
  /-- STORE THEN AND SYSTEM MASK (STNSM), R383. -/
  | stnsm (i2 : Byte) (b1 : Reg) (d1 : Disp)
  /-- STORE CONTROL (STCTL), R385. -/
  | stctl (r1 : Reg) (r3 : Reg) (b2 : Reg) (d2 : Disp)
  /-- LOAD CONTROL (LCTL), R384. -/
  | lctl (r1 : Reg) (r3 : Reg) (b2 : Reg) (d2 : Disp)
  /-- SET PREFIX (SPX), R386. -/
  | spx (b2 : Reg) (d2 : Disp)
  /-- STORE PREFIX (STPX), R387. -/
  | stpx (b2 : Reg) (d2 : Disp)
  /-- STORE CPU ADDRESS (STAP), R382. -/
  | stap (b2 : Reg) (d2 : Disp)
  /-- INSERT PROGRAM MASK (IPM), R373. -/
  | ipm (r1 : Reg)
  /-- COMPARE AND SWAP (CS), R380. -/
  | cs (r1 : Reg) (r3 : Reg) (b2 : Reg) (d2 : Disp)
  /-- COMPARE DOUBLE AND SWAP (CDS), R381. -/
  | cds (r1 : Reg) (r3 : Reg) (b2 : Reg) (d2 : Disp)
  /-- COMPARE LOGICAL CHARACTERS UNDER MASK (CLM), R339. -/
  | clm (r1 : Reg) (m3 : Reg) (b2 : Reg) (d2 : Disp)
  /-- STORE CHARACTERS UNDER MASK (STCM), R313. -/
  | stcm (r1 : Reg) (m3 : Reg) (b2 : Reg) (d2 : Disp)
  /-- INSERT CHARACTERS UNDER MASK (ICM), R338. -/
  | icm (r1 : Reg) (m3 : Reg) (b2 : Reg) (d2 : Disp)
  /-- MOVE (MVC), R375. -/
  | mvc (len : Nat) (b1 : Reg) (d1 : Disp) (b2 : Reg) (d2 : Disp)
  /-- AND (NC), R376. -/
  | nc (len : Nat) (b1 : Reg) (d1 : Disp) (b2 : Reg) (d2 : Disp)
  /-- COMPARE LOGICAL (CLC), R337. -/
  | clc (len : Nat) (b1 : Reg) (d1 : Disp) (b2 : Reg) (d2 : Disp)
  /-- OR (OC), R377. -/
  | oc (len : Nat) (b1 : Reg) (d1 : Disp) (b2 : Reg) (d2 : Disp)
  /-- EXCLUSIVE OR (XC), R378. -/
  | xc (len : Nat) (b1 : Reg) (d1 : Disp) (b2 : Reg) (d2 : Disp)
  -- timing instructions (spec/40_timing_instructions.md)
  /-- SET CLOCK PROGRAMMABLE FIELD (SCKPF), R203. -/
  | sckpf
  /-- STORE CLOCK (STCK), R200. -/
  | stck (b2 : Reg) (d2 : Disp)
  /-- SET CLOCK COMPARATOR (SCKC), R204. -/
  | sckc (b2 : Reg) (d2 : Disp)
  /-- STORE CLOCK COMPARATOR (STCKC), R205. -/
  | stckc (b2 : Reg) (d2 : Disp)
  /-- SET CPU TIMER (SPT), R206. -/
  | spt (b2 : Reg) (d2 : Disp)
  /-- STORE CPU TIMER (STPT), R207. -/
  | stpt (b2 : Reg) (d2 : Disp)
  /-- STORE CLOCK EXTENDED (STCKE), R201. -/
  | stcke (b2 : Reg) (d2 : Disp)
  -- access-register instructions (spec/41_access_register_instructions.md)
  /-- LOAD ADDRESS EXTENDED (LAE), R213. -/
  | lae (r1 : Reg) (x2 : Reg) (b2 : Reg) (d2 : Disp)
  /-- LOAD ACCESS MULTIPLE (LAM), R214. -/
  | lam (r1 : Reg) (r3 : Reg) (b2 : Reg) (d2 : Disp)
  /-- STORE ACCESS MULTIPLE (STAM), R215. -/
  | stam (r1 : Reg) (r3 : Reg) (b2 : Reg) (d2 : Disp)
  /-- COPY ACCESS (CPYA), R210. -/
  | cpya (r1 : Reg) (r2 : Reg)
  /-- SET ACCESS (SAR), R212. -/
  | sar (r1 : Reg) (r2 : Reg)
  /-- EXTRACT ACCESS (EAR), R211. -/
  | ear (r1 : Reg) (r2 : Reg)
  -- ESA/390 instructions not provided (spec/42_not_provided.md)
  /-- PROGRAM RETURN (PR), R233. -/
  | pr
  /-- TRAP (TRAP2), R239. -/
  | trap2
  /-- LOAD REAL ADDRESS (LRA), R228. -/
  | lra (r1 : Reg) (x2 : Reg) (b2 : Reg) (d2 : Disp)
  /-- SET CLOCK (SCK), R235. -/
  | sck (b2 : Reg) (d2 : Disp)
  /-- START INTERPRETIVE EXECUTION (SIE), R237. -/
  | sie (b2 : Reg) (d2 : Disp)
  /-- PROGRAM CALL (PC), R231. -/
  | pc (b2 : Reg) (d2 : Disp)
  /-- INSERT VIRTUAL STORAGE KEY (IVSK), R226. -/
  | ivsk (r1 : Reg) (r2 : Reg)
  /-- SET SECONDARY ASN (SSAR), R236. -/
  | ssar (r1 : Reg) (r2 : Reg)
  /-- EXTRACT PRIMARY ASN (EPAR), R222. -/
  | epar (r1 : Reg)
  /-- EXTRACT SECONDARY ASN (ESAR), R223. -/
  | esar (r1 : Reg)
  /-- PROGRAM TRANSFER (PT), R234. -/
  | pt (r1 : Reg) (r2 : Reg)
  /-- BRANCH AND STACK (BAKR), R220. -/
  | bakr (r1 : Reg) (r2 : Reg)
  /-- MODIFY STACKED STATE (MSTA), R229. -/
  | msta (r1 : Reg) (r2 : Reg)
  /-- EXTRACT STACKED REGISTERS (EREG), R224. -/
  | ereg (r1 : Reg) (r2 : Reg)
  /-- EXTRACT STACKED STATE (ESTA), R225. -/
  | esta (r1 : Reg) (r2 : Reg)
  /-- BRANCH IN SUBSPACE GROUP (BSG), R221. -/
  | bsg (r1 : Reg) (r2 : Reg)
  /-- TRAP (TRAP4), R240. -/
  | trap4 (b2 : Reg) (d2 : Disp)
  /-- MOVE TO PRIMARY (MVCP), R230. -/
  | mvcp (r1 : Reg) (r3 : Reg) (b1 : Reg) (d1 : Disp) (b2 : Reg) (d2 : Disp)
  /-- MOVE TO SECONDARY (MVCS), R232. -/
  | mvcs (r1 : Reg) (r3 : Reg) (b1 : Reg) (d1 : Disp) (b2 : Reg) (d2 : Disp)
  /-- LOAD ADDRESS SPACE PARAMETERS (LASP), R227. -/
  | lasp (b1 : Reg) (d1 : Disp) (b2 : Reg) (d2 : Disp)
  -- modified ESA/390 instructions (spec/43_modified_instructions_a.md, spec/44_modified_instructions_b.md)
  /-- SET SYSTEM MASK (SSM), R276. -/
  | ssm (b2 : Reg) (d2 : Disp)
  /-- LOAD PSW (LPSW), R254. -/
  | lpsw (b2 : Reg) (d2 : Disp)
  /-- DIAGNOSE (DIAG), R245. -/
  | diag (r1 : Reg) (r3 : Reg) (b2 : Reg) (d2 : Disp)
  /-- TRACE (TRACE), R290. -/
  | trace (r1 : Reg) (r3 : Reg) (b2 : Reg) (d2 : Disp)
  /-- STORE THEN OR SYSTEM MASK (STOSM), R278. -/
  | stosm (i2 : Byte) (b1 : Reg) (d1 : Disp)
  /-- SIGNAL PROCESSOR (SIGP), R277. -/
  | sigp (r1 : Reg) (r3 : Reg) (b2 : Reg) (d2 : Disp)
  /-- PURGE TLB (PTLB), R258. -/
  | ptlb
  /-- SET ADDRESS SPACE CONTROL (SAC), R271. -/
  | sac (b2 : Reg) (d2 : Disp)
  /-- INVALIDATE PAGE TABLE ENTRY (IPTE), R252. -/
  | ipte (r1 : Reg) (r2 : Reg)
  /-- INSERT ADDRESS SPACE CONTROL (IAC), R246. -/
  | iac (r1 : Reg)
  /-- INSERT STORAGE KEY EXTENDED (ISKE), R250. -/
  | iske (r1 : Reg) (r2 : Reg)
  /-- RESET REFERENCE BIT EXTENDED (RRBE), R259. -/
  | rrbe (r1 : Reg) (r2 : Reg)
  /-- SET STORAGE KEY EXTENDED (SSKE), R274. -/
  | sske (r1 : Reg) (r2 : Reg)
  /-- TEST BLOCK (TB), R283. -/
  | tb (r2 : Reg)
  /-- STORE USING REAL ADDRESS (STURA), R280. -/
  | stura (r1 : Reg) (r2 : Reg)
  /-- PURGE ALB (PALB), R257. -/
  | palb
  /-- LOAD USING REAL ADDRESS (LURA), R256. -/
  | lura (r1 : Reg) (r2 : Reg)
  /-- TEST ACCESS (TAR), R288. -/
  | tar (r1 : Reg) (r2 : Reg)
  /-- BRANCH AND SET AUTHORITY (BSA), R262. -/
  | bsa (r1 : Reg) (r2 : Reg)
  /-- RESUME PROGRAM (RP), R260. -/
  | rp (b2 : Reg) (d2 : Disp)
  /-- SET ADDRESS SPACE CONTROL FAST (SACF), R272. -/
  | sacf (b2 : Reg) (d2 : Disp)
  /-- TEST PROTECTION (TPROT), R285. -/
  | tprot (b1 : Reg) (d1 : Disp) (b2 : Reg) (d2 : Disp)
  deriving DecidableEq, Repr

end Sys2Proof
end

