-- ==== Sys2Proof/WellFormed.lean ====
section
/-! DEFINITION. Which instruction terms an encoding exists for. Register, mask, displacement and immediate fields have exactly the
encoding's range by their types; the one field wider than its encoding is the true length of an SS operand, 1 to 256 (R173, R185). -/

namespace Sys2Proof

/-- The true length an 8-bit L field can hold (R173). -/
def wfLength (len : Nat) : Bool := decide (1 ≤ len) && decide (len ≤ 256)

/-- The instruction has an encoding. -/
def Instr.wf : Instr → Bool
  | .spm _ => true
  | .balr _ _ => true
  | .bctr _ _ => true
  | .bcr _ _ => true
  | .svc _ => true
  | .basr _ _ => true
  | .lpr _ _ => true
  | .lnr _ _ => true
  | .ltr _ _ => true
  | .lcr _ _ => true
  | .nr _ _ => true
  | .clr _ _ => true
  | .or _ _ => true
  | .xr _ _ => true
  | .lr _ _ => true
  | .cr _ _ => true
  | .ar _ _ => true
  | .sr _ _ => true
  | .mr _ _ => true
  | .dr _ _ => true
  | .alr _ _ => true
  | .slr _ _ => true
  | .sth _ _ _ _ => true
  | .la _ _ _ _ => true
  | .stc _ _ _ _ => true
  | .ic _ _ _ _ => true
  | .ex _ _ _ _ => true
  | .bal _ _ _ _ => true
  | .bct _ _ _ _ => true
  | .bc _ _ _ _ => true
  | .lh _ _ _ _ => true
  | .ch _ _ _ _ => true
  | .ah _ _ _ _ => true
  | .sh _ _ _ _ => true
  | .mh _ _ _ _ => true
  | .bas _ _ _ _ => true
  | .st _ _ _ _ => true
  | .n _ _ _ _ => true
  | .cl _ _ _ _ => true
  | .o _ _ _ _ => true
  | .x _ _ _ _ => true
  | .l _ _ _ _ => true
  | .c _ _ _ _ => true
  | .a _ _ _ _ => true
  | .s _ _ _ _ => true
  | .m _ _ _ _ => true
  | .d _ _ _ _ => true
  | .al _ _ _ _ => true
  | .sl _ _ _ _ => true
  | .bxh _ _ _ _ => true
  | .bxle _ _ _ _ => true
  | .srl _ _ _ => true
  | .sll _ _ _ => true
  | .sra _ _ _ => true
  | .sla _ _ _ => true
  | .srdl _ _ _ => true
  | .sldl _ _ _ => true
  | .srda _ _ _ => true
  | .slda _ _ _ => true
  | .stm _ _ _ _ => true
  | .tm _ _ _ => true
  | .mvi _ _ _ => true
  | .ni _ _ _ => true
  | .cli _ _ _ => true
  | .oi _ _ _ => true
  | .xi _ _ _ => true
  | .lm _ _ _ _ => true
  | .brc _ _ => true
  | .bras _ _ => true
  | .brct _ _ => true
  | .lhi _ _ => true
  | .ahi _ _ => true
  | .mhi _ _ => true
  | .chi _ _ => true
  | .stnsm _ _ _ => true
  | .stctl _ _ _ _ => true
  | .lctl _ _ _ _ => true
  | .spx _ _ => true
  | .stpx _ _ => true
  | .stap _ _ => true
  | .ipm _ => true
  | .cs _ _ _ _ => true
  | .cds _ _ _ _ => true
  | .clm _ _ _ _ => true
  | .stcm _ _ _ _ => true
  | .icm _ _ _ _ => true
  | .mvc len _ _ _ _ => wfLength len
  | .nc len _ _ _ _ => wfLength len
  | .clc len _ _ _ _ => wfLength len
  | .oc len _ _ _ _ => wfLength len
  | .xc len _ _ _ _ => wfLength len
  | .sckpf => true
  | .stck _ _ => true
  | .sckc _ _ => true
  | .stckc _ _ => true
  | .spt _ _ => true
  | .stpt _ _ => true
  | .stcke _ _ => true
  | .lae _ _ _ _ => true
  | .lam _ _ _ _ => true
  | .stam _ _ _ _ => true
  | .cpya _ _ => true
  | .sar _ _ => true
  | .ear _ _ => true
  | .pr => true
  | .trap2 => true
  | .lra _ _ _ _ => true
  | .sck _ _ => true
  | .sie _ _ => true
  | .pc _ _ => true
  | .ivsk _ _ => true
  | .ssar _ _ => true
  | .epar _ => true
  | .esar _ => true
  | .pt _ _ => true
  | .bakr _ _ => true
  | .msta _ _ => true
  | .ereg _ _ => true
  | .esta _ _ => true
  | .bsg _ _ => true
  | .trap4 _ _ => true
  | .mvcp _ _ _ _ _ _ => true
  | .mvcs _ _ _ _ _ _ => true
  | .lasp _ _ _ _ => true
  | .ssm _ _ => true
  | .lpsw _ _ => true
  | .diag _ _ _ _ => true
  | .trace _ _ _ _ => true
  | .stosm _ _ _ => true
  | .sigp _ _ _ _ => true
  | .ptlb => true
  | .sac _ _ => true
  | .ipte _ _ => true
  | .iac _ => true
  | .iske _ _ => true
  | .rrbe _ _ => true
  | .sske _ _ => true
  | .tb _ => true
  | .stura _ _ => true
  | .palb => true
  | .lura _ _ => true
  | .tar _ _ => true
  | .bsa _ _ => true
  | .rp _ _ => true
  | .sacf _ _ => true
  | .tprot _ _ _ _ => true

end Sys2Proof
end

