-- ==== Sys2Proof/Decode.lean ====
section
/-! DEFINITION. Decoding and encoding (spec/30_encoding.md R170 to R174, R181, R186). The decoder is total: bytes that match no row of
the opcode table are rejected by name. -/

namespace Sys2Proof

/-- Why bytes are no instruction of the opcode table. -/
inductive Undecoded where
  /-- The bytes are fewer or more than the length their first two bits give (R170). -/
  | wrongLength
  /-- The first byte begins no row (R181 c). -/
  | noRow (op : Byte)
  /-- The first byte begins rows, but none goes on with this second byte (or, after A7, with this second digit) (R181 c). -/
  | noExtendedRow (op ext : Byte)
  deriving DecidableEq, Repr

/-- The length in bytes that bits 0-1 of the first byte give (R170). -/
def instrLength (c0 : Byte) : Nat :=
  if c0.toNat < 0x40 then 2 else if c0.toNat < 0xc0 then 4 else 6

/-- Bits 0-3 of a byte. -/
def hiNibble (c : Byte) : BitVec 4 := c.extractLsb' 4 4
/-- Bits 4-7 of a byte. -/
def loNibble (c : Byte) : BitVec 4 := c.extractLsb' 0 4
/-- The displacement of a base-displacement halfword: its last twelve bits (R172). -/
def disp (c c' : Byte) : Disp := loNibble c ++ c'
/-- The 16-bit immediate of format RI (R172). -/
def imm (c c' : Byte) : Half := c ++ c'
/-- The first four bits of a displacement. -/
def dispHi (d : Disp) : BitVec 4 := d.extractLsb' 8 4
/-- The last eight bits of a displacement. -/
def dispLo (d : Disp) : Byte := d.extractLsb' 0 8
/-- The first byte of a 16-bit immediate. -/
def immHi (i : Half) : Byte := i.extractLsb' 8 8
/-- The second byte of a 16-bit immediate. -/
def immLo (i : Half) : Byte := i.extractLsb' 0 8
/-- The true length of an SS operand: the L field plus one (R173). -/
def trueLength (c : Byte) : Nat := c.toNat + 1
/-- The L field of a true length (R185). -/
def lengthCode (len : Nat) : Byte := BitVec.ofNat 8 (len - 1)

/-- The rows two bytes long: formats E and RR. -/
def decode2 (c0 c1 : Byte) : Except Undecoded Instr :=
  match c0.toNat with
  | 0x01 =>
    match c1.toNat with
    | 0x01 => .ok .pr
    | 0x07 => .ok .sckpf
    | 0xff => .ok .trap2
    | _ => .error (.noExtendedRow c0 c1)
  | 0x04 => .ok (.spm (hiNibble c1))
  | 0x05 => .ok (.balr (hiNibble c1) (loNibble c1))
  | 0x06 => .ok (.bctr (hiNibble c1) (loNibble c1))
  | 0x07 => .ok (.bcr (hiNibble c1) (loNibble c1))
  | 0x0a => .ok (.svc c1)
  | 0x0d => .ok (.basr (hiNibble c1) (loNibble c1))
  | 0x10 => .ok (.lpr (hiNibble c1) (loNibble c1))
  | 0x11 => .ok (.lnr (hiNibble c1) (loNibble c1))
  | 0x12 => .ok (.ltr (hiNibble c1) (loNibble c1))
  | 0x13 => .ok (.lcr (hiNibble c1) (loNibble c1))
  | 0x14 => .ok (.nr (hiNibble c1) (loNibble c1))
  | 0x15 => .ok (.clr (hiNibble c1) (loNibble c1))
  | 0x16 => .ok (.or (hiNibble c1) (loNibble c1))
  | 0x17 => .ok (.xr (hiNibble c1) (loNibble c1))
  | 0x18 => .ok (.lr (hiNibble c1) (loNibble c1))
  | 0x19 => .ok (.cr (hiNibble c1) (loNibble c1))
  | 0x1a => .ok (.ar (hiNibble c1) (loNibble c1))
  | 0x1b => .ok (.sr (hiNibble c1) (loNibble c1))
  | 0x1c => .ok (.mr (hiNibble c1) (loNibble c1))
  | 0x1d => .ok (.dr (hiNibble c1) (loNibble c1))
  | 0x1e => .ok (.alr (hiNibble c1) (loNibble c1))
  | 0x1f => .ok (.slr (hiNibble c1) (loNibble c1))
  | _ => .error (.noRow c0)

/-- The rows four bytes long whose first byte is B2: formats S and RRE. -/
def decodeB2 (c1 c2 c3 : Byte) : Except Undecoded Instr :=
  match c1.toNat with
  | 0x04 => .ok (.sck (hiNibble c2) (disp c2 c3))
  | 0x05 => .ok (.stck (hiNibble c2) (disp c2 c3))
  | 0x06 => .ok (.sckc (hiNibble c2) (disp c2 c3))
  | 0x07 => .ok (.stckc (hiNibble c2) (disp c2 c3))
  | 0x08 => .ok (.spt (hiNibble c2) (disp c2 c3))
  | 0x09 => .ok (.stpt (hiNibble c2) (disp c2 c3))
  | 0x0d => .ok .ptlb
  | 0x10 => .ok (.spx (hiNibble c2) (disp c2 c3))
  | 0x11 => .ok (.stpx (hiNibble c2) (disp c2 c3))
  | 0x12 => .ok (.stap (hiNibble c2) (disp c2 c3))
  | 0x14 => .ok (.sie (hiNibble c2) (disp c2 c3))
  | 0x18 => .ok (.pc (hiNibble c2) (disp c2 c3))
  | 0x19 => .ok (.sac (hiNibble c2) (disp c2 c3))
  | 0x21 => .ok (.ipte (hiNibble c3) (loNibble c3))
  | 0x22 => .ok (.ipm (hiNibble c3))
  | 0x23 => .ok (.ivsk (hiNibble c3) (loNibble c3))
  | 0x24 => .ok (.iac (hiNibble c3))
  | 0x25 => .ok (.ssar (hiNibble c3) (loNibble c3))
  | 0x26 => .ok (.epar (hiNibble c3))
  | 0x27 => .ok (.esar (hiNibble c3))
  | 0x28 => .ok (.pt (hiNibble c3) (loNibble c3))
  | 0x29 => .ok (.iske (hiNibble c3) (loNibble c3))
  | 0x2a => .ok (.rrbe (hiNibble c3) (loNibble c3))
  | 0x2b => .ok (.sske (hiNibble c3) (loNibble c3))
  | 0x2c => .ok (.tb (loNibble c3))
  | 0x40 => .ok (.bakr (hiNibble c3) (loNibble c3))
  | 0x46 => .ok (.stura (hiNibble c3) (loNibble c3))
  | 0x47 => .ok (.msta (hiNibble c3) (loNibble c3))
  | 0x48 => .ok .palb
  | 0x49 => .ok (.ereg (hiNibble c3) (loNibble c3))
  | 0x4a => .ok (.esta (hiNibble c3) (loNibble c3))
  | 0x4b => .ok (.lura (hiNibble c3) (loNibble c3))
  | 0x4c => .ok (.tar (hiNibble c3) (loNibble c3))
  | 0x4d => .ok (.cpya (hiNibble c3) (loNibble c3))
  | 0x4e => .ok (.sar (hiNibble c3) (loNibble c3))
  | 0x4f => .ok (.ear (hiNibble c3) (loNibble c3))
  | 0x58 => .ok (.bsg (hiNibble c3) (loNibble c3))
  | 0x5a => .ok (.bsa (hiNibble c3) (loNibble c3))
  | 0x77 => .ok (.rp (hiNibble c2) (disp c2 c3))
  | 0x78 => .ok (.stcke (hiNibble c2) (disp c2 c3))
  | 0x79 => .ok (.sacf (hiNibble c2) (disp c2 c3))
  | 0xff => .ok (.trap4 (hiNibble c2) (disp c2 c3))
  | _ => .error (.noExtendedRow 0xb2 c1)

/-- The rows four bytes long whose first byte is A7: format RI, told apart by bits 12-15. -/
def decodeA7 (c1 c2 c3 : Byte) : Except Undecoded Instr :=
  match (loNibble c1).toNat with
  | 0x4 => .ok (.brc (hiNibble c1) (imm c2 c3))
  | 0x5 => .ok (.bras (hiNibble c1) (imm c2 c3))
  | 0x6 => .ok (.brct (hiNibble c1) (imm c2 c3))
  | 0x8 => .ok (.lhi (hiNibble c1) (imm c2 c3))
  | 0xa => .ok (.ahi (hiNibble c1) (imm c2 c3))
  | 0xc => .ok (.mhi (hiNibble c1) (imm c2 c3))
  | 0xe => .ok (.chi (hiNibble c1) (imm c2 c3))
  | _ => .error (.noExtendedRow 0xa7 c1)

/-- The rows four bytes long: formats RX, RS, SI, S, RRE and RI. -/
def decode4 (c0 c1 c2 c3 : Byte) : Except Undecoded Instr :=
  match c0.toNat with
  | 0x40 => .ok (.sth (hiNibble c1) (loNibble c1) (hiNibble c2) (disp c2 c3))
  | 0x41 => .ok (.la (hiNibble c1) (loNibble c1) (hiNibble c2) (disp c2 c3))
  | 0x42 => .ok (.stc (hiNibble c1) (loNibble c1) (hiNibble c2) (disp c2 c3))
  | 0x43 => .ok (.ic (hiNibble c1) (loNibble c1) (hiNibble c2) (disp c2 c3))
  | 0x44 => .ok (.ex (hiNibble c1) (loNibble c1) (hiNibble c2) (disp c2 c3))
  | 0x45 => .ok (.bal (hiNibble c1) (loNibble c1) (hiNibble c2) (disp c2 c3))
  | 0x46 => .ok (.bct (hiNibble c1) (loNibble c1) (hiNibble c2) (disp c2 c3))
  | 0x47 => .ok (.bc (hiNibble c1) (loNibble c1) (hiNibble c2) (disp c2 c3))
  | 0x48 => .ok (.lh (hiNibble c1) (loNibble c1) (hiNibble c2) (disp c2 c3))
  | 0x49 => .ok (.ch (hiNibble c1) (loNibble c1) (hiNibble c2) (disp c2 c3))
  | 0x4a => .ok (.ah (hiNibble c1) (loNibble c1) (hiNibble c2) (disp c2 c3))
  | 0x4b => .ok (.sh (hiNibble c1) (loNibble c1) (hiNibble c2) (disp c2 c3))
  | 0x4c => .ok (.mh (hiNibble c1) (loNibble c1) (hiNibble c2) (disp c2 c3))
  | 0x4d => .ok (.bas (hiNibble c1) (loNibble c1) (hiNibble c2) (disp c2 c3))
  | 0x50 => .ok (.st (hiNibble c1) (loNibble c1) (hiNibble c2) (disp c2 c3))
  | 0x51 => .ok (.lae (hiNibble c1) (loNibble c1) (hiNibble c2) (disp c2 c3))
  | 0x54 => .ok (.n (hiNibble c1) (loNibble c1) (hiNibble c2) (disp c2 c3))
  | 0x55 => .ok (.cl (hiNibble c1) (loNibble c1) (hiNibble c2) (disp c2 c3))
  | 0x56 => .ok (.o (hiNibble c1) (loNibble c1) (hiNibble c2) (disp c2 c3))
  | 0x57 => .ok (.x (hiNibble c1) (loNibble c1) (hiNibble c2) (disp c2 c3))
  | 0x58 => .ok (.l (hiNibble c1) (loNibble c1) (hiNibble c2) (disp c2 c3))
  | 0x59 => .ok (.c (hiNibble c1) (loNibble c1) (hiNibble c2) (disp c2 c3))
  | 0x5a => .ok (.a (hiNibble c1) (loNibble c1) (hiNibble c2) (disp c2 c3))
  | 0x5b => .ok (.s (hiNibble c1) (loNibble c1) (hiNibble c2) (disp c2 c3))
  | 0x5c => .ok (.m (hiNibble c1) (loNibble c1) (hiNibble c2) (disp c2 c3))
  | 0x5d => .ok (.d (hiNibble c1) (loNibble c1) (hiNibble c2) (disp c2 c3))
  | 0x5e => .ok (.al (hiNibble c1) (loNibble c1) (hiNibble c2) (disp c2 c3))
  | 0x5f => .ok (.sl (hiNibble c1) (loNibble c1) (hiNibble c2) (disp c2 c3))
  | 0x80 => .ok (.ssm (hiNibble c2) (disp c2 c3))
  | 0x82 => .ok (.lpsw (hiNibble c2) (disp c2 c3))
  | 0x83 => .ok (.diag (hiNibble c1) (loNibble c1) (hiNibble c2) (disp c2 c3))
  | 0x86 => .ok (.bxh (hiNibble c1) (loNibble c1) (hiNibble c2) (disp c2 c3))
  | 0x87 => .ok (.bxle (hiNibble c1) (loNibble c1) (hiNibble c2) (disp c2 c3))
  | 0x88 => .ok (.srl (hiNibble c1) (hiNibble c2) (disp c2 c3))
  | 0x89 => .ok (.sll (hiNibble c1) (hiNibble c2) (disp c2 c3))
  | 0x8a => .ok (.sra (hiNibble c1) (hiNibble c2) (disp c2 c3))
  | 0x8b => .ok (.sla (hiNibble c1) (hiNibble c2) (disp c2 c3))
  | 0x8c => .ok (.srdl (hiNibble c1) (hiNibble c2) (disp c2 c3))
  | 0x8d => .ok (.sldl (hiNibble c1) (hiNibble c2) (disp c2 c3))
  | 0x8e => .ok (.srda (hiNibble c1) (hiNibble c2) (disp c2 c3))
  | 0x8f => .ok (.slda (hiNibble c1) (hiNibble c2) (disp c2 c3))
  | 0x90 => .ok (.stm (hiNibble c1) (loNibble c1) (hiNibble c2) (disp c2 c3))
  | 0x91 => .ok (.tm c1 (hiNibble c2) (disp c2 c3))
  | 0x92 => .ok (.mvi c1 (hiNibble c2) (disp c2 c3))
  | 0x94 => .ok (.ni c1 (hiNibble c2) (disp c2 c3))
  | 0x95 => .ok (.cli c1 (hiNibble c2) (disp c2 c3))
  | 0x96 => .ok (.oi c1 (hiNibble c2) (disp c2 c3))
  | 0x97 => .ok (.xi c1 (hiNibble c2) (disp c2 c3))
  | 0x98 => .ok (.lm (hiNibble c1) (loNibble c1) (hiNibble c2) (disp c2 c3))
  | 0x99 => .ok (.trace (hiNibble c1) (loNibble c1) (hiNibble c2) (disp c2 c3))
  | 0x9a => .ok (.lam (hiNibble c1) (loNibble c1) (hiNibble c2) (disp c2 c3))
  | 0x9b => .ok (.stam (hiNibble c1) (loNibble c1) (hiNibble c2) (disp c2 c3))
  | 0xac => .ok (.stnsm c1 (hiNibble c2) (disp c2 c3))
  | 0xad => .ok (.stosm c1 (hiNibble c2) (disp c2 c3))
  | 0xae => .ok (.sigp (hiNibble c1) (loNibble c1) (hiNibble c2) (disp c2 c3))
  | 0xb1 => .ok (.lra (hiNibble c1) (loNibble c1) (hiNibble c2) (disp c2 c3))
  | 0xb6 => .ok (.stctl (hiNibble c1) (loNibble c1) (hiNibble c2) (disp c2 c3))
  | 0xb7 => .ok (.lctl (hiNibble c1) (loNibble c1) (hiNibble c2) (disp c2 c3))
  | 0xba => .ok (.cs (hiNibble c1) (loNibble c1) (hiNibble c2) (disp c2 c3))
  | 0xbb => .ok (.cds (hiNibble c1) (loNibble c1) (hiNibble c2) (disp c2 c3))
  | 0xbd => .ok (.clm (hiNibble c1) (loNibble c1) (hiNibble c2) (disp c2 c3))
  | 0xbe => .ok (.stcm (hiNibble c1) (loNibble c1) (hiNibble c2) (disp c2 c3))
  | 0xbf => .ok (.icm (hiNibble c1) (loNibble c1) (hiNibble c2) (disp c2 c3))
  | 0xa7 => decodeA7 c1 c2 c3
  | 0xb2 => decodeB2 c1 c2 c3
  | _ => .error (.noRow c0)

/-- The rows six bytes long: formats SS and SSE. -/
def decode6 (c0 c1 c2 c3 c4 c5 : Byte) : Except Undecoded Instr :=
  match c0.toNat with
  | 0xd2 => .ok (.mvc (trueLength c1) (hiNibble c2) (disp c2 c3) (hiNibble c4) (disp c4 c5))
  | 0xd4 => .ok (.nc (trueLength c1) (hiNibble c2) (disp c2 c3) (hiNibble c4) (disp c4 c5))
  | 0xd5 => .ok (.clc (trueLength c1) (hiNibble c2) (disp c2 c3) (hiNibble c4) (disp c4 c5))
  | 0xd6 => .ok (.oc (trueLength c1) (hiNibble c2) (disp c2 c3) (hiNibble c4) (disp c4 c5))
  | 0xd7 => .ok (.xc (trueLength c1) (hiNibble c2) (disp c2 c3) (hiNibble c4) (disp c4 c5))
  | 0xda => .ok (.mvcp (hiNibble c1) (loNibble c1) (hiNibble c2) (disp c2 c3) (hiNibble c4) (disp c4 c5))
  | 0xdb => .ok (.mvcs (hiNibble c1) (loNibble c1) (hiNibble c2) (disp c2 c3) (hiNibble c4) (disp c4 c5))
  | 0xe5 =>
    match c1.toNat with
    | 0x00 => .ok (.lasp (hiNibble c2) (disp c2 c3) (hiNibble c4) (disp c4 c5))
    | 0x01 => .ok (.tprot (hiNibble c2) (disp c2 c3) (hiNibble c4) (disp c4 c5))
    | _ => .error (.noExtendedRow c0 c1)
  | _ => .error (.noRow c0)

/-- The instruction whose bytes these are, the byte at the lowest address first (R90, R181). -/
def decode : List Byte → Except Undecoded Instr
  | [c0, c1] => decode2 c0 c1
  | [c0, c1, c2, c3] => decode4 c0 c1 c2 c3
  | [c0, c1, c2, c3, c4, c5] => decode6 c0 c1 c2 c3 c4 c5
  | _ => .error .wrongLength

/-- The bytes of an instruction, ignored bits zero (R172, R186). -/
def encode : Instr → List Byte
  | .spm r1 => [0x04, r1 ++ 0#4]
  | .balr r1 r2 => [0x05, r1 ++ r2]
  | .bctr r1 r2 => [0x06, r1 ++ r2]
  | .bcr m1 r2 => [0x07, m1 ++ r2]
  | .svc i => [0x0a, i]
  | .basr r1 r2 => [0x0d, r1 ++ r2]
  | .lpr r1 r2 => [0x10, r1 ++ r2]
  | .lnr r1 r2 => [0x11, r1 ++ r2]
  | .ltr r1 r2 => [0x12, r1 ++ r2]
  | .lcr r1 r2 => [0x13, r1 ++ r2]
  | .nr r1 r2 => [0x14, r1 ++ r2]
  | .clr r1 r2 => [0x15, r1 ++ r2]
  | .or r1 r2 => [0x16, r1 ++ r2]
  | .xr r1 r2 => [0x17, r1 ++ r2]
  | .lr r1 r2 => [0x18, r1 ++ r2]
  | .cr r1 r2 => [0x19, r1 ++ r2]
  | .ar r1 r2 => [0x1a, r1 ++ r2]
  | .sr r1 r2 => [0x1b, r1 ++ r2]
  | .mr r1 r2 => [0x1c, r1 ++ r2]
  | .dr r1 r2 => [0x1d, r1 ++ r2]
  | .alr r1 r2 => [0x1e, r1 ++ r2]
  | .slr r1 r2 => [0x1f, r1 ++ r2]
  | .sth r1 x2 b2 d2 => [0x40, r1 ++ x2, b2 ++ dispHi d2, dispLo d2]
  | .la r1 x2 b2 d2 => [0x41, r1 ++ x2, b2 ++ dispHi d2, dispLo d2]
  | .stc r1 x2 b2 d2 => [0x42, r1 ++ x2, b2 ++ dispHi d2, dispLo d2]
  | .ic r1 x2 b2 d2 => [0x43, r1 ++ x2, b2 ++ dispHi d2, dispLo d2]
  | .ex r1 x2 b2 d2 => [0x44, r1 ++ x2, b2 ++ dispHi d2, dispLo d2]
  | .bal r1 x2 b2 d2 => [0x45, r1 ++ x2, b2 ++ dispHi d2, dispLo d2]
  | .bct r1 x2 b2 d2 => [0x46, r1 ++ x2, b2 ++ dispHi d2, dispLo d2]
  | .bc m1 x2 b2 d2 => [0x47, m1 ++ x2, b2 ++ dispHi d2, dispLo d2]
  | .lh r1 x2 b2 d2 => [0x48, r1 ++ x2, b2 ++ dispHi d2, dispLo d2]
  | .ch r1 x2 b2 d2 => [0x49, r1 ++ x2, b2 ++ dispHi d2, dispLo d2]
  | .ah r1 x2 b2 d2 => [0x4a, r1 ++ x2, b2 ++ dispHi d2, dispLo d2]
  | .sh r1 x2 b2 d2 => [0x4b, r1 ++ x2, b2 ++ dispHi d2, dispLo d2]
  | .mh r1 x2 b2 d2 => [0x4c, r1 ++ x2, b2 ++ dispHi d2, dispLo d2]
  | .bas r1 x2 b2 d2 => [0x4d, r1 ++ x2, b2 ++ dispHi d2, dispLo d2]
  | .st r1 x2 b2 d2 => [0x50, r1 ++ x2, b2 ++ dispHi d2, dispLo d2]
  | .n r1 x2 b2 d2 => [0x54, r1 ++ x2, b2 ++ dispHi d2, dispLo d2]
  | .cl r1 x2 b2 d2 => [0x55, r1 ++ x2, b2 ++ dispHi d2, dispLo d2]
  | .o r1 x2 b2 d2 => [0x56, r1 ++ x2, b2 ++ dispHi d2, dispLo d2]
  | .x r1 x2 b2 d2 => [0x57, r1 ++ x2, b2 ++ dispHi d2, dispLo d2]
  | .l r1 x2 b2 d2 => [0x58, r1 ++ x2, b2 ++ dispHi d2, dispLo d2]
  | .c r1 x2 b2 d2 => [0x59, r1 ++ x2, b2 ++ dispHi d2, dispLo d2]
  | .a r1 x2 b2 d2 => [0x5a, r1 ++ x2, b2 ++ dispHi d2, dispLo d2]
  | .s r1 x2 b2 d2 => [0x5b, r1 ++ x2, b2 ++ dispHi d2, dispLo d2]
  | .m r1 x2 b2 d2 => [0x5c, r1 ++ x2, b2 ++ dispHi d2, dispLo d2]
  | .d r1 x2 b2 d2 => [0x5d, r1 ++ x2, b2 ++ dispHi d2, dispLo d2]
  | .al r1 x2 b2 d2 => [0x5e, r1 ++ x2, b2 ++ dispHi d2, dispLo d2]
  | .sl r1 x2 b2 d2 => [0x5f, r1 ++ x2, b2 ++ dispHi d2, dispLo d2]
  | .bxh r1 r3 b2 d2 => [0x86, r1 ++ r3, b2 ++ dispHi d2, dispLo d2]
  | .bxle r1 r3 b2 d2 => [0x87, r1 ++ r3, b2 ++ dispHi d2, dispLo d2]
  | .srl r1 b2 d2 => [0x88, r1 ++ 0#4, b2 ++ dispHi d2, dispLo d2]
  | .sll r1 b2 d2 => [0x89, r1 ++ 0#4, b2 ++ dispHi d2, dispLo d2]
  | .sra r1 b2 d2 => [0x8a, r1 ++ 0#4, b2 ++ dispHi d2, dispLo d2]
  | .sla r1 b2 d2 => [0x8b, r1 ++ 0#4, b2 ++ dispHi d2, dispLo d2]
  | .srdl r1 b2 d2 => [0x8c, r1 ++ 0#4, b2 ++ dispHi d2, dispLo d2]
  | .sldl r1 b2 d2 => [0x8d, r1 ++ 0#4, b2 ++ dispHi d2, dispLo d2]
  | .srda r1 b2 d2 => [0x8e, r1 ++ 0#4, b2 ++ dispHi d2, dispLo d2]
  | .slda r1 b2 d2 => [0x8f, r1 ++ 0#4, b2 ++ dispHi d2, dispLo d2]
  | .stm r1 r3 b2 d2 => [0x90, r1 ++ r3, b2 ++ dispHi d2, dispLo d2]
  | .tm i2 b1 d1 => [0x91, i2, b1 ++ dispHi d1, dispLo d1]
  | .mvi i2 b1 d1 => [0x92, i2, b1 ++ dispHi d1, dispLo d1]
  | .ni i2 b1 d1 => [0x94, i2, b1 ++ dispHi d1, dispLo d1]
  | .cli i2 b1 d1 => [0x95, i2, b1 ++ dispHi d1, dispLo d1]
  | .oi i2 b1 d1 => [0x96, i2, b1 ++ dispHi d1, dispLo d1]
  | .xi i2 b1 d1 => [0x97, i2, b1 ++ dispHi d1, dispLo d1]
  | .lm r1 r3 b2 d2 => [0x98, r1 ++ r3, b2 ++ dispHi d2, dispLo d2]
  | .brc m1 i2 => [0xa7, m1 ++ 0x4#4, immHi i2, immLo i2]
  | .bras r1 i2 => [0xa7, r1 ++ 0x5#4, immHi i2, immLo i2]
  | .brct r1 i2 => [0xa7, r1 ++ 0x6#4, immHi i2, immLo i2]
  | .lhi r1 i2 => [0xa7, r1 ++ 0x8#4, immHi i2, immLo i2]
  | .ahi r1 i2 => [0xa7, r1 ++ 0xa#4, immHi i2, immLo i2]
  | .mhi r1 i2 => [0xa7, r1 ++ 0xc#4, immHi i2, immLo i2]
  | .chi r1 i2 => [0xa7, r1 ++ 0xe#4, immHi i2, immLo i2]
  | .stnsm i2 b1 d1 => [0xac, i2, b1 ++ dispHi d1, dispLo d1]
  | .stctl r1 r3 b2 d2 => [0xb6, r1 ++ r3, b2 ++ dispHi d2, dispLo d2]
  | .lctl r1 r3 b2 d2 => [0xb7, r1 ++ r3, b2 ++ dispHi d2, dispLo d2]
  | .spx b2 d2 => [0xb2, 0x10, b2 ++ dispHi d2, dispLo d2]
  | .stpx b2 d2 => [0xb2, 0x11, b2 ++ dispHi d2, dispLo d2]
  | .stap b2 d2 => [0xb2, 0x12, b2 ++ dispHi d2, dispLo d2]
  | .ipm r1 => [0xb2, 0x22, 0x00, r1 ++ 0#4]
  | .cs r1 r3 b2 d2 => [0xba, r1 ++ r3, b2 ++ dispHi d2, dispLo d2]
  | .cds r1 r3 b2 d2 => [0xbb, r1 ++ r3, b2 ++ dispHi d2, dispLo d2]
  | .clm r1 m3 b2 d2 => [0xbd, r1 ++ m3, b2 ++ dispHi d2, dispLo d2]
  | .stcm r1 m3 b2 d2 => [0xbe, r1 ++ m3, b2 ++ dispHi d2, dispLo d2]
  | .icm r1 m3 b2 d2 => [0xbf, r1 ++ m3, b2 ++ dispHi d2, dispLo d2]
  | .mvc len b1 d1 b2 d2 => [0xd2, lengthCode len, b1 ++ dispHi d1, dispLo d1, b2 ++ dispHi d2, dispLo d2]
  | .nc len b1 d1 b2 d2 => [0xd4, lengthCode len, b1 ++ dispHi d1, dispLo d1, b2 ++ dispHi d2, dispLo d2]
  | .clc len b1 d1 b2 d2 => [0xd5, lengthCode len, b1 ++ dispHi d1, dispLo d1, b2 ++ dispHi d2, dispLo d2]
  | .oc len b1 d1 b2 d2 => [0xd6, lengthCode len, b1 ++ dispHi d1, dispLo d1, b2 ++ dispHi d2, dispLo d2]
  | .xc len b1 d1 b2 d2 => [0xd7, lengthCode len, b1 ++ dispHi d1, dispLo d1, b2 ++ dispHi d2, dispLo d2]
  | .sckpf => [0x01, 0x07]
  | .stck b2 d2 => [0xb2, 0x05, b2 ++ dispHi d2, dispLo d2]
  | .sckc b2 d2 => [0xb2, 0x06, b2 ++ dispHi d2, dispLo d2]
  | .stckc b2 d2 => [0xb2, 0x07, b2 ++ dispHi d2, dispLo d2]
  | .spt b2 d2 => [0xb2, 0x08, b2 ++ dispHi d2, dispLo d2]
  | .stpt b2 d2 => [0xb2, 0x09, b2 ++ dispHi d2, dispLo d2]
  | .stcke b2 d2 => [0xb2, 0x78, b2 ++ dispHi d2, dispLo d2]
  | .lae r1 x2 b2 d2 => [0x51, r1 ++ x2, b2 ++ dispHi d2, dispLo d2]
  | .lam r1 r3 b2 d2 => [0x9a, r1 ++ r3, b2 ++ dispHi d2, dispLo d2]
  | .stam r1 r3 b2 d2 => [0x9b, r1 ++ r3, b2 ++ dispHi d2, dispLo d2]
  | .cpya r1 r2 => [0xb2, 0x4d, 0x00, r1 ++ r2]
  | .sar r1 r2 => [0xb2, 0x4e, 0x00, r1 ++ r2]
  | .ear r1 r2 => [0xb2, 0x4f, 0x00, r1 ++ r2]
  | .pr => [0x01, 0x01]
  | .trap2 => [0x01, 0xff]
  | .lra r1 x2 b2 d2 => [0xb1, r1 ++ x2, b2 ++ dispHi d2, dispLo d2]
  | .sck b2 d2 => [0xb2, 0x04, b2 ++ dispHi d2, dispLo d2]
  | .sie b2 d2 => [0xb2, 0x14, b2 ++ dispHi d2, dispLo d2]
  | .pc b2 d2 => [0xb2, 0x18, b2 ++ dispHi d2, dispLo d2]
  | .ivsk r1 r2 => [0xb2, 0x23, 0x00, r1 ++ r2]
  | .ssar r1 r2 => [0xb2, 0x25, 0x00, r1 ++ r2]
  | .epar r1 => [0xb2, 0x26, 0x00, r1 ++ 0#4]
  | .esar r1 => [0xb2, 0x27, 0x00, r1 ++ 0#4]
  | .pt r1 r2 => [0xb2, 0x28, 0x00, r1 ++ r2]
  | .bakr r1 r2 => [0xb2, 0x40, 0x00, r1 ++ r2]
  | .msta r1 r2 => [0xb2, 0x47, 0x00, r1 ++ r2]
  | .ereg r1 r2 => [0xb2, 0x49, 0x00, r1 ++ r2]
  | .esta r1 r2 => [0xb2, 0x4a, 0x00, r1 ++ r2]
  | .bsg r1 r2 => [0xb2, 0x58, 0x00, r1 ++ r2]
  | .trap4 b2 d2 => [0xb2, 0xff, b2 ++ dispHi d2, dispLo d2]
  | .mvcp r1 r3 b1 d1 b2 d2 => [0xda, r1 ++ r3, b1 ++ dispHi d1, dispLo d1, b2 ++ dispHi d2, dispLo d2]
  | .mvcs r1 r3 b1 d1 b2 d2 => [0xdb, r1 ++ r3, b1 ++ dispHi d1, dispLo d1, b2 ++ dispHi d2, dispLo d2]
  | .lasp b1 d1 b2 d2 => [0xe5, 0x00, b1 ++ dispHi d1, dispLo d1, b2 ++ dispHi d2, dispLo d2]
  | .ssm b2 d2 => [0x80, 0x00, b2 ++ dispHi d2, dispLo d2]
  | .lpsw b2 d2 => [0x82, 0x00, b2 ++ dispHi d2, dispLo d2]
  | .diag r1 r3 b2 d2 => [0x83, r1 ++ r3, b2 ++ dispHi d2, dispLo d2]
  | .trace r1 r3 b2 d2 => [0x99, r1 ++ r3, b2 ++ dispHi d2, dispLo d2]
  | .stosm i2 b1 d1 => [0xad, i2, b1 ++ dispHi d1, dispLo d1]
  | .sigp r1 r3 b2 d2 => [0xae, r1 ++ r3, b2 ++ dispHi d2, dispLo d2]
  | .ptlb => [0xb2, 0x0d, 0x00, 0x00]
  | .sac b2 d2 => [0xb2, 0x19, b2 ++ dispHi d2, dispLo d2]
  | .ipte r1 r2 => [0xb2, 0x21, 0x00, r1 ++ r2]
  | .iac r1 => [0xb2, 0x24, 0x00, r1 ++ 0#4]
  | .iske r1 r2 => [0xb2, 0x29, 0x00, r1 ++ r2]
  | .rrbe r1 r2 => [0xb2, 0x2a, 0x00, r1 ++ r2]
  | .sske r1 r2 => [0xb2, 0x2b, 0x00, r1 ++ r2]
  | .tb r2 => [0xb2, 0x2c, 0x00, 0#4 ++ r2]
  | .stura r1 r2 => [0xb2, 0x46, 0x00, r1 ++ r2]
  | .palb => [0xb2, 0x48, 0x00, 0x00]
  | .lura r1 r2 => [0xb2, 0x4b, 0x00, r1 ++ r2]
  | .tar r1 r2 => [0xb2, 0x4c, 0x00, r1 ++ r2]
  | .bsa r1 r2 => [0xb2, 0x5a, 0x00, r1 ++ r2]
  | .rp b2 d2 => [0xb2, 0x77, b2 ++ dispHi d2, dispLo d2]
  | .sacf b2 d2 => [0xb2, 0x79, b2 ++ dispHi d2, dispLo d2]
  | .tprot b1 d1 b2 d2 => [0xe5, 0x01, b1 ++ dispHi d1, dispLo d1, b2 ++ dispHi d2, dispLo d2]

/-- The `n` bytes of a number whose bits are numbered as `match` and `mask` of spec/opcode_table.json number them: one number, the byte at
the lowest address leftmost. -/
def numberBytes : Nat → Nat → List Byte
  | 0, _ => []
  | n + 1, w => BitVec.ofNat 8 (w >>> (8 * n)) :: numberBytes n w

/-- The `n` halfwords of a number that holds the first halfword in its low-order 16 bits. -/
def halfwordBytes : Nat → Nat → List Byte
  | 0, _ => []
  | n + 1, w => BitVec.ofNat 8 (w >>> 8) :: BitVec.ofNat 8 w :: halfwordBytes n (w >>> 16)

/-- The first byte of the list gives the list's own length (R170). -/
def lengthAgrees (bs : List Byte) : Bool :=
  match bs with
  | c0 :: _ => instrLength c0 == bs.length
  | [] => false

/-- Zero bytes up to the length the first byte gives. -/
def padded (bs : List Byte) : List Byte :=
  match bs with
  | c0 :: _ => bs ++ List.replicate (instrLength c0 - bs.length) 0
  | [] => []

/-- The bytes of an instruction given as a number of `nbits` bits. The table writes a row's `match` as one number with the opcode byte
leftmost, and so is the number read; where that cannot be (the two leftmost bits give another length than `nbits`), the number holds the
instruction halfword by halfword, the first halfword lowest. -/
def tableBytes (nbits w : Nat) : List Byte :=
  let whole := numberBytes (nbits / 8) w
  let halves := halfwordBytes (nbits / 16) w
  padded (if !lengthAgrees whole && lengthAgrees halves then halves else whole)

/-- The instruction the decoder reads from a row's number; none where it refuses. -/
def decodeTableWord (nbits w : Nat) : Option Instr := (decode (tableBytes nbits w)).toOption

end Sys2Proof
end

