-- ==== Sys2Proof/Config.lean ====
section
/-! DEFINITION. What an implementation or a virtual-machine directory entry fixes (spec/00_scope.md R13, spec/92_eei_decisions.md
D5, D35, D38), as plain data, and the free values: the constants without a body that stand for every value the spec leaves to the
environment (R15 `any(T)` and `either A or B`). -/

namespace Sys2Proof

/-- The parameters of one configuration that never change while it runs (R13). The remaining parameters of R13 are the shape of the
state itself: `HAL_SIZE` is the length of the host access list, `HP_RANGES` the ranges of the host-primary space, `NUM_CPUS` one more
than the number of other CPUs. -/
structure Config where
  /-- `SOP_INSTALLED`, suppression on protection (R116). -/
  sopInstalled : Bool
  /-- `SPO_INSTALLED`, storage-protection override (R107). -/
  spoInstalled : Bool
  /-- `SACF_INSTALLED` (R272). -/
  sacfInstalled : Bool
  /-- `EXT_TOD_INSTALLED`: STORE CLOCK EXTENDED and SET CLOCK PROGRAMMABLE FIELD (R201, R203). -/
  extTodInstalled : Bool
  /-- `FP_EXT_INSTALLED`: sixteen floating-point registers instead of four (R26). -/
  fpExtInstalled : Bool
  /-- `PER2` (R61); program-event recording itself is refused (D36), so nothing reads it. -/
  per2 : Bool
  /-- `MAX_SPACES` (R83): how many address spaces ADRSPACE CREATE may have made. -/
  maxSpaces : Nat
  /-- `MAX_TOTAL_SIZE` (R83), counted in 4K-byte blocks. -/
  maxTotalBlocks : Nat
  /-- `SHARE_AUTH` (R85): the virtual machine may make its spaces shareable. -/
  shareAuth : Bool
  /-- `ALET_WF` (R134) written as data: an ALET is correctly formed when, for some pair (mask, pattern), its bits under the mask are the
  pattern. Every predicate on 32-bit values can be written so. -/
  aletForms : List (Word × Word)
  /-- Host page protection holds for stores of the channel subsystem, as R470 (c) says, or not, as R112 has it, which applies it to references of CPUs
  only and leaves channel stores to the environment: a parameter of the model, log entry 43. -/
  channelPageProtection : Bool
  deriving DecidableEq, Repr

/-- What a free value is used for, so that two values drawn by one instruction are unrelated. -/
inductive FreeUse where
  /-- which of several exceptions of equal priority is reported (R422, R426) -/
  | whichException
  /-- suppression or termination of a protection exception (R411) -/
  | ending
  /-- bit 29 of the translation-exception identification (R412) -/
  | teidBit29
  /-- the unpredictable bits of the translation-exception identification (R117) -/
  | teidWord
  /-- bit 31 of the translation-exception identification where R117 allows 00 or 01 -/
  | teidSpace
  /-- an unpredictable exception access identification (R118) -/
  | accessId
  /-- an unpredictable condition code (R116, R288, R402) -/
  | conditionCode
  /-- general register `r` after termination, after loading without clearing, or lost in a machine check (R402, R490, R465) -/
  | generalRegister (r : Nat)
  /-- access register `r`, likewise (R402, R490, R465) -/
  | accessRegister (r : Nat)
  /-- control register `r` after termination, or lost in a machine check (R402, R465) -/
  | controlRegister (r : Nat)
  /-- floating-point register `r` after loading without clearing, or lost in a machine check (R490, R465) -/
  | floatRegister (r : Nat)
  /-- the clock comparator lost in a machine check (R465) -/
  | comparator
  /-- the CPU timer lost in a machine check (R465) -/
  | timer
  /-- whether byte `i` of a terminated store was stored (R402) -/
  | storeHappens (i : Nat)
  /-- what byte `i` of a terminated store holds (R402) -/
  | storeByte (i : Nat)
  /-- the instruction-length code of a fetch that met an access exception (R402) -/
  | fetchLength
  /-- which copy of instruction byte `i` a fetch sees before serialization (R166) -/
  | prefetch (i : Nat)
  /-- the choice between two outcomes the spec calls `either` -/
  | either
  /-- a reference bit the spec leaves open (R283, R285) -/
  | referenceBit
  /-- a change bit the spec leaves open (R283, R380) -/
  | changeBit
  /-- the time that passes before the TOD clock is sampled (R208) -/
  | clock
  /-- the clock bits right of bit 63 (R201) -/
  | clockFraction
  /-- the prefix register after termination of SET PREFIX (R402) -/
  | prefixRegister
  /-- which of the outcomes of a host service happens (R245, D25) -/
  | service
  /-- the address, the type and the access register of a protection exception of a host service (R117, R118, R245) -/
  | serviceAddress
  /-- whether DIAGNOSE serializes, which is model-dependent (R163) -/
  | serialization
  deriving DecidableEq, Repr

/-- The environment's draws (R15): the value drawn for one use by the `n`-th drawing instruction. It has no body, so nothing can be
proved of it but what holds for every value. -/
opaque Config.free (n : Nat) (use : FreeUse) : DWord

end Sys2Proof
end

