-- ==== Sys2Proof/Machine/Bits.lean ====
section
/-! DEFINITION. Bits, fields and bytes in the spec's numbering: bit 0 is the leftmost (spec/00_scope.md R14), the byte at the lowest
address is the leftmost (spec/20_memory.md R90). -/

namespace Sys2Proof.Machine

/-- `v{i}`: bit `i` counted from the left (R14). -/
def bitAt {w : Nat} (v : BitVec w) (i : Nat) : Bool := v.getMsbD i

/-- `v{a..a+n-1}`: the `n`-bit field whose leftmost bit is bit `a` (R14). -/
def field {w : Nat} (v : BitVec w) (a n : Nat) : BitVec n := v.extractLsb' (w - a - n) n

/-- A halfword from its two bytes (R90). -/
def be16 : List Byte → Half
  | [a, b] => a ++ b
  | _ => 0

/-- A word from its four bytes (R90). -/
def be32 : List Byte → Word
  | [a, b, c, d] => a ++ b ++ c ++ d
  | _ => 0

/-- A doubleword from its eight bytes (R90). -/
def be64 : List Byte → DWord
  | [a, b, c, d, e, f, g, h] => a ++ b ++ c ++ d ++ e ++ f ++ g ++ h
  | _ => 0

/-- The two bytes of a halfword (R90). -/
def bytes16 (v : Half) : List Byte := [field v 0 8, field v 8 8]

/-- The four bytes of a word (R90). -/
def bytes32 (v : Word) : List Byte := [field v 0 8, field v 8 8, field v 16 8, field v 24 8]

/-- The eight bytes of a doubleword (R90). -/
def bytes64 (v : DWord) : List Byte :=
  [field v 0 8, field v 8 8, field v 16 8, field v 24 8, field v 32 8, field v 40 8, field v 48 8, field v 56 8]

/-- Consecutive words from a byte string, as the multiple-register instructions read them. -/
def wordsOf : List Byte → List Word
  | a :: b :: c :: d :: rest => be32 [a, b, c, d] :: wordsOf rest
  | _ => []

/-- `sext_32` of a halfword (R15). -/
def sext32 (v : Half) : Word := v.signExtend 32

/-- The last bit of a draw, as a choice between two outcomes. -/
def coin (v : DWord) : Bool := v.getLsbD 0

/-- `trunc_mode` (R176): bits 1-31 in the 31-bit mode, bits 8-31 in the 24-bit mode. -/
def truncMode (amode : Bool) (v : Word) : Addr :=
  if amode then v.setWidth 31 else (v.setWidth 24).setWidth 31

/-- An address kept within the addressing mode: modulo 2^31 or modulo 2^24 (R103). -/
def wrapMode (amode : Bool) (a : Addr) : Addr :=
  if amode then a else (a.setWidth 24).setWidth 31

/-- Bits 1-19 of an address: its 4K-byte block (R81). -/
def blockOf (a : Addr) : Block := a.extractLsb' 12 19

/-- The same list with later repeats of an element left out. -/
def distinct {α : Type} [DecidableEq α] : List α → List α
  | [] => []
  | x :: rest => x :: (distinct rest).filter (fun y => decide (y ≠ x))

end Sys2Proof.Machine
end

