-- ==== Sys2Proof/Machine/State.lean ====
section
/-! DEFINITION. The state of one ESA/XC configuration (spec/10_state.md R20 to R77, spec/20_memory.md R80 to R89, R131, R132), as plain
data, and the reasons a step can stop. A register bank is a vector of its registers; storage, keys and block flags are lists of
(number, value) pairs in the canonical form of `Machine/Memory.lean`. -/

namespace Sys2Proof.Machine

/-- The program-status word, every one of its 64 bits in one field (R30). -/
structure Psw where
  /-- bits 0-7, the system mask: bit 1 R, bit 6 I, bit 7 E; bits 0 and 2-5 must be zero -/
  sysMask : BitVec 8
  /-- bits 8-11, the PSW key -/
  key : BitVec 4
  /-- bit 12, must be one -/
  one : Bool
  /-- bit 13, M, the machine-check mask -/
  machineCheck : Bool
  /-- bit 14, W, the wait state -/
  wait : Bool
  /-- bit 15, P, the problem state -/
  problem : Bool
  /-- bit 16, unassigned in ESA/XC, must be zero -/
  bit16 : Bool
  /-- bit 17, AS: the access-register mode when one (R31) -/
  arMode : Bool
  /-- bits 18-19, the condition code (R34) -/
  cc : BitVec 2
  /-- bits 20-23, the program mask -/
  progMask : BitVec 4
  /-- bits 24-31, must be zero -/
  zeros : BitVec 8
  /-- bit 32, A: 31-bit addressing when one -/
  amode : Bool
  /-- bits 33-63, the instruction address (R33) -/
  ia : Addr
  deriving DecidableEq, Repr

/-- The states of a CPU (R20, R489). -/
inductive CpuStatus where
  | operating
  | stopped
  | load
  | checkStop
  deriving DecidableEq, Repr

/-- A stop that a CPU has accepted and performs at the next instruction boundary (R277 orders 05 and 09, R489). -/
inductive StopRequest where
  | none
  | stop
  | stopAndStoreStatus
  deriving DecidableEq, Repr

/-- Read-only or read/write access to an address space (R132). -/
inductive Access where
  | readOnly
  | readWrite
  deriving DecidableEq, Repr

/-- The state of a host access-list entry (R132). -/
inductive EntryState where
  | valid
  | revoked
  | unused
  deriving DecidableEq, Repr

/-- A host access-list entry (R132). -/
structure HalEntry where
  state : EntryState
  /-- the selection ALET -/
  alet : Word
  /-- the ASIT of the designated space -/
  asit : DWord
  access : Access
  /-- the fault-handling field: asynchronous when true; no rule reads it -/
  asynchronous : Bool
  deriving DecidableEq, Repr

/-- How an address space came to this configuration (R82, R83, R156). -/
inductive SpaceOrigin where
  | hostPrimary
  /-- made by ADRSPACE CREATE -/
  | created
  /-- owned by another virtual machine, whose owner permits this access, or none after ADRSPACE ISOLATE -/
  | foreign (granted : Option Access)
  deriving DecidableEq, Repr

/-- An absolute-storage address space (R65, R81, R87, R105, R112). -/
structure Space where
  asit : DWord
  origin : SpaceOrigin
  /-- the assigned 4K-byte blocks, as ranges (first block, number of blocks) -/
  ranges : List (Nat × Nat)
  /-- the bytes, by absolute address -/
  mem : List Host.Cell
  /-- the storage keys, by block: access-control bits, F, R, C -/
  keys : List (Nat × BitVec 7)
  /-- the host-page-protection flags, by block: 1 is read-only -/
  readOnlyBlocks : List (Nat × BitVec 1)
  /-- the blocks TEST BLOCK finds unusable, by block (R283) -/
  unusableBlocks : List (Nat × BitVec 1)
  /-- shareable rather than private (R84) -/
  shareable : Bool
  /-- the other virtual machines permitted to this space, with their authority (R65) -/
  permits : List (Nat × Access)
  deriving DecidableEq, Repr

/-- Which address space a reference goes to: the host-primary space or the space with an ASIT (R86). -/
inductive SpaceId where
  | hostPrimary
  | data (asit : DWord)
  deriving DecidableEq, Repr

/-- An input/output interruption that is pending (R443). -/
structure IoInterruption where
  /-- the interruption subclass, 0 to 7 -/
  subclass : BitVec 3
  /-- the subsystem-identification word -/
  subsystem : Word
  /-- the interruption parameter -/
  parameter : Word
  deriving DecidableEq, Repr

/-- The bits of control register 0 that may mask the interruptions of host services. R442 leaves the bits to CP Programming Services: the choice among
the subclass masks of R42 is the environment's (DESIGN CHOICE, log entry 28), positions 23, 30 and 31 among them, which R42 leaves unassigned. Bits with
another function or with none (R42: 0 to 15, 19, 24, 26, 28, 29) and bits that R41 and D22 make ineffective (1, 2, 5, 27) are not
among them. -/
inductive HostMask where
  | bit16
  | bit17
  | bit18
  | bit20
  | bit21
  | bit22
  | bit23
  | bit25
  | bit30
  | bit31
  deriving DecidableEq, Repr

/-- An external interruption of a host service that is pending (R442, last row): its code, the bit of control register 0 that masks it, and its
parameter, all of them the host's choice. -/
structure HostSignal where
  code : Half
  /-- the subclass-mask bit of control register 0 -/
  maskBit : HostMask
  parameter : Word
  deriving DecidableEq, Repr

/-- The subclasses of repressible machine checks, with their mask bits 3 to 7 of control register 14 (R49; R481 calls bit 6 the warning mask, log
entry 42). -/
inductive McSubclass where
  | channelReport
  | recovery
  | degradation
  | externalDamage
  | warning
  deriving DecidableEq, Repr

/-- The register entities a machine-check interruption saves and validates, as R465 lists them. R465 gives floating-point registers 1, 3, 5 and 7-15 an
entry of their own, and the layout of the validity bits is in no source (N30): that each of the two groups is lost or kept on its own is the model's
reading, DESIGN CHOICE, log entry 27. -/
inductive SavedEntity where
  | generalRegisters
  | accessRegisters
  | controlRegisters
  /-- floating-point registers 0, 2, 4 and 6 -/
  | floatRegisters
  /-- floating-point registers 1, 3, 5 and 7-15, where the extensions are installed -/
  | extendedFloatRegisters
  | clockComparator
  | cpuTimer
  deriving DecidableEq, Repr

/-- A machine-check condition that is pending (R444, R465, R466). -/
structure MachineCheck where
  /-- exigent, or repressible under a subclass mask -/
  exigent : Bool
  subclass : McSubclass
  /-- the machine-check interruption code, as it is stored but for a bit 24 that no failing-storage address backs (R466) -/
  code : DWord
  /-- the external-damage code, where one is stored -/
  damage : Option Word
  /-- the ASIT and absolute address of a storage failure -/
  failing : Option (DWord × Addr)
  /-- the entities whose validity bit is zero -/
  lost : List SavedEntity
  deriving DecidableEq, Repr

/-- One CPU (R20, R67). -/
structure Cpu where
  /-- the CPU address by which SIGNAL PROCESSOR names this CPU (R382) -/
  address : Half
  /-- general registers (R21) -/
  gr : Vector Word 16
  /-- access registers (R24) -/
  ar : Vector Word 16
  /-- control registers (R40) -/
  cr : Vector Word 16
  /-- floating-point registers (R26) -/
  fpr : Vector DWord 16
  psw : Psw
  /-- bits 1-19 of the prefix register; its other bits are always zero (R27) -/
  prefixReg : Block
  clockComparator : DWord
  cpuTimer : DWord
  /-- bits 16-31 of the TOD programmable register, the programmable field; its other bits are always zero (R56) -/
  todProg : Half
  status : CpuStatus
  /-- a stop accepted but not yet performed -/
  stopRequest : StopRequest
  /-- a pending external call, with the address of the signalling CPU (R442) -/
  externalCall : Option Half
  /-- pending emergency signals, by signalling CPU -/
  emergencySignals : List Half
  /-- pending malfunction alerts, by failing CPU -/
  malfunctionAlerts : List Half
  interruptKey : Bool
  /-- pending external interruptions of host services (R442) -/
  hostSignals : List HostSignal
  restartPending : Bool
  machineChecks : List MachineCheck
  /-- the environment reports this CPU busy to SIGNAL PROCESSOR (R277) -/
  busy : Bool
  /-- the environment's SIGNAL PROCESSOR status bits: equipment check, operator intervening, not ready, receiver check (R277) -/
  operatorStatus : Word
  /-- the MODEL's own: the instruction in execution is the target of EXECUTE at this address (R370) -/
  exTarget : Option Addr
  /-- the MODEL's own: bytes of the host-primary space as they were before stores since the last serialization that instruction fetches need not
  see, latest first: those made through a nonzero ALET or by other agents, with no later store of this CPU through its own mapping (R166, R507) -/
  staleBytes : List Host.Cell
  deriving DecidableEq, Repr

/-- A move of the environment (R7): the host, the channel subsystem, other virtual machines, the operator, and time. `cpu` lets the CPU
process one unit, so that a list of inputs is a schedule. -/
inductive Input where
  /-- the CPU takes one interruption or executes one instruction -/
  | cpu
  /-- from here on the CPU with this address is the one that executes (R7) -/
  | dispatch (address : Half)
  /-- time passes, counted in units of TOD-clock bit 63 (R209) -/
  | timePasses (d : DWord)
  /-- ADRSPACE CREATE: a new space of `blocks` blocks with these contents and keys (R150) -/
  | adrspaceCreate (asit : DWord) (blocks : Nat) (contents : List Host.Cell) (keys : List (Nat × BitVec 7))
  /-- ADRSPACE DESTROY (R151) -/
  | adrspaceDestroy (asit : DWord)
  /-- ADRSPACE PERMIT to another virtual machine (R152) -/
  | adrspacePermit (asit : DWord) (machine : Nat) (access : Access)
  /-- ADRSPACE ISOLATE (R153) -/
  | adrspaceIsolate (asit : DWord)
  /-- ALSERV ADD, with the ALET the host assigns (R154) -/
  | alservAdd (asit : DWord) (access : Access) (alet : Word) (asynchronous : Bool)
  /-- ALSERV REMOVE (R155) -/
  | alservRemove (alet : Word)
  /-- another virtual machine permits a space of its own to this one (R152, R156) -/
  | foreignPermit (asit : DWord) (blocks : Nat) (contents : List Host.Cell) (keys : List (Nat × BitVec 7)) (access : Access)
  /-- the owner isolates a space this configuration may hold entries for (R153, R156) -/
  | foreignIsolate (asit : DWord)
  /-- the owner destroys such a space (R151, R156) -/
  | foreignDestroy (asit : DWord)
  /-- another virtual machine stores a byte (R156, D27) -/
  | foreignStore (asit : DWord) (addr : Addr) (value : Byte)
  /-- another virtual machine sets a storage key (R156) -/
  | foreignKey (asit : DWord) (block : Block) (key : BitVec 7)
  /-- the host makes a block read-only or read/write (R157) -/
  | setPageProtection (asit : DWord) (block : Block) (readOnly : Bool)
  /-- a block becomes unusable or usable (R283) -/
  | setUnusable (asit : DWord) (block : Block) (unusable : Bool)
  /-- the reference bit of a block takes any value, and its change bit may be set, by prefetched or suppressed accesses (R109, U28) -/
  | recordKey (asit : DWord) (block : Block) (reference change : Bool)
  /-- the channel subsystem stores a byte at a host-primary absolute address, with the subchannel key (R169, R470) -/
  | channelStore (key : BitVec 4) (addr : Addr) (value : Byte)
  /-- an I/O interruption becomes pending (R443) -/
  | ioInterruption (i : IoInterruption)
  /-- a service signal becomes pending, with its parameter (R442) -/
  | serviceSignal (parameter : Word)
  /-- an external interruption of a host service becomes pending at a CPU (R442) -/
  | hostSignal (address : Half) (h : HostSignal)
  /-- a channel report becomes pending (R67) -/
  | channelReport (m : MachineCheck)
  /-- a machine check becomes pending at a CPU (R444) -/
  | machineCheck (address : Half) (m : MachineCheck)
  /-- the operator's interrupt key (R442) -/
  | interruptKey (address : Half)
  /-- a malfunction alert from a failing CPU (R442) -/
  | malfunctionAlert (address source : Half)
  /-- a CPU becomes busy, or free again, for SIGNAL PROCESSOR (R277) -/
  | setBusy (address : Half) (busy : Bool)
  /-- the environment's SIGNAL PROCESSOR status bits of a CPU (R277) -/
  | setOperatorStatus (address : Half) (status : Word)
  /-- the operator starts a CPU (R489) -/
  | operatorStart (address : Half)
  /-- the operator stops a CPU (R489) -/
  | operatorStop (address : Half)
  /-- the operator's restart key (R440) -/
  | operatorRestart (address : Half)
  /-- the store-status function on a stopped CPU (R488) -/
  | storeStatus (address : Half)
  /-- system-reset-normal (R486) -/
  | systemResetNormal
  /-- system-reset-clear (R486) -/
  | systemResetClear
  /-- initial program loading begins at the executing CPU: load-clear, or load-normal with what storage and the storage keys then hold, which
  may be anything (R486, R487, R490) -/
  | loadStart (clear : Bool) (contents : List Host.Cell) (keys : List (Nat × BitVec 7))
  /-- the channel program of initial program loading ends: the bytes it leaves in storage, by absolute address, and the
  subsystem-identification word (R487) -/
  | loadComplete (image : List Host.Cell) (subsystem : Word)
  /-- a host service answers in a general register (R154) -/
  | serviceRegister (r : Reg) (value : Word)
  /-- a host service answers in an access register -/
  | serviceAccessRegister (r : Reg) (value : Word)
  /-- a host service answers in a control register -/
  | serviceControlRegister (r : Reg) (value : Word)
  /-- a host service answers in a floating-point register -/
  | serviceFloat (r : Reg) (value : DWord)
  /-- a host service answers in the condition code -/
  | serviceCondition (cc : BitVec 2)
  /-- a host service sets the prefix, to a block that is assigned (R82) -/
  | servicePrefix (block : Block)
  /-- a host service sets the clock comparator -/
  | serviceComparator (value : DWord)
  /-- a host service sets the CPU timer -/
  | serviceTimer (value : DWord)
  /-- a host service sets the programmable field of the TOD programmable register, where the CPU has one (R56) -/
  | serviceTodProg (value : Half)
  /-- a host service answers in storage, by address space and absolute address -/
  | serviceStore (asit : DWord) (addr : Addr) (value : Byte)
  /-- a host service sets a storage key, its access-control and fetch-protection bits included -/
  | serviceKey (asit : DWord) (block : Block) (key : BitVec 7)
  /-- a host service leaves a CPU of the configuration as given: every register, the PSW, the state of the CPU and what is pending at it -/
  | serviceCpu (cpu : Cpu)
  /-- a host service leaves these floating interruption conditions pending, and no others -/
  | serviceFloating (io : List IoInterruption) (signal : Option Word) (reports : List MachineCheck)
  deriving DecidableEq, Repr

/-- How a DIAGNOSE ends whose host service has made its moves (R245, D25). -/
inductive ServiceEnding where
  /-- with the next instruction -/
  | completes
  /-- with a program interruption, the instruction address left at the DIAGNOSE where it is nullified; an ALET of the service's parameter list
  that has no translation is stored, with zeros for the register number (R409, R410). Only the codes that `ServiceEnding.possible` admits occur (R404,
  R416, R419) -/
  | exception (code : Half) (nullified : Bool) (alet : Option Word)
  /-- with another PSW in place -/
  | loadsPsw (psw : DWord)
  deriving DecidableEq, Repr

/-- One outcome of a host service: the moves it makes, in order, and how the instruction ends. -/
structure ServiceOutcome where
  moves : List Input
  ending : ServiceEnding
  deriving DecidableEq, Repr

/-- A question about the state before a DIAGNOSE (D25): what some bits of a register, of the PSW or of storage hold, or what a part of the
configuration is as a whole. The questions reach every part of the state the spec gives the machine. -/
inductive StateTest where
  /-- what the bits of a general register under a mask hold -/
  | general (r : Reg) (mask value : Word)
  | access (r : Reg) (mask value : Word)
  | control (r : Reg) (mask value : Word)
  | float (r : Reg) (mask value : DWord)
  /-- the PSW, whose instruction address is that of the DIAGNOSE -/
  | psw (mask value : DWord)
  | prefixed (block : Block)
  | clockComparator (mask value : DWord)
  | cpuTimer (mask value : DWord)
  /-- the programmable field of the TOD programmable register -/
  | todProg (mask value : Half)
  | clock (mask value : DWord)
  /-- a byte of storage, by address space and absolute address -/
  | byte (asit : DWord) (addr : Addr) (mask value : Byte)
  | key (asit : DWord) (block : Block) (mask value : BitVec 7)
  | assigned (asit : DWord) (block : Block) (on : Bool)
  | readOnly (asit : DWord) (block : Block) (on : Bool)
  | usable (asit : DWord) (block : Block) (on : Bool)
  /-- the entry of the host access list in which an ALET is found, where it is found (R135) -/
  | entry (alet : Word) (e : Option HalEntry)
  /-- the whole host access list -/
  | accessList (l : List HalEntry)
  /-- the host-primary space as a whole -/
  | hostPrimary (p : Space)
  /-- the data spaces as a whole -/
  | spaces (l : List Space)
  | issued (l : List DWord)
  /-- the CPU with an address as a whole, or that there is none -/
  | cpu (address : Half) (c : Option Cpu)
  /-- the floating interruption conditions -/
  | floating (io : List IoInterruption) (signal : Option Word) (reports : List MachineCheck)
  | config (c : Config)
  deriving DecidableEq, Repr

/-- One case of the `HostService` parameter (R245: of the code, Rx and Ry; D25: of the state): which executions of DIAGNOSE it is about, and the
set of outcomes. -/
structure HostService where
  code : Half
  /-- the number of register Rx, any where none is given -/
  rx : Option Reg
  /-- the number of register Ry, any where none is given -/
  ry : Option Reg
  /-- what the state must be -/
  tests : List StateTest
  outcomes : List ServiceOutcome
  deriving DecidableEq, Repr

/-- The whole configuration (R65), with the CPU that executes held apart from the others. -/
structure State where
  cfg : Config
  /-- the CPU that executes -/
  cpu : Cpu
  /-- the other CPUs of the configuration -/
  others : List Cpu
  /-- the host-primary address space (R82) -/
  hp : Space
  /-- the data spaces: created here, or of other virtual machines (R83, R156) -/
  spaces : List Space
  /-- the host access list, `HAL_SIZE` entries (R131) -/
  hal : List HalEntry
  /-- every ASIT issued so far, none of which is issued again (R87) -/
  issued : List DWord
  /-- floating I/O interruptions (R67) -/
  pendingIo : List IoInterruption
  /-- a floating service signal, with its parameter (R67) -/
  serviceSignal : Option Word
  /-- floating channel reports (R67) -/
  channelReports : List MachineCheck
  /-- bits 0-63 of the host's TOD clock as last sampled or advanced (R55) -/
  tod : DWord
  /-- the MODEL's own: the environment's moves to come, in order -/
  inputs : List Input
  /-- the `HostService` parameter (R245, D25): the first case that is about an execution of DIAGNOSE says what it does -/
  services : List HostService
  /-- the MODEL's own: how many instructions or interruptions have drawn free values so far -/
  draws : Nat
  deriving DecidableEq, Repr

/-- Why the machine stops for good. -/
inductive Fault where
  /-- A disabled wait PSW is loaded, which ends a run (R445, R495, D24). Raised by the CPU cycle. Safe: the hardware goes on only after a
  restart or a reset, which are inputs. -/
  | disabledWait
  /-- The program new PSW is itself invalid, so program interruptions follow one another for ever (R403, R495). Raised by the CPU cycle.
  Safe: the hardware never leaves the loop. -/
  | programInterruptionLoop
  deriving DecidableEq, Repr

/-- Where the model has no rule (R512). Every one is safe: nothing is claimed of what the hardware then does. -/
inductive Refusal where
  /-- An instruction with no meaning yet; raised by `exec` alone. -/
  | notModelled (mnemonic : String)
  /-- Bytes that no row of the opcode table describes (R181 c, D2). Raised by the CPU cycle and by EXECUTE. -/
  | noRowForOpcode (first second : Byte)
  /-- An instruction is to be executed while PSW.R is one (R61, D36). Raised by the CPU cycle. -/
  | programEventRecording
  /-- An instruction is to be executed while CR12 bit 0 is one (R60, D36). Raised by the CPU cycle. -/
  | branchTracing
  /-- TRACE would form a trace entry, whose format is in no source (R290, D36). -/
  | traceEntryFormat
  /-- RESUME PROGRAM, whose parameter list is in no source (R260, D30). -/
  | resumeProgramFormat
  /-- BRANCH AND SET AUTHORITY past its ASF check, whose control table is in no source (R262, D30). -/
  | branchAndSetAuthority
  /-- DIAGNOSE with a code the `HostService` parameter does not define (R245, D25). -/
  | hostService (code : Half)
  /-- An interruption whose old PSW could not be stored, the prefix area not being assigned (R430, R512). Raised by taking an interruption; from a state
  whose prefix area is assigned, only after a SET PREFIX that is terminated (log entry 20). -/
  | prefixAreaNotAssigned
  deriving DecidableEq, Repr

/-- The PSW of 64 zero bits that initial CPU reset leaves (R71). -/
def Psw.zero : Psw :=
  { sysMask := 0, key := 0, one := false, machineCheck := false, wait := false, problem := false, bit16 := false, arMode := false,
    cc := 0, progMask := 0, zeros := 0, amode := false, ia := 0 }

/-- The control registers after initial CPU reset (R72). -/
def Cpu.resetControls : Vector Word 16 :=
  ((Vector.replicate 16 (0 : Word)).set 0 0x000000E0).set 14 0xC2000000

/-- A CPU after power-on reset: stopped, everything cleared (R71 to R75, R484, R485). -/
def Cpu.reset (address : Half) : Cpu :=
  { address := address, gr := Vector.replicate 16 0, ar := Vector.replicate 16 0, cr := Cpu.resetControls,
    fpr := Vector.replicate 16 0, psw := Psw.zero, prefixReg := 0, clockComparator := 0, cpuTimer := 0, todProg := 0,
    status := .stopped, stopRequest := .none, externalCall := none, emergencySignals := [], malfunctionAlerts := [], interruptKey := false,
    hostSignals := [], restartPending := false, machineChecks := [], busy := false, operatorStatus := 0, exTarget := none, staleBytes := [] }

/-- A host access-list entry in the unused state (R77, R132). -/
def HalEntry.free : HalEntry :=
  { state := .unused, alet := 0, asit := 0, access := .readOnly, asynchronous := false }

/-- The parameters of the configuration that `State.reset` describes: DESIGN CHOICE, log entries 1, 2 and 43. -/
def configReset : Config :=
  { sopInstalled := true, spoInstalled := true, sacfInstalled := true, extTodInstalled := true, fpExtInstalled := true, per2 := true,
    maxSpaces := 1022, maxTotalBlocks := 1022 * 524288, shareAuth := true, aletForms := [(0xFE000000, 0)],
    channelPageProtection := true }

/-- The host-primary space after power-on reset: private, storage and keys zero (R76, R77, R484); its ASIT and its size are DESIGN
CHOICE, log entries 3 and 4. -/
def Space.reset : Space :=
  { asit := 1, origin := .hostPrimary, ranges := [(0, 524288)], mem := [], keys := [], readOnlyBlocks := [], unusableBlocks := [],
    shareable := false, permits := [] }

/-- The machine right after power-on reset (R70 to R77, R484, R485). -/
def State.reset : State :=
  { cfg := configReset, cpu := Cpu.reset 0, others := [], hp := Space.reset, spaces := [], hal := List.replicate 6 HalEntry.free,
    issued := [1], pendingIo := [], serviceSignal := none, channelReports := [], tod := 1, inputs := [], services := [], draws := 0 }

end Sys2Proof.Machine
end

