-- ==== Sys2Proof/Machine/Memory.lean ====
section
/-! DEFINITION. Storage, storage keys and block flags as lists in one canonical form, and one address space (spec/20_memory.md R80 to
R88, R105, R112). An unlisted byte reads as zero, what clear reset and power-on reset leave (spec/10_state.md R76); so do an unlisted
storage key and an unlisted flag. -/

namespace Sys2Proof.Machine

/-- The value at a key, `z` where none is listed. -/
def sparseGet {α : Type} (z : α) : List (Nat × α) → Nat → α
  | [], _ => z
  | c :: rest, k => if c.1 = k then c.2 else sparseGet z rest k

/-- The list without a key. -/
def sparseRemove {α : Type} (k : Nat) : List (Nat × α) → List (Nat × α)
  | [] => []
  | c :: rest => if c.1 = k then sparseRemove k rest else c :: sparseRemove k rest

/-- The list with a new key in its place. -/
def sparseInsert {α : Type} (k : Nat) (v : α) : List (Nat × α) → List (Nat × α)
  | [] => [(k, v)]
  | c :: rest => if k < c.1 then (k, v) :: c :: rest else c :: sparseInsert k v rest

/-- The list with the value at a key replaced; the value an unlisted key reads as is not listed. -/
def sparseSet {α : Type} [DecidableEq α] (z : α) (m : List (Nat × α)) (k : Nat) (v : α) : List (Nat × α) :=
  if v = z then sparseRemove k m else sparseInsert k v (sparseRemove k m)

/-- Every listed key is above this bound. -/
def sparseAbove {α : Type} (k : Nat) : List (Nat × α) → Bool
  | [] => true
  | c :: _ => decide (k < c.1)

/-- The canonical form: keys strictly rising, and no value equal to what an unlisted key reads as. -/
def sparseWf {α : Type} [DecidableEq α] (z : α) : List (Nat × α) → Bool
  | [] => true
  | c :: rest => sparseAbove c.1 rest && decide (c.2 ≠ z) && sparseWf z rest

/-- A list of cells in canonical form, whatever the cells given; a later cell overrides an earlier one. -/
def sparseOf {α : Type} [DecidableEq α] (z : α) (cells : List (Nat × α)) : List (Nat × α) :=
  cells.foldl (fun m c => sparseSet z m c.1 c.2) []

/-- The bytes of an address space, by absolute address. -/
abbrev Memory := List Host.Cell

/-- A byte of storage (R81); zero where none is listed. -/
def Memory.read (m : Memory) (a : Nat) : Byte := sparseGet 0 m a

/-- Storage with one byte replaced. -/
def Memory.write (m : Memory) (a : Nat) (v : Byte) : Memory := sparseSet 0 m a v

/-- Storage is in canonical form. -/
def Memory.wf (m : Memory) : Bool := sparseWf (0 : Byte) m

/-- The bytes of one 4K-byte block that are listed. -/
def Memory.blockCells (m : Memory) (b : Block) : Memory := m.filter (fun c => c.1 / 4096 == b.toNat)

/-- Storage with one 4K-byte block cleared to zero. -/
def Memory.clearBlock (m : Memory) (b : Block) : Memory := m.filter (fun c => c.1 / 4096 != b.toNat)

/-- The block is assigned (R81, R104). -/
def Space.assigned (p : Space) (b : Block) : Bool :=
  p.ranges.any (fun r => decide (r.1 ≤ b.toNat) && decide (b.toNat < r.1 + r.2))

/-- The byte at an absolute address (R81). -/
def Space.byte (p : Space) (a : Addr) : Byte := Memory.read p.mem a.toNat

/-- The space with one byte replaced. -/
def Space.setByte (p : Space) (a : Addr) (v : Byte) : Space := { p with mem := Memory.write p.mem a.toNat v }

/-- `KeyOf` (R105): access-control bits, F, R, C. -/
def Space.key (p : Space) (b : Block) : BitVec 7 := sparseGet 0 p.keys b.toNat

/-- The space with one storage key replaced. -/
def Space.setKey (p : Space) (b : Block) (k : BitVec 7) : Space := { p with keys := sparseSet 0 p.keys b.toNat k }

/-- The block is read-only under host page protection (R112). -/
def Space.readOnly (p : Space) (b : Block) : Bool := sparseGet 0 p.readOnlyBlocks b.toNat == 1

/-- The space with the host page protection of one block established (R157). -/
def Space.setReadOnly (p : Space) (b : Block) (on : Bool) : Space :=
  { p with readOnlyBlocks := sparseSet 0 p.readOnlyBlocks b.toNat (BitVec.ofBool on) }

/-- `BlockUsable` (R283). -/
def Space.usable (p : Space) (b : Block) : Bool := sparseGet 0 p.unusableBlocks b.toNat == 0

/-- The space with one block made unusable or usable. -/
def Space.setUnusable (p : Space) (b : Block) (on : Bool) : Space :=
  { p with unusableBlocks := sparseSet 0 p.unusableBlocks b.toNat (BitVec.ofBool on) }

/-- The access-control bits of a storage key (R105). -/
def keyAcc (k : BitVec 7) : BitVec 4 := field k 0 4
/-- The fetch-protection bit. -/
def keyFetch (k : BitVec 7) : Bool := bitAt k 4
/-- The reference bit. -/
def keyReference (k : BitVec 7) : Bool := bitAt k 5
/-- The change bit. -/
def keyChange (k : BitVec 7) : Bool := bitAt k 6
/-- A storage key with its reference and change bits replaced. -/
def keyWith (k : BitVec 7) (reference change : Bool) : BitVec 7 :=
  field k 0 5 ++ BitVec.ofBool reference ++ BitVec.ofBool change

/-- Every list of the space is in canonical form. -/
def Space.wf (p : Space) : Bool :=
  Memory.wf p.mem && sparseWf 0 p.keys && sparseWf 0 p.readOnlyBlocks && sparseWf 0 p.unusableBlocks

/-- A space without a single location; what a token that designates no space reads as (R104). -/
def Space.absent : Space :=
  { asit := 0, origin := .created, ranges := [], mem := [], keys := [], readOnlyBlocks := [], unusableBlocks := [],
    shareable := false, permits := [] }

end Sys2Proof.Machine
end

