-- ==== Sys2Proof/Machine/Psw.lean ====
section
/-! DEFINITION. The PSW as a doubleword and its validity (spec/10_state.md R30, R32). -/

namespace Sys2Proof.Machine

/-- The 64 bits of a PSW (R30). -/
def Psw.toDWord (p : Psw) : DWord :=
  p.sysMask ++ p.key ++ BitVec.ofBool p.one ++ BitVec.ofBool p.machineCheck ++ BitVec.ofBool p.wait ++ BitVec.ofBool p.problem
    ++ BitVec.ofBool p.bit16 ++ BitVec.ofBool p.arMode ++ p.cc ++ p.progMask ++ p.zeros ++ BitVec.ofBool p.amode ++ p.ia

/-- The PSW that 64 bits are (R30). -/
def Psw.ofDWord (v : DWord) : Psw :=
  { sysMask := field v 0 8, key := field v 8 4, one := bitAt v 12, machineCheck := bitAt v 13, wait := bitAt v 14,
    problem := bitAt v 15, bit16 := bitAt v 16, arMode := bitAt v 17, cc := field v 18 2, progMask := field v 20 4,
    zeros := field v 24 8, amode := bitAt v 32, ia := field v 33 31 }

/-- `PSWValid` (R32): bits 0, 2-5, 16 and 24-31 zero, bit 12 one, and a 24-bit address in the 24-bit mode. -/
def Psw.valid (p : Psw) : Bool :=
  p.sysMask &&& 0xBC == 0 && p.one && !p.bit16 && p.zeros == 0 && (p.amode || p.ia.extractLsb' 24 7 == 0)

/-- PER is on (R30 bit 1). -/
def Psw.per (p : Psw) : Bool := bitAt p.sysMask 1
/-- Enabled for I/O interruptions (R30 bit 6). -/
def Psw.ioEnabled (p : Psw) : Bool := bitAt p.sysMask 6
/-- Enabled for external interruptions (R30 bit 7). -/
def Psw.externalEnabled (p : Psw) : Bool := bitAt p.sysMask 7
/-- The fixed-point-overflow mask (R30 bit 20). -/
def Psw.overflowMask (p : Psw) : Bool := bitAt p.progMask 0
/-- A disabled wait PSW (R445): W one, and I, E and M zero. -/
def Psw.disabledWait (p : Psw) : Bool := p.wait && !p.ioEnabled && !p.externalEnabled && !p.machineCheck

end Sys2Proof.Machine
end

