-- ==== Sys2Proof/Machine/Ops.lean ====
section
/-! DEFINITION. The named operations over registers and storage, and taking an exception: register access, prefixing, access-register
translation, the storage-access procedure, the endings of an instruction, the program interruption and its return (spec/20_memory.md
R99 to R138, spec/60_exceptions.md R400 to R426). -/

namespace Sys2Proof.Machine

/-- What a meaning answers. -/
abbrev Out := Host.Outcome State Fault Refusal

-- registers

/-- `GR[r]` (R21). -/
def State.gr (s : State) (r : Reg) : Word := s.cpu.gr[r.toNat]'r.isLt
/-- `AR[r]`, the actual contents (R24, R25). -/
def State.ar (s : State) (r : Reg) : Word := s.cpu.ar[r.toNat]'r.isLt
/-- `CR[r]` (R40). -/
def State.cr (s : State) (r : Reg) : Word := s.cpu.cr[r.toNat]'r.isLt
/-- `GR[r] <- v`. -/
def State.setGr (s : State) (r : Reg) (v : Word) : State :=
  { s with cpu := { s.cpu with gr := s.cpu.gr.set r.toNat v r.isLt } }
/-- `AR[r] <- v`. -/
def State.setAr (s : State) (r : Reg) (v : Word) : State :=
  { s with cpu := { s.cpu with ar := s.cpu.ar.set r.toNat v r.isLt } }
/-- `CR[r] <- v`. -/
def State.setCr (s : State) (r : Reg) (v : Word) : State :=
  { s with cpu := { s.cpu with cr := s.cpu.cr.set r.toNat v r.isLt } }
/-- The PSW replaced. -/
def State.setPsw (s : State) (p : Psw) : State := { s with cpu := { s.cpu with psw := p } }
/-- `cc <- n` (R34). -/
def State.setCc (s : State) (n : BitVec 2) : State := s.setPsw { s.cpu.psw with cc := n }
/-- `pc <- t` (R33). -/
def State.setIa (s : State) (t : Addr) : State := s.setPsw { s.cpu.psw with ia := t }
/-- The clock comparator replaced (R28). -/
def State.setComparator (s : State) (v : DWord) : State := { s with cpu := { s.cpu with clockComparator := v } }
/-- The CPU timer replaced (R29). -/
def State.setTimer (s : State) (v : DWord) : State := { s with cpu := { s.cpu with cpuTimer := v } }
/-- The prefix replaced (R27). -/
def State.setPrefix (s : State) (b : Block) : State := { s with cpu := { s.cpu with prefixReg := b } }
/-- The numbers of the floating-point registers a CPU has (R26). -/
def State.fprNumbers (s : State) : List Nat := if s.cfg.fpExtInstalled then List.range 16 else [0, 2, 4, 6]

/-- A floating-point register replaced, where the CPU has it (R26). -/
def State.setFpr (s : State) (r : Reg) (v : DWord) : State :=
  { s with cpu := { s.cpu with fpr := if s.fprNumbers.contains r.toNat then s.cpu.fpr.set r.toNat v r.isLt else s.cpu.fpr } }
/-- Serialization (R163): what the CPU fetches from here on is what storage holds. -/
def State.serialize (s : State) : State := { s with cpu := { s.cpu with staleBytes := [] } }

/-- A value of the environment (R15 `any`), for this use by the instruction or interruption in progress. -/
def State.draw (s : State) (use : FreeUse) : DWord := Config.free s.draws use

/-- The next number of the environment's draws. -/
def State.nextDraw (s : State) : State := { s with draws := s.draws + 1 }

/-- `RegRange(R1, R3)` (R296): register numbers R1, R1+1, ..., R3, wrapping from 15 to 0. -/
def regRange (r1 r3 : Reg) : List Reg := (List.range ((r3 - r1).toNat + 1)).map (fun i => r1 + BitVec.ofNat 4 i)

/-- Registers replaced one after the other. -/
def State.setGrs (s : State) : List (Reg × Word) → State
  | [] => s
  | (r, v) :: rest => (s.setGr r v).setGrs rest
/-- Access registers replaced one after the other. -/
def State.setArs (s : State) : List (Reg × Word) → State
  | [] => s
  | (r, v) :: rest => (s.setAr r v).setArs rest
/-- Control registers replaced one after the other. -/
def State.setCrs (s : State) : List (Reg × Word) → State
  | [] => s
  | (r, v) :: rest => (s.setCr r v).setCrs rest

-- the instruction in execution

/-- The instruction-length code of an instruction `len` bytes long: 2 for a target of EXECUTE (R170, R402). -/
def State.ilcOf (s : State) (len : Nat) : Nat := if s.cpu.exTarget.isSome then 2 else len / 2

/-- The address of the instruction in execution; of the target, when it is the target of EXECUTE (R178). -/
def State.instructionAddress (s : State) : Addr := s.cpu.exTarget.getD s.cpu.psw.ia

/-- The next sequential instruction address (R33, R402), after the EXECUTE for its target. -/
def State.nextIa (s : State) (len : Nat) : Addr :=
  wrapMode s.cpu.psw.amode (s.cpu.psw.ia + BitVec.ofNat 31 (2 * s.ilcOf len))

/-- The instruction address updated, as it is during execution (R33). -/
def State.advance (s : State) (len : Nat) : State := s.setIa (s.nextIa len)

-- address spaces

/-- An address space of the configuration; one without locations for a token that designates none (R86, R104). -/
def State.space (s : State) : SpaceId → Space
  | .hostPrimary => s.hp
  | .data asit => (s.spaces.find? (fun p => p.asit == asit)).getD Space.absent

/-- One address space changed. -/
def State.updateSpace (s : State) (id : SpaceId) (f : Space → Space) : State :=
  match id with
  | .hostPrimary => { s with hp := f s.hp }
  | .data asit => { s with spaces := s.spaces.map (fun p => if p.asit == asit then f p else p) }

/-- The space an ASIT designates (R135 step 6): the host-primary space is one of them (R95). -/
def State.spaceOf (s : State) (asit : DWord) : SpaceId := if asit = s.hp.asit then .hostPrimary else .data asit

/-- `Prefix(r)` (R102). -/
def State.prefixed (s : State) (r : Addr) : Addr :=
  if blockOf r = 0 then s.cpu.prefixReg ++ r.extractLsb' 0 12
  else if blockOf r = s.cpu.prefixReg then (0 : Block) ++ r.extractLsb' 0 12
  else r

-- host access-register translation

/-- `ALET_WF` (R134). -/
def State.aletWf (s : State) (alet : Word) : Bool := s.cfg.aletForms.any (fun f => alet &&& f.1 == f.2)

/-- The valid or revoked host access-list entry an ALET selects (R132). -/
def State.entryOf (s : State) (alet : Word) : Option HalEntry :=
  s.hal.find? (fun e => e.state != .unused && e.alet == alet)

/-- What access-register translation makes of an ALET (R135). -/
inductive Translation where
  | hostPrimary
  | illFormed
  | unassigned
  | revoked
  | designated (space : SpaceId) (readOnly : Bool)
  deriving DecidableEq, Repr

/-- `ART` (R135, steps 1 to 4 and 6). -/
def State.translate (s : State) (alet : Word) : Translation :=
  if alet = 0 then .hostPrimary
  else if !s.aletWf alet then .illFormed
  else match s.entryOf alet with
    | none => .unassigned
    | some e => if e.state = .revoked then .revoked else .designated (s.spaceOf e.asit) (e.access == .readOnly)

/-- How a reference came to its address space, as the exception access identification tells it (R117, R118). -/
inductive Via where
  /-- an instruction fetch -/
  | instruction
  /-- a storage operand through access register `r`, in the access-register mode -/
  | register (r : Reg)
  /-- a storage operand in the primary-space mode, or one that is always host-primary -/
  | hostPrimary
  deriving DecidableEq, Repr

/-- Where a reference goes (R99): the space, the real type, and what the host access-list entry permits. -/
structure Target where
  space : SpaceId
  typeR : Bool
  readOnly : Bool
  via : Via
  deriving DecidableEq, Repr

/-- A program exception with what its interruption needs to know (R404). -/
inductive ProgExc where
  | operation
  | privilegedOperation
  | execute
  /-- protection, with bits 1-19 of the effective address and what R117 and R118 tell of the space -/
  | protection (block : Block) (typeR : Bool) (via : Via)
  /-- addressing, terminating or suppressing (R413) -/
  | addressing (terminates : Bool)
  | specification
  | fixedPointOverflow
  | fixedPointDivide
  | translationSpecification
  | specialOperation
  | aletSpecification
  | alenTranslation (alet : Word) (register : Reg)
  | addressingCapability (alet : Word) (register : Reg)
  deriving DecidableEq, Repr

/-- The target of host-primary real references (R99 `HPR`, and `L` in the primary-space mode). -/
def hostPrimaryTarget : Target := { space := .hostPrimary, typeR := true, readOnly := false, via := .hostPrimary }

/-- The target of instruction fetches (R99 `I`). -/
def instructionTarget : Target := { space := .hostPrimary, typeR := true, readOnly := false, via := .instruction }

/-- The ALET that register number `b` supplies (R136): zero for register 0. -/
def State.aletFor (s : State) (b : Reg) : Word := if b = 0 then 0 else s.ar b

/-- `Resolve(L(b, ..))` and `Resolve(RM(b, ..))` (R99). -/
def State.resolve (s : State) (b : Reg) : Except ProgExc Target :=
  if !s.cpu.psw.arMode then .ok hostPrimaryTarget
  else match s.translate (s.aletFor b) with
    | .hostPrimary => .ok { hostPrimaryTarget with via := .register b }
    | .illFormed => .error .aletSpecification
    | .unassigned => .error (.alenTranslation (s.aletFor b) b)
    | .revoked => .error (.addressingCapability (s.aletFor b) b)
    | .designated space readOnly => .ok { space := space, typeR := false, readOnly := readOnly, via := .register b }

-- the storage-access procedure

/-- Which checks a kind of reference undergoes (R114), and how it ends at an addressing exception (R413). -/
structure Check where
  lowAddress : Bool
  key : Bool
  terminates : Bool
  deriving DecidableEq, Repr

/-- Storage operands (R114). -/
def operandCheck : Check := { lowAddress := true, key := true, terminates := true }
/-- The operands of LOAD PSW, LOAD USING REAL ADDRESS and STORE USING REAL ADDRESS, and instruction fetches (R413). -/
def controlCheck : Check := { lowAddress := true, key := true, terminates := false }
/-- The block references of the storage-key instructions, and the table entry of INVALIDATE PAGE TABLE ENTRY (R114, R413). -/
def blockCheck : Check := { lowAddress := false, key := false, terminates := false }
/-- The block TEST BLOCK clears (R114, R263). -/
def testBlockCheck : Check := { lowAddress := true, key := false, terminates := false }

/-- The absolute address of an effective address (R100 step 4). -/
def State.absolute (s : State) (t : Target) (e : Addr) : Addr := if t.typeR then s.prefixed e else e

/-- `match` (R106, R107): the access key suits the access-control bits. -/
def State.keyMatch (s : State) (key : BitVec 4) (k : BitVec 7) : Bool :=
  key == keyAcc k || key == 0 || (s.cfg.spoInstalled && bitAt (s.cr 0) 7 && keyAcc k == 9)

/-- `FetchOverride` (R108). -/
def State.fetchOverride (s : State) (typeR : Bool) (e : Addr) : Bool :=
  bitAt (s.cr 0) 6 && typeR && decide (e.toNat ≤ 2047)

/-- Key-controlled protection permits the access (R106). -/
def State.keyPermits (s : State) (key : BitVec 4) (k : BitVec 7) (typeR store : Bool) (e : Addr) : Bool :=
  s.keyMatch key k || (!store && (!keyFetch k || s.fetchOverride typeR e))

/-- Low-address protection forbids a store (R113). -/
def State.lowAddressProtected (s : State) (typeR : Bool) (e : Addr) : Bool :=
  typeR && bitAt (s.cr 0) 3 && decide (e.toNat ≤ 511)

/-- The exceptions one byte access can be reported for (R100, R425): low-address protection, and the first of the others. A fetch and
store access of one byte is checked as a store. -/
def State.byteFaults (s : State) (t : Target) (c : Check) (store : Bool) (e : Addr) : List ProgExc :=
  let b := blockOf (s.absolute t e)
  let prot := ProgExc.protection (blockOf e) t.typeR t.via
  (if store && c.lowAddress && s.lowAddressProtected t.typeR e then [prot] else []) ++
  (if store && t.readOnly then [prot]
   else if !(s.space t.space).assigned b then [.addressing c.terminates]
   else if store && (s.space t.space).readOnly b then [prot]
   else if c.key && !s.keyPermits s.cpu.psw.key ((s.space t.space).key b) t.typeR store e then [prot]
   else [])

/-- The effective addresses of the `n` bytes of an operand (R103). -/
def operandAddrs (amode : Bool) (ea : Addr) (n : Nat) : List Addr :=
  (List.range n).map (fun i => wrapMode amode (ea + BitVec.ofNat 31 i))

/-- The addresses of an operand in the current addressing mode. -/
def State.addrs (s : State) (ea : Addr) (n : Nat) : List Addr := operandAddrs s.cpu.psw.amode ea n

/-- The exceptions of an access to `n` bytes (R426). -/
def State.accessFaults (s : State) (t : Target) (c : Check) (store : Bool) (ea : Addr) (n : Nat) : List ProgExc :=
  (s.addrs ea n).flatMap (s.byteFaults t c store)

/-- The exceptions of an access to `n` bytes at a logical address, translation included (R100). -/
def State.operandFaults (s : State) (c : Check) (store : Bool) (b : Reg) (ea : Addr) (n : Nat) : List ProgExc :=
  match s.resolve b with
  | .error x => [x]
  | .ok t => s.accessFaults t c store ea n

/-- Where a logical address goes once its translation is known to succeed. -/
def State.target (s : State) (b : Reg) : Target :=
  match s.resolve b with
  | .ok t => t
  | .error _ => hostPrimaryTarget

/-- Reference and change recording (R109) for one block. -/
def State.record (s : State) (id : SpaceId) (b : Block) (change : Bool) : State :=
  s.updateSpace id (fun p => p.setKey b (keyWith (p.key b) true (keyChange (p.key b) || change)))

/-- The byte at an effective address. -/
def State.byteAt (s : State) (t : Target) (e : Addr) : Byte := (s.space t.space).byte (s.absolute t e)

/-- A fetch of one byte recorded (R100 step 7). -/
def State.noteFetch (s : State) (t : Target) (e : Addr) : State := s.record t.space (blockOf (s.absolute t e)) false

/-- Fetches of bytes recorded. -/
def State.noteFetches (s : State) (t : Target) : List Addr → State
  | [] => s
  | e :: rest => (s.noteFetch t e).noteFetches t rest

/-- What instruction fetches of this CPU may see of a location it is about to store into (R166, R507): a store through the mapping of instruction
fetches is seen by every later fetch; one through a nonzero ALET that designates the host-primary space need not be seen before a serialization. -/
def State.noteStale (s : State) (t : Target) (e : Addr) : State :=
  if t.space = .hostPrimary then
    { s with cpu := { s.cpu with staleBytes :=
      if t.typeR then s.cpu.staleBytes.filter (fun c => c.1 != (s.absolute t e).toNat) else (e.toNat, s.byteAt t e) :: s.cpu.staleBytes } }
  else s

/-- A byte of a space replaced. -/
def State.poke (s : State) (id : SpaceId) (a : Addr) (v : Byte) : State := s.updateSpace id (fun p => p.setByte a v)

/-- A store of one byte (R100 step 7). -/
def State.storeByte (s : State) (t : Target) (e : Addr) (v : Byte) : State :=
  ((s.noteStale t e).poke t.space (s.absolute t e) v).record t.space (blockOf (s.absolute t e)) true

/-- Stores of bytes, in order. -/
def State.storeBytes (s : State) (t : Target) : List (Addr × Byte) → State
  | [] => s
  | c :: rest => (s.storeByte t c.1 c.2).storeBytes t rest

/-- `MemRead` without its checks: the bytes of an operand, in order (R90). -/
def State.operandBytes (s : State) (t : Target) (ea : Addr) (n : Nat) : List Byte := (s.addrs ea n).map (s.byteAt t)

/-- `MemWrite` without its checks (R90). -/
def State.storeOperand (s : State) (t : Target) (ea : Addr) (bytes : List Byte) : State :=
  s.storeBytes t ((s.addrs ea bytes.length).zip bytes)

-- choosing among exceptions

/-- Which of several exceptions of equal priority is reported (R422, R426): the environment's choice among the distinct ones. -/
def State.choose (s : State) (x : ProgExc) (rest : List ProgExc) : ProgExc :=
  match distinct (x :: rest) with
  | [] => x
  | [y] => y
  | ys => ys.getD ((s.draw .whichException).toNat % ys.length) x

/-- Exceptions that are recognized or not, as the environment chooses. -/
def State.maybe (s : State) (faults : List ProgExc) : List ProgExc :=
  if faults.isEmpty then [] else if coin (s.draw .either) then faults else []

-- the endings of an instruction

/-- The four endings (R402). -/
inductive Ending where
  | complete
  | nullify
  | suppress
  | terminate
  deriving DecidableEq, Repr

/-- The program-interruption code (R404). -/
def ProgExc.code : ProgExc → Half
  | .operation => 0x0001
  | .privilegedOperation => 0x0002
  | .execute => 0x0003
  | .protection _ _ _ => 0x0004
  | .addressing _ => 0x0005
  | .specification => 0x0006
  | .fixedPointOverflow => 0x0008
  | .fixedPointDivide => 0x0009
  | .translationSpecification => 0x0012
  | .specialOperation => 0x0013
  | .aletSpecification => 0x0028
  | .alenTranslation _ _ => 0x0029
  | .addressingCapability _ _ => 0x0136

/-- Bit 29 of the translation-exception identification (R116, R412): never one where the facility is not installed. -/
def State.suppressionBit (s : State) : Bool := s.cfg.sopInstalled && coin (s.draw .teidBit29)

/-- How an instruction ends at an exception (R404, R411, R413). -/
def State.ending (s : State) : ProgExc → Ending
  | .alenTranslation _ _ => .nullify
  | .addressingCapability _ _ => .terminate
  | .addressing terminates => if terminates then .terminate else .suppress
  | .protection _ _ _ => if s.suppressionBit then .suppress else if coin (s.draw .ending) then .terminate else .suppress
  | .fixedPointOverflow => .complete
  | _ => .suppress

/-- The result fields of an instruction, which termination may leave at any value (R402, D14). -/
structure Results where
  grs : List Reg := []
  ars : List Reg := []
  crs : List Reg := []
  cc : Bool := false
  comparator : Bool := false
  timer : Bool := false
  prefixRegister : Bool := false
  /-- the operand stored into: where, under which checks, at which effective addresses -/
  store : Option (Target × Check × List Addr) := none
  deriving DecidableEq, Repr

/-- A store operand at a logical address as a result field, under the checks its instruction makes; none where its translation fails. -/
def State.storeResultAt (s : State) (b : Reg) (c : Check) (addrs : List Addr) : Option (Target × Check × List Addr) :=
  match s.resolve b with
  | .ok t => some (t, c, addrs)
  | .error _ => none

/-- The store operand of `n` bytes at a logical address as a result field. -/
def State.storeResult (s : State) (b : Reg) (ea : Addr) (n : Nat) : Option (Target × Check × List Addr) :=
  s.storeResultAt b operandCheck (s.addrs ea n)

/-- The bytes a terminated store may have made: any of those whose store no exception forbids, with any value (R402, R112). -/
def State.strayStores (s : State) (t : Target) (c : Check) (addrs : List Addr) : List (Addr × Byte) :=
  addrs.zipIdx.filterMap (fun p =>
    if (s.byteFaults t c true p.1).isEmpty && coin (s.draw (.storeHappens p.2)) then some (p.1, (s.draw (.storeByte p.2)).setWidth 8)
    else none)

/-- The prefix after termination of SET PREFIX: any block, assigned or not (R402, D14). Where it is not assigned the interruption that follows has no
prefix area to store into and is refused (R430, R512), log entry 20. -/
def State.strayPrefix (s : State) : Block := (s.draw .prefixRegister).setWidth 19

/-- The result fields after termination (R402): any value. -/
def State.scramble (s : State) (r : Results) : State :=
  let s1 := match r.store with
    | none => s
    | some (t, c, addrs) => s.storeBytes t (s.strayStores t c addrs)
  let s2 := s1.setGrs (r.grs.map (fun i => (i, (s.draw (.generalRegister i.toNat)).setWidth 32)))
  let s3 := s2.setArs (r.ars.map (fun i => (i, (s.draw (.accessRegister i.toNat)).setWidth 32)))
  let s4 := s3.setCrs (r.crs.map (fun i => (i, (s.draw (.controlRegister i.toNat)).setWidth 32)))
  let s5 := if r.comparator then s4.setComparator (s.draw .comparator) else s4
  let s6 := if r.timer then s5.setTimer (s.draw .timer) else s5
  let s7 := if r.prefixRegister then s6.setPrefix s.strayPrefix else s6
  if r.cc then s7.setCc ((s.draw .conditionCode).setWidth 2) else s7

/-- The state an ending leaves (R402), the instruction address included; a suppressed protection exception leaves the condition code of
an instruction that sets it at any value (R116). -/
def State.ended (s : State) (len : Nat) (r : Results) (x : ProgExc) : State :=
  match s.ending x with
  | .complete => s.advance len
  | .nullify => s
  | .suppress =>
    match x with
    | .protection _ _ _ =>
      if s.suppressionBit && r.cc then (s.setCc ((s.draw .conditionCode).setWidth 2)).advance len else s.advance len
    | _ => s.advance len
  | .terminate => (s.scramble r).advance len

-- interruptions

/-- The bytes at a host-primary real location (R400). -/
def State.realBytes (s : State) (loc n : Nat) : List Byte :=
  (List.range n).map (fun i => s.byteAt hostPrimaryTarget (BitVec.ofNat 31 (loc + i)))

/-- Bytes stored at a host-primary real location by an interruption (R400, R403). -/
def State.storeReal (s : State) (loc : Nat) (bytes : List Byte) : State :=
  s.storeBytes hostPrimaryTarget (((List.range bytes.length).map (fun i => BitVec.ofNat 31 (loc + i))).zip bytes)

/-- Identification fields stored one after the other. -/
def State.storeReals (s : State) : List (Nat × List Byte) → State
  | [] => s
  | (loc, bytes) :: rest => (s.storeReal loc bytes).storeReals rest

/-- The prefix area is assigned (R430). -/
def State.prefixAreaAssigned (s : State) : Bool := s.hp.assigned s.cpu.prefixReg

/-- An interruption (R400, R430): serialize, store the current PSW as the old PSW and the identification, load the new PSW. -/
def State.interrupt (s : State) (old new : Nat) (ident : List (Nat × List Byte)) : Out :=
  if s.prefixAreaAssigned then
    let s1 := (s.serialize.storeReal old (bytes64 s.cpu.psw.toDWord)).storeReals ident
    .next ((s1.noteFetches hostPrimaryTarget ((List.range 8).map (fun i => BitVec.ofNat 31 (new + i)))).setPsw
      (Psw.ofDWord (be64 (s1.realBytes new 8))))
  else .refused .prefixAreaNotAssigned

/-- The byte that holds an instruction-length code in bits 5-6 (R401). -/
def ilcByte (ilc : Nat) : Byte := BitVec.ofNat 8 (2 * ilc)

/-- The program interruption (R403). -/
def State.programInterruption (s : State) (code : Half) (ilc : Nat) (extra : List (Nat × List Byte)) : Out :=
  s.interrupt 40 104 ((140, [0, ilcByte ilc] ++ bytes16 code) :: extra)

/-- The supervisor-call interruption (R441). -/
def State.supervisorCall (s : State) (ilc : Nat) (i : Byte) : Out := s.interrupt 32 96 [(136, [0, ilcByte ilc, 0, i])]

/-- The last two bits of a translation-exception identification whose bit 29 is one (R117). -/
def State.teidSpace (s : State) (typeR : Bool) (via : Via) : BitVec 2 :=
  if !s.cpu.psw.arMode || via == .hostPrimary then 0
  else if typeR then (if coin (s.draw .teidSpace) then 1 else 0)
  else 1

/-- The translation-exception identification a protection exception stores (R117, R412). -/
def State.teid (s : State) (block : Block) (typeR : Bool) (via : Via) : Word :=
  let v : Word := (s.draw .teidWord).setWidth 32
  if !s.cfg.sopInstalled then v
  else if s.suppressionBit then field v 0 1 ++ block ++ field v 20 9 ++ 1#1 ++ s.teidSpace typeR via
  else field v 0 29 ++ 0#1 ++ field v 30 2

/-- The exception access identification a protection exception stores (R118, R412). -/
def State.protectionAccessId (s : State) (via : Via) : Byte :=
  let v : Byte := (s.draw .accessId).setWidth 8
  if s.suppressionBit && s.cpu.psw.arMode then
    match via with
    | .instruction => 0
    | .register r => 0#4 ++ r
    | .hostPrimary => v
  else v

/-- The locations an exception stores besides its code (R403, R409, R410, R412). -/
def State.extraStores (s : State) : ProgExc → List (Nat × List Byte)
  | .protection block typeR via => [(144, bytes32 (s.teid block typeR via)), (160, [s.protectionAccessId via])]
  | .alenTranslation alet r => [(168, bytes32 alet), (160, [0#4 ++ r])]
  | .addressingCapability alet r => [(168, bytes32 alet), (160, [0#4 ++ r])]
  | _ => []

/-- Taking a program exception (R402, R403): the ending applied to the instruction in execution, then the program interruption. -/
def State.takeException (s : State) (len : Nat) (r : Results) (x : ProgExc) : Out :=
  (s.ended len r x).programInterruption x.code (s.ilcOf len) (s.extraStores x)

/-- A program exception of an instruction that has its result fields already and whose instruction address is updated: one that
completes it, or one that suppresses it before any result (R418). -/
def State.report (s : State) (len : Nat) (x : ProgExc) : Out := s.programInterruption x.code (s.ilcOf len) []

/-- A PSW put in place, and the early check of it (R421). -/
def State.enterPsw (s : State) (p : Psw) (ilc : Nat) : Out :=
  if p.valid then .next (s.setPsw p) else (s.setPsw p).programInterruption ProgExc.specification.code ilc []

/-- The return from an interruption is LOAD PSW of the old PSW (R435, R254): serialize, then every field of the PSW is replaced. -/
def State.returnTo (s : State) (v : DWord) : Out := s.serialize.enterPsw (Psw.ofDWord v) 0

-- the frame of every instruction

/-- An instruction whose exceptions are recognized before it begins: one of them is taken, or the instruction goes on with the updated
instruction address (R402, R422). -/
def State.guarded (s : State) (len : Nat) (r : Results) (faults : List ProgExc) (k : State → Out) : Out :=
  match faults with
  | [] => k (s.advance len)
  | x :: rest => s.takeException len r (s.choose x rest)

/-- A privileged instruction (R450): the privileged-operation exception in the problem state. -/
def State.supervisorOnly (s : State) (len : Nat) (k : Out) : Out :=
  if s.cpu.psw.problem then s.takeException len {} .privilegedOperation else k

end Sys2Proof.Machine
end

