-- ==== Sys2Proof/Machine/Flags.lean ====
section
/-! DEFINITION. Condition codes and the arithmetic helpers (spec/45_base_subset.md R296), with the overflow and divide rules
(spec/60_exceptions.md R418). -/

namespace Sys2Proof.Machine

/-- `CCsign` (R296), for a value of any width. -/
def ccSign {w : Nat} (r : BitVec w) : BitVec 2 := if r = 0 then 0 else if r.msb then 1 else 2

/-- The condition code of the logical instructions: 0 for zero, else 1 (R340). -/
def ccZero {w : Nat} (r : BitVec w) : BitVec 2 := if r = 0 then 0 else 1

/-- `CmpS` (R296). -/
def cmpS (a b : Word) : BitVec 2 := if a.toInt = b.toInt then 0 else if a.toInt < b.toInt then 1 else 2

/-- `CmpL` (R296). -/
def cmpL (a b : Nat) : BitVec 2 := if a = b then 0 else if a < b then 1 else 2

/-- A result of signed arithmetic with its overflow. -/
structure Signed where
  value : Word
  overflow : Bool
  deriving DecidableEq, Repr

/-- `AddS` (R296). -/
def addS (a b : Word) : Signed := { value := a + b, overflow := a.msb == b.msb && (a + b).msb != a.msb }

/-- `SubS` (R296). -/
def subS (a b : Word) : Signed := { value := a - b, overflow := a.msb != b.msb && (a - b).msb != a.msb }

/-- LOAD POSITIVE (R303). -/
def absS (v : Word) : Signed := { value := if v.msb then 0 - v else v, overflow := v == 0x80000000 }

/-- The condition code after signed arithmetic (R296). -/
def Signed.cc (r : Signed) : BitVec 2 := if r.overflow then 3 else ccSign r.value

/-- The condition code of logical arithmetic: 2 for a carry, and 1 for a result that is not zero (R296). -/
def ccCarry (carry : Bool) (r : Word) : BitVec 2 := (if carry then 2 else 0) + (if r = 0 then 0 else 1)

/-- The carry out of `AddL` (R296). -/
def carryAdd (a b : Word) : Bool := decide (2 ^ 32 ≤ a.toNat + b.toNat)

/-- The carry out of `SubL` (R296): there is one exactly when `a` is at least `b`. -/
def carrySub (a b : Word) : Bool := decide (2 ^ 32 ≤ a.toNat + (~~~b).toNat + 1)

/-- The 64-bit product of two signed words (R325). -/
def productS (a b : Word) : DWord := BitVec.ofInt 64 (a.toInt * b.toInt)

/-- The quotient and remainder of DIVIDE, truncating toward zero (R328); none where the divisor is zero or the quotient does not fit. -/
def divideS (n : DWord) (d : Word) : Option (Word × Word) :=
  if d = 0 then none
  else
    let q := n.toInt.tdiv d.toInt
    if q < -(2 ^ 31) ∨ q > 2 ^ 31 - 1 then none else some (BitVec.ofInt 32 q, BitVec.ofInt 32 (n.toInt.tmod d.toInt))

/-- The fixed-point-overflow interruption of a completed instruction, where the program mask asks for it (R296, R418). -/
def State.overflow (s : State) (len : Nat) (ovf : Bool) : Out :=
  if ovf && s.cpu.psw.overflowMask then s.report len .fixedPointOverflow else .next s

/-- A signed result put in a register, with its condition code and its overflow (R296). -/
def State.signedResult (s : State) (len : Nat) (r1 : Reg) (r : Signed) : Out :=
  ((s.setGr r1 r.value).setCc r.cc).overflow len r.overflow

/-- A shift left that keeps the sign bit (R352, R356): the value, and whether a bit shifted out differs from the sign. -/
def shiftLeftS {w : Nat} (v : BitVec w) (n : Nat) : BitVec w × Bool :=
  let m := v.toNat % 2 ^ (w - 1)
  let x := m * 2 ^ n
  let kept := BitVec.ofNat w (x % 2 ^ (w - 1) + (if v.msb then 2 ^ (w - 1) else 0))
  (kept, x / 2 ^ (w - 1) != (if v.msb then 2 ^ n - 1 else 0))

end Sys2Proof.Machine
end

