-- ==== Sys2Proof/Machine/Operands.lean ====
section
/-! DEFINITION. Operand forms: effective addresses, storage operands fetched, stored and updated, register pairs and byte masks
(spec/30_encoding.md R172, R176, R178, spec/45_base_subset.md R295, R313). -/

namespace Sys2Proof.Machine

/-- What a B or X field contributes: nothing for 0 (R22, R176). -/
def State.addressPart (s : State) (r : Reg) : Word := if r = 0 then 0 else s.gr r

/-- `EA(B, X, D)` (R176). -/
def State.ea (s : State) (b x : Reg) (d : Disp) : Addr :=
  truncMode s.cpu.psw.amode (s.addressPart b + s.addressPart x + d.setWidth 32)

/-- `EA(B, D)` (R176). -/
def State.eaBD (s : State) (b : Reg) (d : Disp) : Addr := s.ea b 0 d

/-- An address held in a register (R176). -/
def State.registerAddress (s : State) (r : Reg) : Addr := truncMode s.cpu.psw.amode (s.gr r)

/-- The target of a relative branch (R178). -/
def State.relativeAddress (s : State) (i2 : Half) : Addr :=
  truncMode s.cpu.psw.amode (s.instructionAddress.setWidth 32 + 2 * sext32 i2)

/-- The result fields of an instruction that loads one general register. -/
def loads (r1 : Reg) : Results := { grs := [r1] }
/-- The result fields of an instruction that loads one general register and sets the condition code. -/
def loadsCc (r1 : Reg) : Results := { grs := [r1], cc := true }
/-- The result field of an instruction that sets the condition code alone. -/
def setsCc : Results := { cc := true }
/-- The result field of an instruction that stores `n` bytes at a logical address. -/
def State.stores (s : State) (b : Reg) (ea : Addr) (n : Nat) : Results := { store := s.storeResult b ea n }

/-- A specification exception where a condition on the operands fails (R414 causes 5 and 6). -/
def specUnless (ok : Bool) : List ProgExc := if ok then [] else [.specification]

/-- An address on an integral boundary (R91). -/
def aligned (a : Addr) (n : Nat) : Bool := a.toNat % n == 0

/-- An even register number (R23). -/
def evenReg (r : Reg) : Bool := r.toNat % 2 == 0

/-- The register of an even-odd pair with its last bit one (R23, R368). -/
def oddOf (r : Reg) : Reg := r ||| 1

/-- The 64-bit value of an even-odd pair (R23). -/
def State.pair (s : State) (r : Reg) : DWord := s.gr r ++ s.gr (oddOf r)

/-- An even-odd pair replaced (R23). -/
def State.setPair (s : State) (r : Reg) (v : DWord) : State := (s.setGr r (field v 0 32)).setGr (oddOf r) (field v 32 32)

/-- An instruction that fetches `n` bytes at a logical address: `spec` are the exceptions that are peers of the access (R423 8.A). -/
def State.withFetch (s : State) (len : Nat) (r : Results) (c : Check) (spec : List ProgExc) (b : Reg) (ea : Addr) (n : Nat)
    (k : State → List Byte → Out) : Out :=
  s.guarded len r (spec ++ s.operandFaults c false b ea n) (fun s1 =>
    k (s1.noteFetches (s.target b) (s.addrs ea n)) (s.operandBytes (s.target b) ea n))

/-- An instruction that stores bytes at a logical address. -/
def State.withStore (s : State) (len : Nat) (r : Results) (spec : List ProgExc) (b : Reg) (ea : Addr) (bytes : List Byte)
    (k : State → Out) : Out :=
  s.guarded len { r with store := s.storeResult b ea bytes.length } (spec ++ s.operandFaults operandCheck true b ea bytes.length)
    (fun s1 => k (s1.storeOperand (s.target b) ea bytes))

/-- An instruction that fetches one byte at a logical address and stores its replacement; the check is the one for a store (R342). -/
def State.withUpdate (s : State) (len : Nat) (r : Results) (b : Reg) (ea : Addr) (f : Byte → Byte) (k : State → Byte → Out) : Out :=
  let v := f (s.byteAt (s.target b) ea)
  s.guarded len { r with store := s.storeResult b ea 1 } (s.operandFaults operandCheck true b ea 1)
    (fun s1 => k (s1.storeByte (s.target b) ea v) v)

/-- The fetch of a host-primary real operand (R99 `HPR`). -/
def State.withRealFetch (s : State) (len : Nat) (r : Results) (spec : List ProgExc) (ea : Addr) (n : Nat)
    (k : State → List Byte → Out) : Out :=
  s.guarded len r (spec ++ s.accessFaults hostPrimaryTarget controlCheck false ea n) (fun s1 =>
    k (s1.noteFetches hostPrimaryTarget (s.addrs ea n)) (s.operandBytes hostPrimaryTarget ea n))

/-- The byte numbers a 4-bit mask selects, ascending (R313 `sel`). -/
def maskBytes (m : BitVec 4) : List Nat := (List.range 4).filter (fun k => bitAt m k)

/-- Byte `k` of a word (R313). -/
def byteOf (v : Word) (k : Nat) : Byte := field v (8 * k) 8

/-- The bytes of a word that a mask selects. -/
def selectedBytes (v : Word) (m : BitVec 4) : List Byte := (maskBytes m).map (byteOf v)

/-- A word with byte `k` replaced. -/
def setByteOf (v : Word) (k : Nat) (b : Byte) : Word :=
  be32 ((List.range 4).map (fun i => if i = k then b else byteOf v i))

/-- A word with the bytes that a mask selects replaced in order (R338). -/
def insertBytes : Word → List Nat → List Byte → Word
  | v, k :: ks, b :: bs => insertBytes (setByteOf v k b) ks bs
  | v, _, _ => v

/-- A byte string as an unsigned integer (R337). -/
def bytesNat : List Byte → Nat
  | [] => 0
  | b :: rest => b.toNat * 256 ^ rest.length + bytesNat rest

/-- The bytes of consecutive words (R314). -/
def bytesOfWords (ws : List Word) : List Byte := ws.flatMap bytes32

end Sys2Proof.Machine
end

