-- ==== Sys2Proof/Machine/AccessRegisters.lean ====
section
/-! DEFINITION. Access-register instructions, and the instructions about the translation mode (spec/41_access_register_instructions.md R210 to R215,
spec/43_modified_instructions_a.md R246, spec/44_modified_instructions_b.md R270 to R272, R288). -/

namespace Sys2Proof.Machine

/-- COPY ACCESS (CPYA), R210. -/
def execCpya (r1 r2 : Reg) (s : State) : Out := .next ((s.advance 4).setAr r1 (s.ar r2))

/-- EXTRACT ACCESS (EAR), R211. -/
def execEar (r1 r2 : Reg) (s : State) : Out := .next ((s.advance 4).setGr r1 (s.ar r2))

/-- SET ACCESS (SAR), R212. -/
def execSar (r1 r2 : Reg) (s : State) : Out := .next ((s.advance 4).setAr r1 (s.gr r2))

/-- LOAD ADDRESS EXTENDED (LAE), R213; where the access register holds a nonzero ALET that is not correctly formed, both results may be
anything (D16). -/
def execLae (r1 x2 b2 : Reg) (d2 : Disp) (s : State) : Out :=
  let v := if s.cpu.psw.arMode then s.aletFor b2 else 0
  if v ≠ 0 ∧ s.aletWf v = false ∧ coin (s.draw .either) = true then
    .next (((s.advance 4).setGr r1 ((s.draw (.generalRegister r1.toNat)).setWidth 32)).setAr r1
      ((s.draw (.accessRegister r1.toNat)).setWidth 32))
  else .next (((s.advance 4).setGr r1 ((s.ea b2 x2 d2).setWidth 32)).setAr r1 v)

/-- LOAD ACCESS MULTIPLE (LAM), R214. -/
def execLam (r1 r3 b2 : Reg) (d2 : Disp) (s : State) : Out :=
  let regs := regRange r1 r3
  let ea := s.eaBD b2 d2
  s.withFetch 4 { ars := regs } operandCheck (specUnless (aligned ea 4)) b2 ea (4 * regs.length) (fun s1 bs =>
    .next (s1.setArs (regs.zip (wordsOf bs))))

/-- STORE ACCESS MULTIPLE (STAM), R215. -/
def execStam (r1 r3 b2 : Reg) (d2 : Disp) (s : State) : Out :=
  let ea := s.eaBD b2 d2
  s.withStore 4 {} (specUnless (aligned ea 4)) b2 ea (bytesOfWords ((regRange r1 r3).map s.ar)) .next

/-- INSERT ADDRESS SPACE CONTROL (IAC), R246. -/
def execIac (r1 : Reg) (s : State) : Out :=
  let as := s.cpu.psw.arMode
  .next (((s.advance 4).setGr r1 (field (s.gr r1) 0 16 ++ 0#6 ++ BitVec.ofBool as ++ 0#1 ++ field (s.gr r1) 24 8)).setCc
    (if as then 2 else 0))

/-- The address-space-function control (R42). -/
def State.asf (s : State) : Bool := bitAt (s.cr 0) 15

/-- The exceptions of SET ADDRESS SPACE CONTROL (R270, D11). -/
def State.ascFaults (s : State) (code : BitVec 4) : List ProgExc :=
  if code = 2 then (if s.asf then [] else [.specialOperation])
  else if code = 0 then []
  else if code = 3 then [.specification]
  else if s.cpu.psw.problem && coin (s.draw .either) then [.privilegedOperation]
  else [.specification]

/-- `SetASC` (R270): bits 20-23 of the second-operand address are the code. -/
def State.setAsc (s : State) (b2 : Reg) (d2 : Disp) (k : State → State) : Out :=
  let code := (s.eaBD b2 d2).extractLsb' 8 4
  s.guarded 4 {} (s.ascFaults code) (fun s1 => .next (k (s1.setPsw { s1.cpu.psw with arMode := code == 2 })))

/-- SET ADDRESS SPACE CONTROL (SAC), R271; it serializes. -/
def execSac (b2 : Reg) (d2 : Disp) (s : State) : Out := s.setAsc b2 d2 State.serialize

/-- SET ADDRESS SPACE CONTROL FAST (SACF), R272. -/
def execSacf (b2 : Reg) (d2 : Disp) (s : State) : Out :=
  if s.cfg.sacfInstalled then s.setAsc b2 d2 id else s.takeException 4 {} .operation

/-- The condition code TEST ACCESS gives an ALET (R288). -/
def Translation.testCc : Translation → BitVec 2
  | .hostPrimary => 0
  | .illFormed => 3
  | .unassigned => 3
  | .revoked => 3
  | .designated _ _ => 2

/-- TEST ACCESS (TAR), R288; with the address-space-function control zero a special-operation exception may be recognized (D12). -/
def execTar (r1 r2 : Reg) (s : State) : Out :=
  s.guarded 4 setsCc (if s.asf then [] else s.maybe [.specialOperation]) (fun s1 =>
    .next (s1.setCc (if field (s.gr r2) 0 16 = 1 then (s.translate (s.ar r1)).testCc else (s.draw .conditionCode).setWidth 2)))

end Sys2Proof.Machine
end

