-- ==== Sys2Proof/Machine/Arithmetic.lean ====
section
/-! DEFINITION. Binary arithmetic (spec/45_base_subset.md R315 to R329, R389, R390). -/

namespace Sys2Proof.Machine

/-- Signed arithmetic on a register and a fetched word or halfword (R316, R317, R319, R320). -/
def State.signedStorage (s : State) (r1 x2 b2 : Reg) (d2 : Disp) (n : Nat) (f : List Byte → Signed) : Out :=
  s.withFetch 4 (loadsCc r1) operandCheck [] b2 (s.ea b2 x2 d2) n (fun s1 bs => s1.signedResult 4 r1 (f bs))

/-- A result of logical arithmetic put in a register, with its condition code (R296). -/
def State.logicalResult (s : State) (r1 : Reg) (v : Word) (carry : Bool) : State := (s.setGr r1 v).setCc (ccCarry carry v)

/-- The end of DIVIDE (R328): the pair replaced, or a fixed-point-divide exception that leaves every register as it was. -/
def State.divideInto (s : State) (len : Nat) (r1 : Reg) (d : Word) : Out :=
  match divideS (s.pair r1) d with
  | none => s.report len .fixedPointDivide
  | some (q, m) => .next (s.setPair r1 (m ++ q))

/-- ADD (AR), R315. -/
def execAr (r1 r2 : Reg) (s : State) : Out := (s.advance 2).signedResult 2 r1 (addS (s.gr r1) (s.gr r2))

/-- ADD (A), R316. -/
def execA (r1 x2 b2 : Reg) (d2 : Disp) (s : State) : Out := s.signedStorage r1 x2 b2 d2 4 (fun bs => addS (s.gr r1) (be32 bs))

/-- ADD HALFWORD (AH), R317. -/
def execAh (r1 x2 b2 : Reg) (d2 : Disp) (s : State) : Out :=
  s.signedStorage r1 x2 b2 d2 2 (fun bs => addS (s.gr r1) (sext32 (be16 bs)))

/-- SUBTRACT (SR), R318. -/
def execSr (r1 r2 : Reg) (s : State) : Out := (s.advance 2).signedResult 2 r1 (subS (s.gr r1) (s.gr r2))

/-- SUBTRACT (S), R319. -/
def execS (r1 x2 b2 : Reg) (d2 : Disp) (s : State) : Out := s.signedStorage r1 x2 b2 d2 4 (fun bs => subS (s.gr r1) (be32 bs))

/-- SUBTRACT HALFWORD (SH), R320. -/
def execSh (r1 x2 b2 : Reg) (d2 : Disp) (s : State) : Out :=
  s.signedStorage r1 x2 b2 d2 2 (fun bs => subS (s.gr r1) (sext32 (be16 bs)))

/-- ADD LOGICAL (ALR), R321. -/
def execAlr (r1 r2 : Reg) (s : State) : Out :=
  .next ((s.advance 2).logicalResult r1 (s.gr r1 + s.gr r2) (carryAdd (s.gr r1) (s.gr r2)))

/-- ADD LOGICAL (AL), R322. -/
def execAl (r1 x2 b2 : Reg) (d2 : Disp) (s : State) : Out :=
  s.withFetch 4 (loadsCc r1) operandCheck [] b2 (s.ea b2 x2 d2) 4 (fun s1 bs =>
    .next (s1.logicalResult r1 (s.gr r1 + be32 bs) (carryAdd (s.gr r1) (be32 bs))))

/-- SUBTRACT LOGICAL (SLR), R323. -/
def execSlr (r1 r2 : Reg) (s : State) : Out :=
  .next ((s.advance 2).logicalResult r1 (s.gr r1 - s.gr r2) (carrySub (s.gr r1) (s.gr r2)))

/-- SUBTRACT LOGICAL (SL), R324. -/
def execSl (r1 x2 b2 : Reg) (d2 : Disp) (s : State) : Out :=
  s.withFetch 4 (loadsCc r1) operandCheck [] b2 (s.ea b2 x2 d2) 4 (fun s1 bs =>
    .next (s1.logicalResult r1 (s.gr r1 - be32 bs) (carrySub (s.gr r1) (be32 bs))))

/-- MULTIPLY (MR), R325. -/
def execMr (r1 r2 : Reg) (s : State) : Out :=
  s.guarded 2 {} (specUnless (evenReg r1)) (fun s1 => .next (s1.setPair r1 (productS (s.gr (oddOf r1)) (s.gr r2))))

/-- MULTIPLY (M), R326. -/
def execM (r1 x2 b2 : Reg) (d2 : Disp) (s : State) : Out :=
  s.withFetch 4 { grs := [r1, oddOf r1] } operandCheck (specUnless (evenReg r1)) b2 (s.ea b2 x2 d2) 4 (fun s1 bs =>
    .next (s1.setPair r1 (productS (s.gr (oddOf r1)) (be32 bs))))

/-- MULTIPLY HALFWORD (MH), R327. -/
def execMh (r1 x2 b2 : Reg) (d2 : Disp) (s : State) : Out :=
  s.withFetch 4 (loads r1) operandCheck [] b2 (s.ea b2 x2 d2) 2 (fun s1 bs =>
    .next (s1.setGr r1 (s.gr r1 * sext32 (be16 bs))))

/-- DIVIDE (DR), R328. -/
def execDr (r1 r2 : Reg) (s : State) : Out :=
  s.guarded 2 {} (specUnless (evenReg r1)) (fun s1 => s1.divideInto 2 r1 (s.gr r2))

/-- DIVIDE (D), R329. -/
def execD (r1 x2 b2 : Reg) (d2 : Disp) (s : State) : Out :=
  s.withFetch 4 { grs := [r1, oddOf r1] } operandCheck (specUnless (evenReg r1)) b2 (s.ea b2 x2 d2) 4 (fun s1 bs =>
    s1.divideInto 4 r1 (be32 bs))

/-- ADD HALFWORD IMMEDIATE (AHI), R389. -/
def execAhi (r1 : Reg) (i2 : Half) (s : State) : Out := (s.advance 4).signedResult 4 r1 (addS (s.gr r1) (sext32 i2))

/-- MULTIPLY HALFWORD IMMEDIATE (MHI), R390. -/
def execMhi (r1 : Reg) (i2 : Half) (s : State) : Out := .next ((s.advance 4).setGr r1 (s.gr r1 * sext32 i2))

end Sys2Proof.Machine
end

