-- ==== Sys2Proof/Machine/Branch.lean ====
section
/-! DEFINITION. Branches and supervisor call (spec/45_base_subset.md R360 to R369, R371, R392 to R394). Branch addresses are instruction
addresses (spec/20_memory.md R97). -/

namespace Sys2Proof.Machine

/-- `SaveLink` (R360): the addressing mode and the next instruction address. -/
def State.saveLink (s : State) (len : Nat) : Word := BitVec.ofBool s.cpu.psw.amode ++ s.nextIa len

/-- `Link24or31` (R360): in the 24-bit mode the instruction-length code, the condition code and the program mask come first. -/
def State.link (s : State) (len : Nat) : Word :=
  if s.cpu.psw.amode then s.saveLink len
  else BitVec.ofNat 2 (s.ilcOf len) ++ s.cpu.psw.cc ++ s.cpu.psw.progMask ++ (s.nextIa len).extractLsb' 0 24

/-- The mask selects the condition code (R364). -/
def State.conditionMet (s : State) (m1 : Reg) : Bool := bitAt m1 s.cpu.psw.cc.toNat

/-- A branch taken under a condition (R360 `branch`). -/
def State.branchIf (s : State) (taken : Bool) (t : Addr) : Out := .next (if taken then s.setIa t else s)

/-- A count reduced by one, with a branch while it is not zero (R366). -/
def State.countDown (s : State) (r1 : Reg) (branches : Bool) (t : Addr) : Out :=
  (s.setGr r1 (s.gr r1 - 1)).branchIf (branches && s.gr r1 - 1 != 0) t

/-- BRANCH ON INDEX (R368): the sum of R1 and the increment R3, and its comparison with the odd register of R3's pair. -/
def State.indexSum (s : State) (r1 r3 : Reg) : Word × Bool :=
  let sum := s.gr r1 + s.gr r3
  (sum, decide (sum.toInt > (s.gr (oddOf r3)).toInt))

/-- BRANCH AND LINK (BALR), R360. -/
def execBalr (r1 r2 : Reg) (s : State) : Out :=
  ((s.advance 2).setGr r1 (s.link 2)).branchIf (r2 != 0) (s.registerAddress r2)

/-- BRANCH AND LINK (BAL), R361. -/
def execBal (r1 x2 b2 : Reg) (d2 : Disp) (s : State) : Out :=
  ((s.advance 4).setGr r1 (s.link 4)).branchIf true (s.ea b2 x2 d2)

/-- BRANCH AND SAVE (BASR), R362. -/
def execBasr (r1 r2 : Reg) (s : State) : Out :=
  ((s.advance 2).setGr r1 (s.saveLink 2)).branchIf (r2 != 0) (s.registerAddress r2)

/-- BRANCH AND SAVE (BAS), R363. -/
def execBas (r1 x2 b2 : Reg) (d2 : Disp) (s : State) : Out :=
  ((s.advance 4).setGr r1 (s.saveLink 4)).branchIf true (s.ea b2 x2 d2)

/-- BRANCH ON CONDITION (BCR), R364; `BCR 15,0` serializes. -/
def execBcr (m1 r2 : Reg) (s : State) : Out :=
  let s1 := s.advance 2
  (if m1 = 15 ∧ r2 = 0 then s1.serialize else s1).branchIf (s.conditionMet m1 && r2 != 0) (s.registerAddress r2)

/-- BRANCH ON CONDITION (BC), R365. -/
def execBc (m1 x2 b2 : Reg) (d2 : Disp) (s : State) : Out := (s.advance 4).branchIf (s.conditionMet m1) (s.ea b2 x2 d2)

/-- BRANCH ON COUNT (BCTR), R366. -/
def execBctr (r1 r2 : Reg) (s : State) : Out := (s.advance 2).countDown r1 (r2 != 0) (s.registerAddress r2)

/-- BRANCH ON COUNT (BCT), R367. -/
def execBct (r1 x2 b2 : Reg) (d2 : Disp) (s : State) : Out := (s.advance 4).countDown r1 true (s.ea b2 x2 d2)

/-- BRANCH ON INDEX HIGH (BXH), R368. -/
def execBxh (r1 r3 b2 : Reg) (d2 : Disp) (s : State) : Out :=
  let r := s.indexSum r1 r3
  ((s.advance 4).setGr r1 r.1).branchIf r.2 (s.eaBD b2 d2)

/-- BRANCH ON INDEX LOW OR EQUAL (BXLE), R369. -/
def execBxle (r1 r3 b2 : Reg) (d2 : Disp) (s : State) : Out :=
  let r := s.indexSum r1 r3
  ((s.advance 4).setGr r1 r.1).branchIf (!r.2) (s.eaBD b2 d2)

/-- SUPERVISOR CALL (SVC), R371. -/
def execSvc (i : Byte) (s : State) : Out := (s.advance 2).supervisorCall (s.ilcOf 2) i

/-- BRANCH RELATIVE ON CONDITION (BRC), R392. -/
def execBrc (m1 : Reg) (i2 : Half) (s : State) : Out := (s.advance 4).branchIf (s.conditionMet m1) (s.relativeAddress i2)

/-- BRANCH RELATIVE AND SAVE (BRAS), R393. -/
def execBras (r1 : Reg) (i2 : Half) (s : State) : Out :=
  ((s.advance 4).setGr r1 (s.saveLink 4)).branchIf true (s.relativeAddress i2)

/-- BRANCH RELATIVE ON COUNT (BRCT), R394. -/
def execBrct (r1 : Reg) (i2 : Half) (s : State) : Out := (s.advance 4).countDown r1 true (s.relativeAddress i2)

end Sys2Proof.Machine
end

