-- ==== Sys2Proof/Machine/Compare.lean ====
section
/-! DEFINITION. Comparison (spec/45_base_subset.md R331 to R337, R339, R349, R391). -/

namespace Sys2Proof.Machine

/-- An instruction that fetches an operand and sets the condition code alone. -/
def State.testStorage (s : State) (b : Reg) (ea : Addr) (n : Nat) (f : List Byte → BitVec 2) : Out :=
  s.withFetch 4 setsCc operandCheck [] b ea n (fun s1 bs => .next (s1.setCc (f bs)))

/-- COMPARE (CR), R331. -/
def execCr (r1 r2 : Reg) (s : State) : Out := .next ((s.advance 2).setCc (cmpS (s.gr r1) (s.gr r2)))

/-- COMPARE (C), R332. -/
def execC (r1 x2 b2 : Reg) (d2 : Disp) (s : State) : Out :=
  s.testStorage b2 (s.ea b2 x2 d2) 4 (fun bs => cmpS (s.gr r1) (be32 bs))

/-- COMPARE HALFWORD (CH), R333. -/
def execCh (r1 x2 b2 : Reg) (d2 : Disp) (s : State) : Out :=
  s.testStorage b2 (s.ea b2 x2 d2) 2 (fun bs => cmpS (s.gr r1) (sext32 (be16 bs)))

/-- COMPARE LOGICAL (CLR), R334. -/
def execClr (r1 r2 : Reg) (s : State) : Out := .next ((s.advance 2).setCc (cmpL (s.gr r1).toNat (s.gr r2).toNat))

/-- COMPARE LOGICAL (CL), R335. -/
def execCl (r1 x2 b2 : Reg) (d2 : Disp) (s : State) : Out :=
  s.testStorage b2 (s.ea b2 x2 d2) 4 (fun bs => cmpL (s.gr r1).toNat (be32 bs).toNat)

/-- COMPARE LOGICAL (CLI), R336; the storage byte is the first operand. -/
def execCli (i2 : Byte) (b1 : Reg) (d1 : Disp) (s : State) : Out :=
  s.testStorage b1 (s.eaBD b1 d1) 1 (fun bs => cmpL (bs.headD 0).toNat i2.toNat)

/-- How many leading bytes of two strings are equal. -/
def leadingEqual : List Byte → List Byte → Nat
  | a :: as, b :: bs => if a = b then leadingEqual as bs + 1 else 0
  | _, _ => 0

/-- COMPARE LOGICAL (CLC), R337. The bytes up to the first unequal one are accessed; whether exceptions are recognized for those right of
it is the environment's choice. -/
def execClc (len : Nat) (b1 : Reg) (d1 : Disp) (b2 : Reg) (d2 : Disp) (s : State) : Out :=
  let e1 := s.eaBD b1 d1
  let e2 := s.eaBD b2 d2
  let x := s.operandBytes (s.target b1) e1 len
  let y := s.operandBytes (s.target b2) e2 len
  let m := min len (leadingEqual x y + 1)
  let needed := s.operandFaults operandCheck false b1 e1 m ++ s.operandFaults operandCheck false b2 e2 m
  let whole := s.operandFaults operandCheck false b1 e1 len ++ s.operandFaults operandCheck false b2 e2 len
  s.guarded 6 setsCc (if needed.isEmpty then s.maybe whole else whole) (fun s1 =>
    .next (((s1.noteFetches (s.target b1) (s.addrs e1 m)).noteFetches (s.target b2) (s.addrs e2 m)).setCc
      (cmpL (bytesNat x) (bytesNat y))))

/-- COMPARE LOGICAL CHARACTERS UNDER MASK (CLM), R339; with a zero mask, whether one byte is checked is the environment's choice. -/
def execClm (r1 m3 b2 : Reg) (d2 : Disp) (s : State) : Out :=
  let ea := s.eaBD b2 d2
  if m3 = 0 then
    s.guarded 4 setsCc (s.maybe (s.operandFaults operandCheck false b2 ea 1)) (fun s1 => .next (s1.setCc 0))
  else
    s.testStorage b2 ea (maskBytes m3).length (fun bs => cmpL (bytesNat (selectedBytes (s.gr r1) m3)) (bytesNat bs))

/-- TEST UNDER MASK (TM), R349. -/
def execTm (i2 : Byte) (b1 : Reg) (d1 : Disp) (s : State) : Out :=
  s.testStorage b1 (s.eaBD b1 d1) 1 (fun bs =>
    let v := bs.headD 0 &&& i2
    if i2 = 0 ∨ v = 0 then 0 else if v = i2 then 3 else 1)

/-- COMPARE HALFWORD IMMEDIATE (CHI), R391. -/
def execChi (r1 : Reg) (i2 : Half) (s : State) : Out := .next ((s.advance 4).setCc (cmpS (s.gr r1) (sext32 i2)))

end Sys2Proof.Machine
end

