-- ==== Sys2Proof/Machine/Control.lean ====
section
/-! DEFINITION. Control instructions: the PSW and its system mask, control registers, the prefix, real addresses, purges, tracing, and the two
instructions whose operation is in no source (spec/43_modified_instructions_a.md R252 to R262, spec/44_modified_instructions_b.md R276 to
R290, spec/45_base_subset.md R382 to R387). -/

namespace Sys2Proof.Machine

/-- LOAD PSW (LPSW), R254; the condition code of the PSW is its result field (R402). -/
def execLpsw (b2 : Reg) (d2 : Disp) (s : State) : Out :=
  let ea := s.eaBD b2 d2
  s.supervisorOnly 4 (s.withFetch 4 setsCc controlCheck (specUnless (aligned ea 8)) b2 ea 8 (fun s1 bs => s1.returnTo (be64 bs)))

/-- SET SYSTEM MASK (SSM), R276. -/
def execSsm (b2 : Reg) (d2 : Disp) (s : State) : Out :=
  s.supervisorOnly 4 (s.withFetch 4 {} operandCheck [] b2 (s.eaBD b2 d2) 1 (fun s1 bs =>
    s1.enterPsw { s1.cpu.psw with sysMask := bs.headD 0 } 2))

/-- STORE THEN AND SYSTEM MASK (STNSM), R383. -/
def execStnsm (i2 : Byte) (b1 : Reg) (d1 : Disp) (s : State) : Out :=
  s.supervisorOnly 4 (s.withStore 4 {} [] b1 (s.eaBD b1 d1) [s.cpu.psw.sysMask] (fun s1 =>
    .next (s1.setPsw { s1.cpu.psw with sysMask := s1.cpu.psw.sysMask &&& i2 })))

/-- STORE THEN OR SYSTEM MASK (STOSM), R278. -/
def execStosm (i2 : Byte) (b1 : Reg) (d1 : Disp) (s : State) : Out :=
  s.supervisorOnly 4 (s.withStore 4 {} [] b1 (s.eaBD b1 d1) [s.cpu.psw.sysMask] (fun s1 =>
    s1.enterPsw { s1.cpu.psw with sysMask := s1.cpu.psw.sysMask ||| i2 } 2))

/-- LOAD CONTROL (LCTL), R384. -/
def execLctl (r1 r3 b2 : Reg) (d2 : Disp) (s : State) : Out :=
  let regs := regRange r1 r3
  let ea := s.eaBD b2 d2
  s.supervisorOnly 4 (s.withFetch 4 { crs := regs } operandCheck (specUnless (aligned ea 4)) b2 ea (4 * regs.length)
    (fun s1 bs => .next (s1.setCrs (regs.zip (wordsOf bs)))))

/-- STORE CONTROL (STCTL), R385. -/
def execStctl (r1 r3 b2 : Reg) (d2 : Disp) (s : State) : Out :=
  let ea := s.eaBD b2 d2
  s.supervisorOnly 4 (s.withStore 4 {} (specUnless (aligned ea 4)) b2 ea (bytesOfWords ((regRange r1 r3).map s.cr)) .next)

/-- SET PREFIX (SPX), R386. -/
def execSpx (b2 : Reg) (d2 : Disp) (s : State) : Out :=
  let ea := s.eaBD b2 d2
  s.supervisorOnly 4 (s.withFetch 4 { prefixRegister := true } operandCheck (specUnless (aligned ea 4)) b2 ea 4 (fun s1 bs =>
    let block : Block := field (be32 bs) 1 19
    if s1.hp.assigned block then .next ((s1.setPrefix block).serialize) else s1.report 4 (.addressing false)))

/-- The word STORE PREFIX stores (R387). -/
def prefixWord (b : Block) : Word := 0#1 ++ b ++ 0#12

/-- STORE PREFIX (STPX), R387. -/
def execStpx (b2 : Reg) (d2 : Disp) (s : State) : Out :=
  let ea := s.eaBD b2 d2
  s.supervisorOnly 4 (s.withStore 4 {} (specUnless (aligned ea 4)) b2 ea (bytes32 (prefixWord s.cpu.prefixReg)) .next)

/-- STORE CPU ADDRESS (STAP), R382. -/
def execStap (b2 : Reg) (d2 : Disp) (s : State) : Out :=
  let ea := s.eaBD b2 d2
  s.supervisorOnly 4 (s.withStore 4 {} (specUnless (aligned ea 2)) b2 ea (bytes16 s.cpu.address) .next)

/-- LOAD USING REAL ADDRESS (LURA), R256. -/
def execLura (r1 r2 : Reg) (s : State) : Out :=
  let ea := s.registerAddress r2
  s.supervisorOnly 4 (s.withRealFetch 4 (loads r1) (specUnless (aligned ea 4)) ea 4 (fun s1 bs => .next (s1.setGr r1 (be32 bs))))

/-- STORE USING REAL ADDRESS (STURA), R280. -/
def execStura (r1 r2 : Reg) (s : State) : Out :=
  let ea := s.registerAddress r2
  s.supervisorOnly 4 (s.guarded 4 { store := some (hostPrimaryTarget, controlCheck, s.addrs ea 4) }
    (specUnless (aligned ea 4) ++ s.accessFaults hostPrimaryTarget controlCheck true ea 4)
    (fun s1 => .next (s1.storeOperand hostPrimaryTarget ea (bytes32 (s.gr r1)))))

/-- The real address of the page-table entry (R252). -/
def State.pageTableEntry (s : State) (r1 r2 : Reg) : Addr :=
  (field (s.gr r1) 1 25 ++ 0#6) + (4 * (field (s.gr r2) 12 8).setWidth 31)

/-- The host-primary real addresses of a word, wrapping at 2^31 whatever the addressing mode. -/
def wordAddrs (ea : Addr) : List Addr := operandAddrs true ea 4

/-- INVALIDATE PAGE TABLE ENTRY (IPTE), R252: bit 21 of the entry is set. -/
def execIpte (r1 r2 : Reg) (s : State) : Out :=
  let ea := s.pageTableEntry r1 r2
  let w := be32 ((wordAddrs ea).map (s.byteAt hostPrimaryTarget))
  s.supervisorOnly 4 (s.guarded 4 { store := some (hostPrimaryTarget, blockCheck, wordAddrs ea) }
    (if field (s.cr 0) 8 5 = 0b10110 then (wordAddrs ea).flatMap (s.byteFaults hostPrimaryTarget blockCheck true)
     else [.translationSpecification])
    (fun s1 => .next ((s1.storeBytes hostPrimaryTarget ((wordAddrs ea).zip (bytes32 (w ||| 0x00000400)))).serialize)))

/-- PURGE ALB (PALB), R257: no operation but the privilege check and the serialization (D17). -/
def execPalb (s : State) : Out := s.supervisorOnly 4 (.next ((s.advance 4).serialize))

/-- PURGE TLB (PTLB), R258: no operation but the privilege check and the serialization (D17). -/
def execPtlb (s : State) : Out := s.supervisorOnly 4 (.next ((s.advance 4).serialize))

/-- TRACE (TRACE), R290: no operation while explicit tracing is off or the operand says so; an entry would be formed otherwise. -/
def execTrace (_r1 _r3 b2 : Reg) (d2 : Disp) (s : State) : Out :=
  let ea := s.eaBD b2 d2
  s.supervisorOnly 4
    (if bitAt (s.cr 12) 31 then
      s.withFetch 4 {} operandCheck (specUnless (aligned ea 4)) b2 ea 4 (fun s1 bs =>
        if bitAt (be32 bs) 0 then .next s1.serialize else .refused .traceEntryFormat)
     else s.guarded 4 {} (specUnless (aligned ea 4)) (fun s1 => .next s1.serialize))

/-- BRANCH AND SET AUTHORITY (BSA), R262: the check of the address-space-function control; the rest is in no source (D30). -/
def execBsa (_r1 _r2 : Reg) (s : State) : Out :=
  if s.asf then .refused .branchAndSetAuthority else s.takeException 4 {} .specialOperation

/-- RESUME PROGRAM (RP), R260: its parameter list is in no source (D30). -/
def execRp (_b2 : Reg) (_d2 : Disp) (_s : State) : Out := .refused .resumeProgramFormat

end Sys2Proof.Machine
end

