-- ==== Sys2Proof/Machine/Keys.lean ====
section
/-! DEFINITION. Storage keys, TEST BLOCK and TEST PROTECTION (spec/43_modified_instructions_a.md R250, R259, R263,
spec/44_modified_instructions_b.md R274, R283, R285). -/

namespace Sys2Proof.Machine

/-- `ResolveBlock` (R263): the exceptions of a reference to the block a register designates. -/
def State.blockFaults (s : State) (c : Check) (store : Bool) (r : Reg) (ea : Addr) : List ProgExc := s.operandFaults c store r ea 1

/-- The absolute block of an address in a target (R263). -/
def State.blockAt (s : State) (t : Target) (ea : Addr) : Block := blockOf (s.absolute t ea)

/-- `KeyOf` at an address (R105). -/
def State.keyAt (s : State) (t : Target) (ea : Addr) : BitVec 7 := (s.space t.space).key (s.blockAt t ea)

/-- An explicit alteration of the storage key at an address. -/
def State.setKeyAt (s : State) (t : Target) (ea : Addr) (k : BitVec 7) : State :=
  s.updateSpace t.space (fun p => p.setKey (s.blockAt t ea) k)

/-- INSERT STORAGE KEY EXTENDED (ISKE), R250. -/
def execIske (r1 r2 : Reg) (s : State) : Out :=
  let ea := s.registerAddress r2
  s.supervisorOnly 4 (s.guarded 4 (loads r1) (s.blockFaults blockCheck false r2 ea) (fun s1 =>
    .next (s1.setGr r1 (field (s.gr r1) 0 24 ++ s.keyAt (s.target r2) ea ++ 0#1))))

/-- RESET REFERENCE BIT EXTENDED (RRBE), R259. -/
def execRrbe (_r1 r2 : Reg) (s : State) : Out :=
  let ea := s.registerAddress r2
  let k := s.keyAt (s.target r2) ea
  s.supervisorOnly 4 (s.guarded 4 setsCc (s.blockFaults blockCheck true r2 ea) (fun s1 =>
    .next ((s1.setKeyAt (s.target r2) ea (keyWith k false (keyChange k))).setCc
      (BitVec.ofBool (keyReference k) ++ BitVec.ofBool (keyChange k)))))

/-- SET STORAGE KEY EXTENDED (SSKE), R274. -/
def execSske (r1 r2 : Reg) (s : State) : Out :=
  let ea := s.registerAddress r2
  s.supervisorOnly 4 (s.guarded 4 {} (s.blockFaults blockCheck true r2 ea) (fun s1 =>
    .next ((s1.setKeyAt (s.target r2) ea (field (s.gr r1) 24 7)).serialize)))

/-- What instruction fetches may see of a block about to be cleared, as `noteStale` says of one byte (R166, R507). -/
def State.noteStaleBlock (s : State) (t : Target) (b : Block) : State :=
  if t.space = .hostPrimary then
    { s with cpu := { s.cpu with staleBytes :=
      if t.typeR then s.cpu.staleBytes.filter (fun c => c.1 / 4096 != b.toNat) else Memory.blockCells s.hp.mem b ++ s.cpu.staleBytes } }
  else s

/-- A block cleared to zero, its reference and change bits at any value (R283). -/
def State.clearBlock (s : State) (t : Target) (b : Block) : State :=
  (s.noteStaleBlock t b).updateSpace t.space (fun p =>
    { p with mem := Memory.clearBlock p.mem b }.setKey b
      (keyWith (p.key b) (coin (s.draw .referenceBit)) (coin (s.draw .changeBit))))

/-- The addresses of the bytes of a block. -/
def blockAddrs (ea : Addr) : List Addr := operandAddrs true ea 4096

/-- TEST BLOCK (TB), R283; the block is its store operand (R402). -/
def execTb (r2 : Reg) (s : State) : Out :=
  let ea := blockOf (s.registerAddress r2) ++ 0#12
  let t := s.target r2
  let b := s.blockAt t ea
  s.supervisorOnly 4 (s.guarded 4 { grs := [0], cc := true, store := s.storeResultAt r2 testBlockCheck (blockAddrs ea) }
    (s.blockFaults testBlockCheck true r2 ea) (fun s1 =>
    if (s.space t.space).usable b then .next (((s1.clearBlock t b).setCc 0).setGr 0 0) else .next ((s1.setCc 1).setGr 0 0)))

/-- What TEST PROTECTION finds permitted (R285): fetching, and storing. -/
def State.permissions (s : State) (t : Target) (key : BitVec 4) (ea : Addr) : Bool × Bool :=
  let k := s.keyAt t ea
  (s.keyMatch key k || !keyFetch k || s.fetchOverride t.typeR ea,
   s.keyMatch key k && !s.lowAddressProtected t.typeR ea && !t.readOnly && !(s.space t.space).readOnly (s.blockAt t ea))

/-- The condition code TEST PROTECTION gives what it finds (R285). -/
def permissionCc (p : Bool × Bool) : BitVec 2 := if p.1 && p.2 then 0 else if p.1 then 1 else 2

/-- TEST PROTECTION (TPROT), R285; the reference bit may be set. -/
def execTprot (b1 : Reg) (d1 : Disp) (b2 : Reg) (d2 : Disp) (s : State) : Out :=
  let ea := s.eaBD b1 d1
  let key := (s.eaBD b2 d2).extractLsb' 4 4
  s.supervisorOnly 6 (match s.resolve b1 with
    | .error _ => .next ((s.advance 6).setCc 3)
    | .ok t => s.guarded 6 setsCc (if (s.space t.space).assigned (s.blockAt t ea) then [] else [.addressing false]) (fun s1 =>
        .next ((if coin (s.draw .referenceBit) then s1.noteFetch t ea else s1).setCc (permissionCc (s.permissions t key ea)))))

end Sys2Proof.Machine
end

