-- ==== Sys2Proof/Machine/LoadStore.lean ====
section
/-! DEFINITION. Load and store (spec/45_base_subset.md R300 to R314, R388). -/

namespace Sys2Proof.Machine

/-- LOAD (LR), R300. -/
def execLr (r1 r2 : Reg) (s : State) : Out := .next ((s.advance 2).setGr r1 (s.gr r2))

/-- LOAD AND TEST (LTR), R301. -/
def execLtr (r1 r2 : Reg) (s : State) : Out := .next (((s.advance 2).setGr r1 (s.gr r2)).setCc (ccSign (s.gr r2)))

/-- LOAD COMPLEMENT (LCR), R302. -/
def execLcr (r1 r2 : Reg) (s : State) : Out := (s.advance 2).signedResult 2 r1 (subS 0 (s.gr r2))

/-- LOAD POSITIVE (LPR), R303. -/
def execLpr (r1 r2 : Reg) (s : State) : Out := (s.advance 2).signedResult 2 r1 (absS (s.gr r2))

/-- LOAD NEGATIVE (LNR), R304. -/
def execLnr (r1 r2 : Reg) (s : State) : Out :=
  let v := if (s.gr r2).msb then s.gr r2 else 0 - s.gr r2
  .next (((s.advance 2).setGr r1 v).setCc (ccZero v))

/-- LOAD (L), R305. -/
def execL (r1 x2 b2 : Reg) (d2 : Disp) (s : State) : Out :=
  s.withFetch 4 (loads r1) operandCheck [] b2 (s.ea b2 x2 d2) 4 (fun s1 bs => .next (s1.setGr r1 (be32 bs)))

/-- LOAD HALFWORD (LH), R306. -/
def execLh (r1 x2 b2 : Reg) (d2 : Disp) (s : State) : Out :=
  s.withFetch 4 (loads r1) operandCheck [] b2 (s.ea b2 x2 d2) 2 (fun s1 bs => .next (s1.setGr r1 (sext32 (be16 bs))))

/-- LOAD ADDRESS (LA), R307. -/
def execLa (r1 x2 b2 : Reg) (d2 : Disp) (s : State) : Out := .next ((s.advance 4).setGr r1 ((s.ea b2 x2 d2).setWidth 32))

/-- INSERT CHARACTER (IC), R308. -/
def execIc (r1 x2 b2 : Reg) (d2 : Disp) (s : State) : Out :=
  s.withFetch 4 (loads r1) operandCheck [] b2 (s.ea b2 x2 d2) 1 (fun s1 bs =>
    .next (s1.setGr r1 (setByteOf (s.gr r1) 3 (bs.headD 0))))

/-- LOAD MULTIPLE (LM), R309. -/
def execLm (r1 r3 b2 : Reg) (d2 : Disp) (s : State) : Out :=
  let regs := regRange r1 r3
  s.withFetch 4 { grs := regs } operandCheck [] b2 (s.eaBD b2 d2) (4 * regs.length) (fun s1 bs =>
    .next (s1.setGrs (regs.zip (wordsOf bs))))

/-- STORE (ST), R310. -/
def execSt (r1 x2 b2 : Reg) (d2 : Disp) (s : State) : Out :=
  s.withStore 4 {} [] b2 (s.ea b2 x2 d2) (bytes32 (s.gr r1)) .next

/-- STORE HALFWORD (STH), R311. -/
def execSth (r1 x2 b2 : Reg) (d2 : Disp) (s : State) : Out :=
  s.withStore 4 {} [] b2 (s.ea b2 x2 d2) (bytes16 (field (s.gr r1) 16 16)) .next

/-- STORE CHARACTER (STC), R312. -/
def execStc (r1 x2 b2 : Reg) (d2 : Disp) (s : State) : Out :=
  s.withStore 4 {} [] b2 (s.ea b2 x2 d2) [byteOf (s.gr r1) 3] .next

/-- STORE CHARACTERS UNDER MASK (STCM), R313; with a zero mask, whether the byte at the address is checked is the environment's choice. -/
def execStcm (r1 m3 b2 : Reg) (d2 : Disp) (s : State) : Out :=
  let ea := s.eaBD b2 d2
  let faults := if m3 = 0 then s.maybe (s.operandFaults operandCheck true b2 ea 1)
    else s.operandFaults operandCheck true b2 ea (maskBytes m3).length
  s.guarded 4 (s.stores b2 ea (maskBytes m3).length) faults (fun s1 =>
    .next (s1.storeOperand (s.target b2) ea (selectedBytes (s.gr r1) m3)))

/-- STORE MULTIPLE (STM), R314. -/
def execStm (r1 r3 b2 : Reg) (d2 : Disp) (s : State) : Out :=
  s.withStore 4 {} [] b2 (s.eaBD b2 d2) (bytesOfWords ((regRange r1 r3).map s.gr)) .next

/-- LOAD HALFWORD IMMEDIATE (LHI), R388. -/
def execLhi (r1 : Reg) (i2 : Half) (s : State) : Out := .next ((s.advance 4).setGr r1 (sext32 i2))

end Sys2Proof.Machine
end

