-- ==== Sys2Proof/Machine/Logical.lean ====
section
/-! DEFINITION. Logical instructions on registers, on a fetched word and on one byte of storage, and insertion under a mask
(spec/45_base_subset.md R338, R340 to R348). -/

namespace Sys2Proof.Machine

/-- A logical result put in a register, with its condition code (R340). -/
def State.bitsResult (s : State) (r1 : Reg) (v : Word) : State := (s.setGr r1 v).setCc (ccZero v)

/-- A logical operation on a register and a fetched word (R341). -/
def State.bitsStorage (s : State) (r1 x2 b2 : Reg) (d2 : Disp) (f : Word → Word → Word) : Out :=
  s.withFetch 4 (loadsCc r1) operandCheck [] b2 (s.ea b2 x2 d2) 4 (fun s1 bs => .next (s1.bitsResult r1 (f (s.gr r1) (be32 bs))))

/-- A logical operation on a byte of storage and an immediate byte (R342). -/
def State.bitsImmediate (s : State) (i2 : Byte) (b1 : Reg) (d1 : Disp) (f : Byte → Byte → Byte) : Out :=
  s.withUpdate 4 setsCc b1 (s.eaBD b1 d1) (fun v => f v i2) (fun s1 v => .next (s1.setCc (ccZero v)))

/-- AND (NR), R340. -/
def execNr (r1 r2 : Reg) (s : State) : Out := .next ((s.advance 2).bitsResult r1 (s.gr r1 &&& s.gr r2))

/-- AND (N), R341. -/
def execN (r1 x2 b2 : Reg) (d2 : Disp) (s : State) : Out := s.bitsStorage r1 x2 b2 d2 (fun a b => a &&& b)

/-- AND (NI), R342. -/
def execNi (i2 : Byte) (b1 : Reg) (d1 : Disp) (s : State) : Out := s.bitsImmediate i2 b1 d1 (fun a b => a &&& b)

/-- OR (OR), R343. -/
def execOr (r1 r2 : Reg) (s : State) : Out := .next ((s.advance 2).bitsResult r1 (s.gr r1 ||| s.gr r2))

/-- OR (O), R344. -/
def execO (r1 x2 b2 : Reg) (d2 : Disp) (s : State) : Out := s.bitsStorage r1 x2 b2 d2 (fun a b => a ||| b)

/-- OR (OI), R345. -/
def execOi (i2 : Byte) (b1 : Reg) (d1 : Disp) (s : State) : Out := s.bitsImmediate i2 b1 d1 (fun a b => a ||| b)

/-- EXCLUSIVE OR (XR), R346. -/
def execXr (r1 r2 : Reg) (s : State) : Out := .next ((s.advance 2).bitsResult r1 (s.gr r1 ^^^ s.gr r2))

/-- EXCLUSIVE OR (X), R347. -/
def execX (r1 x2 b2 : Reg) (d2 : Disp) (s : State) : Out := s.bitsStorage r1 x2 b2 d2 (fun a b => a ^^^ b)

/-- EXCLUSIVE OR (XI), R348. -/
def execXi (i2 : Byte) (b1 : Reg) (d1 : Disp) (s : State) : Out := s.bitsImmediate i2 b1 d1 (fun a b => a ^^^ b)

/-- The condition code of inserted bytes (R338): 0 when all are zero, 1 when the first bit is one, else 2. -/
def ccInserted (bs : List Byte) : BitVec 2 :=
  if bytesNat bs = 0 then 0 else if (bs.headD 0).msb then 1 else 2

/-- INSERT CHARACTERS UNDER MASK (ICM), R338; with a zero mask one byte is checked and none inserted. -/
def execIcm (r1 m3 b2 : Reg) (d2 : Disp) (s : State) : Out :=
  s.withFetch 4 (loadsCc r1) operandCheck [] b2 (s.eaBD b2 d2) (max 1 (maskBytes m3).length) (fun s1 bs =>
    .next ((s1.setGr r1 (insertBytes (s.gr r1) (maskBytes m3) bs)).setCc (if m3 = 0 then 0 else ccInserted bs)))

end Sys2Proof.Machine
end

