-- ==== Sys2Proof/Machine/Move.lean ====
section
/-! DEFINITION. Moves and logic on byte strings, the program mask, and the interlocked updates (spec/45_base_subset.md R372 to R381). -/

namespace Sys2Proof.Machine

/-- A byte-serial operation on two strings, left to right, each byte stored before the next is fetched (R375): the state, and the result
bytes combined by OR. -/
def State.byteSerial (t1 t2 : Target) (f : Byte → Byte → Byte) : List (Addr × Addr) → State → State × Byte
  | [], s => (s, 0)
  | c :: rest, s =>
    let v := f (s.byteAt t1 c.1) (s.byteAt t2 c.2)
    let r := State.byteSerial t1 t2 f rest ((s.noteFetch t2 c.2).storeByte t1 c.1 v)
    (r.1, v ||| r.2)

/-- An SS instruction that stores its first operand (R375, R376). -/
def State.stringOp (s : State) (r : Results) (len : Nat) (b1 : Reg) (d1 : Disp) (b2 : Reg) (d2 : Disp) (f : Byte → Byte → Byte)
    (k : State → Byte → Out) : Out :=
  let e1 := s.eaBD b1 d1
  let e2 := s.eaBD b2 d2
  s.guarded 6 { r with store := s.storeResult b1 e1 len }
    (s.operandFaults operandCheck true b1 e1 len ++ s.operandFaults operandCheck false b2 e2 len) (fun s1 =>
      let o := State.byteSerial (s.target b1) (s.target b2) f ((s.addrs e1 len).zip (s.addrs e2 len)) s1
      k o.1 o.2)

/-- SET PROGRAM MASK (SPM), R372. -/
def execSpm (r1 : Reg) (s : State) : Out :=
  let s1 := s.advance 2
  .next (s1.setPsw { s1.cpu.psw with cc := field (s.gr r1) 2 2, progMask := field (s.gr r1) 4 4 })

/-- INSERT PROGRAM MASK (IPM), R373. -/
def execIpm (r1 : Reg) (s : State) : Out :=
  .next ((s.advance 4).setGr r1 (0#2 ++ s.cpu.psw.cc ++ s.cpu.psw.progMask ++ field (s.gr r1) 8 24))

/-- MOVE (MVI), R374. -/
def execMvi (i2 : Byte) (b1 : Reg) (d1 : Disp) (s : State) : Out := s.withStore 4 {} [] b1 (s.eaBD b1 d1) [i2] .next

/-- MOVE (MVC), R375. -/
def execMvc (len : Nat) (b1 : Reg) (d1 : Disp) (b2 : Reg) (d2 : Disp) (s : State) : Out :=
  s.stringOp {} len b1 d1 b2 d2 (fun _ y => y) (fun s1 _ => .next s1)

/-- AND (NC), R376. -/
def execNc (len : Nat) (b1 : Reg) (d1 : Disp) (b2 : Reg) (d2 : Disp) (s : State) : Out :=
  s.stringOp setsCc len b1 d1 b2 d2 (fun x y => x &&& y) (fun s1 v => .next (s1.setCc (ccZero v)))

/-- OR (OC), R377. -/
def execOc (len : Nat) (b1 : Reg) (d1 : Disp) (b2 : Reg) (d2 : Disp) (s : State) : Out :=
  s.stringOp setsCc len b1 d1 b2 d2 (fun x y => x ||| y) (fun s1 v => .next (s1.setCc (ccZero v)))

/-- EXCLUSIVE OR (XC), R378. -/
def execXc (len : Nat) (b1 : Reg) (d1 : Disp) (b2 : Reg) (d2 : Disp) (s : State) : Out :=
  s.stringOp setsCc len b1 d1 b2 d2 (fun x y => x ^^^ y) (fun s1 v => .next (s1.setCc (ccZero v)))

/-- The interlocked update (R380): the operand is checked for a store whether or not one is made; on inequality the change bit may be
set, since the old value may be stored back (U24). -/
def State.interlocked (s : State) (r : Results) (spec : List ProgExc) (b2 : Reg) (ea : Addr) (n : Nat) (equal : List Byte → Bool)
    (new : List Byte) (loaded : State → List Byte → State) : Out :=
  s.guarded 4 { r with store := s.storeResult b2 ea n } (spec ++ s.operandFaults operandCheck true b2 ea n) (fun s1 =>
    let t := s.target b2
    let bs := s.operandBytes t ea n
    if equal bs then .next (((s1.storeOperand t ea new).setCc 0).serialize)
    else .next (((loaded (s1.record t.space (blockOf (s1.absolute t ea)) (coin (s.draw .changeBit))) bs).setCc 1).serialize))

/-- COMPARE AND SWAP (CS), R380. -/
def execCs (r1 r3 b2 : Reg) (d2 : Disp) (s : State) : Out :=
  let ea := s.eaBD b2 d2
  s.interlocked (loadsCc r1) (specUnless (aligned ea 4)) b2 ea 4 (fun bs => be32 bs == s.gr r1) (bytes32 (s.gr r3))
    (fun s1 bs => s1.setGr r1 (be32 bs))

/-- COMPARE DOUBLE AND SWAP (CDS), R381. -/
def execCds (r1 r3 b2 : Reg) (d2 : Disp) (s : State) : Out :=
  let ea := s.eaBD b2 d2
  s.interlocked { grs := [r1, oddOf r1], cc := true } (specUnless (evenReg r1 && evenReg r3 && aligned ea 8)) b2 ea 8
    (fun bs => be64 bs == s.pair r1) (bytes64 (s.pair r3)) (fun s1 bs => s1.setPair r1 (be64 bs))

end Sys2Proof.Machine
end

