-- ==== Sys2Proof/Machine/NotProvided.lean ====
section
/-! DEFINITION. ESA/390 instructions that ESA/XC does not provide (spec/42_not_provided.md R220 to R240): each raises an operation
exception, whatever its operands and whatever the state. -/

namespace Sys2Proof.Machine

/-- An instruction that is not provided (R238): the operation exception, with no operand examined. -/
def State.notProvided (s : State) (len : Nat) : Out := s.takeException len {} .operation

/-- TRAP (R239): an operation or a special-operation exception, at the environment's choice (D10). -/
def State.trapException (s : State) (len : Nat) : Out :=
  s.takeException len {} (if coin (s.draw .either) then .operation else .specialOperation)

/-- BRANCH AND STACK (BAKR), R220. -/
def execBakr (_r1 : Reg) (_r2 : Reg) (s : State) : Out := s.notProvided 4

/-- BRANCH IN SUBSPACE GROUP (BSG), R221. -/
def execBsg (_r1 : Reg) (_r2 : Reg) (s : State) : Out := s.notProvided 4

/-- EXTRACT PRIMARY ASN (EPAR), R222. -/
def execEpar (_r1 : Reg) (s : State) : Out := s.notProvided 4

/-- EXTRACT SECONDARY ASN (ESAR), R223. -/
def execEsar (_r1 : Reg) (s : State) : Out := s.notProvided 4

/-- EXTRACT STACKED REGISTERS (EREG), R224. -/
def execEreg (_r1 : Reg) (_r2 : Reg) (s : State) : Out := s.notProvided 4

/-- EXTRACT STACKED STATE (ESTA), R225. -/
def execEsta (_r1 : Reg) (_r2 : Reg) (s : State) : Out := s.notProvided 4

/-- INSERT VIRTUAL STORAGE KEY (IVSK), R226. -/
def execIvsk (_r1 : Reg) (_r2 : Reg) (s : State) : Out := s.notProvided 4

/-- LOAD ADDRESS SPACE PARAMETERS (LASP), R227. -/
def execLasp (_b1 : Reg) (_d1 : Disp) (_b2 : Reg) (_d2 : Disp) (s : State) : Out := s.notProvided 6

/-- LOAD REAL ADDRESS (LRA), R228. -/
def execLra (_r1 : Reg) (_x2 : Reg) (_b2 : Reg) (_d2 : Disp) (s : State) : Out := s.notProvided 4

/-- MODIFY STACKED STATE (MSTA), R229. -/
def execMsta (_r1 : Reg) (_r2 : Reg) (s : State) : Out := s.notProvided 4

/-- MOVE TO PRIMARY (MVCP), R230. -/
def execMvcp (_r1 : Reg) (_r3 : Reg) (_b1 : Reg) (_d1 : Disp) (_b2 : Reg) (_d2 : Disp) (s : State) : Out := s.notProvided 6

/-- PROGRAM CALL (PC), R231. -/
def execPc (_b2 : Reg) (_d2 : Disp) (s : State) : Out := s.notProvided 4

/-- MOVE TO SECONDARY (MVCS), R232. -/
def execMvcs (_r1 : Reg) (_r3 : Reg) (_b1 : Reg) (_d1 : Disp) (_b2 : Reg) (_d2 : Disp) (s : State) : Out := s.notProvided 6

/-- PROGRAM RETURN (PR), R233. -/
def execPr (s : State) : Out := s.notProvided 2

/-- PROGRAM TRANSFER (PT), R234. -/
def execPt (_r1 : Reg) (_r2 : Reg) (s : State) : Out := s.notProvided 4

/-- SET CLOCK (SCK), R235. -/
def execSck (_b2 : Reg) (_d2 : Disp) (s : State) : Out := s.notProvided 4

/-- SET SECONDARY ASN (SSAR), R236. -/
def execSsar (_r1 : Reg) (_r2 : Reg) (s : State) : Out := s.notProvided 4

/-- START INTERPRETIVE EXECUTION (SIE), R237. -/
def execSie (_b2 : Reg) (_d2 : Disp) (s : State) : Out := s.notProvided 4

/-- TRAP (TRAP2), R239. -/
def execTrap2 (s : State) : Out := s.trapException 2

/-- TRAP (TRAP4), R240. -/
def execTrap4 (_b2 : Reg) (_d2 : Disp) (s : State) : Out := s.trapException 4

end Sys2Proof.Machine
end

