-- ==== Sys2Proof/Machine/Privilege.lean ====
section
/-! DEFINITION. The privilege class of each instruction (spec/30_encoding.md R183) and whether ESA/XC provides it (spec/42_not_provided.md),
and which instructions set the condition code (R116, R412). -/

namespace Sys2Proof.Machine

/-- The instruction is privileged (R183). -/
def isPrivileged : Instr → Bool
  | .spm _ => false
  | .balr _ _ => false
  | .bctr _ _ => false
  | .bcr _ _ => false
  | .svc _ => false
  | .basr _ _ => false
  | .lpr _ _ => false
  | .lnr _ _ => false
  | .ltr _ _ => false
  | .lcr _ _ => false
  | .nr _ _ => false
  | .clr _ _ => false
  | .or _ _ => false
  | .xr _ _ => false
  | .lr _ _ => false
  | .cr _ _ => false
  | .ar _ _ => false
  | .sr _ _ => false
  | .mr _ _ => false
  | .dr _ _ => false
  | .alr _ _ => false
  | .slr _ _ => false
  | .sth _ _ _ _ => false
  | .la _ _ _ _ => false
  | .stc _ _ _ _ => false
  | .ic _ _ _ _ => false
  | .ex _ _ _ _ => false
  | .bal _ _ _ _ => false
  | .bct _ _ _ _ => false
  | .bc _ _ _ _ => false
  | .lh _ _ _ _ => false
  | .ch _ _ _ _ => false
  | .ah _ _ _ _ => false
  | .sh _ _ _ _ => false
  | .mh _ _ _ _ => false
  | .bas _ _ _ _ => false
  | .st _ _ _ _ => false
  | .n _ _ _ _ => false
  | .cl _ _ _ _ => false
  | .o _ _ _ _ => false
  | .x _ _ _ _ => false
  | .l _ _ _ _ => false
  | .c _ _ _ _ => false
  | .a _ _ _ _ => false
  | .s _ _ _ _ => false
  | .m _ _ _ _ => false
  | .d _ _ _ _ => false
  | .al _ _ _ _ => false
  | .sl _ _ _ _ => false
  | .bxh _ _ _ _ => false
  | .bxle _ _ _ _ => false
  | .srl _ _ _ => false
  | .sll _ _ _ => false
  | .sra _ _ _ => false
  | .sla _ _ _ => false
  | .srdl _ _ _ => false
  | .sldl _ _ _ => false
  | .srda _ _ _ => false
  | .slda _ _ _ => false
  | .stm _ _ _ _ => false
  | .tm _ _ _ => false
  | .mvi _ _ _ => false
  | .ni _ _ _ => false
  | .cli _ _ _ => false
  | .oi _ _ _ => false
  | .xi _ _ _ => false
  | .lm _ _ _ _ => false
  | .brc _ _ => false
  | .bras _ _ => false
  | .brct _ _ => false
  | .lhi _ _ => false
  | .ahi _ _ => false
  | .mhi _ _ => false
  | .chi _ _ => false
  | .stnsm _ _ _ => true
  | .stctl _ _ _ _ => true
  | .lctl _ _ _ _ => true
  | .spx _ _ => true
  | .stpx _ _ => true
  | .stap _ _ => true
  | .ipm _ => false
  | .cs _ _ _ _ => false
  | .cds _ _ _ _ => false
  | .clm _ _ _ _ => false
  | .stcm _ _ _ _ => false
  | .icm _ _ _ _ => false
  | .mvc _ _ _ _ _ => false
  | .nc _ _ _ _ _ => false
  | .clc _ _ _ _ _ => false
  | .oc _ _ _ _ _ => false
  | .xc _ _ _ _ _ => false
  | .sckpf => true
  | .stck _ _ => false
  | .sckc _ _ => true
  | .stckc _ _ => true
  | .spt _ _ => true
  | .stpt _ _ => true
  | .stcke _ _ => false
  | .lae _ _ _ _ => false
  | .lam _ _ _ _ => false
  | .stam _ _ _ _ => false
  | .cpya _ _ => false
  | .sar _ _ => false
  | .ear _ _ => false
  | .pr => false
  | .trap2 => false
  | .lra _ _ _ _ => false
  | .sck _ _ => false
  | .sie _ _ => false
  | .pc _ _ => false
  | .ivsk _ _ => false
  | .ssar _ _ => false
  | .epar _ => false
  | .esar _ => false
  | .pt _ _ => false
  | .bakr _ _ => false
  | .msta _ _ => false
  | .ereg _ _ => false
  | .esta _ _ => false
  | .bsg _ _ => false
  | .trap4 _ _ => false
  | .mvcp _ _ _ _ _ _ => false
  | .mvcs _ _ _ _ _ _ => false
  | .lasp _ _ _ _ => false
  | .ssm _ _ => true
  | .lpsw _ _ => true
  | .diag _ _ _ _ => true
  | .trace _ _ _ _ => true
  | .stosm _ _ _ => true
  | .sigp _ _ _ _ => true
  | .ptlb => true
  | .sac _ _ => false
  | .ipte _ _ => true
  | .iac _ => false
  | .iske _ _ => true
  | .rrbe _ _ => true
  | .sske _ _ => true
  | .tb _ => true
  | .stura _ _ => true
  | .palb => true
  | .lura _ _ => true
  | .tar _ _ => false
  | .bsa _ _ => false
  | .rp _ _ => false
  | .sacf _ _ => false
  | .tprot _ _ _ _ => true

/-- The instruction is one of the list that ESA/XC does not provide, TRAP2 and TRAP4 apart (R238). -/
def isNotProvided : Instr → Bool
  | .spm _ => false
  | .balr _ _ => false
  | .bctr _ _ => false
  | .bcr _ _ => false
  | .svc _ => false
  | .basr _ _ => false
  | .lpr _ _ => false
  | .lnr _ _ => false
  | .ltr _ _ => false
  | .lcr _ _ => false
  | .nr _ _ => false
  | .clr _ _ => false
  | .or _ _ => false
  | .xr _ _ => false
  | .lr _ _ => false
  | .cr _ _ => false
  | .ar _ _ => false
  | .sr _ _ => false
  | .mr _ _ => false
  | .dr _ _ => false
  | .alr _ _ => false
  | .slr _ _ => false
  | .sth _ _ _ _ => false
  | .la _ _ _ _ => false
  | .stc _ _ _ _ => false
  | .ic _ _ _ _ => false
  | .ex _ _ _ _ => false
  | .bal _ _ _ _ => false
  | .bct _ _ _ _ => false
  | .bc _ _ _ _ => false
  | .lh _ _ _ _ => false
  | .ch _ _ _ _ => false
  | .ah _ _ _ _ => false
  | .sh _ _ _ _ => false
  | .mh _ _ _ _ => false
  | .bas _ _ _ _ => false
  | .st _ _ _ _ => false
  | .n _ _ _ _ => false
  | .cl _ _ _ _ => false
  | .o _ _ _ _ => false
  | .x _ _ _ _ => false
  | .l _ _ _ _ => false
  | .c _ _ _ _ => false
  | .a _ _ _ _ => false
  | .s _ _ _ _ => false
  | .m _ _ _ _ => false
  | .d _ _ _ _ => false
  | .al _ _ _ _ => false
  | .sl _ _ _ _ => false
  | .bxh _ _ _ _ => false
  | .bxle _ _ _ _ => false
  | .srl _ _ _ => false
  | .sll _ _ _ => false
  | .sra _ _ _ => false
  | .sla _ _ _ => false
  | .srdl _ _ _ => false
  | .sldl _ _ _ => false
  | .srda _ _ _ => false
  | .slda _ _ _ => false
  | .stm _ _ _ _ => false
  | .tm _ _ _ => false
  | .mvi _ _ _ => false
  | .ni _ _ _ => false
  | .cli _ _ _ => false
  | .oi _ _ _ => false
  | .xi _ _ _ => false
  | .lm _ _ _ _ => false
  | .brc _ _ => false
  | .bras _ _ => false
  | .brct _ _ => false
  | .lhi _ _ => false
  | .ahi _ _ => false
  | .mhi _ _ => false
  | .chi _ _ => false
  | .stnsm _ _ _ => false
  | .stctl _ _ _ _ => false
  | .lctl _ _ _ _ => false
  | .spx _ _ => false
  | .stpx _ _ => false
  | .stap _ _ => false
  | .ipm _ => false
  | .cs _ _ _ _ => false
  | .cds _ _ _ _ => false
  | .clm _ _ _ _ => false
  | .stcm _ _ _ _ => false
  | .icm _ _ _ _ => false
  | .mvc _ _ _ _ _ => false
  | .nc _ _ _ _ _ => false
  | .clc _ _ _ _ _ => false
  | .oc _ _ _ _ _ => false
  | .xc _ _ _ _ _ => false
  | .sckpf => false
  | .stck _ _ => false
  | .sckc _ _ => false
  | .stckc _ _ => false
  | .spt _ _ => false
  | .stpt _ _ => false
  | .stcke _ _ => false
  | .lae _ _ _ _ => false
  | .lam _ _ _ _ => false
  | .stam _ _ _ _ => false
  | .cpya _ _ => false
  | .sar _ _ => false
  | .ear _ _ => false
  | .pr => true
  | .trap2 => false
  | .lra _ _ _ _ => true
  | .sck _ _ => true
  | .sie _ _ => true
  | .pc _ _ => true
  | .ivsk _ _ => true
  | .ssar _ _ => true
  | .epar _ => true
  | .esar _ => true
  | .pt _ _ => true
  | .bakr _ _ => true
  | .msta _ _ => true
  | .ereg _ _ => true
  | .esta _ _ => true
  | .bsg _ _ => true
  | .trap4 _ _ => false
  | .mvcp _ _ _ _ _ _ => true
  | .mvcs _ _ _ _ _ _ => true
  | .lasp _ _ _ _ => true
  | .ssm _ _ => false
  | .lpsw _ _ => false
  | .diag _ _ _ _ => false
  | .trace _ _ _ _ => false
  | .stosm _ _ _ => false
  | .sigp _ _ _ _ => false
  | .ptlb => false
  | .sac _ _ => false
  | .ipte _ _ => false
  | .iac _ => false
  | .iske _ _ => false
  | .rrbe _ _ => false
  | .sske _ _ => false
  | .tb _ => false
  | .stura _ _ => false
  | .palb => false
  | .lura _ _ => false
  | .tar _ _ => false
  | .bsa _ _ => false
  | .rp _ _ => false
  | .sacf _ _ => false
  | .tprot _ _ _ _ => false

/-- The instruction is TRAP2 or TRAP4 (R292). -/
def isTrap : Instr → Bool
  | .trap2 => true
  | .trap4 _ _ => true
  | _ => false

/-- The instruction would set the condition code if it completed normally (R34, R116). EXECUTE may, through its target, and so may DIAGNOSE, whose
services are not in the sources (R245). -/
def setsConditionCode : Instr → Bool
  | .spm _ => true
  | .balr _ _ => false
  | .bctr _ _ => false
  | .bcr _ _ => false
  | .svc _ => false
  | .basr _ _ => false
  | .lpr _ _ => true
  | .lnr _ _ => true
  | .ltr _ _ => true
  | .lcr _ _ => true
  | .nr _ _ => true
  | .clr _ _ => true
  | .or _ _ => true
  | .xr _ _ => true
  | .lr _ _ => false
  | .cr _ _ => true
  | .ar _ _ => true
  | .sr _ _ => true
  | .mr _ _ => false
  | .dr _ _ => false
  | .alr _ _ => true
  | .slr _ _ => true
  | .sth _ _ _ _ => false
  | .la _ _ _ _ => false
  | .stc _ _ _ _ => false
  | .ic _ _ _ _ => false
  | .ex _ _ _ _ => true
  | .bal _ _ _ _ => false
  | .bct _ _ _ _ => false
  | .bc _ _ _ _ => false
  | .lh _ _ _ _ => false
  | .ch _ _ _ _ => true
  | .ah _ _ _ _ => true
  | .sh _ _ _ _ => true
  | .mh _ _ _ _ => false
  | .bas _ _ _ _ => false
  | .st _ _ _ _ => false
  | .n _ _ _ _ => true
  | .cl _ _ _ _ => true
  | .o _ _ _ _ => true
  | .x _ _ _ _ => true
  | .l _ _ _ _ => false
  | .c _ _ _ _ => true
  | .a _ _ _ _ => true
  | .s _ _ _ _ => true
  | .m _ _ _ _ => false
  | .d _ _ _ _ => false
  | .al _ _ _ _ => true
  | .sl _ _ _ _ => true
  | .bxh _ _ _ _ => false
  | .bxle _ _ _ _ => false
  | .srl _ _ _ => false
  | .sll _ _ _ => false
  | .sra _ _ _ => true
  | .sla _ _ _ => true
  | .srdl _ _ _ => false
  | .sldl _ _ _ => false
  | .srda _ _ _ => true
  | .slda _ _ _ => true
  | .stm _ _ _ _ => false
  | .tm _ _ _ => true
  | .mvi _ _ _ => false
  | .ni _ _ _ => true
  | .cli _ _ _ => true
  | .oi _ _ _ => true
  | .xi _ _ _ => true
  | .lm _ _ _ _ => false
  | .brc _ _ => false
  | .bras _ _ => false
  | .brct _ _ => false
  | .lhi _ _ => false
  | .ahi _ _ => true
  | .mhi _ _ => false
  | .chi _ _ => true
  | .stnsm _ _ _ => false
  | .stctl _ _ _ _ => false
  | .lctl _ _ _ _ => false
  | .spx _ _ => false
  | .stpx _ _ => false
  | .stap _ _ => false
  | .ipm _ => false
  | .cs _ _ _ _ => true
  | .cds _ _ _ _ => true
  | .clm _ _ _ _ => true
  | .stcm _ _ _ _ => false
  | .icm _ _ _ _ => true
  | .mvc _ _ _ _ _ => false
  | .nc _ _ _ _ _ => true
  | .clc _ _ _ _ _ => true
  | .oc _ _ _ _ _ => true
  | .xc _ _ _ _ _ => true
  | .sckpf => false
  | .stck _ _ => true
  | .sckc _ _ => false
  | .stckc _ _ => false
  | .spt _ _ => false
  | .stpt _ _ => false
  | .stcke _ _ => true
  | .lae _ _ _ _ => false
  | .lam _ _ _ _ => false
  | .stam _ _ _ _ => false
  | .cpya _ _ => false
  | .sar _ _ => false
  | .ear _ _ => false
  | .pr => false
  | .trap2 => false
  | .lra _ _ _ _ => false
  | .sck _ _ => false
  | .sie _ _ => false
  | .pc _ _ => false
  | .ivsk _ _ => false
  | .ssar _ _ => false
  | .epar _ => false
  | .esar _ => false
  | .pt _ _ => false
  | .bakr _ _ => false
  | .msta _ _ => false
  | .ereg _ _ => false
  | .esta _ _ => false
  | .bsg _ _ => false
  | .trap4 _ _ => false
  | .mvcp _ _ _ _ _ _ => false
  | .mvcs _ _ _ _ _ _ => false
  | .lasp _ _ _ _ => false
  | .ssm _ _ => false
  | .lpsw _ _ => true
  | .diag _ _ _ _ => true
  | .trace _ _ _ _ => false
  | .stosm _ _ _ => false
  | .sigp _ _ _ _ => true
  | .ptlb => false
  | .sac _ _ => false
  | .ipte _ _ => false
  | .iac _ => true
  | .iske _ _ => false
  | .rrbe _ _ => true
  | .sske _ _ => false
  | .tb _ => true
  | .stura _ _ => false
  | .palb => false
  | .lura _ _ => false
  | .tar _ _ => true
  | .bsa _ _ => false
  | .rp _ _ => true
  | .sacf _ _ => false
  | .tprot _ _ _ _ => true

end Sys2Proof.Machine
end

