-- ==== Sys2Proof/Machine/Shift.lean ====
section
/-! DEFINITION. Shifts (spec/45_base_subset.md R350 to R357). The second-operand address is not used to reference storage (spec/30_encoding.md
R177). -/

namespace Sys2Proof.Machine

/-- The shift amount: the low-order six bits of the second-operand address. -/
def State.shiftAmount (s : State) (b2 : Reg) (d2 : Disp) : Nat := (s.eaBD b2 d2).toNat % 64

/-- A double shift: a specification exception for an odd register, else what the shift makes of the pair (R354). -/
def State.shiftPair (s : State) (r1 : Reg) (k : State → DWord → Out) : Out :=
  s.guarded 4 {} (specUnless (evenReg r1)) (fun s1 => k s1 (s1.pair r1))

/-- SHIFT LEFT SINGLE LOGICAL (SLL), R350. -/
def execSll (r1 b2 : Reg) (d2 : Disp) (s : State) : Out := .next ((s.advance 4).setGr r1 (s.gr r1 <<< s.shiftAmount b2 d2))

/-- SHIFT RIGHT SINGLE LOGICAL (SRL), R351. -/
def execSrl (r1 b2 : Reg) (d2 : Disp) (s : State) : Out := .next ((s.advance 4).setGr r1 (s.gr r1 >>> s.shiftAmount b2 d2))

/-- SHIFT LEFT SINGLE (SLA), R352. -/
def execSla (r1 b2 : Reg) (d2 : Disp) (s : State) : Out :=
  let r := shiftLeftS (s.gr r1) (s.shiftAmount b2 d2)
  (s.advance 4).signedResult 4 r1 { value := r.1, overflow := r.2 }

/-- SHIFT RIGHT SINGLE (SRA), R353. -/
def execSra (r1 b2 : Reg) (d2 : Disp) (s : State) : Out :=
  let v := (s.gr r1).sshiftRight (s.shiftAmount b2 d2)
  .next (((s.advance 4).setGr r1 v).setCc (ccSign v))

/-- SHIFT LEFT DOUBLE LOGICAL (SLDL), R354. -/
def execSldl (r1 b2 : Reg) (d2 : Disp) (s : State) : Out :=
  s.shiftPair r1 (fun s1 v => .next (s1.setPair r1 (v <<< s.shiftAmount b2 d2)))

/-- SHIFT RIGHT DOUBLE LOGICAL (SRDL), R355. -/
def execSrdl (r1 b2 : Reg) (d2 : Disp) (s : State) : Out :=
  s.shiftPair r1 (fun s1 v => .next (s1.setPair r1 (v >>> s.shiftAmount b2 d2)))

/-- SHIFT LEFT DOUBLE (SLDA), R356. -/
def execSlda (r1 b2 : Reg) (d2 : Disp) (s : State) : Out :=
  s.shiftPair r1 (fun s1 v =>
    let r := shiftLeftS v (s.shiftAmount b2 d2)
    ((s1.setPair r1 r.1).setCc (if r.2 then 3 else ccSign r.1)).overflow 4 r.2)

/-- SHIFT RIGHT DOUBLE (SRDA), R357. -/
def execSrda (r1 b2 : Reg) (d2 : Disp) (s : State) : Out :=
  s.shiftPair r1 (fun s1 v =>
    let r := v.sshiftRight (s.shiftAmount b2 d2)
    .next ((s1.setPair r1 r).setCc (ccSign r)))

end Sys2Proof.Machine
end

