-- ==== Sys2Proof/Machine/Reset.lean ====
section
/-! DEFINITION. The resets, store status and initial program loading (spec/70_reset_and_hazards.md R479 to R489). -/

namespace Sys2Proof.Machine

/-- CPU reset (R480). -/
def Cpu.cpuReset (c : Cpu) : Cpu :=
  { c with externalCall := none, emergencySignals := [], malfunctionAlerts := [], interruptKey := false, hostSignals := [], restartPending := false,
           machineChecks := [], staleBytes := [], exTarget := none, stopRequest := .none, status := .stopped }

/-- Initial CPU reset (R481). -/
def Cpu.initialReset (c : Cpu) : Cpu :=
  { c.cpuReset with psw := Psw.zero, prefixReg := 0, cpuTimer := 0, clockComparator := 0, todProg := 0, cr := Cpu.resetControls }

/-- The CPU part of clear reset (R484). -/
def Cpu.clearReset (c : Cpu) : Cpu :=
  { c.initialReset with gr := Vector.replicate 16 0, ar := Vector.replicate 16 0, fpr := Vector.replicate 16 0 }

/-- Every CPU of the configuration changed. -/
def State.onAllCpus (s : State) (f : Cpu → Cpu) : State := { s with cpu := f s.cpu, others := s.others.map f }

/-- The CPU with an address changed. -/
def State.onCpu (s : State) (address : Half) (f : Cpu → Cpu) : State :=
  if s.cpu.address = address then { s with cpu := f s.cpu }
  else { s with others := s.others.map (fun c => if c.address == address then f c else c) }

/-- The CPU with an address (R277). -/
def State.cpuAt (s : State) (address : Half) : Option Cpu :=
  if s.cpu.address = address then some s.cpu else s.others.find? (fun c => c.address == address)

/-- The host access-list entries of destroyed or isolated spaces become revoked (R151, R153). -/
def State.revoke (s : State) (asit : DWord) : State :=
  { s with hal := s.hal.map (fun e => if e.state == .valid && e.asit == asit then { e with state := .revoked } else e) }

/-- Subsystem reset (R483). -/
def State.subsystemReset (s : State) : State :=
  { s with pendingIo := [], serviceSignal := none, channelReports := [], hal := s.hal.map (fun _ => HalEntry.free),
           spaces := s.spaces.filter (fun p => p.origin != .created),
           hp := { s.hp with shareable := false, permits := [] } }

/-- System-reset-normal (R486). -/
def State.systemResetNormal (s : State) : State := (s.onAllCpus Cpu.cpuReset).subsystemReset

/-- System-reset-clear: clear reset of the whole configuration (R484, R486). -/
def State.systemResetClear (s : State) : State :=
  let s1 := (s.onAllCpus Cpu.clearReset).subsystemReset
  { s1 with hp := { s1.hp with mem := [], keys := [] } }

/-- The block can be stored into by the store-status function: it is assigned, and not read-only for the host. -/
def State.statusBlockOk (s : State) (b : Block) : Bool := s.hp.assigned b && !s.hp.readOnly b

/-- Bytes stored at host-primary absolute addresses (R99 `HPA`). -/
def State.storeAbsolute (s : State) : List (Addr × Byte) → State
  | [] => s
  | c :: rest => ((s.poke .hostPrimary c.1 c.2).record .hostPrimary (blockOf c.1) true).storeAbsolute rest

/-- Consecutive absolute addresses from a base and an offset. -/
def absoluteFrom (base : Addr) (offset : Nat) (bytes : List Byte) : List (Addr × Byte) :=
  ((List.range bytes.length).map (fun i => base + BitVec.ofNat 31 (offset + i))).zip bytes

/-- The word the prefix register is stored as (R27, R488). -/
def Cpu.prefixImage (c : Cpu) : Word := 0#1 ++ c.prefixReg ++ 0#12

/-- The registers the store-status function stores, with their offsets (R488). -/
def Cpu.statusArea (c : Cpu) : List (Nat × List Byte) :=
  [(216, bytes64 c.cpuTimer), (224, bytes64 c.clockComparator), (256, bytes64 c.psw.toDWord), (264, bytes32 c.prefixImage),
   (288, bytesOfWords c.ar.toList),
   (352, bytes64 (c.fpr[0]) ++ bytes64 (c.fpr[2]) ++ bytes64 (c.fpr[4]) ++ bytes64 (c.fpr[6])),
   (384, bytesOfWords c.gr.toList), (448, bytesOfWords c.cr.toList)]

/-- Store status of a CPU at a 512-byte area (R488). Key-controlled protection is not applied to its stores: R100 exempts a host-primary absolute
reference from steps 1 to 3 and from prefixing only, and neither R114 nor R488 nor R277 says whether step 6 applies or with which key: DESIGN CHOICE, log
entry 26. -/
def State.storeStatusOf (s : State) (base : Addr) (c : Cpu) : State :=
  if s.statusBlockOk (blockOf base) then s.storeAbsolute (c.statusArea.flatMap (fun f => absoluteFrom base f.1 f.2)) else s

/-- The general, access and floating-point registers at any value, as a program loaded without clearing finds them (R74, R490). -/
def State.freeRegisters (s : State) (c : Cpu) : Cpu :=
  { c with gr := Vector.ofFn (fun i => (s.draw (.generalRegister i.val)).setWidth 32),
           ar := Vector.ofFn (fun i => (s.draw (.accessRegister i.val)).setWidth 32),
           fpr := Vector.ofFn (fun i => s.draw (.floatRegister i.val)) }

/-- Storage and storage keys at any contents, in the assigned blocks (R490, D29). -/
def Space.withContents (p : Space) (contents : List Host.Cell) (keys : List (Nat × BitVec 7)) : Space :=
  { p with mem := sparseOf 0 (contents.filter (fun c => decide (c.1 < 2 ^ 31) && p.assigned (BitVec.ofNat 19 (c.1 / 4096)))),
           keys := sparseOf 0 (keys.filter (fun k => decide (k.1 < 2 ^ 19) && p.assigned (BitVec.ofNat 19 k.1))) }

/-- Load-normal (R486), with what registers, storage and keys then hold (R490). -/
def State.loadNormal (s : State) (contents : List Host.Cell) (keys : List (Nat × BitVec 7)) : State :=
  let s1 := s.nextDraw
  let s2 := { s1 with cpu := s1.freeRegisters s1.cpu.initialReset, others := s1.others.map Cpu.cpuReset }.subsystemReset
  { s2 with hp := s2.hp.withContents contents keys }

/-- Initial program loading begins (R486, R487): the reset, and the load state of the loading CPU. -/
def State.loadStart (s : State) (clear : Bool) (contents : List Host.Cell) (keys : List (Nat × BitVec 7)) : State :=
  let s1 := if clear then s.systemResetClear else s.loadNormal contents keys
  { s1 with cpu := { s1.cpu with status := .load } }

/-- The channel subsystem may store into a block with a subchannel key (R470 c): the block is assigned, the key is zero or that of the block, and host
page protection does not forbid it where it holds for channels: R470 (c) says that it does, R112 leaves it open, and a parameter of the configuration
decides, log entry 43. R106 and R107 name the override of storage protection for accesses of a CPU, and no rule says whether it holds for the
channel subsystem: it is not applied here, DESIGN CHOICE, log entry 43. -/
def State.channelMayStore (s : State) (key : BitVec 4) (b : Block) : Bool :=
  s.hp.assigned b && !(s.cfg.channelPageProtection && s.hp.readOnly b) && (key == 0 || key == keyAcc (s.hp.key b))

/-- The part of a load image that the channel subsystem stores, with subchannel key zero. -/
def State.imageCells (s : State) (image : List Host.Cell) : List (Addr × Byte) :=
  (image.filter (fun c => decide (c.1 < 2 ^ 31) && s.channelMayStore 0 (blockOf (BitVec.ofNat 31 c.1)))).map
    (fun c => (BitVec.ofNat 31 c.1, c.2))

/-- Bytes put in storage by initial program loading, the storage keys left as the reset made them (R490). -/
def State.loadBytes (s : State) : List (Addr × Byte) → State
  | [] => s
  | c :: rest => (s.poke .hostPrimary c.1 c.2).loadBytes rest

/-- The eight bytes at an absolute location of the host-primary space. -/
def State.absoluteBytes (s : State) (a : Addr) (n : Nat) : List Byte :=
  (List.range n).map (fun i => s.hp.byte (a + BitVec.ofNat 31 i))

/-- Initial program loading ends (R487): the image, the subsystem identification, and the PSW at absolute location 0. -/
def State.loadComplete (s : State) (image : List Host.Cell) (subsystem : Word) : State :=
  if s.cpu.status = .load ∧ s.hp.assigned 0 = true then
    let s1 := (s.loadBytes (s.imageCells image)).loadBytes
      (absoluteFrom 0 184 (bytes32 subsystem) ++ absoluteFrom 0 188 (bytes32 0))
    let s2 := s1.setPsw (Psw.ofDWord (be64 (s1.absoluteBytes 0 8)))
    { s2 with cpu := { s2.cpu with status := .operating } }
  else s

end Sys2Proof.Machine
end

