-- ==== Sys2Proof/Machine/Timing.lean ====
section
/-! DEFINITION. The timing facilities and their instructions (spec/40_timing_instructions.md R200 to R209). -/

namespace Sys2Proof.Machine

/-- Time passes for one CPU (R209): the CPU timer runs while the CPU is operating. -/
def Cpu.passTime (d : DWord) (c : Cpu) : Cpu :=
  if c.status = .operating then { c with cpuTimer := c.cpuTimer - d } else c

/-- Time passes (R209): the TOD value grows by `d`, and every running CPU timer decreases by it. -/
def State.passTime (s : State) (d : DWord) : State :=
  { s with tod := s.tod + d, cpu := s.cpu.passTime d, others := s.others.map (Cpu.passTime d) }

/-- Time that may pass (R209): not so much that the clock would start over, since successive samples rise (R208, log entry 37). -/
def State.mayPass (s : State) (d : DWord) : Bool := decide (s.tod.toNat + d.toNat < 2 ^ 64)

/-- How much time passes before the clock is sampled (R208): at least one unit, so that no value is seen twice, and no more than the
clock can count. -/
def State.clockAdvance (s : State) : DWord :=
  BitVec.ofNat 64 (1 + (s.draw .clock).toNat % (2 ^ 64 - 1 - s.tod.toNat))

/-- `TODDraw` (R208): the sampled value, and the time that has passed. -/
def State.sampleClock (s : State) : State := s.passTime s.clockAdvance

/-- STORE CLOCK (STCK), R200. -/
def execStck (b2 : Reg) (d2 : Disp) (s : State) : Out :=
  s.withStore 4 setsCc [] b2 (s.eaBD b2 d2) (bytes64 s.sampleClock.tod) (fun s1 =>
    .next (((s1.passTime s.clockAdvance).setCc 0).serialize))

/-- The sixteen bytes STORE CLOCK EXTENDED stores (R201): zero, bits 0-103 of the clock, and the programmable field. -/
def State.extendedClock (s : State) : List Byte :=
  [0] ++ bytes64 s.sampleClock.tod ++ (bytes64 (s.draw .clockFraction)).take 5 ++ bytes16 s.cpu.todProg

/-- STORE CLOCK EXTENDED (STCKE), R201. -/
def execStcke (b2 : Reg) (d2 : Disp) (s : State) : Out :=
  if s.cfg.extTodInstalled then
    s.withStore 4 setsCc [] b2 (s.eaBD b2 d2) s.extendedClock (fun s1 =>
      .next (((s1.passTime s.clockAdvance).setCc 0).serialize))
  else s.takeException 4 {} .operation

/-- SET CLOCK PROGRAMMABLE FIELD (SCKPF), R203. Its privileged-operation exception has instruction-length code 1, which R170 and R402 give an instruction
of two bytes, or 2 under EXECUTE, where R406 has 2 or 3 for every such exception: DESIGN CHOICE, log entry 45. -/
def execSckpf (s : State) : Out :=
  if s.cfg.extTodInstalled then
    s.supervisorOnly 2 (s.guarded 2 {} (specUnless (field (s.gr 0) 0 16 == 0)) (fun s1 =>
      .next { s1 with cpu := { s1.cpu with todProg := field (s.gr 0) 16 16 } }))
  else s.takeException 2 {} .operation

/-- SET CLOCK COMPARATOR (SCKC), R204. -/
def execSckc (b2 : Reg) (d2 : Disp) (s : State) : Out :=
  let ea := s.eaBD b2 d2
  s.supervisorOnly 4 (s.withFetch 4 { comparator := true } operandCheck (specUnless (aligned ea 8)) b2 ea 8
    (fun s1 bs => .next (s1.setComparator (be64 bs))))

/-- STORE CLOCK COMPARATOR (STCKC), R205. -/
def execStckc (b2 : Reg) (d2 : Disp) (s : State) : Out :=
  let ea := s.eaBD b2 d2
  s.supervisorOnly 4 (s.withStore 4 {} (specUnless (aligned ea 8)) b2 ea (bytes64 s.cpu.clockComparator) .next)

/-- SET CPU TIMER (SPT), R206. -/
def execSpt (b2 : Reg) (d2 : Disp) (s : State) : Out :=
  let ea := s.eaBD b2 d2
  s.supervisorOnly 4 (s.withFetch 4 { timer := true } operandCheck (specUnless (aligned ea 8)) b2 ea 8
    (fun s1 bs => .next (s1.setTimer (be64 bs))))

/-- STORE CPU TIMER (STPT), R207. -/
def execStpt (b2 : Reg) (d2 : Disp) (s : State) : Out :=
  let ea := s.eaBD b2 d2
  s.supervisorOnly 4 (s.withStore 4 {} (specUnless (aligned ea 8)) b2 ea (bytes64 s.cpu.cpuTimer) .next)

end Sys2Proof.Machine
end

