-- ==== Sys2Proof/Machine/Host.lean ====
section
/-! DEFINITION. The moves of the environment (spec/00_scope.md R7, spec/20_memory.md R150 to R158, R169, spec/60_exceptions.md R442 to R444,
spec/70_reset_and_hazards.md R486 to R489). A move that its rule does not allow in the state it meets changes nothing. -/

namespace Sys2Proof.Machine

/-- The cells that lie in the first `blocks` blocks of a space. -/
def cellsWithin (blocks : Nat) (contents : List Host.Cell) : List Host.Cell :=
  contents.filter (fun c => decide (c.1 < 4096 * blocks))

/-- A space of `blocks` contiguous blocks with given contents and keys (R83, R150, D29). -/
def Space.fresh (asit : DWord) (origin : SpaceOrigin) (blocks : Nat) (contents : List Host.Cell) (keys : List (Nat × BitVec 7)) : Space :=
  { asit := asit, origin := origin, ranges := [(0, blocks)], mem := sparseOf 0 (cellsWithin blocks contents),
    keys := sparseOf 0 (keys.filter (fun k => decide (k.1 < blocks))), readOnlyBlocks := [], unusableBlocks := [],
    shareable := false, permits := [] }

/-- An ASIT the host may give a new space (R87, R88, D8). -/
def State.freshAsit (s : State) (asit : DWord) : Bool := asit != 0 && !s.issued.contains asit

/-- The spaces made by ADRSPACE CREATE (R83). -/
def State.createdSpaces (s : State) : List Space := s.spaces.filter (fun p => p.origin == .created)

/-- The number of blocks of a space. -/
def Space.blocks (p : Space) : Nat := (p.ranges.map (fun r => r.2)).sum

/-- ADRSPACE CREATE (R150). -/
def State.adrspaceCreate (s : State) (asit : DWord) (blocks : Nat) (contents : List Host.Cell) (keys : List (Nat × BitVec 7)) : State :=
  if s.freshAsit asit = true ∧ 1 ≤ blocks ∧ blocks ≤ 2 ^ 19 ∧ s.createdSpaces.length < s.cfg.maxSpaces ∧
      (s.createdSpaces.map Space.blocks).sum + blocks ≤ s.cfg.maxTotalBlocks then
    { s with spaces := s.spaces ++ [Space.fresh asit .created blocks contents keys], issued := asit :: s.issued }
  else s

/-- A space this configuration has made (R151). -/
def State.owns (s : State) (asit : DWord) : Bool := s.spaces.any (fun p => p.asit == asit && p.origin == .created)

/-- ADRSPACE DESTROY (R151). -/
def State.adrspaceDestroy (s : State) (asit : DWord) : State :=
  if s.owns asit then { s with spaces := s.spaces.filter (fun p => p.asit != asit) }.revoke asit else s

/-- A space of this configuration changed: the host-primary space, or one made by ADRSPACE CREATE. -/
def State.updateOwned (s : State) (asit : DWord) (f : Space → Space) : State :=
  if asit = s.hp.asit then { s with hp := f s.hp }
  else if s.owns asit then s.updateSpace (.data asit) f else s

/-- ADRSPACE PERMIT (R152). A second permission to one virtual machine with another access is kept beside the first: DESIGN CHOICE, log entry
44. -/
def State.adrspacePermit (s : State) (asit : DWord) (machine : Nat) (access : Access) : State :=
  if s.cfg.shareAuth then s.updateOwned asit (fun p => { p with shareable := true, permits := (machine, access) :: p.permits }) else s

/-- ADRSPACE ISOLATE (R153); the owner's own entries stay valid. -/
def State.adrspaceIsolate (s : State) (asit : DWord) : State :=
  s.updateOwned asit (fun p => { p with shareable := false, permits := [] })

/-- The access this configuration may be given to a space (R154): any to its own, what the owner permits to another's. -/
def State.authorized (s : State) (asit : DWord) (access : Access) : Bool :=
  if asit = s.hp.asit then true
  else match s.spaces.find? (fun p => p.asit == asit) with
    | none => false
    | some p =>
      match p.origin with
      | .foreign none => false
      | .foreign (some .readOnly) => access == .readOnly
      | .foreign (some .readWrite) => true
      | .created => true
      | .hostPrimary => true

/-- The first unused entry filled (R154). -/
def fillUnused (new : HalEntry) : List HalEntry → List HalEntry
  | [] => []
  | e :: rest => if e.state == .unused then new :: rest else e :: fillUnused new rest

/-- ALSERV ADD, with the ALET the host chooses (R154, D7). -/
def State.alservAdd (s : State) (asit : DWord) (access : Access) (alet : Word) (asynchronous : Bool) : State :=
  if alet ≠ 0 ∧ s.aletWf alet = true ∧ s.entryOf alet = none ∧ s.authorized asit access = true then
    { s with hal := fillUnused { state := .valid, alet := alet, asit := asit, access := access, asynchronous := asynchronous } s.hal }
  else s

/-- ALSERV REMOVE (R155). -/
def State.alservRemove (s : State) (alet : Word) : State :=
  { s with hal := s.hal.map (fun e => if e.state != .unused && e.alet == alet then HalEntry.free else e) }

/-- A space of another virtual machine that this configuration knows. -/
def State.knowsForeign (s : State) (asit : DWord) : Bool :=
  s.spaces.any (fun p => p.asit == asit && p.origin != .created)

/-- Another virtual machine permits a space of its own (R152, R156), known from before or not: the space is shareable (R84, R85). A second
permission replaces the first: DESIGN CHOICE, log entry 44. -/
def State.foreignPermit (s : State) (asit : DWord) (blocks : Nat) (contents : List Host.Cell) (keys : List (Nat × BitVec 7))
    (access : Access) : State :=
  if s.knowsForeign asit then s.updateSpace (.data asit) (fun p => { p with origin := .foreign (some access), shareable := true })
  else if s.freshAsit asit = true ∧ 1 ≤ blocks ∧ blocks ≤ 2 ^ 19 then
    { s with spaces := s.spaces ++ [{ Space.fresh asit (.foreign (some access)) blocks contents keys with shareable := true }],
             issued := asit :: s.issued }
  else s

/-- The owner isolates a space (R153, R156), which is then private (R85). -/
def State.foreignIsolate (s : State) (asit : DWord) : State :=
  if s.knowsForeign asit then (s.updateSpace (.data asit) (fun p => { p with origin := .foreign none, shareable := false })).revoke asit else s

/-- The owner destroys a space (R151, R156). -/
def State.foreignDestroy (s : State) (asit : DWord) : State :=
  if s.knowsForeign asit then { s with spaces := s.spaces.filter (fun p => p.asit != asit) }.revoke asit else s

/-- Another virtual machine may change a byte or a key of the space (R89, R156, D27). -/
def Space.writableByOthers (p : Space) : Bool :=
  match p.origin with
  | .foreign _ => true
  | _ => p.shareable && p.permits.any (fun q => q.2 == .readWrite)

/-- A store by another agent into the host-primary space: instruction fetches need not see it before a serialization (R166). -/
def State.noteForeignStore (s : State) (a : Addr) : State :=
  s.onAllCpus (fun c => { c with staleBytes := (a.toNat, s.hp.byte a) :: c.staleBytes })

/-- A byte stored by another agent, by absolute address (R156, R166). -/
def State.agentStore (s : State) (id : SpaceId) (a : Addr) (v : Byte) : State :=
  ((if id = .hostPrimary then s.noteForeignStore a else s).poke id a v).record id (blockOf a) true

/-- A byte stored by another virtual machine (R156, D27). -/
def State.foreignStore (s : State) (asit : DWord) (a : Addr) (v : Byte) : State :=
  let id := s.spaceOf asit
  if (s.space id).writableByOthers && (s.space id).assigned (blockOf a) then s.agentStore id a v else s

/-- A storage key set by another virtual machine (R156). -/
def State.foreignKey (s : State) (asit : DWord) (b : Block) (k : BitVec 7) : State :=
  let id := s.spaceOf asit
  if (s.space id).writableByOthers && (s.space id).assigned b then s.updateSpace id (fun p => p.setKey b k) else s

/-- A block of any space changed by the host, where it is assigned. -/
def State.onBlock (s : State) (asit : DWord) (b : Block) (f : Space → Space) : State :=
  let id := s.spaceOf asit
  if (s.space id).assigned b then s.updateSpace id f else s

/-- Reference and change recording outside the executed references (R109, U28). -/
def State.recordKey (s : State) (asit : DWord) (b : Block) (reference change : Bool) : State :=
  s.onBlock asit b (fun p => p.setKey b (keyWith (p.key b) reference (keyChange (p.key b) || change)))

/-- A byte stored by the channel subsystem (R169, R470): host-primary absolute, with the subchannel key. -/
def State.channelStore (s : State) (key : BitVec 4) (a : Addr) (v : Byte) : State :=
  if s.channelMayStore key (blockOf a) then s.agentStore .hostPrimary a v else s

/-- Another CPU becomes the one that executes (R7). -/
def State.dispatch (s : State) (address : Half) : State :=
  match s.others.find? (fun c => c.address == address) with
  | none => s
  | some c => { s with cpu := c, others := s.cpu :: s.others.filter (fun o => o.address != address) }

/-- The operator starts a CPU (R489). -/
def Cpu.start (c : Cpu) : Cpu := if c.status = .stopped then { c with status := .operating } else c

/-- A stop is accepted (R489). The status that an earlier order asked for is stored all the same (R277 order 09). A stop, or a stop and store status, of
a CPU that is not operating has no effect: the model's, log entry 25. -/
def Cpu.stop (c : Cpu) (how : StopRequest) : Cpu :=
  if c.status = .operating then
    { c with stopRequest := if c.stopRequest = .stopAndStoreStatus then .stopAndStoreStatus else how }
  else c

/-- A byte of any space stored by a host service, where its block is assigned. -/
def State.serviceStore (s : State) (asit : DWord) (a : Addr) (v : Byte) : State :=
  let id := s.spaceOf asit
  if (s.space id).assigned (blockOf a) then s.agentStore id a v else s

/-- The prefix set by a host service, where its block is assigned: HP_RANGES contains every CPU's prefix area (R82). -/
def State.servicePrefix (s : State) (b : Block) : State := if s.hp.assigned b then s.setPrefix b else s

/-- The programmable field set by a host service, where the CPU has the register (R56). -/
def State.serviceTodProg (s : State) (v : Half) : State :=
  if s.cfg.extTodInstalled then { s with cpu := { s.cpu with todProg := v } } else s

/-- The CPU `old` as a host service leaves it, given as `new`: all of it but the model's own fields and the registers it does not have (R26, R56). -/
def State.servedCpu (s : State) (new old : Cpu) : Cpu :=
  { new with fpr := Vector.ofFn (fun i => if s.fprNumbers.contains i.val then new.fpr[i] else old.fpr[i]),
             todProg := if s.cfg.extTodInstalled then new.todProg else old.todProg,
             exTarget := old.exTarget, staleBytes := old.staleBytes }

/-- A CPU as a host service leaves it, where its prefix area is assigned (R82). -/
def State.serviceCpu (s : State) (c : Cpu) : State :=
  if s.hp.assigned c.prefixReg then s.onCpu c.address (s.servedCpu c) else s

/-- One move of the environment (R7). A service signal that arrives while one is pending takes its place, and time passes only as far as the clock
can count: DESIGN CHOICE, log entries 41 and 37. The operator's restart of a CPU in the load state stays pending until the load is complete:
DESIGN CHOICE, log entry 25. -/
def applyInput (i : Input) (s : State) : State :=
  match i with
  | .cpu => s
  | .dispatch address => s.dispatch address
  | .timePasses d => if s.mayPass d then s.passTime d else s
  | .adrspaceCreate asit blocks contents keys => s.adrspaceCreate asit blocks contents keys
  | .adrspaceDestroy asit => s.adrspaceDestroy asit
  | .adrspacePermit asit machine access => s.adrspacePermit asit machine access
  | .adrspaceIsolate asit => s.adrspaceIsolate asit
  | .alservAdd asit access alet asynchronous => s.alservAdd asit access alet asynchronous
  | .alservRemove alet => s.alservRemove alet
  | .foreignPermit asit blocks contents keys access => s.foreignPermit asit blocks contents keys access
  | .foreignIsolate asit => s.foreignIsolate asit
  | .foreignDestroy asit => s.foreignDestroy asit
  | .foreignStore asit addr value => s.foreignStore asit addr value
  | .foreignKey asit block key => s.foreignKey asit block key
  | .setPageProtection asit block readOnly => s.onBlock asit block (fun p => p.setReadOnly block readOnly)
  | .setUnusable asit block unusable => s.onBlock asit block (fun p => p.setUnusable block unusable)
  | .recordKey asit block reference change => s.recordKey asit block reference change
  | .channelStore key addr value => s.channelStore key addr value
  | .ioInterruption i => { s with pendingIo := s.pendingIo ++ [i] }
  | .serviceSignal parameter => { s with serviceSignal := some parameter }
  | .hostSignal address h => s.onCpu address (fun c => { c with hostSignals := c.hostSignals ++ [h] })
  | .channelReport m => { s with channelReports := s.channelReports ++ [m] }
  | .machineCheck address m => s.onCpu address (fun c => { c with machineChecks := c.machineChecks ++ [m] })
  | .interruptKey address => s.onCpu address (fun c => { c with interruptKey := true })
  | .malfunctionAlert address source => s.onCpu address (fun c => { c with malfunctionAlerts := c.malfunctionAlerts ++ [source] })
  | .setBusy address busy => s.onCpu address (fun c => { c with busy := busy })
  | .setOperatorStatus address status => s.onCpu address (fun c => { c with operatorStatus := status })
  | .operatorStart address => s.onCpu address Cpu.start
  | .operatorStop address => s.onCpu address (fun c => c.stop .stop)
  | .operatorRestart address => s.onCpu address (fun c => { c with restartPending := true })
  | .storeStatus address =>
    match s.cpuAt address with
    | some c => if c.status = .stopped then s.storeStatusOf 0 c else s
    | none => s
  | .systemResetNormal => s.systemResetNormal
  | .systemResetClear => s.systemResetClear
  | .loadStart clear contents keys => s.loadStart clear contents keys
  | .loadComplete image subsystem => s.loadComplete image subsystem
  | .serviceRegister r value => s.setGr r value
  | .serviceAccessRegister r value => s.setAr r value
  | .serviceControlRegister r value => s.setCr r value
  | .serviceFloat r value => s.setFpr r value
  | .serviceCondition cc => s.setCc cc
  | .servicePrefix block => s.servicePrefix block
  | .serviceComparator value => s.setComparator value
  | .serviceTimer value => s.setTimer value
  | .serviceTodProg value => s.serviceTodProg value
  | .serviceStore asit addr value => s.serviceStore asit addr value
  | .serviceKey asit block key => s.onBlock asit block (fun p => p.setKey block key)
  | .serviceCpu c => s.serviceCpu c
  | .serviceFloating io signal reports => { s with pendingIo := io, serviceSignal := signal, channelReports := reports }

/-- The moves a host service may make (R245, D25): every one but those that schedule the CPUs. -/
def Input.isService : Input → Bool
  | .cpu => false
  | .dispatch _ => false
  | _ => true

/-- The moves of a host service, in order. -/
def State.serve (s : State) : List Input → State
  | [] => s
  | i :: rest => (applyInput i s).serve rest

/-- A register number is the one asked for, if one is. -/
def regMatches (asked : Option Reg) (r : Reg) : Bool :=
  match asked with
  | none => true
  | some q => q == r

/-- The bits under a mask are those of a value. -/
def masked {w : Nat} (mask value v : BitVec w) : Bool := v &&& mask == value &&& mask

/-- A CPU without the model's own fields. -/
def Cpu.architected (c : Cpu) : Cpu := { c with exTarget := none, staleBytes := [] }

/-- The answer to a question about the state (D25). -/
def State.meets (s : State) : StateTest → Bool
  | .general r mask value => masked mask value (s.gr r)
  | .access r mask value => masked mask value (s.ar r)
  | .control r mask value => masked mask value (s.cr r)
  | .float r mask value => masked mask value (s.cpu.fpr[r.toNat]'r.isLt)
  | .psw mask value => masked mask value s.cpu.psw.toDWord
  | .prefixed block => s.cpu.prefixReg == block
  | .clockComparator mask value => masked mask value s.cpu.clockComparator
  | .cpuTimer mask value => masked mask value s.cpu.cpuTimer
  | .todProg mask value => masked mask value s.cpu.todProg
  | .clock mask value => masked mask value s.tod
  | .byte asit addr mask value => masked mask value ((s.space (s.spaceOf asit)).byte addr)
  | .key asit block mask value => masked mask value ((s.space (s.spaceOf asit)).key block)
  | .assigned asit block on => (s.space (s.spaceOf asit)).assigned block == on
  | .readOnly asit block on => (s.space (s.spaceOf asit)).readOnly block == on
  | .usable asit block on => (s.space (s.spaceOf asit)).usable block == on
  | .entry alet e => s.entryOf alet == e
  | .accessList l => s.hal == l
  | .hostPrimary p => s.hp == p
  | .spaces l => s.spaces == l
  | .issued l => s.issued == l
  | .cpu address c => (s.cpuAt address).map Cpu.architected == c.map Cpu.architected
  | .floating io signal reports => s.pendingIo == io && s.serviceSignal == signal && s.channelReports == reports
  | .config c => s.cfg == c

/-- The case of the `HostService` parameter is about DIAGNOSE with this code and these register numbers in this state (R245, D25). -/
def State.serviceApplies (s : State) (code : Half) (rx ry : Reg) (v : HostService) : Bool :=
  v.code == code && regMatches v.rx rx && regMatches v.ry ry && v.tests.all s.meets

/-- The program-interruption codes of R404 with which a host service may end, but for the two exceptions that store an ALET. Absent are the codes of
Table 6, which are never recognized (R416), every code with bit 8 one (R419), and those of R404 that are another instruction's (0012: R417; 0016, 0040) or
for which it gives no ending (0119): DESIGN CHOICE for these four, log entry 24. -/
def serviceCodes : List Half :=
  [0x0001, 0x0002, 0x0003, 0x0004, 0x0005, 0x0006, 0x0007, 0x0008, 0x0009, 0x000A, 0x000B, 0x000C, 0x000D, 0x000E, 0x000F, 0x0013, 0x0015, 0x001D, 0x0028]

/-- An ending that can occur (R404, R416, R419): an exception has one of the codes above, or is an ALEN-translation exception, which nullifies, or an
addressing-capability exception, and these two alone store an ALET (R409, R410). -/
def ServiceEnding.possible : ServiceEnding → Bool
  | .completes => true
  | .exception code nullified none => serviceCodes.contains code && !nullified
  | .exception code nullified (some _) => (code == 0x0029 && nullified) || (code == 0x0136 && !nullified)
  | .loadsPsw _ => true

/-- What the host service does (R245, D25): one of the possible outcomes of the first case that applies, as the environment chooses; none where the
parameter defines none. -/
def State.serviceFor (s : State) (code : Half) (rx ry : Reg) : Option ServiceOutcome :=
  match s.services.find? (s.serviceApplies code rx ry) with
  | none => none
  | some v =>
    match v.outcomes.filter (fun o => o.ending.possible) with
    | [o] => some o
    | os => os[(s.draw .service).toNat % os.length]?

/-- DIAGNOSE serializes or not, as the environment chooses: R163 calls it model-dependent (log entry 24). -/
def State.maySerialize (s : State) : State :=
  { s with cpu := { s.cpu with staleBytes := if coin (s.draw .serialization) then [] else s.cpu.staleBytes } }

/-- A protection exception that a host service meets, at any address of either type and through any access register (R117, R118): which one the spec does
not say, log entry 24. -/
def State.serviceProtection (s : State) : ProgExc :=
  let v := s.draw .serviceAddress
  .protection (field v 0 19) (bitAt v 19) (.register (field v 20 4))

/-- The locations that an exception of a host service stores besides its code (R409, R410, R412). -/
def State.serviceStores (s : State) (code : Half) : Option Word → List (Nat × List Byte)
  | some a => [(168, bytes32 a), (160, [0])]
  | none => if code = 0x0004 then s.extraStores s.serviceProtection else []

/-- How DIAGNOSE ends (R245). A PSW that a service loads and that is not valid is met as LOAD PSW meets one, with instruction-length code 0: R421 gives
0 for LOAD PSW and interruptions, 2 for SET SYSTEM MASK and STORE THEN OR SYSTEM MASK, and does not name DIAGNOSE; DESIGN CHOICE, log entry 24. After a
protection exception whose identification has bit 29 one the condition code is the one the moves of the service leave: R412 makes it any value where the
instruction sets it, and no rule says whether DIAGNOSE does; DESIGN CHOICE, log entry 24. -/
def State.endService (s : State) (ilc : Nat) : ServiceEnding → Out
  | .completes => .next s
  | .exception code _ alet => s.programInterruption code ilc (s.serviceStores code alet)
  | .loadsPsw v => s.enterPsw (Psw.ofDWord v) 0

/-- The instruction address is that of the DIAGNOSE while its service runs, or the updated one. -/
def State.beginService (s : State) : ServiceEnding → State
  | .exception _ true _ => s
  | .exception _ false _ => s.advance 4
  | .completes => s.advance 4
  | .loadsPsw _ => s.advance 4

/-- DIAGNOSE (DIAG), R245: the host service of the code in bits 16-31 of the second-operand address, with registers Rx and Ry. -/
def execDiag (r1 r3 b2 : Reg) (d2 : Disp) (s : State) : Out :=
  let code : Half := (s.eaBD b2 d2).setWidth 16
  s.supervisorOnly 4 (match s.serviceFor code r1 r3 with
    | none => .refused (.hostService code)
    | some o => (((s.beginService o.ending).maySerialize).serve (o.moves.filter Input.isService)).endService (s.ilcOf 4) o.ending)

end Sys2Proof.Machine
end

