-- ==== Sys2Proof/Machine/Sigp.lean ====
section
/-! DEFINITION. SIGNAL PROCESSOR (spec/44_modified_instructions_b.md R277). -/

namespace Sys2Proof.Machine

/-- A status word with one bit, numbered from the left. -/
def statusBit (i : Nat) : Word := (0x80000000 : Word) >>> i

/-- The status bits the environment reports: equipment check, operator intervening, not ready, receiver check (R277). -/
def Cpu.environmentStatus (c : Cpu) : Word := c.operatorStatus &&& 0x80000029

/-- The status SENSE stores (R277): what the environment reports, external call pending, stopped, check stop. -/
def Cpu.senseStatus (c : Cpu) : Word :=
  c.environmentStatus ||| (if c.externalCall.isSome then statusBit 24 else 0) |||
    (if c.status = .stopped then statusBit 25 else 0) ||| (if c.status = .checkStop then statusBit 27 else 0)

/-- What an order meets at the addressed CPU: accepted, with what it makes of the configuration, or a status. -/
inductive OrderResult where
  | accepted (s : State)
  | status (w : Word)

/-- An order that changes the addressed CPU alone. A CPU in the check-stop state does not accept it. -/
def State.orderCpu (s : State) (target : Half) (c : Cpu) (f : Cpu → Cpu) : OrderResult :=
  if c.status = .checkStop then .status (statusBit 27) else .accepted (s.onCpu target f)

/-- The prefix or the status area a parameter names cannot be used, or the CPU is not stopped: as R277 says of order 0D; that order 0E answers so too, and
that both bits are stored where both hold, is PRESUMED, log entry 25. -/
def stoppedOrder (c : Cpu) (blockOk : Bool) (s1 : State) : OrderResult :=
  let w := (if c.status = .stopped then 0 else statusBit 22) ||| (if blockOk then 0 else statusBit 23)
  if w = 0 then .accepted s1 else .status w

/-- An emergency signal, one pending for each source (R442). -/
def addSignal (source : Half) (l : List Half) : List Half := if l.contains source then l else l ++ [source]

/-- The addressed CPU with a prefix set by another (R277 order 0D), and serialized: its fetches see no older bytes from then on. R277 says that
serialization is performed and not at which CPU, and R505 speaks of SET PREFIX alone: DESIGN CHOICE, log entry 25. -/
def Cpu.withPrefix (b : Block) (c : Cpu) : Cpu := { c with prefixReg := b, staleBytes := [] }

/-- A reset order (R277, R486): it resets the addressed CPU if that is another one. No instruction resets the CPU that executes it (R486); an order
to itself is accepted without effect or rejected as incorrect state, as the environment chooses: DESIGN CHOICE, log entry 25. -/
def State.orderReset (s : State) (target : Half) (f : Cpu → Cpu) : OrderResult :=
  if target ≠ s.cpu.address then .accepted (s.onCpu target f)
  else if coin (s.draw .either) then .accepted s else .status (statusBit 22)

/-- One order at the addressed CPU (R277). Order 02 to a CPU that is in the check-stop state and has an external call pending stores bit 24 alone: R277
does not say which bits are stored where both conditions hold, DESIGN CHOICE, log entry 25. Where R277 does not say what an order meets, the answer is the model's, log entry 25. Orders 04 and 05 to a
CPU that is not in the state they start from are accepted without effect, and order 0E answers bit 22 or bit 23 as order 0D does, an area that the host
keeps read-only among them (PRESUMED). Order 09 to a CPU in the load state is accepted without effect, and order 06 to one is accepted and its restart kept
pending until the loading is complete (DESIGN CHOICE). -/
def State.order (s : State) (code : Byte) (target : Half) (c : Cpu) (param : Word) : OrderResult :=
  match code.toNat with
  | 0x01 => if c.senseStatus = 0 then .accepted s else .status c.senseStatus
  | 0x02 =>
    if c.externalCall.isSome then .status (statusBit 24)
    else s.orderCpu target c (fun o => { o with externalCall := some s.cpu.address })
  | 0x03 => s.orderCpu target c (fun o => { o with emergencySignals := addSignal s.cpu.address o.emergencySignals })
  | 0x04 => s.orderCpu target c Cpu.start
  | 0x05 => s.orderCpu target c (fun o => o.stop .stop)
  | 0x06 => s.orderCpu target c (fun o => { o with restartPending := true })
  | 0x09 =>
    if c.status = .stopped then .accepted (s.storeStatusOf 0 c) else s.orderCpu target c (fun o => o.stop .stopAndStoreStatus)
  | 0x0b => s.orderReset target Cpu.initialReset
  | 0x0c => s.orderReset target Cpu.cpuReset
  | 0x0d =>
    let b : Block := field param 1 19
    stoppedOrder c (s.hp.assigned b) (s.onCpu target (Cpu.withPrefix b))
  | 0x0e =>
    let base : Addr := field param 1 22 ++ 0#9
    stoppedOrder c (s.statusBlockOk (blockOf base)) (s.storeStatusOf base c)
  | _ => .status (statusBit 30)

/-- An order with the environment's own status (R277): any but SENSE is rejected with it. -/
def State.signal (s : State) (code : Byte) (target : Half) (c : Cpu) (param : Word) : OrderResult :=
  if code ≠ 1 ∧ c.environmentStatus ≠ 0 then .status c.environmentStatus else s.order code target c param

/-- SIGNAL PROCESSOR (SIGP), R277. -/
def execSigp (r1 r3 b2 : Reg) (d2 : Disp) (s : State) : Out :=
  let code : Byte := (s.eaBD b2 d2).setWidth 8
  let target : Half := field (s.gr r3) 16 16
  let param := s.gr (oddOf r1)
  s.supervisorOnly 4 (
    let s1 := (s.advance 4).serialize
    match s.cpuAt target with
    | none => .next (s1.setCc 3)
    | some c =>
      if c.busy then .next (s1.setCc 2)
      else match (s1.setCc 0).signal code target c param with
        | .accepted s2 => .next s2
        | .status w => .next ((s1.setCc 1).setGr r1 w))

end Sys2Proof.Machine
end

