-- ==== Sys2Proof/Machine/Execute.lean ====
section
/-! DEFINITION. Instruction fetch (spec/30_encoding.md R180, R181) and EXECUTE (spec/45_base_subset.md R370). The instruction a state executes as the
target of EXECUTE has the same meaning as elsewhere, with the addresses and the instruction-length code of R370. -/

namespace Sys2Proof.Machine

/-- What fetching an instruction answers. -/
inductive Fetched where
  /-- exceptions of equal priority, the length of the instruction, and whether it would set the condition code -/
  | faults (len : Nat) (cc : Bool) (x : ProgExc) (rest : List ProgExc)
  | undecoded (first second : Byte)
  | instruction (i : Instr) (s : State)

/-- A byte fetched as part of an instruction, number `i` of those the instruction in execution fetches: what storage holds, or, until a
serialization, what it held before a store that fetches need not see (R166, D37). -/
def State.codeByte (s : State) (i : Nat) (e : Addr) : Byte :=
  let a := s.absolute instructionTarget e
  let now := s.hp.byte a
  match s.cpu.staleBytes.filter (fun c => c.1 == a.toNat) with
  | [] => now
  | old => (now :: old.map (fun c => c.2)).getD ((s.draw (.prefetch i)).toNat % (old.length + 1)) now

/-- The bytes fetched at an address, numbered from `first`. -/
def State.codeBytes (s : State) (first : Nat) (a : Addr) (n : Nat) : List Byte :=
  (List.range n).map (fun i => s.codeByte (first + i) (wrapMode s.cpu.psw.amode (a + BitVec.ofNat 31 i)))

/-- The second byte of an instruction replaced by its OR with a mask (R370). -/
def orSecond (m : Byte) : List Byte → List Byte
  | c0 :: c1 :: rest => c0 :: (c1 ||| m) :: rest
  | bs => bs

/-- The exceptions an instruction is known to raise from its first halfword alone, the first of them in priority (R423 7.C): they are peers of
the access exceptions of the later halfwords. -/
def State.opcodeFaults (s : State) (target : Bool) (i : Instr) : List ProgExc :=
  if isNotProvided i then [.operation]
  else if isTrap i then [if coin (s.draw .either) then .operation else .specialOperation]
  else if s.cpu.psw.problem && isPrivileged i then [.privilegedOperation]
  else match i with
    | .sacf _ _ => if s.cfg.sacfInstalled then [] else [.operation]
    | .stcke _ _ => if s.cfg.extTodInstalled then [] else [.operation]
    | .ex _ _ _ _ => if target then [.execute] else []
    | .tar _ _ => if s.asf then [] else s.maybe [.specialOperation]
    | .bsa _ _ => if s.asf then [] else [.specialOperation]
    | _ => []

/-- Whether the instruction with this first halfword would set the condition code (R116); where the halfword is that of no row, it may. -/
def headSetsCc (head : List Byte) : Bool :=
  match decode (padded head) with
  | .ok i => setsConditionCode i
  | .error _ => true

/-- Instruction fetch and decoding (R180, R181): the first halfword, then the others the first two bits ask for; the second byte is combined
with `m`, for a target of EXECUTE. -/
def State.fetchCode (s : State) (target : Bool) (m : Byte) (a : Addr) : Fetched :=
  let first := if target then 6 else 0
  let head := orSecond m (s.codeBytes first a 2)
  match s.accessFaults instructionTarget controlCheck false a 2 with
  | x :: rest => .faults 2 (headSetsCc head) x rest
  | [] =>
    let len := instrLength (head.headD 0)
    match s.accessFaults instructionTarget controlCheck false (a + 2) (len - 2) with
    | x :: rest =>
      match decode (padded head) with
      | .ok i => .faults len (setsConditionCode i) x (rest ++ s.opcodeFaults target i)
      | .error _ => .undecoded (head.headD 0) (head.getD 1 0)
    | [] =>
      match decode (orSecond m (s.codeBytes first a len)) with
      | .ok i => .instruction i (s.noteFetches instructionTarget (s.addrs a len))
      | .error _ => .undecoded (head.headD 0) (head.getD 1 0)

/-- A protection exception of an instruction fetch that is suppressed with bit 29 of the translation-exception identification one leaves the
condition code of an instruction that sets it at any value (R116, R412). -/
def State.fetchSuppressed (s : State) (cc : Bool) (x : ProgExc) : State :=
  match x with
  | .protection _ _ _ => if cc && s.suppressionBit then s.setCc ((s.draw .conditionCode).setWidth 2) else s
  | _ => s

/-- The beginning of EXECUTE's target: the CPU executes the instruction at this address in the place of the EXECUTE. -/
def State.beginExecute (s : State) (a : Addr) : State := { s with cpu := { s.cpu with exTarget := some a } }

/-- The end of EXECUTE: the CPU is no longer executing a target. -/
def State.endExecute (s : State) : State := { s with cpu := { s.cpu with exTarget := none } }

/-- A target of EXECUTE executed (R370): an execute exception for another EXECUTE. -/
def execTarget (i : Instr) (s : State) : Out :=
  match i with
  | .spm r1 => execSpm r1 s
  | .balr r1 r2 => execBalr r1 r2 s
  | .bctr r1 r2 => execBctr r1 r2 s
  | .bcr m1 r2 => execBcr m1 r2 s
  | .svc i => execSvc i s
  | .basr r1 r2 => execBasr r1 r2 s
  | .lpr r1 r2 => execLpr r1 r2 s
  | .lnr r1 r2 => execLnr r1 r2 s
  | .ltr r1 r2 => execLtr r1 r2 s
  | .lcr r1 r2 => execLcr r1 r2 s
  | .nr r1 r2 => execNr r1 r2 s
  | .clr r1 r2 => execClr r1 r2 s
  | .or r1 r2 => execOr r1 r2 s
  | .xr r1 r2 => execXr r1 r2 s
  | .lr r1 r2 => execLr r1 r2 s
  | .cr r1 r2 => execCr r1 r2 s
  | .ar r1 r2 => execAr r1 r2 s
  | .sr r1 r2 => execSr r1 r2 s
  | .mr r1 r2 => execMr r1 r2 s
  | .dr r1 r2 => execDr r1 r2 s
  | .alr r1 r2 => execAlr r1 r2 s
  | .slr r1 r2 => execSlr r1 r2 s
  | .sth r1 x2 b2 d2 => execSth r1 x2 b2 d2 s
  | .la r1 x2 b2 d2 => execLa r1 x2 b2 d2 s
  | .stc r1 x2 b2 d2 => execStc r1 x2 b2 d2 s
  | .ic r1 x2 b2 d2 => execIc r1 x2 b2 d2 s
  | .ex _ _ _ _ => s.takeException 4 {} .execute
  | .bal r1 x2 b2 d2 => execBal r1 x2 b2 d2 s
  | .bct r1 x2 b2 d2 => execBct r1 x2 b2 d2 s
  | .bc m1 x2 b2 d2 => execBc m1 x2 b2 d2 s
  | .lh r1 x2 b2 d2 => execLh r1 x2 b2 d2 s
  | .ch r1 x2 b2 d2 => execCh r1 x2 b2 d2 s
  | .ah r1 x2 b2 d2 => execAh r1 x2 b2 d2 s
  | .sh r1 x2 b2 d2 => execSh r1 x2 b2 d2 s
  | .mh r1 x2 b2 d2 => execMh r1 x2 b2 d2 s
  | .bas r1 x2 b2 d2 => execBas r1 x2 b2 d2 s
  | .st r1 x2 b2 d2 => execSt r1 x2 b2 d2 s
  | .n r1 x2 b2 d2 => execN r1 x2 b2 d2 s
  | .cl r1 x2 b2 d2 => execCl r1 x2 b2 d2 s
  | .o r1 x2 b2 d2 => execO r1 x2 b2 d2 s
  | .x r1 x2 b2 d2 => execX r1 x2 b2 d2 s
  | .l r1 x2 b2 d2 => execL r1 x2 b2 d2 s
  | .c r1 x2 b2 d2 => execC r1 x2 b2 d2 s
  | .a r1 x2 b2 d2 => execA r1 x2 b2 d2 s
  | .s r1 x2 b2 d2 => execS r1 x2 b2 d2 s
  | .m r1 x2 b2 d2 => execM r1 x2 b2 d2 s
  | .d r1 x2 b2 d2 => execD r1 x2 b2 d2 s
  | .al r1 x2 b2 d2 => execAl r1 x2 b2 d2 s
  | .sl r1 x2 b2 d2 => execSl r1 x2 b2 d2 s
  | .bxh r1 r3 b2 d2 => execBxh r1 r3 b2 d2 s
  | .bxle r1 r3 b2 d2 => execBxle r1 r3 b2 d2 s
  | .srl r1 b2 d2 => execSrl r1 b2 d2 s
  | .sll r1 b2 d2 => execSll r1 b2 d2 s
  | .sra r1 b2 d2 => execSra r1 b2 d2 s
  | .sla r1 b2 d2 => execSla r1 b2 d2 s
  | .srdl r1 b2 d2 => execSrdl r1 b2 d2 s
  | .sldl r1 b2 d2 => execSldl r1 b2 d2 s
  | .srda r1 b2 d2 => execSrda r1 b2 d2 s
  | .slda r1 b2 d2 => execSlda r1 b2 d2 s
  | .stm r1 r3 b2 d2 => execStm r1 r3 b2 d2 s
  | .tm i2 b1 d1 => execTm i2 b1 d1 s
  | .mvi i2 b1 d1 => execMvi i2 b1 d1 s
  | .ni i2 b1 d1 => execNi i2 b1 d1 s
  | .cli i2 b1 d1 => execCli i2 b1 d1 s
  | .oi i2 b1 d1 => execOi i2 b1 d1 s
  | .xi i2 b1 d1 => execXi i2 b1 d1 s
  | .lm r1 r3 b2 d2 => execLm r1 r3 b2 d2 s
  | .brc m1 i2 => execBrc m1 i2 s
  | .bras r1 i2 => execBras r1 i2 s
  | .brct r1 i2 => execBrct r1 i2 s
  | .lhi r1 i2 => execLhi r1 i2 s
  | .ahi r1 i2 => execAhi r1 i2 s
  | .mhi r1 i2 => execMhi r1 i2 s
  | .chi r1 i2 => execChi r1 i2 s
  | .stnsm i2 b1 d1 => execStnsm i2 b1 d1 s
  | .stctl r1 r3 b2 d2 => execStctl r1 r3 b2 d2 s
  | .lctl r1 r3 b2 d2 => execLctl r1 r3 b2 d2 s
  | .spx b2 d2 => execSpx b2 d2 s
  | .stpx b2 d2 => execStpx b2 d2 s
  | .stap b2 d2 => execStap b2 d2 s
  | .ipm r1 => execIpm r1 s
  | .cs r1 r3 b2 d2 => execCs r1 r3 b2 d2 s
  | .cds r1 r3 b2 d2 => execCds r1 r3 b2 d2 s
  | .clm r1 m3 b2 d2 => execClm r1 m3 b2 d2 s
  | .stcm r1 m3 b2 d2 => execStcm r1 m3 b2 d2 s
  | .icm r1 m3 b2 d2 => execIcm r1 m3 b2 d2 s
  | .mvc len b1 d1 b2 d2 => execMvc len b1 d1 b2 d2 s
  | .nc len b1 d1 b2 d2 => execNc len b1 d1 b2 d2 s
  | .clc len b1 d1 b2 d2 => execClc len b1 d1 b2 d2 s
  | .oc len b1 d1 b2 d2 => execOc len b1 d1 b2 d2 s
  | .xc len b1 d1 b2 d2 => execXc len b1 d1 b2 d2 s
  | .sckpf => execSckpf s
  | .stck b2 d2 => execStck b2 d2 s
  | .sckc b2 d2 => execSckc b2 d2 s
  | .stckc b2 d2 => execStckc b2 d2 s
  | .spt b2 d2 => execSpt b2 d2 s
  | .stpt b2 d2 => execStpt b2 d2 s
  | .stcke b2 d2 => execStcke b2 d2 s
  | .lae r1 x2 b2 d2 => execLae r1 x2 b2 d2 s
  | .lam r1 r3 b2 d2 => execLam r1 r3 b2 d2 s
  | .stam r1 r3 b2 d2 => execStam r1 r3 b2 d2 s
  | .cpya r1 r2 => execCpya r1 r2 s
  | .sar r1 r2 => execSar r1 r2 s
  | .ear r1 r2 => execEar r1 r2 s
  | .pr => execPr s
  | .trap2 => execTrap2 s
  | .lra r1 x2 b2 d2 => execLra r1 x2 b2 d2 s
  | .sck b2 d2 => execSck b2 d2 s
  | .sie b2 d2 => execSie b2 d2 s
  | .pc b2 d2 => execPc b2 d2 s
  | .ivsk r1 r2 => execIvsk r1 r2 s
  | .ssar r1 r2 => execSsar r1 r2 s
  | .epar r1 => execEpar r1 s
  | .esar r1 => execEsar r1 s
  | .pt r1 r2 => execPt r1 r2 s
  | .bakr r1 r2 => execBakr r1 r2 s
  | .msta r1 r2 => execMsta r1 r2 s
  | .ereg r1 r2 => execEreg r1 r2 s
  | .esta r1 r2 => execEsta r1 r2 s
  | .bsg r1 r2 => execBsg r1 r2 s
  | .trap4 b2 d2 => execTrap4 b2 d2 s
  | .mvcp r1 r3 b1 d1 b2 d2 => execMvcp r1 r3 b1 d1 b2 d2 s
  | .mvcs r1 r3 b1 d1 b2 d2 => execMvcs r1 r3 b1 d1 b2 d2 s
  | .lasp b1 d1 b2 d2 => execLasp b1 d1 b2 d2 s
  | .ssm b2 d2 => execSsm b2 d2 s
  | .lpsw b2 d2 => execLpsw b2 d2 s
  | .diag r1 r3 b2 d2 => execDiag r1 r3 b2 d2 s
  | .trace r1 r3 b2 d2 => execTrace r1 r3 b2 d2 s
  | .stosm i2 b1 d1 => execStosm i2 b1 d1 s
  | .sigp r1 r3 b2 d2 => execSigp r1 r3 b2 d2 s
  | .ptlb => execPtlb s
  | .sac b2 d2 => execSac b2 d2 s
  | .ipte r1 r2 => execIpte r1 r2 s
  | .iac r1 => execIac r1 s
  | .iske r1 r2 => execIske r1 r2 s
  | .rrbe r1 r2 => execRrbe r1 r2 s
  | .sske r1 r2 => execSske r1 r2 s
  | .tb r2 => execTb r2 s
  | .stura r1 r2 => execStura r1 r2 s
  | .palb => execPalb s
  | .lura r1 r2 => execLura r1 r2 s
  | .tar r1 r2 => execTar r1 r2 s
  | .bsa r1 r2 => execBsa r1 r2 s
  | .rp b2 d2 => execRp b2 d2 s
  | .sacf b2 d2 => execSacf b2 d2 s
  | .tprot b1 d1 b2 d2 => execTprot b1 d1 b2 d2 s

/-- EXECUTE (EX), R370. An access exception of the fetch of the target is reported with instruction-length code 2, which R402 and R370 give for a target
and its own exceptions; whether U21, any code from 1 to 3 for an instruction fetch, holds for the fetch of the target too is not said: DESIGN CHOICE, log
entry 17. -/
def execEx (r1 x2 b2 : Reg) (d2 : Disp) (s : State) : Out :=
  let t := s.ea b2 x2 d2
  if !aligned t 2 then s.takeException 4 {} .specification
  else match s.fetchCode true (if r1 = 0 then 0 else byteOf (s.gr r1) 3) t with
    | .faults _ cc x rest => (s.fetchSuppressed cc (s.choose x rest)).takeException 4 {} (s.choose x rest)
    | .undecoded c0 c1 => .refused (.noRowForOpcode c0 c1)
    | .instruction i s1 =>
      match execTarget i (s1.beginExecute t) with
      | .next s2 => .next s2.endExecute
      | .fault f => .fault f
      | .refused r => .refused r

end Sys2Proof.Machine
end

