-- ==== Sys2Proof/Machine/Dispatch.lean ====
section
/-! DEFINITION. One arm per instruction, each one direct call of its meaning. -/

namespace Sys2Proof.Machine

def exec (i : Instr) (s : State) : Host.Outcome State Fault Refusal :=
  match i with
  | .spm r1 => Sys2Proof.Machine.execSpm r1 s
  | .balr r1 r2 => Sys2Proof.Machine.execBalr r1 r2 s
  | .bctr r1 r2 => Sys2Proof.Machine.execBctr r1 r2 s
  | .bcr m1 r2 => Sys2Proof.Machine.execBcr m1 r2 s
  | .svc number => Sys2Proof.Machine.execSvc number s
  | .basr r1 r2 => Sys2Proof.Machine.execBasr r1 r2 s
  | .lpr r1 r2 => Sys2Proof.Machine.execLpr r1 r2 s
  | .lnr r1 r2 => Sys2Proof.Machine.execLnr r1 r2 s
  | .ltr r1 r2 => Sys2Proof.Machine.execLtr r1 r2 s
  | .lcr r1 r2 => Sys2Proof.Machine.execLcr r1 r2 s
  | .nr r1 r2 => Sys2Proof.Machine.execNr r1 r2 s
  | .clr r1 r2 => Sys2Proof.Machine.execClr r1 r2 s
  | .or r1 r2 => Sys2Proof.Machine.execOr r1 r2 s
  | .xr r1 r2 => Sys2Proof.Machine.execXr r1 r2 s
  | .lr r1 r2 => Sys2Proof.Machine.execLr r1 r2 s
  | .cr r1 r2 => Sys2Proof.Machine.execCr r1 r2 s
  | .ar r1 r2 => Sys2Proof.Machine.execAr r1 r2 s
  | .sr r1 r2 => Sys2Proof.Machine.execSr r1 r2 s
  | .mr r1 r2 => Sys2Proof.Machine.execMr r1 r2 s
  | .dr r1 r2 => Sys2Proof.Machine.execDr r1 r2 s
  | .alr r1 r2 => Sys2Proof.Machine.execAlr r1 r2 s
  | .slr r1 r2 => Sys2Proof.Machine.execSlr r1 r2 s
  | .sth r1 x2 b2 d2 => Sys2Proof.Machine.execSth r1 x2 b2 d2 s
  | .la r1 x2 b2 d2 => Sys2Proof.Machine.execLa r1 x2 b2 d2 s
  | .stc r1 x2 b2 d2 => Sys2Proof.Machine.execStc r1 x2 b2 d2 s
  | .ic r1 x2 b2 d2 => Sys2Proof.Machine.execIc r1 x2 b2 d2 s
  | .ex r1 x2 b2 d2 => Sys2Proof.Machine.execEx r1 x2 b2 d2 s
  | .bal r1 x2 b2 d2 => Sys2Proof.Machine.execBal r1 x2 b2 d2 s
  | .bct r1 x2 b2 d2 => Sys2Proof.Machine.execBct r1 x2 b2 d2 s
  | .bc m1 x2 b2 d2 => Sys2Proof.Machine.execBc m1 x2 b2 d2 s
  | .lh r1 x2 b2 d2 => Sys2Proof.Machine.execLh r1 x2 b2 d2 s
  | .ch r1 x2 b2 d2 => Sys2Proof.Machine.execCh r1 x2 b2 d2 s
  | .ah r1 x2 b2 d2 => Sys2Proof.Machine.execAh r1 x2 b2 d2 s
  | .sh r1 x2 b2 d2 => Sys2Proof.Machine.execSh r1 x2 b2 d2 s
  | .mh r1 x2 b2 d2 => Sys2Proof.Machine.execMh r1 x2 b2 d2 s
  | .bas r1 x2 b2 d2 => Sys2Proof.Machine.execBas r1 x2 b2 d2 s
  | .st r1 x2 b2 d2 => Sys2Proof.Machine.execSt r1 x2 b2 d2 s
  | .n r1 x2 b2 d2 => Sys2Proof.Machine.execN r1 x2 b2 d2 s
  | .cl r1 x2 b2 d2 => Sys2Proof.Machine.execCl r1 x2 b2 d2 s
  | .o r1 x2 b2 d2 => Sys2Proof.Machine.execO r1 x2 b2 d2 s
  | .x r1 x2 b2 d2 => Sys2Proof.Machine.execX r1 x2 b2 d2 s
  | .l r1 x2 b2 d2 => Sys2Proof.Machine.execL r1 x2 b2 d2 s
  | .c r1 x2 b2 d2 => Sys2Proof.Machine.execC r1 x2 b2 d2 s
  | .a r1 x2 b2 d2 => Sys2Proof.Machine.execA r1 x2 b2 d2 s
  | .s r1 x2 b2 d2 => Sys2Proof.Machine.execS r1 x2 b2 d2 s
  | .m r1 x2 b2 d2 => Sys2Proof.Machine.execM r1 x2 b2 d2 s
  | .d r1 x2 b2 d2 => Sys2Proof.Machine.execD r1 x2 b2 d2 s
  | .al r1 x2 b2 d2 => Sys2Proof.Machine.execAl r1 x2 b2 d2 s
  | .sl r1 x2 b2 d2 => Sys2Proof.Machine.execSl r1 x2 b2 d2 s
  | .bxh r1 r3 b2 d2 => Sys2Proof.Machine.execBxh r1 r3 b2 d2 s
  | .bxle r1 r3 b2 d2 => Sys2Proof.Machine.execBxle r1 r3 b2 d2 s
  | .srl r1 b2 d2 => Sys2Proof.Machine.execSrl r1 b2 d2 s
  | .sll r1 b2 d2 => Sys2Proof.Machine.execSll r1 b2 d2 s
  | .sra r1 b2 d2 => Sys2Proof.Machine.execSra r1 b2 d2 s
  | .sla r1 b2 d2 => Sys2Proof.Machine.execSla r1 b2 d2 s
  | .srdl r1 b2 d2 => Sys2Proof.Machine.execSrdl r1 b2 d2 s
  | .sldl r1 b2 d2 => Sys2Proof.Machine.execSldl r1 b2 d2 s
  | .srda r1 b2 d2 => Sys2Proof.Machine.execSrda r1 b2 d2 s
  | .slda r1 b2 d2 => Sys2Proof.Machine.execSlda r1 b2 d2 s
  | .stm r1 r3 b2 d2 => Sys2Proof.Machine.execStm r1 r3 b2 d2 s
  | .tm i2 b1 d1 => Sys2Proof.Machine.execTm i2 b1 d1 s
  | .mvi i2 b1 d1 => Sys2Proof.Machine.execMvi i2 b1 d1 s
  | .ni i2 b1 d1 => Sys2Proof.Machine.execNi i2 b1 d1 s
  | .cli i2 b1 d1 => Sys2Proof.Machine.execCli i2 b1 d1 s
  | .oi i2 b1 d1 => Sys2Proof.Machine.execOi i2 b1 d1 s
  | .xi i2 b1 d1 => Sys2Proof.Machine.execXi i2 b1 d1 s
  | .lm r1 r3 b2 d2 => Sys2Proof.Machine.execLm r1 r3 b2 d2 s
  | .brc m1 i2 => Sys2Proof.Machine.execBrc m1 i2 s
  | .bras r1 i2 => Sys2Proof.Machine.execBras r1 i2 s
  | .brct r1 i2 => Sys2Proof.Machine.execBrct r1 i2 s
  | .lhi r1 i2 => Sys2Proof.Machine.execLhi r1 i2 s
  | .ahi r1 i2 => Sys2Proof.Machine.execAhi r1 i2 s
  | .mhi r1 i2 => Sys2Proof.Machine.execMhi r1 i2 s
  | .chi r1 i2 => Sys2Proof.Machine.execChi r1 i2 s
  | .stnsm i2 b1 d1 => Sys2Proof.Machine.execStnsm i2 b1 d1 s
  | .stctl r1 r3 b2 d2 => Sys2Proof.Machine.execStctl r1 r3 b2 d2 s
  | .lctl r1 r3 b2 d2 => Sys2Proof.Machine.execLctl r1 r3 b2 d2 s
  | .spx b2 d2 => Sys2Proof.Machine.execSpx b2 d2 s
  | .stpx b2 d2 => Sys2Proof.Machine.execStpx b2 d2 s
  | .stap b2 d2 => Sys2Proof.Machine.execStap b2 d2 s
  | .ipm r1 => Sys2Proof.Machine.execIpm r1 s
  | .cs r1 r3 b2 d2 => Sys2Proof.Machine.execCs r1 r3 b2 d2 s
  | .cds r1 r3 b2 d2 => Sys2Proof.Machine.execCds r1 r3 b2 d2 s
  | .clm r1 m3 b2 d2 => Sys2Proof.Machine.execClm r1 m3 b2 d2 s
  | .stcm r1 m3 b2 d2 => Sys2Proof.Machine.execStcm r1 m3 b2 d2 s
  | .icm r1 m3 b2 d2 => Sys2Proof.Machine.execIcm r1 m3 b2 d2 s
  | .mvc len b1 d1 b2 d2 => Sys2Proof.Machine.execMvc len b1 d1 b2 d2 s
  | .nc len b1 d1 b2 d2 => Sys2Proof.Machine.execNc len b1 d1 b2 d2 s
  | .clc len b1 d1 b2 d2 => Sys2Proof.Machine.execClc len b1 d1 b2 d2 s
  | .oc len b1 d1 b2 d2 => Sys2Proof.Machine.execOc len b1 d1 b2 d2 s
  | .xc len b1 d1 b2 d2 => Sys2Proof.Machine.execXc len b1 d1 b2 d2 s
  | .sckpf => Sys2Proof.Machine.execSckpf s
  | .stck b2 d2 => Sys2Proof.Machine.execStck b2 d2 s
  | .sckc b2 d2 => Sys2Proof.Machine.execSckc b2 d2 s
  | .stckc b2 d2 => Sys2Proof.Machine.execStckc b2 d2 s
  | .spt b2 d2 => Sys2Proof.Machine.execSpt b2 d2 s
  | .stpt b2 d2 => Sys2Proof.Machine.execStpt b2 d2 s
  | .stcke b2 d2 => Sys2Proof.Machine.execStcke b2 d2 s
  | .lae r1 x2 b2 d2 => Sys2Proof.Machine.execLae r1 x2 b2 d2 s
  | .lam r1 r3 b2 d2 => Sys2Proof.Machine.execLam r1 r3 b2 d2 s
  | .stam r1 r3 b2 d2 => Sys2Proof.Machine.execStam r1 r3 b2 d2 s
  | .cpya r1 r2 => Sys2Proof.Machine.execCpya r1 r2 s
  | .sar r1 r2 => Sys2Proof.Machine.execSar r1 r2 s
  | .ear r1 r2 => Sys2Proof.Machine.execEar r1 r2 s
  | .pr => Sys2Proof.Machine.execPr s
  | .trap2 => Sys2Proof.Machine.execTrap2 s
  | .lra r1 x2 b2 d2 => Sys2Proof.Machine.execLra r1 x2 b2 d2 s
  | .sck b2 d2 => Sys2Proof.Machine.execSck b2 d2 s
  | .sie b2 d2 => Sys2Proof.Machine.execSie b2 d2 s
  | .pc b2 d2 => Sys2Proof.Machine.execPc b2 d2 s
  | .ivsk r1 r2 => Sys2Proof.Machine.execIvsk r1 r2 s
  | .ssar r1 r2 => Sys2Proof.Machine.execSsar r1 r2 s
  | .epar r1 => Sys2Proof.Machine.execEpar r1 s
  | .esar r1 => Sys2Proof.Machine.execEsar r1 s
  | .pt r1 r2 => Sys2Proof.Machine.execPt r1 r2 s
  | .bakr r1 r2 => Sys2Proof.Machine.execBakr r1 r2 s
  | .msta r1 r2 => Sys2Proof.Machine.execMsta r1 r2 s
  | .ereg r1 r2 => Sys2Proof.Machine.execEreg r1 r2 s
  | .esta r1 r2 => Sys2Proof.Machine.execEsta r1 r2 s
  | .bsg r1 r2 => Sys2Proof.Machine.execBsg r1 r2 s
  | .trap4 b2 d2 => Sys2Proof.Machine.execTrap4 b2 d2 s
  | .mvcp r1 r3 b1 d1 b2 d2 => Sys2Proof.Machine.execMvcp r1 r3 b1 d1 b2 d2 s
  | .mvcs r1 r3 b1 d1 b2 d2 => Sys2Proof.Machine.execMvcs r1 r3 b1 d1 b2 d2 s
  | .lasp b1 d1 b2 d2 => Sys2Proof.Machine.execLasp b1 d1 b2 d2 s
  | .ssm b2 d2 => Sys2Proof.Machine.execSsm b2 d2 s
  | .lpsw b2 d2 => Sys2Proof.Machine.execLpsw b2 d2 s
  | .diag r1 r3 b2 d2 => Sys2Proof.Machine.execDiag r1 r3 b2 d2 s
  | .trace r1 r3 b2 d2 => Sys2Proof.Machine.execTrace r1 r3 b2 d2 s
  | .stosm i2 b1 d1 => Sys2Proof.Machine.execStosm i2 b1 d1 s
  | .sigp r1 r3 b2 d2 => Sys2Proof.Machine.execSigp r1 r3 b2 d2 s
  | .ptlb => Sys2Proof.Machine.execPtlb s
  | .sac b2 d2 => Sys2Proof.Machine.execSac b2 d2 s
  | .ipte r1 r2 => Sys2Proof.Machine.execIpte r1 r2 s
  | .iac r1 => Sys2Proof.Machine.execIac r1 s
  | .iske r1 r2 => Sys2Proof.Machine.execIske r1 r2 s
  | .rrbe r1 r2 => Sys2Proof.Machine.execRrbe r1 r2 s
  | .sske r1 r2 => Sys2Proof.Machine.execSske r1 r2 s
  | .tb r2 => Sys2Proof.Machine.execTb r2 s
  | .stura r1 r2 => Sys2Proof.Machine.execStura r1 r2 s
  | .palb => Sys2Proof.Machine.execPalb s
  | .lura r1 r2 => Sys2Proof.Machine.execLura r1 r2 s
  | .tar r1 r2 => Sys2Proof.Machine.execTar r1 r2 s
  | .bsa r1 r2 => Sys2Proof.Machine.execBsa r1 r2 s
  | .rp b2 d2 => Sys2Proof.Machine.execRp b2 d2 s
  | .sacf b2 d2 => Sys2Proof.Machine.execSacf b2 d2 s
  | .tprot b1 d1 b2 d2 => Sys2Proof.Machine.execTprot b1 d1 b2 d2 s

end Sys2Proof.Machine
end

