-- ==== Sys2Proof/Machine/Interrupts.lean ====
section
/-! DEFINITION. Interruptions of the restart, external, input/output and machine-check classes: which is pending and enabled, and taking it
(spec/60_exceptions.md R430, R431, R440 to R444, R465, R466). -/

namespace Sys2Proof.Machine

/-- The number of the bit of control register 0. -/
def HostMask.number : HostMask → Nat
  | .bit16 => 16
  | .bit17 => 17
  | .bit18 => 18
  | .bit20 => 20
  | .bit21 => 21
  | .bit22 => 22
  | .bit23 => 23
  | .bit25 => 25
  | .bit30 => 30
  | .bit31 => 31

/-- An external-interruption condition, with what it stores (R442). -/
inductive External where
  | interruptKey
  | malfunctionAlert (source : Half)
  | emergencySignal (source : Half)
  | externalCall (source : Half)
  | clockComparator
  | cpuTimer
  | serviceSignal (parameter : Word)
  | hostSignal (h : HostSignal)
  deriving DecidableEq, Repr

/-- The external-interruption code (R442). -/
def External.code : External → Half
  | .interruptKey => 0x0040
  | .malfunctionAlert _ => 0x1200
  | .emergencySignal _ => 0x1201
  | .externalCall _ => 0x1202
  | .clockComparator => 0x1004
  | .cpuTimer => 0x1005
  | .serviceSignal _ => 0x2401
  | .hostSignal h => h.code

/-- The subclass-mask bit of control register 0 (R442; for the external call R481 says bit 26, DESIGN CHOICE, log entry 42). -/
def External.maskBit : External → Nat
  | .interruptKey => 25
  | .malfunctionAlert _ => 16
  | .emergencySignal _ => 17
  | .externalCall _ => 18
  | .clockComparator => 20
  | .cpuTimer => 21
  | .serviceSignal _ => 22
  | .hostSignal h => h.maskBit.number

/-- The CPU address stored at 132-133: zeros for the codes that have none (R442). -/
def External.source : External → Half
  | .malfunctionAlert a => a
  | .emergencySignal a => a
  | .externalCall a => a
  | _ => 0

/-- A clock-comparator condition is pending (R209). -/
def State.comparatorPending (s : State) : Bool := decide (s.cpu.clockComparator.toNat < s.tod.toNat)

/-- A CPU-timer condition is pending (R209). -/
def State.timerPending (s : State) : Bool := s.cpu.cpuTimer.msb

/-- The code is one that an ESA/XC configuration can have: the sources 1003 and 1406 do not exist (R442). -/
def HostSignal.provided (h : HostSignal) : Bool := h.code != 0x1003 && h.code != 0x1406

/-- The pending external conditions, in the order they are taken (R442). -/
def State.externals (s : State) : List External :=
  (if s.cpu.interruptKey then [.interruptKey] else []) ++
  (s.cpu.malfunctionAlerts.take 1).map .malfunctionAlert ++
  (s.cpu.emergencySignals.take 1).map .emergencySignal ++
  s.cpu.externalCall.toList.map .externalCall ++
  (if s.comparatorPending then [.clockComparator] else []) ++
  (if s.timerPending then [.cpuTimer] else []) ++
  s.serviceSignal.toList.map .serviceSignal ++
  (s.cpu.hostSignals.filter HostSignal.provided).map .hostSignal

/-- The external condition that is taken next (R442): the first pending one whose subclass mask is one, while PSW bit 7 is one. -/
def State.externalEnabled (s : State) : Option External :=
  if s.cpu.psw.externalEnabled then s.externals.find? (fun e => bitAt (s.cr 0) e.maskBit) else none

/-- A condition that is no longer pending once taken; the clock comparator and the CPU timer are levels (R442). -/
def State.clearExternal (s : State) : External → State
  | .interruptKey => { s with cpu := { s.cpu with interruptKey := false } }
  | .malfunctionAlert _ => { s with cpu := { s.cpu with malfunctionAlerts := s.cpu.malfunctionAlerts.drop 1 } }
  | .emergencySignal _ => { s with cpu := { s.cpu with emergencySignals := s.cpu.emergencySignals.drop 1 } }
  | .externalCall _ => { s with cpu := { s.cpu with externalCall := none } }
  | .clockComparator => s
  | .cpuTimer => s
  | .serviceSignal _ => { s with serviceSignal := none }
  | .hostSignal h => { s with cpu := { s.cpu with hostSignals := s.cpu.hostSignals.erase h } }

/-- What an external interruption stores besides the old PSW (R442). -/
def External.ident (e : External) : List (Nat × List Byte) :=
  [(132, bytes16 e.source), (134, bytes16 e.code)] ++
    (match e with
     | .serviceSignal p => [(128, bytes32 p)]
     | .hostSignal h => [(128, bytes32 h.parameter)]
     | _ => [])

/-- The external interruption (R442). -/
def State.takeExternal (s : State) (e : External) : Out := (s.clearExternal e).interrupt 24 88 e.ident

/-- The I/O interruption that is taken next (R443): of several enabled ones the first to arrive, DESIGN CHOICE, log entry 41. -/
def State.ioEnabled (s : State) : Option IoInterruption :=
  if s.cpu.psw.ioEnabled then s.pendingIo.find? (fun i => bitAt (s.cr 6) i.subclass.toNat) else none

/-- The I/O interruption (R443). -/
def State.takeIo (s : State) (i : IoInterruption) : Out :=
  { s with pendingIo := s.pendingIo.erase i }.interrupt 56 120 [(184, bytes32 i.subsystem), (188, bytes32 i.parameter)]

/-- The restart interruption (R440); it takes a stopped CPU to the operating state. -/
def State.takeRestart (s : State) : Out :=
  { s with cpu := { s.cpu with restartPending := false, status := .operating } }.interrupt 8 0 []

/-- The subclass-mask bit of control register 14 (R49; for bit 6 R481 says otherwise, DESIGN CHOICE, log entry 42). -/
def McSubclass.maskBit : McSubclass → Nat
  | .channelReport => 3
  | .recovery => 4
  | .degradation => 5
  | .externalDamage => 6
  | .warning => 7

/-- The exigent machine check that is taken next (R444): the first to arrive, each by an interruption of its own, DESIGN CHOICE, log entry 41. -/
def State.exigent (s : State) : Option MachineCheck := s.cpu.machineChecks.find? (fun m => m.exigent)

/-- The repressible machine check that is taken next (R444, R460): of several enabled ones the first to arrive, the CPU's own before the floating
channel reports, DESIGN CHOICE, log entry 41. -/
def State.repressible (s : State) : Option MachineCheck :=
  if s.cpu.psw.machineCheck then
    (s.cpu.machineChecks ++ s.channelReports).find? (fun m => !m.exigent && bitAt (s.cr 14) m.subclass.maskBit)
  else none

/-- The numbers of the floating-point registers whose entity is lost, of those the CPU has (R26, R465). -/
def State.lostFloats (s : State) (m : MachineCheck) : List Nat :=
  s.fprNumbers.filter (fun i => m.lost.contains (if [0, 2, 4, 6].contains i then .floatRegisters else .extendedFloatRegisters))

/-- A register bank of 16 with free values in the places listed. -/
def freeBank {w : Nat} (v : Vector (BitVec w) 16) (places : List Nat) (f : Nat → BitVec w) : Vector (BitVec w) 16 :=
  Vector.ofFn (fun i => if places.contains i.val then f i.val else v[i])

/-- The register entities whose validity bit is zero take any value (R465, U11). -/
def State.lose (s : State) (m : MachineCheck) : State :=
  let c := s.cpu
  { s with cpu := { c with
      gr := if m.lost.contains .generalRegisters then
        freeBank c.gr (List.range 16) (fun i => (s.draw (.generalRegister i)).setWidth 32) else c.gr
      ar := if m.lost.contains .accessRegisters then
        freeBank c.ar (List.range 16) (fun i => (s.draw (.accessRegister i)).setWidth 32) else c.ar
      cr := if m.lost.contains .controlRegisters then
        freeBank c.cr (List.range 16) (fun i => (s.draw (.controlRegister i)).setWidth 32) else c.cr
      fpr := freeBank c.fpr (s.lostFloats m) (fun i => s.draw (.floatRegister i))
      clockComparator := if m.lost.contains .clockComparator then s.draw .comparator else c.clockComparator
      cpuTimer := if m.lost.contains .cpuTimer then s.draw .timer else c.cpuTimer } }

/-- The failing-storage ASIT (R466): zeros for the host-primary space. -/
def State.failingAsit (s : State) (asit : DWord) : DWord := if asit = s.hp.asit then 0 else asit

/-- The machine-check interruption code stored: its bit 24 says that the failing-storage address and ASIT are valid, and is one only where they are
stored (R466). -/
def MachineCheck.storedCode (m : MachineCheck) : DWord := if m.failing.isSome then m.code else m.code &&& 0xFFFFFF7FFFFFFFFF

/-- What a machine-check interruption stores besides the old PSW: the registers, the code, and the extended information (R444, R465, R466). -/
def State.machineCheckIdent (s : State) (m : MachineCheck) : List (Nat × List Byte) :=
  [(216, bytes64 s.cpu.cpuTimer), (224, bytes64 s.cpu.clockComparator), (232, bytes64 m.storedCode),
   (288, bytesOfWords s.cpu.ar.toList),
   (352, bytes64 (s.cpu.fpr[0]) ++ bytes64 (s.cpu.fpr[2]) ++ bytes64 (s.cpu.fpr[4]) ++ bytes64 (s.cpu.fpr[6])),
   (384, bytesOfWords s.cpu.gr.toList), (448, bytesOfWords s.cpu.cr.toList)] ++
  (match m.damage with
   | some d => [(244, bytes32 d)]
   | none => []) ++
  (match m.failing with
   | some f => [(248, bytes32 (0#1 ++ f.2)), (256, bytes64 (s.failingAsit f.1))]
   | none => [])

/-- The machine-check condition is no longer pending. -/
def State.clearMachineCheck (s : State) (m : MachineCheck) : State :=
  if s.cpu.machineChecks.contains m then { s with cpu := { s.cpu with machineChecks := s.cpu.machineChecks.erase m } }
  else { s with channelReports := s.channelReports.erase m }

/-- The machine-check interruption (R444, R465). -/
def State.takeMachineCheck (s : State) (m : MachineCheck) : Out :=
  let s1 := (s.clearMachineCheck m).lose m
  s1.interrupt 48 112 (s1.machineCheckIdent m)

/-- An interruption that is pending and enabled. -/
inductive Pending where
  /-- an exigent machine check while PSW bit 13 is zero: the check-stop state (R444) -/
  | checkStop
  | machineCheck (m : MachineCheck)
  | external (e : External)
  | io (i : IoInterruption)
  | restart
  deriving DecidableEq, Repr

/-- The interruption taken next at an instruction boundary (R431). -/
def State.pending (s : State) : Option Pending :=
  match s.exigent with
  | some m => some (if s.cpu.psw.machineCheck then .machineCheck m else .checkStop)
  | none =>
    match s.repressible with
    | some m => some (.machineCheck m)
    | none =>
      match s.externalEnabled with
      | some e => some (.external e)
      | none =>
        match s.ioEnabled with
        | some i => some (.io i)
        | none => if s.cpu.restartPending then some .restart else none

/-- Taking it. -/
def State.takePending (s : State) : Pending → Out
  | .checkStop => .next { s with cpu := { s.cpu with status := .checkStop } }
  | .machineCheck m => s.takeMachineCheck m
  | .external e => s.takeExternal e
  | .io i => s.takeIo i
  | .restart => s.takeRestart

end Sys2Proof.Machine
end

