-- ==== Sys2Proof/Machine/Cycle.lean ====
section
/-! DEFINITION. What a CPU does next, and one step of the configuration (spec/30_encoding.md R180, R181, spec/60_exceptions.md R420, R421,
R431, R445, spec/70_reset_and_hazards.md R489, R495). -/

namespace Sys2Proof.Machine

/-- An access exception of the fetch of an instruction (R402, R413), which sets the condition code as `cc` says: suppressed, with any
instruction-length code from 1 to 3. -/
def State.fetchException (s : State) (cc : Bool) (x : ProgExc) : Out :=
  let s1 := s.fetchSuppressed cc x
  let ilc := (s.draw .fetchLength).toNat % 3 + 1
  (s1.setIa (wrapMode s.cpu.psw.amode (s.cpu.psw.ia + BitVec.ofNat 31 (2 * ilc)))).programInterruption x.code ilc (s.extraStores x)

/-- The exception is one of storage access. -/
def ProgExc.isAccess : ProgExc → Bool
  | .protection _ _ _ => true
  | .addressing _ => true
  | _ => false

/-- The early specification exception of an invalid PSW (R421); when the program new PSW is invalid too, the interruptions never end (R495). -/
def State.earlyException (s : State) : Out :=
  if s.prefixAreaAssigned && !(Psw.ofDWord (be64 (s.realBytes 104 8))).valid then .fault .programInterruptionLoop
  else s.programInterruption ProgExc.specification.code 0 []

/-- The next instruction fetched and executed (R180, R181, R512). -/
def State.process (s : State) : Out :=
  if !aligned s.cpu.psw.ia 2 then s.programInterruption ProgExc.specification.code 0 []
  else if s.cpu.psw.per then .refused .programEventRecording
  else if bitAt (s.cr 12) 0 then .refused .branchTracing
  else match s.fetchCode false 0 s.cpu.psw.ia with
    | .faults len cc x rest =>
      let y := s.choose x rest
      if y.isAccess then s.fetchException cc y else s.takeException len {} y
    | .undecoded c0 c1 => .refused (.noRowForOpcode c0 c1)
    | .instruction i s1 => exec i s1

/-- A stop performed (R489, R277 order 09). -/
def State.performStop (s : State) : State :=
  let s1 := { s with cpu := { s.cpu with status := .stopped, stopRequest := .none } }
  if s.cpu.stopRequest = .stopAndStoreStatus then s1.storeStatusOf 0 s1.cpu else s1

/-- One unit of the executing CPU, its free values counted: an interruption, a stop, or an instruction (R431, R445, R489). -/
def State.operate (s : State) : Out :=
  if !s.cpu.psw.valid then s.earlyException
  else match s.pending with
    | some p => s.takePending p
    | none =>
      if s.cpu.stopRequest ≠ .none then .next s.performStop
      else if s.cpu.psw.disabledWait then .fault .disabledWait
      else if s.cpu.psw.wait then .next s
      else s.process

/-- The executing CPU takes its turn (R489): a CPU that is not operating waits, and a stopped one for a restart too. -/
def State.cpuStep (s : State) : Out :=
  match s.cpu.status with
  | .operating => s.nextDraw.operate
  | .stopped => if s.cpu.restartPending then s.nextDraw.takeRestart else .next s
  | .load => .next s
  | .checkStop => .next s

/-- One step (R7): the next move of the environment, or the CPU's turn where the environment gives it or makes no move. -/
def State.stepInputs (s : State) : Out :=
  match s.inputs with
  | [] => s.cpuStep
  | .cpu :: rest => { s with inputs := rest }.cpuStep
  | i :: rest => .next (applyInput i { s with inputs := rest })

/-- The six bytes of an instruction given as a number, zeros above its last bit. -/
def wordBytes (nbits w : Nat) : List Byte := ((tableBytes nbits w) ++ List.replicate 6 0).take 6

/-- The six addresses from which the next instruction is fetched. -/
def State.fetchAddrs (s : State) : List Addr := s.addrs s.cpu.psw.ia 6

/-- The CPU fetches an instruction at its next turn, whatever it is. -/
def State.readyToFetch (s : State) : Bool :=
  s.inputs == [] && s.cpu.status == .operating && s.cpu.psw.valid && s.nextDraw.pending == none && s.cpu.stopRequest == .none
    && !s.cpu.psw.wait && aligned s.cpu.psw.ia 2 && !s.cpu.psw.per && !bitAt (s.cr 12) 0 && s.cpu.staleBytes == []
    && (s.fetchAddrs.flatMap (s.byteFaults instructionTarget controlCheck false)).isEmpty

/-- The PSW of a program placed for execution: supervisor state, 31-bit addressing, everything disabled, location 400 hex. -/
def startPsw : Psw := Psw.ofDWord 0x0008000080000400

/-- The CPU made ready to fetch at location 400 hex, as after a program was loaded from outside the machine. -/
def State.makeReady (s : State) : State :=
  let s1 := s.setCr 12 (s.cr 12 &&& 0x7FFFFFFF)
  { s1 with inputs := [], cpu := { s1.cpu with status := .operating, psw := startPsw, stopRequest := .none, restartPending := false,
                                               machineChecks := [], staleBytes := [], exTarget := none } }

/-- Bytes put where they are fetched from. -/
def State.placeBytes (s : State) (bytes : List Byte) : State :=
  (s.fetchAddrs.zip bytes).foldl (fun s1 c => s1.poke .hostPrimary (s1.absolute instructionTarget c.1) c.2) s

/-- An instruction put where the next step fetches it. -/
def State.placeInstruction (s : State) (nbits w : Nat) : State :=
  (if s.readyToFetch then s else s.makeReady).placeBytes (wordBytes nbits w)

end Sys2Proof.Machine
end

