-- ==== Sys2Proof/Machine/Step.lean ====
section
/-! DEFINITION. The step, and an instruction stored where the step fetches it. -/

namespace Sys2Proof.Machine

/-- One step of the configuration. -/
def step (s : State) : Host.Outcome State Fault Refusal := s.stepInputs

/-- The state with an instruction stored where the next step fetches it; log entry 13 says what this stands for. -/
def State.withFetchWord (s : State) (nbits w : Nat) : State := s.placeInstruction nbits w

end Sys2Proof.Machine
end

