-- ==== Sys2Proof/Safety.lean ====
section
/-! DEFINITION. The terms claims are written in: what counts as a safe run, what an instruction or an interruption leaves unchanged, and the
invariants of the machine. -/

namespace Sys2Proof.Safety

open Sys2Proof.Machine

/-- The outcome is safe: a next state, or the end of the run at a disabled wait (spec/70_reset_and_hazards.md R495, D24). -/
def safeOutcome : Host.Outcome State Fault Refusal → Bool
  | .next _ => true
  | .fault .disabledWait => true
  | .fault .programInterruptionLoop => false
  | .refused _ => false

/-- The outcome is a refusal: execution has left the spec (R512). -/
def refused : Host.Outcome State Fault Refusal → Bool
  | .next _ => false
  | .fault _ => false
  | .refused _ => true

/-- The first `k` steps are safe. -/
def safeFor : Nat → State → Bool
  | 0, _ => true
  | k + 1, s =>
    match step s with
    | .next s1 => safeFor k s1
    | .fault f => safeOutcome (.fault f)
    | .refused _ => false

-- what is left unchanged

/-- A register bank read after some registers were replaced; the first replacement listed for a register counts. -/
def withRegs (old : Reg → Word) : List (Reg × Word) → Reg → Word
  | [], r => old r
  | c :: rest, r => if r = c.1 then c.2 else withRegs old rest r

/-- The bytes of a space read after some were replaced; the first replacement listed for an address counts. -/
def withCells (old : Addr → Byte) : List (Addr × Byte) → Addr → Byte
  | [], a => old a
  | c :: rest, a => if a = c.1 then c.2 else withCells old rest a

/-- A space without its bytes and storage keys: the rest of it. -/
def spaceFrame (p : Space) : Space := { p with mem := [], keys := [] }

/-- A CPU without the parts that an `Effect` tells of, and without the model's own record of stale bytes: the rest of it. -/
def cpuFrame (c : Cpu) : Cpu :=
  { c with gr := Vector.replicate 16 0, ar := Vector.replicate 16 0, cr := Vector.replicate 16 0, psw := Psw.zero, staleBytes := [] }

/-- Everything but storage, storage keys, and the general, access and control registers and the PSW of the executing CPU: its other registers,
its pending conditions, the other CPUs, the shapes and flags of the address spaces, the host access list, the clock, the inputs to come. -/
def frame (s : State) : State :=
  { s with cpu := cpuFrame s.cpu, hp := spaceFrame s.hp, spaces := s.spaces.map spaceFrame }

/-- A storage key with at most its reference and change bits raised. -/
def keyKept (k k' : BitVec 7) : Prop :=
  field k' 0 5 = field k 0 5 ∧ (keyReference k = true → keyReference k' = true) ∧ (keyChange k = true → keyChange k' = true)

/-- Every storage key is as before, but for reference and change bits raised. -/
def keysKept (s t : State) : Prop := ∀ id b, keyKept ((s.space id).key b) ((t.space id).key b)

/-- Every byte of every address space is as before. -/
def bytesKept (s t : State) : Prop := ∀ id a, (t.space id).byte a = (s.space id).byte a

/-- Every byte of every address space is as before, but for these bytes of one space. -/
def bytesStored (s t : State) (id : SpaceId) (cells : List (Addr × Byte)) : Prop :=
  ∀ i a, (t.space i).byte a = if i = id then withCells (s.space i).byte cells a else (s.space i).byte a

/-- The PSW with the next sequential instruction address of an instruction `len` bytes long. -/
def pswNext (s : State) (len : Nat) : Psw := { s.cpu.psw with ia := s.nextIa len }

/-- The PSW with the next sequential instruction address and a condition code. -/
def pswCc (s : State) (len : Nat) (cc : BitVec 2) : Psw := { s.cpu.psw with ia := s.nextIa len, cc := cc }

/-- The PSW with another instruction address. -/
def pswAt (s : State) (ia : Addr) : Psw := { s.cpu.psw with ia := ia }

/-- What an instruction does to the registers and the PSW of the CPU: the PSW it leaves, and the registers replaced. Every register that is not
listed is unchanged. -/
structure Effect where
  psw : Psw
  grs : List (Reg × Word) := []
  ars : List (Reg × Word) := []
  crs : List (Reg × Word) := []

/-- The registers of `t` are those of `s` with this effect. -/
def Effect.onRegisters (e : Effect) (s t : State) : Prop :=
  (∀ r, t.gr r = withRegs s.gr e.grs r) ∧ (∀ r, t.ar r = withRegs s.ar e.ars r) ∧ (∀ r, t.cr r = withRegs s.cr e.crs r)

/-- The instruction completes with this effect and stores nothing; `other` is what it does to everything else, nothing if it is left out. Every
byte of storage is unchanged, and so are storage keys but for the recording of references. -/
def completes (o : Host.Outcome State Fault Refusal) (s : State) (e : Effect) (other : State → State := id) : Prop :=
  ∃ t, o = .next t ∧ t.cpu.psw = e.psw ∧ e.onRegisters s t ∧ bytesKept s t ∧ keysKept s t ∧ frame t = other (frame s)

/-- The instruction completes with this effect and stores these bytes of one space, whose blocks then have their reference and change bits one;
every other byte is unchanged, and so is everything else but for what `other` says. -/
def completesStore (o : Host.Outcome State Fault Refusal) (s : State) (e : Effect) (id : SpaceId) (cells : List (Addr × Byte))
    (other : State → State := fun u => u) : Prop :=
  ∃ t, o = .next t ∧ t.cpu.psw = e.psw ∧ e.onRegisters s t ∧ bytesStored s t id cells ∧ keysKept s t ∧ frame t = other (frame s) ∧
    ∀ c, c ∈ cells → keyReference ((t.space id).key (blockOf c.1)) = true ∧ keyChange ((t.space id).key (blockOf c.1)) = true

/-- The bytes of storage after a byte-by-byte operation on two strings, left to right, each byte stored before the next is fetched (R375). -/
def stringBytes (f : Byte → Byte → Byte) (i1 i2 : SpaceId) : List (Addr × Addr) → (SpaceId → Addr → Byte) → SpaceId → Addr → Byte
  | [], m => m
  | c :: rest, m =>
    stringBytes f i1 i2 rest (fun i a => if i = i1 ∧ a = c.1 then f (m i1 c.1) (m i2 c.2) else m i a)

/-- Nothing forbids fetching the `n` bytes of an operand at a logical address. -/
abbrev fetchable (s : State) (b : Reg) (ea : Addr) (n : Nat) : Prop := s.operandFaults operandCheck false b ea n = []

/-- Nothing forbids storing the `n` bytes of an operand at a logical address. -/
abbrev storable (s : State) (b : Reg) (ea : Addr) (n : Nat) : Prop := s.operandFaults operandCheck true b ea n = []

/-- The bytes of an operand at a logical address. -/
def operand (s : State) (b : Reg) (ea : Addr) (n : Nat) : List Byte := s.operandBytes (s.target b) ea n

/-- The address space of an operand at a logical address. -/
def operandSpace (s : State) (b : Reg) : SpaceId := (s.target b).space

/-- The absolute addresses of an operand of `n` bytes at a logical address, in its address space. -/
def operandCells (s : State) (b : Reg) (ea : Addr) (n : Nat) : List Addr := (s.addrs ea n).map (s.absolute (s.target b))

/-- The absolute addresses of an operand with the bytes stored there. -/
def storedCells (s : State) (b : Reg) (ea : Addr) (bytes : List Byte) : List (Addr × Byte) :=
  (operandCells s b ea bytes.length).zip bytes

/-- The absolute addresses and the bytes of fields at host-primary real locations. -/
def realCells (s : State) (fields : List (Nat × List Byte)) : List (Addr × Byte) :=
  fields.flatMap (fun f => ((List.range f.2.length).map (fun i => s.prefixed (BitVec.ofNat 31 (f.1 + i)))).zip f.2)

/-- An interruption is taken, the CPU having come to this PSW and these registers: that PSW is stored as the old PSW, the fields are stored at
their real locations, the new PSW is the current one, and nothing else changes. -/
def enters (o : Host.Outcome State Fault Refusal) (s : State) (e : Effect) (old new : Nat) (fields : List (Nat × List Byte)) : Prop :=
  ∃ t, o = .next t ∧ t.cpu.psw = Psw.ofDWord (be64 (s.realBytes new 8)) ∧ e.onRegisters s t ∧
    bytesStored s t .hostPrimary (realCells s ((old, bytes64 e.psw.toDWord) :: fields)) ∧ keysKept s t ∧ frame t = frame s

/-- A program interruption (R403) with this code and instruction-length code. -/
def entersProgram (o : Host.Outcome State Fault Refusal) (s : State) (e : Effect) (code : Half) (ilc : Nat) (extra : List (Nat × List Byte)) :
    Prop :=
  enters o s e 40 104 ((140, [0, BitVec.ofNat 8 (2 * ilc)] ++ bytes16 code) :: extra)

/-- A program interruption that suppresses an instruction `len` bytes long (R402): no result, and the old PSW designates the next one. -/
def suppresses (o : Host.Outcome State Fault Refusal) (s : State) (len : Nat) (code : Half) : Prop :=
  entersProgram o s { psw := pswNext s len } code (s.ilcOf len) []

/-- A program interruption with this code is taken, whatever the ending of the instruction. -/
def interruptsWith (o : Host.Outcome State Fault Refusal) (code : Half) : Prop :=
  ∃ t, o = .next t ∧ t.realBytes 142 2 = bytes16 code ∧ t.cpu.psw = Psw.ofDWord (be64 (t.realBytes 104 8))

/-- The condition code of a signed number: zero, negative, positive (R296). -/
def signCc (x : Int) : BitVec 2 := if x = 0 then 0 else if x < 0 then 1 else 2

/-- The condition code of a comparison: equal, first operand low, first operand high (R296). -/
def orderCc (a b : Int) : BitVec 2 := if a = b then 0 else if a < b then 1 else 2

/-- The number fits a signed word. -/
abbrev fitsWord (x : Int) : Prop := -(2 ^ 31) ≤ x ∧ x < 2 ^ 31

/-- The condition code of signed arithmetic whose exact result is `x` (R296): 3 where it does not fit a word. -/
def sumCc (x : Int) : BitVec 2 := if x < -(2 ^ 31) ∨ 2 ^ 31 ≤ x then 3 else signCc x

/-- The fields that the store-status function stores of a CPU, with their offsets (R488): timers, PSW, prefix, access, floating-point, general and
control registers. -/
def statusFields (c : Cpu) : List (Nat × List Byte) :=
  [(216, bytes64 c.cpuTimer), (224, bytes64 c.clockComparator), (256, bytes64 c.psw.toDWord), (264, bytes32 (0#1 ++ c.prefixReg ++ 0#12)),
   (288, bytesOfWords c.ar.toList), (352, bytes64 c.fpr[0] ++ bytes64 c.fpr[2] ++ bytes64 c.fpr[4] ++ bytes64 c.fpr[6]),
   (384, bytesOfWords c.gr.toList), (448, bytesOfWords c.cr.toList)]

/-- The absolute addresses and the bytes of the status of a CPU, from a base. -/
def statusCells (base : Addr) (c : Cpu) : List (Addr × Byte) :=
  (statusFields c).flatMap (fun f => ((List.range f.2.length).map (fun i => base + BitVec.ofNat 31 (f.1 + i))).zip f.2)

/-- A host-primary absolute address at which a status can be stored: its block is assigned and not read-only for the host (log entry 26). -/
def statusStorable (s : State) (a : Addr) : Prop := s.hp.assigned (blockOf a) = true ∧ s.hp.readOnly (blockOf a) = false

-- interruption conditions

/-- The external-interruption condition is pending (R442): the clock comparator and the CPU timer as levels (R209), of the signals of other CPUs the
oldest; the sources 1003 and 1406 do not exist. -/
def externalPending (s : State) : External → Prop
  | .interruptKey => s.cpu.interruptKey = true
  | .malfunctionAlert a => s.cpu.malfunctionAlerts.head? = some a
  | .emergencySignal a => s.cpu.emergencySignals.head? = some a
  | .externalCall a => s.cpu.externalCall = some a
  | .clockComparator => s.cpu.clockComparator.toNat < s.tod.toNat
  | .cpuTimer => s.cpu.cpuTimer.toInt < 0
  | .serviceSignal p => s.serviceSignal = some p
  | .hostSignal h => h ∈ s.cpu.hostSignals ∧ h.code ≠ 0x1003 ∧ h.code ≠ 0x1406

/-- The number of a bit of control register 0 that masks a host service. -/
def hostMaskBit : HostMask → Nat
  | .bit16 => 16
  | .bit17 => 17
  | .bit18 => 18
  | .bit20 => 20
  | .bit21 => 21
  | .bit22 => 22
  | .bit23 => 23
  | .bit25 => 25
  | .bit30 => 30
  | .bit31 => 31

/-- The bit of control register 0 that masks the condition (the table of R442). -/
def externalMask : External → Nat
  | .malfunctionAlert _ => 16
  | .emergencySignal _ => 17
  | .externalCall _ => 18
  | .clockComparator => 20
  | .cpuTimer => 21
  | .serviceSignal _ => 22
  | .interruptKey => 25
  | .hostSignal h => hostMaskBit h.maskBit

/-- The place of the condition in the order in which they are taken (R442); that of the host services is the model's, log entry 28. -/
def externalRank : External → Nat
  | .interruptKey => 0
  | .malfunctionAlert _ => 1
  | .emergencySignal _ => 2
  | .externalCall _ => 3
  | .clockComparator => 4
  | .cpuTimer => 5
  | .serviceSignal _ => 6
  | .hostSignal _ => 7

/-- The bit of control register 14 that masks a repressible machine check (R49). -/
def machineCheckMask : McSubclass → Nat
  | .channelReport => 3
  | .recovery => 4
  | .degradation => 5
  | .externalDamage => 6
  | .warning => 7

-- host services

/-- The bits of a value under a mask are those asked for. -/
def bitsAre {w : Nat} (v mask value : BitVec w) : Prop := v &&& mask = value &&& mask

/-- Two CPUs do not differ, but for what the model keeps for itself. -/
def sameCpu (c d : Cpu) : Prop := { c with exTarget := none, staleBytes := [] } = { d with exTarget := none, staleBytes := [] }

/-- A program exception in which a host service may end: an ALEN-translation exception nullifies and an addressing-capability exception does not, both with
an ALET stored (R409, R410); the others have a code of R404 with bit 8 zero, none of Table 6 (R416, R419), and none of 0012, 0016, 0040 and 0119 (the
model's choice, log entry 24). -/
def serviceException (code : Half) (nullified : Bool) (alet : Option Word) : Prop :=
  match alet with
  | some _ => (code = 0x29 ∧ nullified = true) ∨ (code = 0x136 ∧ nullified = false)
  | none =>
    ((1 ≤ code.toNat ∧ code.toNat ≤ 0x0F) ∨ code = 0x13 ∨ code = 0x15 ∨ code = 0x1D ∨ code = 0x28) ∧ nullified = false

/-- What a question of a host service about the state asks for is so (D25). -/
def testHolds (s : State) : StateTest → Prop
  | .general r mask value => bitsAre (s.gr r) mask value
  | .access r mask value => bitsAre (s.ar r) mask value
  | .control r mask value => bitsAre (s.cr r) mask value
  | .float r mask value => bitsAre s.cpu.fpr[r.toFin] mask value
  | .psw mask value => bitsAre s.cpu.psw.toDWord mask value
  | .prefixed block => s.cpu.prefixReg = block
  | .clockComparator mask value => bitsAre s.cpu.clockComparator mask value
  | .cpuTimer mask value => bitsAre s.cpu.cpuTimer mask value
  | .todProg mask value => bitsAre s.cpu.todProg mask value
  | .clock mask value => bitsAre s.tod mask value
  | .byte asit addr mask value => bitsAre ((s.space (s.spaceOf asit)).byte addr) mask value
  | .key asit block mask value => bitsAre ((s.space (s.spaceOf asit)).key block) mask value
  | .assigned asit block on => (s.space (s.spaceOf asit)).assigned block = on
  | .readOnly asit block on => (s.space (s.spaceOf asit)).readOnly block = on
  | .usable asit block on => (s.space (s.spaceOf asit)).usable block = on
  | .entry alet e => s.entryOf alet = e
  | .accessList l => s.hal = l
  | .hostPrimary p => s.hp = p
  | .spaces l => s.spaces = l
  | .issued l => s.issued = l
  | .cpu address none => s.cpuAt address = none
  | .cpu address (some c) => ∃ d, s.cpuAt address = some d ∧ sameCpu d c
  | .floating io signal reports => s.pendingIo = io ∧ s.serviceSignal = signal ∧ s.channelReports = reports
  | .config c => s.cfg = c

-- what the next instruction is

/-- The next instruction of the CPU is SET PREFIX, or EXECUTE with SET PREFIX for its target. -/
def setsPrefix (s : State) : Prop :=
  ∃ i u, s.fetchCode false 0 s.cpu.psw.ia = .instruction i u ∧
    ((∃ b d, i = .spx b d) ∨
      ∃ r x b d, i = .ex r x b d ∧
        ∃ p q v, u.fetchCode true (if r = 0 then 0 else byteOf (u.gr r) 3) (u.ea b x d) = .instruction (.spx p q) v)

-- invariants

/-- Storage, storage keys and block flags of every address space are in canonical form. -/
def storageCanonical (s : State) : Prop := s.hp.wf = true ∧ ∀ p, p ∈ s.spaces → p.wf = true

/-- Every CPU's prefix area, and block 0, which a reset gives it, are assigned in the host-primary space (R27, R386). -/
def prefixAreasAssigned (s : State) : Prop :=
  s.hp.assigned 0 = true ∧ s.hp.assigned s.cpu.prefixReg = true ∧ ∀ c, c ∈ s.others → s.hp.assigned c.prefixReg = true

/-- No CPU is in the middle of EXECUTE. -/
def betweenInstructions (s : State) : Prop := s.cpu.exTarget = none ∧ ∀ c, c ∈ s.others → c.exTarget = none

/-- The host access list is sound: a valid entry designates an address space of the configuration, and no ALET selects two entries
(R131, R132, R151). -/
def accessListSound (s : State) : Prop :=
  (∀ e, e ∈ s.hal → e.state = .valid → e.asit = s.hp.asit ∨ ∃ p, p ∈ s.spaces ∧ p.asit = e.asit) ∧
    (s.hal.filter (fun e => e.state != .unused)).Pairwise (fun e f => e.alet ≠ f.alet)

end Sys2Proof.Safety
end

