-- ==== Sys2Proof/Certificates/Slice0/Obligations.lean ====
section
/-! DEFINITION. The statements. `completes`, `completesStore`, `enters` and the other terms are those of Sys2Proof/Safety.lean: an instruction that
completes does so with a next state, its results, and everything else unchanged. -/

open Sys2Proof Sys2Proof.Machine Sys2Proof.Safety

-- general registers

/-- R300, R301, R304, R307, R388, R373, R372: the register loads without storage, and SET PROGRAM MASK. -/
def Obligations.LoadsWithoutStorage : Prop :=
  ∀ (s : State) (r1 r2 x2 b2 : Reg) (d2 : Disp) (i2 : Half),
    completes (exec (.lr r1 r2) s) s { psw := pswNext s 2, grs := [(r1, s.gr r2)] } ∧
    completes (exec (.ltr r1 r2) s) s { psw := pswCc s 2 (signCc (s.gr r2).toInt), grs := [(r1, s.gr r2)] } ∧
    completes (exec (.lnr r1 r2) s) s
      { psw := pswCc s 2 (if s.gr r2 = 0 then 0 else 1), grs := [(r1, BitVec.ofInt 32 (-((s.gr r2).toInt.natAbs : Int)))] } ∧
    completes (exec (.la r1 x2 b2 d2) s) s { psw := pswNext s 4, grs := [(r1, (s.ea b2 x2 d2).setWidth 32)] } ∧
    completes (exec (.lhi r1 i2) s) s { psw := pswNext s 4, grs := [(r1, BitVec.ofInt 32 i2.toInt)] } ∧
    completes (exec (.ipm r1) s) s
      { psw := pswNext s 4, grs := [(r1, 0#2 ++ s.cpu.psw.cc ++ s.cpu.psw.progMask ++ field (s.gr r1) 8 24)] } ∧
    completes (exec (.spm r1) s) s { psw := { pswNext s 2 with cc := field (s.gr r1) 2 2, progMask := field (s.gr r1) 4 4 } }

/-- R296, R302, R303, R315, R318, R389: the exact result is computed; it is put in R1 modulo 2^32 with the condition code. Where it does not fit a
word, the instruction completes while PSW bit 20 is zero. -/
def Obligations.SignedArithmeticOfRegisters : Prop :=
  ∀ (s : State) (r1 r2 : Reg) (i2 : Half) (x : Int), s.cpu.psw.overflowMask = false ∨ fitsWord x →
    (x = -(s.gr r2).toInt →
      completes (exec (.lcr r1 r2) s) s { psw := pswCc s 2 (sumCc x), grs := [(r1, BitVec.ofInt 32 x)] }) ∧
    (x = (s.gr r2).toInt.natAbs →
      completes (exec (.lpr r1 r2) s) s { psw := pswCc s 2 (sumCc x), grs := [(r1, BitVec.ofInt 32 x)] }) ∧
    (x = (s.gr r1).toInt + (s.gr r2).toInt →
      completes (exec (.ar r1 r2) s) s { psw := pswCc s 2 (sumCc x), grs := [(r1, BitVec.ofInt 32 x)] }) ∧
    (x = (s.gr r1).toInt - (s.gr r2).toInt →
      completes (exec (.sr r1 r2) s) s { psw := pswCc s 2 (sumCc x), grs := [(r1, BitVec.ofInt 32 x)] }) ∧
    (x = (s.gr r1).toInt + i2.toInt →
      completes (exec (.ahi r1 i2) s) s { psw := pswCc s 4 (sumCc x), grs := [(r1, BitVec.ofInt 32 x)] })

/-- R316, R317, R319, R320: the same with an operand in storage. -/
def Obligations.SignedArithmeticWithStorage : Prop :=
  ∀ (s : State) (r1 x2 b2 : Reg) (d2 : Disp) (x : Int), s.cpu.psw.overflowMask = false ∨ fitsWord x →
    let ea := s.ea b2 x2 d2
    let word := (be32 (operand s b2 ea 4)).toInt
    let half := (be16 (operand s b2 ea 2)).toInt
    let e : Effect := { psw := pswCc s 4 (sumCc x), grs := [(r1, BitVec.ofInt 32 x)] }
    (fetchable s b2 ea 4 →
      (x = (s.gr r1).toInt + word → completes (exec (.a r1 x2 b2 d2) s) s e) ∧
      (x = (s.gr r1).toInt - word → completes (exec (.s r1 x2 b2 d2) s) s e)) ∧
    (fetchable s b2 ea 2 →
      (x = (s.gr r1).toInt + half → completes (exec (.ah r1 x2 b2 d2) s) s e) ∧
      (x = (s.gr r1).toInt - half → completes (exec (.sh r1 x2 b2 d2) s) s e))

/-- R296, R418: where the exact result does not fit the operand and PSW bit 20 is one, the result and condition code 3 are in place when the
fixed-point-overflow interruption is taken. -/
def Obligations.FixedPointOverflow : Prop :=
  ∀ (s : State) (r1 r2 x2 b2 : Reg) (d2 : Disp) (i2 : Half), s.cpu.psw.overflowMask = true → s.prefixAreaAssigned = true →
    let ea := s.ea b2 x2 d2
    let a := (s.gr r1).toInt
    let b := (s.gr r2).toInt
    let word := (be32 (operand s b2 ea 4)).toInt
    let half := (be16 (operand s b2 ea 2)).toInt
    let n := (s.eaBD b2 d2).toNat % 64
    let p := (s.pair r1).toInt
    let wide : DWord := BitVec.ofBool (s.pair r1).msb ++ BitVec.ofInt 63 (p * 2 ^ n)
    let overflows (i : Instr) (len : Nat) (grs : List (Reg × Word)) : Prop :=
      entersProgram (exec i s) s { psw := pswCc s len 3, grs := grs } 8 (s.ilcOf len) []
    let sum (i : Instr) (len : Nat) (x : Int) : Prop := ¬ fitsWord x → overflows i len [(r1, BitVec.ofInt 32 x)]
    sum (.lcr r1 r2) 2 (-b) ∧ sum (.lpr r1 r2) 2 b.natAbs ∧ sum (.ar r1 r2) 2 (a + b) ∧ sum (.sr r1 r2) 2 (a - b) ∧
    sum (.ahi r1 i2) 4 (a + i2.toInt) ∧
    (fetchable s b2 ea 4 → sum (.a r1 x2 b2 d2) 4 (a + word) ∧ sum (.s r1 x2 b2 d2) 4 (a - word)) ∧
    (fetchable s b2 ea 2 → sum (.ah r1 x2 b2 d2) 4 (a + half) ∧ sum (.sh r1 x2 b2 d2) 4 (a - half)) ∧
    (¬ fitsWord (a * 2 ^ n) →
      overflows (.sla r1 b2 d2) 4 [(r1, BitVec.ofBool (s.gr r1).msb ++ BitVec.ofInt 31 (a * 2 ^ n))]) ∧
    (evenReg r1 = true → ¬ (-(2 ^ 63) ≤ p * 2 ^ n ∧ p * 2 ^ n < 2 ^ 63) →
      overflows (.slda r1 b2 d2) 4 [(r1, field wide 0 32), (oddOf r1, field wide 32 32)])

/-- R321 to R324: logical arithmetic. After a subtraction the condition code is 1 where the first operand is lower, 2 where the operands are equal,
3 where it is higher. -/
def Obligations.LogicalArithmetic : Prop :=
  ∀ (s : State) (r1 r2 x2 b2 : Reg) (d2 : Disp),
    let ea := s.ea b2 x2 d2
    let a := (s.gr r1).toNat
    let addition (len n : Nat) : Effect :=
      { psw := pswCc s len ((if 2 ^ 32 ≤ a + n then 2 else 0) + (if (a + n) % 2 ^ 32 = 0 then 0 else 1)),
        grs := [(r1, BitVec.ofNat 32 (a + n))] }
    let subtraction (len n : Nat) : Effect :=
      { psw := pswCc s len (if a < n then 1 else if a = n then 2 else 3), grs := [(r1, BitVec.ofInt 32 ((a : Int) - n))] }
    completes (exec (.alr r1 r2) s) s (addition 2 (s.gr r2).toNat) ∧
    completes (exec (.slr r1 r2) s) s (subtraction 2 (s.gr r2).toNat) ∧
    (fetchable s b2 ea 4 →
      completes (exec (.al r1 x2 b2 d2) s) s (addition 4 (be32 (operand s b2 ea 4)).toNat) ∧
      completes (exec (.sl r1 x2 b2 d2) s) s (subtraction 4 (be32 (operand s b2 ea 4)).toNat))

/-- R325 to R327, R390: the product of MR and M is exact in the 64 bits of an even-odd pair; MH and MHI keep its last 32 bits. -/
def Obligations.Multiplication : Prop :=
  ∀ (s : State) (r1 r2 x2 b2 : Reg) (d2 : Disp) (i2 : Half),
    let ea := s.ea b2 x2 d2
    (evenReg r1 = true → ∃ p : DWord, p.toInt = (s.gr (oddOf r1)).toInt * (s.gr r2).toInt ∧
      completes (exec (.mr r1 r2) s) s { psw := pswNext s 2, grs := [(r1, field p 0 32), (oddOf r1, field p 32 32)] }) ∧
    (evenReg r1 = true → fetchable s b2 ea 4 →
      ∃ p : DWord, p.toInt = (s.gr (oddOf r1)).toInt * (be32 (operand s b2 ea 4)).toInt ∧
        completes (exec (.m r1 x2 b2 d2) s) s { psw := pswNext s 4, grs := [(r1, field p 0 32), (oddOf r1, field p 32 32)] }) ∧
    (fetchable s b2 ea 2 → completes (exec (.mh r1 x2 b2 d2) s) s
      { psw := pswNext s 4, grs := [(r1, BitVec.ofInt 32 ((s.gr r1).toInt * (be16 (operand s b2 ea 2)).toInt))] }) ∧
    completes (exec (.mhi r1 i2) s) s { psw := pswNext s 4, grs := [(r1, BitVec.ofInt 32 ((s.gr r1).toInt * i2.toInt))] }

/-- R328, R329: the quotient and the remainder, whose sign is that of the dividend, replace the pair where the quotient fits a word; with a zero
divisor, or a quotient that does not fit, DR and D end with a fixed-point-divide exception and no register changed. -/
def Obligations.Division : Prop :=
  ∀ (s : State) (r1 r2 x2 b2 : Reg) (d2 : Disp) (q m : Int), evenReg r1 = true →
    let ea := s.ea b2 x2 d2
    let n := (s.pair r1).toInt
    let e (len : Nat) : Effect := { psw := pswNext s len, grs := [(r1, BitVec.ofInt 32 m), (oddOf r1, BitVec.ofInt 32 q)] }
    let divides (d : Int) : Prop := n = q * d + m ∧ m.natAbs < d.natAbs ∧ (m = 0 ∨ (m < 0 ↔ n < 0))
    (divides (s.gr r2).toInt → fitsWord q → completes (exec (.dr r1 r2) s) s (e 2)) ∧
    (fetchable s b2 ea 4 → divides (be32 (operand s b2 ea 4)).toInt → fitsWord q → completes (exec (.d r1 x2 b2 d2) s) s (e 4)) ∧
    (s.prefixAreaAssigned = true →
      ((s.gr r2 = 0 ∨ divides (s.gr r2).toInt ∧ ¬ fitsWord q) → suppresses (exec (.dr r1 r2) s) s 2 9) ∧
      (fetchable s b2 ea 4 →
        (be32 (operand s b2 ea 4) = 0 ∨ divides (be32 (operand s b2 ea 4)).toInt ∧ ¬ fitsWord q) →
        suppresses (exec (.d r1 x2 b2 d2) s) s 4 9))

/-- R325, R326, R328, R329, R354 to R357, R381: an odd register where an even-odd pair is asked for is a specification exception. -/
def Obligations.OddRegisterPair : Prop :=
  ∀ (s : State) (r1 r2 r3 x2 b2 : Reg) (d2 : Disp), evenReg r1 = false → s.prefixAreaAssigned = true →
    suppresses (exec (.mr r1 r2) s) s 2 6 ∧
    suppresses (exec (.dr r1 r2) s) s 2 6 ∧
    suppresses (exec (.sldl r1 b2 d2) s) s 4 6 ∧
    suppresses (exec (.srdl r1 b2 d2) s) s 4 6 ∧
    suppresses (exec (.slda r1 b2 d2) s) s 4 6 ∧
    suppresses (exec (.srda r1 b2 d2) s) s 4 6 ∧
    (fetchable s b2 (s.ea b2 x2 d2) 4 →
      suppresses (exec (.m r1 x2 b2 d2) s) s 4 6 ∧ suppresses (exec (.d r1 x2 b2 d2) s) s 4 6) ∧
    (storable s b2 (s.eaBD b2 d2) 8 → suppresses (exec (.cds r1 r3 b2 d2) s) s 4 6 ∧ suppresses (exec (.cds r3 r1 b2 d2) s) s 4 6)

-- comparison

/-- R331 to R336, R391: the comparisons of numbers, signed and unsigned. -/
def Obligations.Comparison : Prop :=
  ∀ (s : State) (r1 r2 x2 b2 : Reg) (d2 : Disp) (i2 : Half) (i : Byte),
    let ea := s.ea b2 x2 d2
    let a := s.gr r1
    completes (exec (.cr r1 r2) s) s { psw := pswCc s 2 (orderCc a.toInt (s.gr r2).toInt) } ∧
    completes (exec (.clr r1 r2) s) s { psw := pswCc s 2 (orderCc a.toNat (s.gr r2).toNat) } ∧
    completes (exec (.chi r1 i2) s) s { psw := pswCc s 4 (orderCc a.toInt i2.toInt) } ∧
    (fetchable s b2 ea 4 →
      completes (exec (.c r1 x2 b2 d2) s) s { psw := pswCc s 4 (orderCc a.toInt (be32 (operand s b2 ea 4)).toInt) } ∧
      completes (exec (.cl r1 x2 b2 d2) s) s { psw := pswCc s 4 (orderCc a.toNat (be32 (operand s b2 ea 4)).toNat) }) ∧
    (fetchable s b2 ea 2 →
      completes (exec (.ch r1 x2 b2 d2) s) s { psw := pswCc s 4 (orderCc a.toInt (be16 (operand s b2 ea 2)).toInt) }) ∧
    (fetchable s b2 (s.eaBD b2 d2) 1 →
      completes (exec (.cli i b2 d2) s) s
        { psw := pswCc s 4 (orderCc ((operand s b2 (s.eaBD b2 d2) 1).headD 0).toNat i.toNat) })

/-- The order of two byte strings, by their first unequal bytes. -/
def Sys2Proof.Safety.stringOrder (x y : List Byte) (c : BitVec 2) : Prop :=
  (x = y ∧ c = 0) ∨
  ∃ k, k < x.length ∧ x.take k = y.take k ∧
    (((x.getD k 0).toNat < (y.getD k 0).toNat ∧ c = 1) ∨ ((y.getD k 0).toNat < (x.getD k 0).toNat ∧ c = 2))

/-- R337, R339, R349: the comparison of byte strings by their first unequal bytes, and TEST UNDER MASK. -/
def Obligations.ComparisonOfStrings : Prop :=
  ∀ (s : State) (len : Nat) (r1 m3 b1 b2 : Reg) (d1 d2 : Disp) (i : Byte) (c : BitVec 2),
    let e1 := s.eaBD b1 d1
    let e2 := s.eaBD b2 d2
    (fetchable s b1 e1 len → fetchable s b2 e2 len → stringOrder (operand s b1 e1 len) (operand s b2 e2 len) c →
      completes (exec (.clc len b1 d1 b2 d2) s) s { psw := pswCc s 6 c }) ∧
    (m3 ≠ 0 → fetchable s b2 e2 (maskBytes m3).length →
      stringOrder (selectedBytes (s.gr r1) m3) (operand s b2 e2 (maskBytes m3).length) c →
      completes (exec (.clm r1 m3 b2 d2) s) s { psw := pswCc s 4 c }) ∧
    (fetchable s b2 e2 1 → completes (exec (.clm r1 0 b2 d2) s) s { psw := pswCc s 4 0 }) ∧
    (fetchable s b1 e1 1 →
      let v := (operand s b1 e1 1).headD 0
      completes (exec (.tm i b1 d1) s) s
        { psw := pswCc s 4 (if (List.range 8).all (fun k => !(bitAt i k && bitAt v k)) = true then 0
            else if (List.range 8).all (fun k => !bitAt i k || bitAt v k) = true then 3 else 1) })

-- logic

/-- R340, R341, R343, R344, R346, R347: AND, OR and EXCLUSIVE OR into a register. -/
def Obligations.LogicIntoRegister : Prop :=
  ∀ (s : State) (r1 r2 x2 b2 : Reg) (d2 : Disp),
    let ea := s.ea b2 x2 d2
    let e (len : Nat) (v : Word) : Effect := { psw := pswCc s len (if v = 0 then 0 else 1), grs := [(r1, v)] }
    let a := s.gr r1
    let w := be32 (operand s b2 ea 4)
    completes (exec (.nr r1 r2) s) s (e 2 (a &&& s.gr r2)) ∧
    completes (exec (.or r1 r2) s) s (e 2 (a ||| s.gr r2)) ∧
    completes (exec (.xr r1 r2) s) s (e 2 (a ^^^ s.gr r2)) ∧
    (fetchable s b2 ea 4 →
      completes (exec (.n r1 x2 b2 d2) s) s (e 4 (a &&& w)) ∧
      completes (exec (.o r1 x2 b2 d2) s) s (e 4 (a ||| w)) ∧
      completes (exec (.x r1 x2 b2 d2) s) s (e 4 (a ^^^ w)))

/-- R342, R345, R348, R374: an immediate byte moved to storage, or combined with the byte there. -/
def Obligations.ImmediateToStorage : Prop :=
  ∀ (s : State) (i : Byte) (b1 : Reg) (d1 : Disp),
    let ea := s.eaBD b1 d1
    let v := (operand s b1 ea 1).headD 0
    let e (w : Byte) : Effect := { psw := pswCc s 4 (if w = 0 then 0 else 1) }
    storable s b1 ea 1 →
      completesStore (exec (.mvi i b1 d1) s) s { psw := pswNext s 4 } (operandSpace s b1) (storedCells s b1 ea [i]) ∧
      completesStore (exec (.ni i b1 d1) s) s (e (v &&& i)) (operandSpace s b1) (storedCells s b1 ea [v &&& i]) ∧
      completesStore (exec (.oi i b1 d1) s) s (e (v ||| i)) (operandSpace s b1) (storedCells s b1 ea [v ||| i]) ∧
      completesStore (exec (.xi i b1 d1) s) s (e (v ^^^ i)) (operandSpace s b1) (storedCells s b1 ea [v ^^^ i])

-- loads and stores

/-- R305, R306, R308, R338: one register loaded from storage; under a mask, the bytes it selects are inserted from successive bytes of storage, and
the others are unchanged. -/
def Obligations.LoadsFromStorage : Prop :=
  ∀ (s : State) (r1 m3 x2 b2 : Reg) (d2 : Disp),
    let ea := s.ea b2 x2 d2
    let em := s.eaBD b2 d2
    let bytes := operand s b2 em (maskBytes m3).length
    (fetchable s b2 ea 4 →
      completes (exec (.l r1 x2 b2 d2) s) s { psw := pswNext s 4, grs := [(r1, be32 (operand s b2 ea 4))] }) ∧
    (fetchable s b2 ea 2 →
      completes (exec (.lh r1 x2 b2 d2) s) s
        { psw := pswNext s 4, grs := [(r1, BitVec.ofInt 32 (be16 (operand s b2 ea 2)).toInt)] }) ∧
    (fetchable s b2 ea 1 →
      completes (exec (.ic r1 x2 b2 d2) s) s
        { psw := pswNext s 4, grs := [(r1, field (s.gr r1) 0 24 ++ (operand s b2 ea 1).headD 0)] }) ∧
    (fetchable s b2 em (max 1 (maskBytes m3).length) →
      ∃ v : Word,
        (∀ k, k < 4 → byteOf v k = if bitAt m3 k = true then bytes.getD ((maskBytes m3).idxOf k) 0 else byteOf (s.gr r1) k) ∧
        completes (exec (.icm r1 m3 b2 d2) s) s
          { psw := pswCc s 4 (if ∀ b, b ∈ bytes → b = 0 then 0 else if bitAt (bytes.headD 0) 0 = true then 1 else 2), grs := [(r1, v)] })

/-- R309, R214, R384: registers R1 to R3, wrapping from 15 to 0, loaded from successive words; the address space is the one the base register
designates before the instruction. -/
def Obligations.LoadsOfSeveralRegisters : Prop :=
  ∀ (s : State) (r1 r3 b2 : Reg) (d2 : Disp),
    let ea := s.eaBD b2 d2
    let n := (r3 - r1).toNat + 1
    let words : List (Reg × Word) :=
      (List.range n).map (fun i => (r1 + BitVec.ofNat 4 i, be32 (operand s b2 (ea + BitVec.ofNat 31 (4 * i)) 4)))
    fetchable s b2 ea (4 * n) →
      completes (exec (.lm r1 r3 b2 d2) s) s { psw := pswNext s 4, grs := words } ∧
      (aligned ea 4 = true → completes (exec (.lam r1 r3 b2 d2) s) s { psw := pswNext s 4, ars := words }) ∧
      (aligned ea 4 = true → s.cpu.psw.problem = false →
        completes (exec (.lctl r1 r3 b2 d2) s) s { psw := pswNext s 4, crs := words })

/-- R310 to R313: one register, or bytes of it, stored. -/
def Obligations.StoresOfOneRegister : Prop :=
  ∀ (s : State) (r1 m3 x2 b2 : Reg) (d2 : Disp),
    let ea := s.ea b2 x2 d2
    let em := s.eaBD b2 d2
    let v := s.gr r1
    let e : Effect := { psw := pswNext s 4 }
    (storable s b2 ea 4 → completesStore (exec (.st r1 x2 b2 d2) s) s e (operandSpace s b2)
      (storedCells s b2 ea [byteOf v 0, byteOf v 1, byteOf v 2, byteOf v 3])) ∧
    (storable s b2 ea 2 → completesStore (exec (.sth r1 x2 b2 d2) s) s e (operandSpace s b2)
      (storedCells s b2 ea [byteOf v 2, byteOf v 3])) ∧
    (storable s b2 ea 1 → completesStore (exec (.stc r1 x2 b2 d2) s) s e (operandSpace s b2) (storedCells s b2 ea [byteOf v 3])) ∧
    (storable s b2 em (maskBytes m3).length → (m3 = 0 → storable s b2 em 1) →
      completesStore (exec (.stcm r1 m3 b2 d2) s) s e (operandSpace s b2)
        (storedCells s b2 em (((List.range 4).filter (fun k => bitAt m3 k)).map (byteOf v))))

/-- R314, R215, R385: registers R1 to R3, wrapping from 15 to 0, stored in successive words. -/
def Obligations.StoresOfSeveralRegisters : Prop :=
  ∀ (s : State) (r1 r3 b2 : Reg) (d2 : Disp),
    let ea := s.eaBD b2 d2
    let n := (r3 - r1).toNat + 1
    let cells (f : Reg → Word) := storedCells s b2 ea ((List.range n).flatMap (fun i => bytes32 (f (r1 + BitVec.ofNat 4 i))))
    storable s b2 ea (4 * n) →
      completesStore (exec (.stm r1 r3 b2 d2) s) s { psw := pswNext s 4 } (operandSpace s b2) (cells s.gr) ∧
      (aligned ea 4 = true →
        completesStore (exec (.stam r1 r3 b2 d2) s) s { psw := pswNext s 4 } (operandSpace s b2) (cells s.ar)) ∧
      (aligned ea 4 = true → s.cpu.psw.problem = false →
        completesStore (exec (.stctl r1 r3 b2 d2) s) s { psw := pswNext s 4 } (operandSpace s b2) (cells s.cr))

/-- R375 to R378: the string instructions store each byte before they fetch the next; the condition code of NC, OC and XC says whether every byte
of the first operand is then zero. -/
def Obligations.StringInstructions : Prop :=
  ∀ (s : State) (len : Nat) (b1 b2 : Reg) (d1 d2 : Disp), len ≤ 256 →
    let e1 := s.eaBD b1 d1
    let e2 := s.eaBD b2 d2
    let pairs := (operandCells s b1 e1 len).zip (operandCells s b2 e2 len)
    let result (f : Byte → Byte → Byte) := stringBytes f (operandSpace s b1) (operandSpace s b2) pairs (fun i a => (s.space i).byte a)
    let done (o : Host.Outcome State Fault Refusal) (f : Byte → Byte → Byte) (psw : Psw) : Prop :=
      ∃ t, o = .next t ∧ t.cpu.psw = psw ∧ (Effect.mk psw [] [] []).onRegisters s t ∧ (∀ i a, (t.space i).byte a = result f i a) ∧
        keysKept s t ∧ frame t = frame s
    let cc (f : Byte → Byte → Byte) : BitVec 2 := if ∀ a, a ∈ operandCells s b1 e1 len → result f (operandSpace s b1) a = 0 then 0 else 1
    storable s b1 e1 len → fetchable s b2 e2 len →
      done (exec (.mvc len b1 d1 b2 d2) s) (fun _ y => y) (pswNext s 6) ∧
      done (exec (.nc len b1 d1 b2 d2) s) (fun x y => x &&& y) (pswCc s 6 (cc (fun x y => x &&& y))) ∧
      done (exec (.oc len b1 d1 b2 d2) s) (fun x y => x ||| y) (pswCc s 6 (cc (fun x y => x ||| y))) ∧
      done (exec (.xc len b1 d1 b2 d2) s) (fun x y => x ^^^ y) (pswCc s 6 (cc (fun x y => x ^^^ y)))

/-- R375: operands that share no byte are copied; a first operand one byte to the right of the second is filled with the second's first byte. -/
def Obligations.MoveOverlap : Prop :=
  ∀ (s : State) (len : Nat) (b1 b2 : Reg) (d1 d2 : Disp), len ≤ 256 →
    let e1 := s.eaBD b1 d1
    let e2 := s.eaBD b2 d2
    storable s b1 e1 len → fetchable s b2 e2 len →
      ((operandSpace s b1 ≠ operandSpace s b2 ∨ ∀ a, a ∈ operandCells s b1 e1 len → a ∉ operandCells s b2 e2 len) →
        completesStore (exec (.mvc len b1 d1 b2 d2) s) s { psw := pswNext s 6 } (operandSpace s b1)
          (storedCells s b1 e1 (operand s b2 e2 len))) ∧
      (s.target b1 = s.target b2 → e1 = wrapMode s.cpu.psw.amode (e2 + 1) →
        completesStore (exec (.mvc len b1 d1 b2 d2) s) s { psw := pswNext s 6 } (operandSpace s b1)
          (storedCells s b1 e1 (List.replicate len ((operand s b2 e2 1).headD 0))))

/-- R380, R381: the interlocked updates. -/
def Obligations.CompareAndSwap : Prop :=
  ∀ (s : State) (r1 r3 b2 : Reg) (d2 : Disp),
    let ea := s.eaBD b2 d2
    let w := be32 (operand s b2 ea 4)
    let d := be64 (operand s b2 ea 8)
    (aligned ea 4 = true → storable s b2 ea 4 →
      (w = s.gr r1 → completesStore (exec (.cs r1 r3 b2 d2) s) s { psw := pswCc s 4 0 } (operandSpace s b2)
        (storedCells s b2 ea (bytes32 (s.gr r3)))) ∧
      (w ≠ s.gr r1 → completes (exec (.cs r1 r3 b2 d2) s) s { psw := pswCc s 4 1, grs := [(r1, w)] })) ∧
    (evenReg r1 = true → evenReg r3 = true → aligned ea 8 = true → storable s b2 ea 8 →
      (d = s.gr r1 ++ s.gr (oddOf r1) → completesStore (exec (.cds r1 r3 b2 d2) s) s { psw := pswCc s 4 0 } (operandSpace s b2)
        (storedCells s b2 ea (bytes32 (s.gr r3) ++ bytes32 (s.gr (oddOf r3))))) ∧
      (d ≠ s.gr r1 ++ s.gr (oddOf r1) →
        completes (exec (.cds r1 r3 b2 d2) s) s { psw := pswCc s 4 1, grs := [(r1, field d 0 32), (oddOf r1, field d 32 32)] }))

-- shifts

/-- R350, R351, R354, R355: the logical shifts, as products and quotients by a power of two. -/
def Obligations.LogicalShifts : Prop :=
  ∀ (s : State) (r1 b2 : Reg) (d2 : Disp),
    let n := (s.eaBD b2 d2).toNat % 64
    let v := (s.gr r1).toNat
    let p := (s.pair r1).toNat
    let pairEffect (x : DWord) : Effect := { psw := pswNext s 4, grs := [(r1, field x 0 32), (oddOf r1, field x 32 32)] }
    completes (exec (.sll r1 b2 d2) s) s { psw := pswNext s 4, grs := [(r1, BitVec.ofNat 32 (v * 2 ^ n))] } ∧
    completes (exec (.srl r1 b2 d2) s) s { psw := pswNext s 4, grs := [(r1, BitVec.ofNat 32 (v / 2 ^ n))] } ∧
    (evenReg r1 = true →
      completes (exec (.sldl r1 b2 d2) s) s (pairEffect (BitVec.ofNat 64 (p * 2 ^ n))) ∧
      completes (exec (.srdl r1 b2 d2) s) s (pairEffect (BitVec.ofNat 64 (p / 2 ^ n))))

/-- R352, R353, R356, R357: the arithmetic shifts. A left shift keeps the sign bit, and overflows exactly where the product by the power of two does
not fit the operand; a right shift rounds down. -/
def Obligations.ArithmeticShifts : Prop :=
  ∀ (s : State) (r1 b2 : Reg) (d2 : Disp),
    let n := (s.eaBD b2 d2).toNat % 64
    let v := (s.gr r1).toInt
    let p := (s.pair r1).toInt
    let fits (w : Nat) (x : Int) : Prop := -(2 ^ (w - 1)) ≤ x ∧ x < 2 ^ (w - 1)
    let pairEffect (cc : BitVec 2) (x : DWord) : Effect := { psw := pswCc s 4 cc, grs := [(r1, field x 0 32), (oddOf r1, field x 32 32)] }
    (s.cpu.psw.overflowMask = false ∨ fits 32 (v * 2 ^ n) →
      completes (exec (.sla r1 b2 d2) s) s
        { psw := pswCc s 4 (sumCc (v * 2 ^ n)), grs := [(r1, BitVec.ofBool (s.gr r1).msb ++ BitVec.ofInt 31 (v * 2 ^ n))] }) ∧
    completes (exec (.sra r1 b2 d2) s) s
      { psw := pswCc s 4 (signCc (v / 2 ^ n)), grs := [(r1, BitVec.ofInt 32 (v / 2 ^ n))] } ∧
    (evenReg r1 = true →
      (fits 64 (p * 2 ^ n) →
        completes (exec (.slda r1 b2 d2) s) s (pairEffect (signCc (p * 2 ^ n)) (BitVec.ofInt 64 (p * 2 ^ n)))) ∧
      (¬ fits 64 (p * 2 ^ n) → s.cpu.psw.overflowMask = false →
        completes (exec (.slda r1 b2 d2) s) s
          (pairEffect 3 (BitVec.ofBool (s.pair r1).msb ++ BitVec.ofInt 63 (p * 2 ^ n)))) ∧
      completes (exec (.srda r1 b2 d2) s) s (pairEffect (signCc (p / 2 ^ n)) (BitVec.ofInt 64 (p / 2 ^ n))))

-- branches and supervisor call

/-- R360 to R363, R393: the branches that save a link. -/
def Obligations.LinkingBranches : Prop :=
  ∀ (s : State) (r1 r2 x2 b2 : Reg) (d2 : Disp) (i2 : Half),
    let ea := s.ea b2 x2 d2
    let save (len : Nat) : Word := BitVec.ofBool s.cpu.psw.amode ++ s.nextIa len
    let link (len : Nat) : Word :=
      if s.cpu.psw.amode = true then 1#1 ++ s.nextIa len
      else BitVec.ofNat 2 (s.ilcOf len) ++ s.cpu.psw.cc ++ s.cpu.psw.progMask ++ (s.nextIa len).setWidth 24
    let to2 := if r2 = 0 then s.nextIa 2 else truncMode s.cpu.psw.amode (s.gr r2)
    completes (exec (.balr r1 r2) s) s { psw := pswAt s to2, grs := [(r1, link 2)] } ∧
    completes (exec (.bal r1 x2 b2 d2) s) s { psw := pswAt s ea, grs := [(r1, link 4)] } ∧
    completes (exec (.basr r1 r2) s) s { psw := pswAt s to2, grs := [(r1, save 2)] } ∧
    completes (exec (.bas r1 x2 b2 d2) s) s { psw := pswAt s ea, grs := [(r1, save 4)] } ∧
    completes (exec (.bras r1 i2) s) s
      { psw := pswAt s (truncMode s.cpu.psw.amode (BitVec.ofInt 32 (s.instructionAddress.toNat + 2 * i2.toInt))), grs := [(r1, save 4)] }

/-- R364, R365, R392: a branch on condition is taken exactly where the mask bit numbered by the condition code is one. -/
def Obligations.ConditionalBranches : Prop :=
  ∀ (s : State) (m1 r2 x2 b2 : Reg) (d2 : Disp) (i2 : Half),
    let met := bitAt m1 s.cpu.psw.cc.toNat
    let relative := truncMode s.cpu.psw.amode (BitVec.ofInt 32 (s.instructionAddress.toNat + 2 * i2.toInt))
    completes (exec (.bcr m1 r2) s) s
      { psw := pswAt s (if met = true ∧ r2 ≠ 0 then truncMode s.cpu.psw.amode (s.gr r2) else s.nextIa 2) } ∧
    completes (exec (.bc m1 x2 b2 d2) s) s { psw := pswAt s (if met = true then s.ea b2 x2 d2 else s.nextIa 4) } ∧
    completes (exec (.brc m1 i2) s) s { psw := pswAt s (if met = true then relative else s.nextIa 4) }

/-- R366 to R369, R394: the counting branches. -/
def Obligations.CountingBranches : Prop :=
  ∀ (s : State) (r1 r2 r3 x2 b2 : Reg) (d2 : Disp) (i2 : Half),
    let count := BitVec.ofInt 32 ((s.gr r1).toNat - 1)
    let more := (s.gr r1).toNat ≠ 1
    let relative := truncMode s.cpu.psw.amode (BitVec.ofInt 32 (s.instructionAddress.toNat + 2 * i2.toInt))
    let sum := BitVec.ofInt 32 ((s.gr r1).toInt + (s.gr r3).toInt)
    let high := (s.gr (oddOf r3)).toInt < sum.toInt
    completes (exec (.bctr r1 r2) s) s
      { psw := pswAt s (if more ∧ r2 ≠ 0 then truncMode s.cpu.psw.amode (s.gr r2) else s.nextIa 2), grs := [(r1, count)] } ∧
    completes (exec (.bct r1 x2 b2 d2) s) s
      { psw := pswAt s (if more then s.ea b2 x2 d2 else s.nextIa 4), grs := [(r1, count)] } ∧
    completes (exec (.brct r1 i2) s) s { psw := pswAt s (if more then relative else s.nextIa 4), grs := [(r1, count)] } ∧
    completes (exec (.bxh r1 r3 b2 d2) s) s
      { psw := pswAt s (if high then s.eaBD b2 d2 else s.nextIa 4), grs := [(r1, sum)] } ∧
    completes (exec (.bxle r1 r3 b2 d2) s) s
      { psw := pswAt s (if high then s.nextIa 4 else s.eaBD b2 d2), grs := [(r1, sum)] }

/-- R371, R441: SUPERVISOR CALL takes the supervisor-call interruption. -/
def Obligations.SupervisorCall : Prop :=
  ∀ (s : State) (i : Byte), s.prefixAreaAssigned = true →
    enters (exec (.svc i) s) s { psw := pswNext s 2 } 32 96 [(136, [0, BitVec.ofNat 8 (2 * s.ilcOf 2), 0, i])]

/-- R370: EXECUTE runs the instruction at the second-operand address, its second byte changed in the CPU by an OR with the last byte of R1, in the
EXECUTE's own place: the bytes that count are those storage holds at the address. A target LR, MVC, BCR or SVC completes with the instruction address
after the EXECUTE, or the branch address, and instruction-length code 2; another EXECUTE is an execute exception. -/
def Obligations.Execute : Prop :=
  ∀ (s : State) (r1 x2 b2 : Reg) (d2 : Disp), s.cpu.exTarget = none → s.cpu.staleBytes = [] →
    let ea := s.ea b2 x2 d2
    let code (n : Nat) : List Byte := (s.addrs ea n).map (fun a => s.hp.byte (s.prefixed a))
    let len := instrLength ((code 2).headD 0)
    let mask : Byte := if r1 = 0 then 0 else byteOf (s.gr r1) 3
    let second : Byte := (code 2).getD 1 0 ||| mask
    let target : List Byte := (code len).set 1 second
    let run := exec (.ex r1 x2 b2 d2) s
    aligned ea 2 = true → s.accessFaults instructionTarget controlCheck false ea len = [] →
      (∀ a b, decode target = .ok (.lr a b) → completes run s { psw := pswNext s 4, grs := [(a, s.gr b)] }) ∧
      (∀ n b1 d1 b3 d3, decode target = .ok (.mvc n b1 d1 b3 d3) → n ≤ 256 →
        let e1 := s.eaBD b1 d1
        let e3 := s.eaBD b3 d3
        storable s b1 e1 n → fetchable s b3 e3 n →
        (operandSpace s b1 ≠ operandSpace s b3 ∨ ∀ a, a ∈ operandCells s b1 e1 n → a ∉ operandCells s b3 e3 n) →
          completesStore run s { psw := pswNext s 4 } (operandSpace s b1) (storedCells s b1 e1 (operand s b3 e3 n))) ∧
      (∀ m r, decode target = .ok (.bcr m r) → completes run s
        { psw := pswAt s (if bitAt m s.cpu.psw.cc.toNat = true ∧ r ≠ 0 then truncMode s.cpu.psw.amode (s.gr r) else s.nextIa 4) }) ∧
      (∀ n, decode target = .ok (.svc n) → s.prefixAreaAssigned = true →
        enters run s { psw := pswNext s 4 } 32 96 [(136, [0, 4, 0, n])]) ∧
      (∀ a x b d, decode target = .ok (.ex a x b d) → s.prefixAreaAssigned = true → suppresses run s 4 3) ∧
      (∀ i, decode target = .ok i → (∀ a x b d, i ≠ .ex a x b d) →
        run = match exec i ((s.noteFetches instructionTarget (s.addrs ea len)).beginExecute ea) with
          | .next t => .next t.endExecute
          | .fault f => .fault f
          | .refused r => .refused r) ∧
      (∀ x, decode target = .error x → run = .refused (.noRowForOpcode ((code 2).headD 0) second))

-- access registers and the translation mode

/-- R210 to R213, R246: the access-register instructions without storage, in both translation modes; register 0 is read as it is, but for the B
field of LOAD ADDRESS EXTENDED. -/
def Obligations.AccessRegisterMoves : Prop :=
  ∀ (s : State) (r1 r2 x2 b2 : Reg) (d2 : Disp),
    let v := if s.cpu.psw.arMode = true ∧ b2 ≠ 0 then s.ar b2 else 0
    completes (exec (.cpya r1 r2) s) s { psw := pswNext s 4, ars := [(r1, s.ar r2)] } ∧
    completes (exec (.ear r1 r2) s) s { psw := pswNext s 4, grs := [(r1, s.ar r2)] } ∧
    completes (exec (.sar r1 r2) s) s { psw := pswNext s 4, ars := [(r1, s.gr r2)] } ∧
    (v = 0 ∨ s.aletWf v = true → completes (exec (.lae r1 x2 b2 d2) s) s
      { psw := pswNext s 4, grs := [(r1, (s.ea b2 x2 d2).setWidth 32)], ars := [(r1, v)] }) ∧
    completes (exec (.iac r1) s) s
      { psw := pswCc s 4 (if s.cpu.psw.arMode = true then 2 else 0),
        grs := [(r1, field (s.gr r1) 0 16 ++ 0#6 ++ BitVec.ofBool s.cpu.psw.arMode ++ 0#1 ++ field (s.gr r1) 24 8)] }

/-- R270 to R272: bits 20-23 of the second-operand address set the translation mode; an attempt to set the access-register mode without the
address-space-function control is a special-operation exception, any other code a specification exception, or in the problem state perhaps a
privileged-operation exception. SACF is an operation exception where its facility is not installed. -/
def Obligations.SetAddressSpaceControl : Prop :=
  ∀ (s : State) (b2 : Reg) (d2 : Disp),
    let code := (s.eaBD b2 d2).toNat / 256 % 16
    let one (i : Instr) : Prop :=
      (code = 0 → completes (exec i s) s { psw := { pswNext s 4 with arMode := false } }) ∧
      (code = 2 → s.asf = true → completes (exec i s) s { psw := { pswNext s 4 with arMode := true } }) ∧
      (code = 2 → s.asf = false → s.prefixAreaAssigned = true → suppresses (exec i s) s 4 0x13) ∧
      (code ≠ 0 → code ≠ 2 → s.prefixAreaAssigned = true →
        suppresses (exec i s) s 4 6 ∨ (s.cpu.psw.problem = true ∧ code ≠ 3 ∧ suppresses (exec i s) s 4 2))
    one (.sac b2 d2) ∧ (s.cfg.sacfInstalled = true → one (.sacf b2 d2)) ∧
      (s.cfg.sacfInstalled = false → s.prefixAreaAssigned = true → suppresses (exec (.sacf b2 d2) s) s 4 1)

/-- R288: TEST ACCESS with bits 0-15 of R2 0001 and the address-space-function control one. -/
def Obligations.TestAccess : Prop :=
  ∀ (s : State) (r1 r2 : Reg), s.asf = true → field (s.gr r2) 0 16 = 1 →
    let alet := s.ar r1
    let used (e : HalEntry) : Prop := e ∈ s.hal ∧ e.alet = alet ∧ e.state ≠ .unused
    (alet = 0 → completes (exec (.tar r1 r2) s) s { psw := pswCc s 4 0 }) ∧
    (alet ≠ 0 → s.aletWf alet = false ∨ (∀ e, ¬ used e) → completes (exec (.tar r1 r2) s) s { psw := pswCc s 4 3 }) ∧
    (accessListSound s → alet ≠ 0 → s.aletWf alet = true → ∀ e, used e →
      completes (exec (.tar r1 r2) s) s { psw := pswCc s 4 (if e.state = .revoked then 3 else 2) })

-- timing

/-- R200, R201: STORE CLOCK and STORE CLOCK EXTENDED store a value of the clock that is later than every value before, as the additional assumption of
R208 has it (D21), and set condition code 0. That the time up to the sample passes within the instruction, so that the CPU timers fall by it, is the
model's choice, log entry 37. STORE CLOCK EXTENDED is an operation exception where its facility is not installed. -/
def Obligations.StoreClock : Prop :=
  ∀ (s : State) (b2 : Reg) (d2 : Disp),
    let ea := s.eaBD b2 d2
    (s.tod.toNat + 1 < 2 ^ 64 → storable s b2 ea 8 → ∃ d : DWord, 1 ≤ d.toNat ∧ s.tod.toNat + d.toNat < 2 ^ 64 ∧
      completesStore (exec (.stck b2 d2) s) s { psw := pswCc s 4 0 } (operandSpace s b2) (storedCells s b2 ea (bytes64 (s.tod + d)))
        (fun u => u.passTime d)) ∧
    (s.cfg.extTodInstalled = false → s.prefixAreaAssigned = true → suppresses (exec (.stcke b2 d2) s) s 4 1) ∧
    (s.cfg.extTodInstalled = true → s.tod.toNat + 1 < 2 ^ 64 → storable s b2 ea 16 →
      ∃ (d : DWord) (low : List Byte), 1 ≤ d.toNat ∧ s.tod.toNat + d.toNat < 2 ^ 64 ∧ low.length = 5 ∧
        completesStore (exec (.stcke b2 d2) s) s { psw := pswCc s 4 0 } (operandSpace s b2)
          (storedCells s b2 ea ([0] ++ bytes64 (s.tod + d) ++ low ++ bytes16 s.cpu.todProg)) (fun u => u.passTime d))

/-- R203 to R207: the timer registers are set and stored. SET CLOCK PROGRAMMABLE FIELD is an operation exception, in either state, where its facility is
not installed, and a specification exception where bits 0-15 of register 0 are not zeros. -/
def Obligations.TimerRegisters : Prop :=
  ∀ (s : State) (b2 : Reg) (d2 : Disp),
    let ea := s.eaBD b2 d2
    let v := be64 (operand s b2 ea 8)
    (s.cfg.extTodInstalled = false → s.prefixAreaAssigned = true → suppresses (exec .sckpf s) s 2 1) ∧
    (s.cpu.psw.problem = false →
    (s.cfg.extTodInstalled = true → field (s.gr 0) 0 16 ≠ 0 → s.prefixAreaAssigned = true → suppresses (exec .sckpf s) s 2 6) ∧
    (s.cfg.extTodInstalled = true → field (s.gr 0) 0 16 = 0 →
      completes (exec .sckpf s) s { psw := pswNext s 2 }
        (fun u => { u with cpu := { u.cpu with todProg := field (s.gr 0) 16 16 } })) ∧
    (aligned ea 8 = true → fetchable s b2 ea 8 →
      completes (exec (.sckc b2 d2) s) s { psw := pswNext s 4 } (fun u => { u with cpu := { u.cpu with clockComparator := v } }) ∧
      completes (exec (.spt b2 d2) s) s { psw := pswNext s 4 } (fun u => { u with cpu := { u.cpu with cpuTimer := v } })) ∧
    (aligned ea 8 = true → storable s b2 ea 8 →
      completesStore (exec (.stckc b2 d2) s) s { psw := pswNext s 4 } (operandSpace s b2)
        (storedCells s b2 ea (bytes64 s.cpu.clockComparator)) ∧
      completesStore (exec (.stpt b2 d2) s) s { psw := pswNext s 4 } (operandSpace s b2) (storedCells s b2 ea (bytes64 s.cpu.cpuTimer))))

-- instructions that end in an exception

/-- R220 to R240, R292: every instruction of the not-provided list ends with an operation exception, in both states and whatever its operands;
TRAP2 and TRAP4 always end with an operation or a special-operation exception. -/
def Obligations.NotProvided : Prop :=
  ∀ (s : State) (r1 r2 r3 x2 b1 b2 : Reg) (d1 d2 : Disp), s.prefixAreaAssigned = true →
    suppresses (exec (.bakr r1 r2) s) s 4 1 ∧ suppresses (exec (.bsg r1 r2) s) s 4 1 ∧ suppresses (exec (.epar r1) s) s 4 1 ∧
    suppresses (exec (.esar r1) s) s 4 1 ∧ suppresses (exec (.ereg r1 r2) s) s 4 1 ∧ suppresses (exec (.esta r1 r2) s) s 4 1 ∧
    suppresses (exec (.ivsk r1 r2) s) s 4 1 ∧ suppresses (exec (.lasp b1 d1 b2 d2) s) s 6 1 ∧ suppresses (exec (.lra r1 x2 b2 d2) s) s 4 1 ∧
    suppresses (exec (.msta r1 r2) s) s 4 1 ∧ suppresses (exec (.mvcp r1 r3 b1 d1 b2 d2) s) s 6 1 ∧ suppresses (exec (.pc b2 d2) s) s 4 1 ∧
    suppresses (exec (.mvcs r1 r3 b1 d1 b2 d2) s) s 6 1 ∧ suppresses (exec .pr s) s 2 1 ∧ suppresses (exec (.pt r1 r2) s) s 4 1 ∧
    suppresses (exec (.sck b2 d2) s) s 4 1 ∧ suppresses (exec (.ssar r1 r2) s) s 4 1 ∧ suppresses (exec (.sie b2 d2) s) s 4 1 ∧
    (suppresses (exec .trap2 s) s 2 1 ∨ suppresses (exec .trap2 s) s 2 0x13) ∧
    (suppresses (exec (.trap4 b2 d2) s) s 4 1 ∨ suppresses (exec (.trap4 b2 d2) s) s 4 0x13)

/-- R260, R262: what this spec says nothing of is refused by name; BRANCH AND SET AUTHORITY without the address-space-function control is a
special-operation exception. -/
def Obligations.InstructionsWithoutARule : Prop :=
  ∀ (s : State) (r1 r2 b2 : Reg) (d2 : Disp),
    exec (.rp b2 d2) s = .refused .resumeProgramFormat ∧
    (s.asf = true → exec (.bsa r1 r2) s = .refused .branchAndSetAuthority) ∧
    (s.asf = false → s.prefixAreaAssigned = true → suppresses (exec (.bsa r1 r2) s) s 4 0x13)

/-- R450, R183: a privileged instruction in the problem state ends with a privileged-operation exception and does nothing else. That the instruction-length
code of SET CLOCK PROGRAMMABLE FIELD is 1, as R170 and R402 have it and R406 has not, is the model's choice, log entry 45. -/
def Obligations.PrivilegedOperation : Prop :=
  ∀ (s : State) (i : Instr), s.cpu.psw.problem = true → s.prefixAreaAssigned = true → isPrivileged i = true → isNotProvided i = false →
    (i = .sckpf → s.cfg.extTodInstalled = true) →
    suppresses (exec i s) s (encode i).length 2

-- the PSW and the control registers

/-- R254, R421: LOAD PSW replaces every bit of the PSW; where the new PSW is not valid, that PSW is the old PSW of a specification exception with
instruction-length code 0. -/
def Obligations.LoadPsw : Prop :=
  ∀ (s : State) (b2 : Reg) (d2 : Disp) (p : Psw), s.cpu.psw.problem = false →
    let ea := s.eaBD b2 d2
    aligned ea 8 = true → s.operandFaults controlCheck false b2 ea 8 = [] → bytes64 p.toDWord = operand s b2 ea 8 →
      (p.valid = true → completes (exec (.lpsw b2 d2) s) s { psw := p }) ∧
      (p.valid = false → s.prefixAreaAssigned = true → entersProgram (exec (.lpsw b2 d2) s) s { psw := p } 6 0 [])

/-- R276, R278, R383: the system mask loaded, or stored and then changed; where that leaves a PSW that is not valid, a specification exception
with instruction-length code 2 follows at once, the PSW with the new mask being the old PSW. -/
def Obligations.SystemMask : Prop :=
  ∀ (s : State) (i2 : Byte) (b1 : Reg) (d1 : Disp), s.cpu.psw.problem = false →
    let ea := s.eaBD b1 d1
    let old := s.cpu.psw.sysMask
    let withMask (m : Byte) : Psw := { pswNext s 4 with sysMask := m }
    let stores (o : Host.Outcome State Fault Refusal) (m : Byte) : Prop :=
      completesStore o s { psw := withMask m } (operandSpace s b1) (storedCells s b1 ea [old])
    (fetchable s b1 ea 1 →
      let p := withMask ((operand s b1 ea 1).headD 0)
      (p.valid = true → completes (exec (.ssm b1 d1) s) s { psw := p }) ∧
      (p.valid = false → s.prefixAreaAssigned = true → entersProgram (exec (.ssm b1 d1) s) s { psw := p } 6 2 [])) ∧
    (storable s b1 ea 1 →
      stores (exec (.stnsm i2 b1 d1) s) (old &&& i2) ∧
      ((withMask (old ||| i2)).valid = true → stores (exec (.stosm i2 b1 d1) s) (old ||| i2)) ∧
      ((withMask (old ||| i2)).valid = false → s.prefixAreaAssigned = true →
        ∃ u, stores (.next u) (old ||| i2) ∧ entersProgram (exec (.stosm i2 b1 d1) s) u { psw := withMask (old ||| i2) } 6 2 []))

/-- R386, R387, R382: the prefix is set and stored, and the CPU address stored. A prefix whose block is not assigned is an addressing exception. -/
def Obligations.PrefixAndCpuAddress : Prop :=
  ∀ (s : State) (b2 : Reg) (d2 : Disp), s.cpu.psw.problem = false →
    let ea := s.eaBD b2 d2
    let block : Block := field (be32 (operand s b2 ea 4)) 1 19
    (aligned ea 4 = true → fetchable s b2 ea 4 →
      (s.hp.assigned block = true →
        completes (exec (.spx b2 d2) s) s { psw := pswNext s 4 } (fun u => { u with cpu := { u.cpu with prefixReg := block } })) ∧
      (s.hp.assigned block = false → s.prefixAreaAssigned = true → suppresses (exec (.spx b2 d2) s) s 4 5)) ∧
    (aligned ea 4 = true → storable s b2 ea 4 →
      completesStore (exec (.stpx b2 d2) s) s { psw := pswNext s 4 } (operandSpace s b2)
        (storedCells s b2 ea (bytes32 (0#1 ++ s.cpu.prefixReg ++ 0#12)))) ∧
    (aligned ea 2 = true → storable s b2 ea 2 →
      completesStore (exec (.stap b2 d2) s) s { psw := pswNext s 4 } (operandSpace s b2) (storedCells s b2 ea (bytes16 s.cpu.address)))

/-- R256, R280, R252: the references to host-primary real storage, which use no access register in either translation mode. -/
def Obligations.RealStorage : Prop :=
  ∀ (s : State) (r1 r2 : Reg), s.cpu.psw.problem = false →
    let ea := truncMode s.cpu.psw.amode (s.gr r2)
    let cells (a : Addr) (bytes : List Byte) :=
      ((List.range bytes.length).map (fun i => s.prefixed (wrapMode s.cpu.psw.amode (a + BitVec.ofNat 31 i)))).zip bytes
    let entry := (field (s.gr r1) 1 25 ++ 0#6) + BitVec.ofNat 31 (4 * (field (s.gr r2) 12 8).toNat)
    let entryCells := (List.range 4).map (fun i => s.prefixed (entry + BitVec.ofNat 31 i))
    (aligned ea 4 = true → s.accessFaults hostPrimaryTarget controlCheck false ea 4 = [] →
      completes (exec (.lura r1 r2) s) s
        { psw := pswNext s 4,
          grs := [(r1, be32 ((List.range 4).map (fun i => s.hp.byte (s.prefixed (wrapMode s.cpu.psw.amode (ea + BitVec.ofNat 31 i))))))] }) ∧
    (aligned ea 4 = true → s.accessFaults hostPrimaryTarget controlCheck true ea 4 = [] →
      completesStore (exec (.stura r1 r2) s) s { psw := pswNext s 4 } .hostPrimary (cells ea (bytes32 (s.gr r1)))) ∧
    (field (s.cr 0) 8 5 = 0b10110 → (wordAddrs entry).flatMap (s.byteFaults hostPrimaryTarget blockCheck true) = [] →
      completesStore (exec (.ipte r1 r2) s) s { psw := pswNext s 4 } .hostPrimary
        (entryCells.zip (bytes32 (be32 (entryCells.map s.hp.byte) ||| 0x00000400)))) ∧
    (field (s.cr 0) 8 5 ≠ 0b10110 → s.prefixAreaAssigned = true → suppresses (exec (.ipte r1 r2) s) s 4 0x12)

/-- R257, R258, R290: PURGE ALB and PURGE TLB are no-operations, and so is TRACE while explicit tracing is off or its operand says so. -/
def Obligations.NoOperations : Prop :=
  ∀ (s : State) (r1 r3 b2 : Reg) (d2 : Disp), s.cpu.psw.problem = false →
    let ea := s.eaBD b2 d2
    completes (exec .palb s) s { psw := pswNext s 4 } ∧ completes (exec .ptlb s) s { psw := pswNext s 4 } ∧
    (aligned ea 4 = true → bitAt (s.cr 12) 31 = false → completes (exec (.trace r1 r3 b2 d2) s) s { psw := pswNext s 4 }) ∧
    (aligned ea 4 = true → fetchable s b2 ea 4 → bitAt (be32 (operand s b2 ea 4)) 0 = true →
      completes (exec (.trace r1 r3 b2 d2) s) s { psw := pswNext s 4 })

-- storage keys

/-- R250, R259, R274: a storage key is inserted, has its reference bit reset, or is set; no byte of storage changes. -/
def Obligations.StorageKeys : Prop :=
  ∀ (s : State) (r1 r2 : Reg), s.cpu.psw.problem = false →
    let ea := truncMode s.cpu.psw.amode (s.gr r2)
    let sp := operandSpace s r2
    let block := blockOf (s.absolute (s.target r2) ea)
    let k := (s.space sp).key block
    let sets (o : Host.Outcome State Fault Refusal) (psw : Psw) (new : BitVec 7) : Prop :=
      ∃ t, o = .next t ∧ t.cpu.psw = psw ∧ (Effect.mk psw [] [] []).onRegisters s t ∧ bytesKept s t ∧ frame t = frame s ∧
        ∀ i b, (t.space i).key b = if i = sp ∧ b = block then new else (s.space i).key b
    (s.operandFaults blockCheck false r2 ea 1 = [] →
      completes (exec (.iske r1 r2) s) s { psw := pswNext s 4, grs := [(r1, field (s.gr r1) 0 24 ++ k ++ 0#1)] }) ∧
    (s.operandFaults blockCheck true r2 ea 1 = [] →
      sets (exec (.rrbe r1 r2) s) (pswCc s 4 (BitVec.ofNat 2 (2 * (keyReference k).toNat + (keyChange k).toNat)))
        (keyWith k false (keyChange k)) ∧
      sets (exec (.sske r1 r2) s) (pswNext s 4) (field (s.gr r1) 24 7))

/-- R283: TEST BLOCK clears a usable block, leaving the access-control bits and the fetch-protection bit of its key, and zeroes register 0. -/
def Obligations.TestBlock : Prop :=
  ∀ (s : State) (r2 : Reg), s.cpu.psw.problem = false →
    let ea := blockOf (truncMode s.cpu.psw.amode (s.gr r2)) ++ 0#12
    let sp := operandSpace s r2
    let block := blockOf (s.absolute (s.target r2) ea)
    s.operandFaults testBlockCheck true r2 ea 1 = [] →
      ∃ t, exec (.tb r2) s = .next t ∧ (Effect.mk s.cpu.psw [(0, 0)] [] []).onRegisters s t ∧ frame t = frame s ∧
        t.cpu.psw = pswCc s 4 (if (s.space sp).usable block = true then 0 else 1) ∧
        ∀ i a, if i = sp ∧ blockOf a = block ∧ (s.space sp).usable block = true then
            (t.space i).byte a = 0 ∧ field ((t.space i).key (blockOf a)) 0 5 = field ((s.space i).key (blockOf a)) 0 5
          else (t.space i).byte a = (s.space i).byte a ∧ (t.space i).key (blockOf a) = (s.space i).key (blockOf a)

/-- R285: TEST PROTECTION tells what accesses are permitted with an access key, all protection mechanisms considered, or that the ALET has no
translation. -/
def Obligations.TestProtection : Prop :=
  ∀ (s : State) (b1 b2 : Reg) (d1 d2 : Disp), s.cpu.psw.problem = false →
    let e := s.eaBD b1 d1
    let key := BitVec.ofNat 4 ((s.eaBD b2 d2).toNat / 16)
    (∀ x, s.resolve b1 = .error x → completes (exec (.tprot b1 d1 b2 d2) s) s { psw := pswCc s 6 3 }) ∧
    (∀ tg, s.resolve b1 = .ok tg →
      let a := if tg.typeR = true then s.prefixed e else e
      let p := s.space tg.space
      let k := p.key (blockOf a)
      let keyed := key = field k 0 4 ∨ key = 0 ∨ (s.cfg.spoInstalled = true ∧ bitAt (s.cr 0) 7 = true ∧ field k 0 4 = 9)
      let fetch := keyed ∨ bitAt k 4 = false ∨ (bitAt (s.cr 0) 6 = true ∧ tg.typeR = true ∧ e.toNat ≤ 2047)
      let store := keyed ∧ ¬ (tg.typeR = true ∧ bitAt (s.cr 0) 3 = true ∧ e.toNat ≤ 511) ∧ tg.readOnly = false ∧ p.readOnly (blockOf a) = false
      (p.assigned (blockOf a) = true →
        (fetch → store → completes (exec (.tprot b1 d1 b2 d2) s) s { psw := pswCc s 6 0 }) ∧
        (fetch → ¬ store → completes (exec (.tprot b1 d1 b2 d2) s) s { psw := pswCc s 6 1 }) ∧
        (¬ fetch → completes (exec (.tprot b1 d1 b2 d2) s) s { psw := pswCc s 6 2 })) ∧
      (p.assigned (blockOf a) = false → s.prefixAreaAssigned = true → suppresses (exec (.tprot b1 d1 b2 d2) s) s 6 5))

-- services and other CPUs

/-- R245, with the `HostService` parameter of the model (log entry 24): the first case of the parameter that is about the code, the two registers and the
state says what DIAGNOSE does. Its one outcome here answers in a register and the condition code, in an access or a floating-point register, in the
timers, the prefix, a storage key or storage, in a CPU as a whole or in the floating conditions, or ends in an exception that suppresses or nullifies the
DIAGNOSE, or loads a PSW; where no case is about the execution, or the one outcome has a code that cannot occur (R404, R416, R419; without 0012, 0016,
0040 and 0119: log entry 24), it is refused. No service changes a register that the CPU does not have (R26, R56). That other CPUs need not fetch a byte
that a service stores in the host-primary space before they serialize (R166) is the model's choice, log entry 18; that its protection exception leaves
the condition code as it is, whatever bit 29 of the identification, is the model's, log entry 24. -/
def Obligations.Diagnose : Prop :=
  ∀ (s : State) (r1 r3 b2 : Reg) (d2 : Disp), s.cpu.psw.problem = false →
    let code : Half := BitVec.ofNat 16 (s.eaBD b2 d2).toNat
    let about (v : HostService) : Prop :=
      v.code = code ∧ (v.rx = none ∨ v.rx = some r1) ∧ (v.ry = none ∨ v.ry = some r3) ∧ (∀ x, x ∈ v.tests → testHolds s x)
    let leaves (c old : Cpu) : Cpu :=
      { c with fpr := Vector.ofFn (fun i => if s.cfg.fpExtInstalled = true ∨ i = 0 ∨ i = 2 ∨ i = 4 ∨ i = 6 then c.fpr[i] else old.fpr[i]),
               todProg := if s.cfg.extTodInstalled = true then c.todProg else old.todProg,
               exTarget := old.exTarget, staleBytes := old.staleBytes }
    let run := exec (.diag r1 r3 b2 d2) s
    (∀ before v after o, s.services = before ++ v :: after → (∀ x, x ∈ before → ¬ about x) → about v → v.outcomes = [o] →
      (∀ r w c, o = { moves := [.serviceRegister r w, .serviceCondition c], ending := .completes } →
        completes run s { psw := pswCc s 4 c, grs := [(r, w)] }) ∧
      (∀ r w, o = { moves := [.serviceAccessRegister r w], ending := .completes } →
        completes run s { psw := pswNext s 4, ars := [(r, w)] }) ∧
      (∀ asit a w, o = { moves := [.serviceStore asit a w], ending := .completes } →
        (s.space (s.spaceOf asit)).assigned (blockOf a) = true →
        completesStore run s { psw := pswNext s 4 } (s.spaceOf asit) [(a, w)] (fun u =>
          if s.spaceOf asit = .hostPrimary then
            { u with others := u.others.map (fun x => { x with staleBytes := (a.toNat, s.hp.byte a) :: x.staleBytes }) }
          else u)) ∧
      (∀ r w, o = { moves := [.serviceFloat r w], ending := .completes } → (s.cfg.fpExtInstalled = true ∨ r = 0 ∨ r = 2 ∨ r = 4 ∨ r = 6) →
        completes run s { psw := pswNext s 4 } (fun u => { u with cpu := { u.cpu with fpr := u.cpu.fpr.set r.toNat w r.isLt } })) ∧
      (∀ b, o = { moves := [.servicePrefix b], ending := .completes } → s.hp.assigned b = true →
        completes run s { psw := pswNext s 4 } (fun u => { u with cpu := { u.cpu with prefixReg := b } })) ∧
      (∀ a b w, o = { moves := [.serviceComparator a, .serviceTimer b, .serviceTodProg w], ending := .completes } →
        completes run s { psw := pswNext s 4 }
          (fun u => { u with cpu := { u.cpu with clockComparator := a, cpuTimer := b,
                                                 todProg := if s.cfg.extTodInstalled = true then w else u.cpu.todProg } })) ∧
      (∀ asit b k, o = { moves := [.serviceKey asit b k], ending := .completes } → (s.space (s.spaceOf asit)).assigned b = true →
        ∃ t, run = .next t ∧ t.cpu.psw = pswNext s 4 ∧ (Effect.mk s.cpu.psw [] [] []).onRegisters s t ∧ bytesKept s t ∧ frame t = frame s ∧
          ∀ i x, (t.space i).key x = if i = s.spaceOf asit ∧ x = b then k else (s.space i).key x) ∧
      (∀ c, o = { moves := [.serviceCpu c], ending := .completes } → s.hp.assigned c.prefixReg = true →
        (c.address ≠ s.cpu.address →
          completes run s { psw := pswNext s 4 } (fun u => { u with others := u.others.map (fun x =>
            if x.address = c.address then leaves c x else x) })) ∧
        (c.address = s.cpu.address →
          ∃ t, run = .next t ∧ sameCpu t.cpu (leaves c s.cpu) ∧ t.cpu.exTarget = s.cpu.exTarget ∧ bytesKept s t ∧ keysKept s t ∧
            frame { t with cpu := s.cpu } = frame s)) ∧
      (∀ io signal reports, o = { moves := [.serviceFloating io signal reports], ending := .completes } →
        completes run s { psw := pswNext s 4 }
          (fun u => { u with pendingIo := io, serviceSignal := signal, channelReports := reports })) ∧
      (∀ k, o = { moves := [], ending := .exception k false none } → serviceException k false none → k ≠ 4 → s.prefixAreaAssigned = true →
        suppresses run s 4 k) ∧
      (o = { moves := [], ending := .exception 4 false none } → s.prefixAreaAssigned = true →
        ∃ w b, entersProgram run s { psw := pswNext s 4 } 4 (s.ilcOf 4) [(144, bytes32 w), (160, [b])]) ∧
      (∀ a, o = { moves := [], ending := .exception 0x29 true (some a) } → s.prefixAreaAssigned = true →
        entersProgram run s { psw := s.cpu.psw } 0x29 (s.ilcOf 4) [(168, bytes32 a), (160, [0])]) ∧
      (∀ a, o = { moves := [], ending := .exception 0x136 false (some a) } → s.prefixAreaAssigned = true →
        entersProgram run s { psw := pswNext s 4 } 0x136 (s.ilcOf 4) [(168, bytes32 a), (160, [0])]) ∧
      (∀ k n al, o.ending = .exception k n al → ¬ serviceException k n al → run = .refused (.hostService code)) ∧
      (∀ p : Psw, o = { moves := [], ending := .loadsPsw p.toDWord } → p.valid = true → completes run s { psw := p })) ∧
    ((∀ v, v ∈ s.services → ¬ about v) → run = .refused (.hostService code))

/-- R277, R480, R481, R486, R488: SIGNAL PROCESSOR to a CPU that is not of the configuration, to a busy one, and every order to one whose environment
reports no status and that is not in the check-stop state. These clauses are the model's choices, not the spec's. Log entry 25: that a stop is performed
later by the CPU itself; that orders 04, 05 and 09 to a CPU that is not in the state they start from are accepted without effect, and order 06 to a CPU
in the load state is kept pending; that order 0E answers bit 22 where the target is not stopped and bit 23 where the area is not assigned or is read-only
for the host; that order 09 stores its status whatever stop comes after it; that an initial CPU reset or CPU reset a CPU orders of itself resets
nothing; that order 0D serializes the CPU whose prefix it sets; what a busy, reporting or check-stopped CPU accepts. Log entry 28: that a reset clears the pending signals of host services. -/
def Obligations.SignalProcessor : Prop :=
  ∀ (s : State) (r1 r3 b2 : Reg) (d2 : Disp), s.cpu.psw.problem = false →
    let order := (s.eaBD b2 d2).toNat % 256
    let address : Half := field (s.gr r3) 16 16
    let param := s.gr (oddOf r1)
    let block : Block := field param 1 19
    let area : Addr := field param 1 22 ++ 0#9
    let o := exec (.sigp r1 r3 b2 d2) s
    let status (w : Word) : Prop := completes o s { psw := pswCc s 4 1, grs := [(r1, w)] }
    let bit (i : Nat) : Word := BitVec.ofNat 32 (2 ^ (31 - i))
    let accepts (f : Cpu → Cpu) : Prop := completes o s { psw := pswCc s 4 0 } (fun u => u.onCpu address f)
    let reset (c : Cpu) : Cpu :=
      { c with externalCall := none, emergencySignals := [], malfunctionAlerts := [], interruptKey := false, hostSignals := [],
               restartPending := false, machineChecks := [], staleBytes := [], exTarget := none, stopRequest := .none, status := .stopped }
    let initialReset (c : Cpu) : Cpu :=
      { reset c with psw := Psw.zero, prefixReg := 0, cpuTimer := 0, clockComparator := 0, todProg := 0, cr := Cpu.resetControls }
    let storesStatus (base : Addr) (c : Cpu) : Prop := completesStore o s { psw := pswCc s 4 0 } .hostPrimary (statusCells base c)
    (s.cpu.address ≠ address → (∀ c, c ∈ s.others → c.address ≠ address) → completes o s { psw := pswCc s 4 3 }) ∧
    (∀ c, s.cpuAt address = some c → c.busy = true → completes o s { psw := pswCc s 4 2 }) ∧
    (∀ c, s.cpuAt address = some c → c.busy = false → c.operatorStatus &&& 0x80000029 = 0 → c.status ≠ .checkStop →
      (order = 1 →
        let w := (if c.externalCall = none then 0 else bit 24) ||| (if c.status = .stopped then bit 25 else 0)
        (w = 0 → completes o s { psw := pswCc s 4 0 }) ∧ (w ≠ 0 → status w)) ∧
      (order = 2 → c.externalCall = none → accepts (fun u => { u with externalCall := some s.cpu.address })) ∧
      (order = 2 → c.externalCall ≠ none → status (bit 24)) ∧
      (order = 3 →
        accepts (fun u => { u with emergencySignals := addSignal s.cpu.address u.emergencySignals })) ∧
      (order = 4 → accepts (fun u => if u.status = .stopped then { u with status := .operating } else u)) ∧
      (order = 5 → accepts (fun u =>
        if u.status = .operating then { u with stopRequest := if u.stopRequest = .stopAndStoreStatus then .stopAndStoreStatus else .stop }
        else u)) ∧
      (order = 6 → accepts (fun u => { u with restartPending := true })) ∧
      (order = 9 → c.status ≠ .stopped →
        accepts (fun u => if u.status = .operating then { u with stopRequest := .stopAndStoreStatus } else u)) ∧
      (order = 9 → c.status = .stopped → statusStorable s 0 → storesStatus 0 c) ∧
      (order = 0x0b → s.cpu.address ≠ address → accepts initialReset) ∧
      (order = 0x0c → s.cpu.address ≠ address → accepts reset) ∧
      (order = 0x0b ∨ order = 0x0c → s.cpu.address = address →
        completes o s { psw := pswCc s 4 0 } ∨ status (bit 22)) ∧
      (order = 0x0d → c.status = .stopped → s.cpu.address ≠ address → s.hp.assigned block = true →
        accepts (fun u => { u with prefixReg := block, staleBytes := [] })) ∧
      (order = 0x0d → c.status = .stopped → s.hp.assigned block = false → status (bit 23)) ∧
      (order = 0x0d → c.status ≠ .stopped → s.hp.assigned block = true → status (bit 22)) ∧
      (order = 0x0e → c.status = .stopped → statusStorable s area → storesStatus area c) ∧
      (order = 0x0e → c.status = .stopped → ¬ statusStorable s area → status (bit 23)) ∧
      (order = 0x0e → c.status ≠ .stopped → statusStorable s area → status (bit 22)) ∧
      (order = 0 ∨ order = 7 ∨ order = 8 ∨ order = 0x0a ∨ 0x0f ≤ order → status (bit 30)))

-- exceptions of storage operands

/-- R204 to R207, R214, R215, R254, R256, R280, R290, R370, R380 to R387, R414: an operand, or a target of EXECUTE, that is not on its integral boundary
is a specification exception, where no access exception competes with it. -/
def Obligations.MisalignedOperand : Prop :=
  ∀ (s : State) (r1 r3 x2 b2 : Reg) (d2 : Disp), s.prefixAreaAssigned = true →
    let ea := s.eaBD b2 d2
    let n := 4 * ((r3 - r1).toNat + 1)
    let real := truncMode s.cpu.psw.amode (s.gr r3)
    (aligned (s.ea b2 x2 d2) 2 = false → suppresses (exec (.ex r1 x2 b2 d2) s) s 4 6) ∧
    (aligned ea 4 = false → fetchable s b2 ea n → suppresses (exec (.lam r1 r3 b2 d2) s) s 4 6) ∧
    (aligned ea 4 = false → storable s b2 ea n → suppresses (exec (.stam r1 r3 b2 d2) s) s 4 6) ∧
    (aligned ea 4 = false → storable s b2 ea 4 → suppresses (exec (.cs r1 r3 b2 d2) s) s 4 6) ∧
    (aligned ea 8 = false → storable s b2 ea 8 → suppresses (exec (.cds r1 r3 b2 d2) s) s 4 6) ∧
    (s.cpu.psw.problem = false →
      (aligned ea 4 = false → fetchable s b2 ea n → suppresses (exec (.lctl r1 r3 b2 d2) s) s 4 6) ∧
      (aligned ea 4 = false → storable s b2 ea n → suppresses (exec (.stctl r1 r3 b2 d2) s) s 4 6) ∧
      (aligned ea 4 = false → fetchable s b2 ea 4 → suppresses (exec (.spx b2 d2) s) s 4 6) ∧
      (aligned ea 4 = false → storable s b2 ea 4 → suppresses (exec (.stpx b2 d2) s) s 4 6) ∧
      (aligned ea 2 = false → storable s b2 ea 2 → suppresses (exec (.stap b2 d2) s) s 4 6) ∧
      (aligned ea 8 = false → fetchable s b2 ea 8 →
        suppresses (exec (.sckc b2 d2) s) s 4 6 ∧ suppresses (exec (.spt b2 d2) s) s 4 6 ∧ suppresses (exec (.lpsw b2 d2) s) s 4 6) ∧
      (aligned ea 8 = false → storable s b2 ea 8 →
        suppresses (exec (.stckc b2 d2) s) s 4 6 ∧ suppresses (exec (.stpt b2 d2) s) s 4 6) ∧
      (aligned ea 4 = false → bitAt (s.cr 12) 31 = false ∨ fetchable s b2 ea 4 → suppresses (exec (.trace r1 r3 b2 d2) s) s 4 6) ∧
      (aligned real 4 = false →
        (s.accessFaults hostPrimaryTarget controlCheck false real 4 = [] → suppresses (exec (.lura r1 r3) s) s 4 6) ∧
        (s.accessFaults hostPrimaryTarget controlCheck true real 4 = [] → suppresses (exec (.stura r1 r3) s) s 4 6)))

/-- R111, R135, R136, R408 to R410: in the access-register mode a base register whose ALET has no translation gives LOAD and STORE the exception of
R135, with the ALET and the register number stored where the rule says; access register 0 is never examined; a valid entry gives its space, and
forbids stores where its access is read-only. -/
def Obligations.AccessRegisterTranslation : Prop :=
  ∀ (s : State) (r1 x2 b2 : Reg) (d2 : Disp), s.cpu.psw.arMode = true → s.prefixAreaAssigned = true →
    let alet := s.ar b2
    let used (e : HalEntry) : Prop := e ∈ s.hal ∧ e.alet = alet ∧ e.state ≠ .unused
    let extra : List (Nat × List Byte) := [(168, bytes32 alet), (160, [0#4 ++ b2])]
    (b2 ≠ 0 → alet ≠ 0 → s.aletWf alet = false →
      suppresses (exec (.l r1 x2 b2 d2) s) s 4 0x28 ∧ suppresses (exec (.st r1 x2 b2 d2) s) s 4 0x28) ∧
    (b2 ≠ 0 → alet ≠ 0 → s.aletWf alet = true → (∀ e, ¬ used e) →
      entersProgram (exec (.l r1 x2 b2 d2) s) s { psw := s.cpu.psw } 0x29 (s.ilcOf 4) extra ∧
      entersProgram (exec (.st r1 x2 b2 d2) s) s { psw := s.cpu.psw } 0x29 (s.ilcOf 4) extra) ∧
    (accessListSound s → b2 ≠ 0 → alet ≠ 0 → s.aletWf alet = true → ∀ e, used e → e.state = .revoked →
      (∃ w, entersProgram (exec (.l r1 x2 b2 d2) s) s { psw := pswNext s 4, grs := [(r1, w)] } 0x136 (s.ilcOf 4) extra) ∧
      entersProgram (exec (.st r1 x2 b2 d2) s) s { psw := pswNext s 4 } 0x136 (s.ilcOf 4) extra) ∧
    (b2 = 0 ∨ alet = 0 → operandSpace s b2 = .hostPrimary ∧ ∀ ea n, operandCells s b2 ea n = (s.addrs ea n).map s.prefixed) ∧
    (accessListSound s → b2 ≠ 0 → alet ≠ 0 → s.aletWf alet = true → ∀ e, used e → e.state = .valid →
      operandSpace s b2 = s.spaceOf e.asit ∧ (s.target b2).readOnly = (e.access == .readOnly) ∧
        ∀ ea n, operandCells s b2 ea n = s.addrs ea n)

/-- R100, R106 to R108, R111 to R113: an access to one byte of an operand meets no exception exactly where its block is assigned and no protection
mechanism forbids it. -/
def Obligations.StorageAccessPermitted : Prop :=
  ∀ (s : State) (t : Target) (store : Bool) (e : Addr),
    let a := if t.typeR = true then s.prefixed e else e
    let p := s.space t.space
    let k := p.key (blockOf a)
    let keyed := s.cpu.psw.key = field k 0 4 ∨ s.cpu.psw.key = 0 ∨
      (s.cfg.spoInstalled = true ∧ bitAt (s.cr 0) 7 = true ∧ field k 0 4 = 9)
    let fetchOk := keyed ∨ bitAt k 4 = false ∨ (bitAt (s.cr 0) 6 = true ∧ t.typeR = true ∧ e.toNat ≤ 2047)
    s.byteFaults t operandCheck store e = [] ↔
      p.assigned (blockOf a) = true ∧ (store = false → fetchOk) ∧
        (store = true → keyed ∧ ¬ (t.typeR = true ∧ bitAt (s.cr 0) 3 = true ∧ e.toNat ≤ 511) ∧ t.readOnly = false ∧
          p.readOnly (blockOf a) = false)

/-- R404, R411, R413: a STORE whose only exceptions are protection exceptions takes a protection interruption, one whose only exceptions are
addressing exceptions an addressing interruption, whether it is suppressed or terminated. -/
def Obligations.ProtectionAndAddressing : Prop :=
  ∀ (s : State) (r1 x2 b2 : Reg) (d2 : Disp), s.prefixAreaAssigned = true →
    let faults := s.operandFaults operandCheck true b2 (s.ea b2 x2 d2) 4
    faults ≠ [] →
      ((∀ x, x ∈ faults → x.code = 4) → interruptsWith (exec (.st r1 x2 b2 d2) s) 4) ∧
      ((∀ x, x ∈ faults → x.code = 5) → interruptsWith (exec (.st r1 x2 b2 d2) s) 5)

-- interruptions and the machine

/-- R400, R430, R440 to R444, R465, R466: which external, input/output, repressible and exigent machine-check conditions are answered, by the masks of the
PSW and of control registers 0, 6 and 14 (an exigent one whatever the masks); what each interruption stores, from where it loads the new PSW, and which
condition is no longer pending. The clock comparator and the CPU timer are levels and stay pending. A machine check stores the registers, which keep their
values but for those whose validity bit is zero, which take any, and the register holds what was stored. These clauses are the model's choices, not the
spec's: log entry 42, which masks apply where R42, R49 and R442 disagree with the prose of R481 (bit 18 of control register 0 for the external call, bits 6
and 7 of control register 14 for external damage and warning); log entry 16, that of several malfunction alerts or emergency signals the oldest comes
first; log entry 28, that host services come last and under which bits; log entry 41, the order among several conditions of one kind; log entry 27, that a
machine check stores what its input says, and that the two groups of floating-point registers are lost each on its own. -/
def Obligations.Interruptions : Prop :=
  ∀ (s : State),
    let c := s.cpu
    let now : Effect := { psw := c.psw }
    let external (e : External) (u : State) (code source : Half) (parameter : List (Nat × List Byte)) : Prop :=
      enters (s.takeExternal e) u now 24 88 ([(132, bytes16 source), (134, bytes16 code)] ++ parameter)
    let externalOn (e : External) : Prop :=
      bitAt c.psw.sysMask 7 = true ∧ externalPending s e ∧ bitAt (s.cr 0) (externalMask e) = true
    let ioOn (i : IoInterruption) : Prop := bitAt c.psw.sysMask 6 = true ∧ i ∈ s.pendingIo ∧ bitAt (s.cr 6) i.subclass.toNat = true
    let repressibleOn (m : MachineCheck) : Prop :=
      c.psw.machineCheck = true ∧ (m ∈ c.machineChecks ∨ m ∈ s.channelReports) ∧ m.exigent = false ∧
        bitAt (s.cr 14) (machineCheckMask m.subclass) = true
    (s.prefixAreaAssigned = true →
      external .interruptKey { s with cpu := { c with interruptKey := false } } 0x0040 0 [] ∧
      (∀ a rest, c.malfunctionAlerts = a :: rest →
        external (.malfunctionAlert a) { s with cpu := { c with malfunctionAlerts := rest } } 0x1200 a []) ∧
      (∀ a rest, c.emergencySignals = a :: rest →
        external (.emergencySignal a) { s with cpu := { c with emergencySignals := rest } } 0x1201 a []) ∧
      (∀ a, external (.externalCall a) { s with cpu := { c with externalCall := none } } 0x1202 a []) ∧
      external .clockComparator s 0x1004 0 [] ∧
      external .cpuTimer s 0x1005 0 [] ∧
      (∀ p, external (.serviceSignal p) { s with serviceSignal := none } 0x2401 0 [(128, bytes32 p)]) ∧
      (∀ h, external (.hostSignal h) { s with cpu := { c with hostSignals := c.hostSignals.erase h } } h.code 0 [(128, bytes32 h.parameter)]) ∧
      (∀ i, enters (s.takeIo i) { s with pendingIo := s.pendingIo.erase i } now 56 120
        [(184, bytes32 i.subsystem), (188, bytes32 i.parameter)]) ∧
      enters s.takeRestart { s with cpu := { c with restartPending := false, status := .operating } } now 8 0 [] ∧
      (∀ m : MachineCheck, ∃ (gr ar cr : Vector Word 16) (fpr : Vector DWord 16) (comparator timer : DWord),
        let u := if m ∈ c.machineChecks then { s with cpu := { c with machineChecks := c.machineChecks.erase m } }
          else { s with channelReports := s.channelReports.erase m }
        (.generalRegisters ∉ m.lost → gr = c.gr) ∧ (.accessRegisters ∉ m.lost → ar = c.ar) ∧ (.controlRegisters ∉ m.lost → cr = c.cr) ∧
        (.floatRegisters ∉ m.lost → fpr[0] = c.fpr[0] ∧ fpr[2] = c.fpr[2] ∧ fpr[4] = c.fpr[4] ∧ fpr[6] = c.fpr[6]) ∧
        (.extendedFloatRegisters ∉ m.lost ∨ s.cfg.fpExtInstalled = false →
          ∀ i : Fin 16, i ≠ 0 → i ≠ 2 → i ≠ 4 → i ≠ 6 → fpr[i] = c.fpr[i]) ∧ (.clockComparator ∉ m.lost → comparator = c.clockComparator) ∧
        (.cpuTimer ∉ m.lost → timer = c.cpuTimer) ∧
        enters (s.takeMachineCheck m)
          { u with cpu := { u.cpu with gr := gr, ar := ar, cr := cr, fpr := fpr, clockComparator := comparator, cpuTimer := timer } } now 48 112
          ([(216, bytes64 timer), (224, bytes64 comparator),
            (232, bytes64 (if m.failing = none then m.code &&& 0xFFFFFF7FFFFFFFFF else m.code)), (288, bytesOfWords ar.toList),
            (352, bytes64 fpr[0] ++ bytes64 fpr[2] ++ bytes64 fpr[4] ++ bytes64 fpr[6]), (384, bytesOfWords gr.toList),
            (448, bytesOfWords cr.toList)] ++
           (match m.damage with
            | none => []
            | some d => [(244, bytes32 d)]) ++
           (match m.failing with
            | none => []
            | some f => [(248, bytes32 (0#1 ++ f.2)), (256, bytes64 (if f.1 = s.hp.asit then 0 else f.1))])))) ∧
    ((∀ e, s.externalEnabled = some e → externalOn e ∧ ∀ f, externalOn f → externalRank e ≤ externalRank f) ∧
      (∀ e, externalOn e → s.externalEnabled ≠ none)) ∧
    ((∀ i, s.ioEnabled = some i → ioOn i) ∧ (∀ i, ioOn i → s.ioEnabled ≠ none)) ∧
    ((∀ m, s.repressible = some m → repressibleOn m) ∧ (∀ m, repressibleOn m → s.repressible ≠ none)) ∧
    ((∀ m, s.exigent = some m → m ∈ c.machineChecks ∧ m.exigent = true) ∧
      (∀ m, m ∈ c.machineChecks → m.exigent = true → s.exigent ≠ none))

/-- R180, R413, R421, R431, R442 to R445, R488, R489: what a CPU does in its turn, up to the instruction, which `StepRunsTheDecodedInstruction` tells of. A
CPU that is not operating does nothing, but for a restart that is pending at a stopped one. An operating one whose PSW is invalid takes the early
specification exception, or is in the loop of R403. With a valid PSW machine checks come first, then external, input/output and restart interruptions, a
stop, which stores the status where that was ordered, a wait, the exception of an odd instruction address, the refusals of R61 and R60, and the access
exceptions of the instruction fetch: those of its first halfword, or those of the later ones together with what the opcode alone causes (R423).
These are the model's choices: that an enabled condition is taken at the first boundary, one swap in each step, which R431 leaves to the environment
(log entry 12); the idle turns and the disabled wait as the end of a run (log entry 14); the turn of its own for an invalid PSW (log entry 15); the stop
after the interruptions (log entry 40); that nothing is stored where block 0 cannot be stored into, and that no key is checked (log entry 26); that an
exception of the fetch is reported with any length code and may leave any condition code (log entry 17). When a condition is enabled is what
`Interruptions` says. -/
def Obligations.TurnOfACpu : Prop :=
  ∀ (s : State), s.inputs = [] →
    let u := s.nextDraw
    let now : Effect := { psw := s.cpu.psw }
    let stopped (v : State) : State := { v with cpu := { v.cpu with status := .stopped, stopRequest := .none } }
    let ia := s.cpu.psw.ia
    let head := (s.addrs ia 2).map (fun a => s.hp.byte (s.prefixed a))
    let len := instrLength (head.headD 0)
    let fetchFaults (a : Addr) (n : Nat) : List ProgExc := s.accessFaults instructionTarget controlCheck false a n
    let fetchException (l : List ProgExc) : Prop :=
      ∃ x ilc cc extra, x ∈ l ∧ 1 ≤ ilc ∧ ilc ≤ 3 ∧
        (x.code = 5 ∧ cc = s.cpu.psw.cc ∧ extra = [] ∨
          x.code = 4 ∧ (s.cfg.sopInstalled = false → cc = s.cpu.psw.cc) ∧ ∃ w b, extra = [(144, bytes32 w), (160, [b])]) ∧
        entersProgram (step s) u { psw := { s.cpu.psw with ia := wrapMode s.cpu.psw.amode (ia + BitVec.ofNat 31 (2 * ilc)), cc := cc } } x.code ilc extra
    (s.cpu.status = .load ∨ s.cpu.status = .checkStop ∨ (s.cpu.status = .stopped ∧ s.cpu.restartPending = false) → step s = .next s) ∧
    (s.cpu.status = .stopped → s.cpu.restartPending = true → step s = u.takeRestart) ∧
    (s.cpu.status = .operating → s.cpu.psw.valid = false → s.prefixAreaAssigned = true →
      ((Psw.ofDWord (be64 (s.realBytes 104 8))).valid = true → entersProgram (step s) u now 6 0 []) ∧
      ((Psw.ofDWord (be64 (s.realBytes 104 8))).valid = false → step s = .fault .programInterruptionLoop)) ∧
    (s.cpu.status = .operating → s.cpu.psw.valid = true →
      (∀ m, u.exigent = some m → s.cpu.psw.machineCheck = true → step s = u.takeMachineCheck m) ∧
      (∀ m, u.exigent = some m → s.cpu.psw.machineCheck = false →
        step s = .next { u with cpu := { u.cpu with status := .checkStop } }) ∧
      (∀ m, u.exigent = none → u.repressible = some m → step s = u.takeMachineCheck m) ∧
      (u.exigent = none → u.repressible = none →
        (∀ e, u.externalEnabled = some e → step s = u.takeExternal e) ∧
        (∀ i, u.externalEnabled = none → u.ioEnabled = some i → step s = u.takeIo i) ∧
        (u.externalEnabled = none → u.ioEnabled = none →
          (s.cpu.restartPending = true → step s = u.takeRestart) ∧
          (s.cpu.restartPending = false →
            (s.cpu.stopRequest = .stop → step s = .next (stopped u)) ∧
            (s.cpu.stopRequest = .stopAndStoreStatus →
              (statusStorable s 0 → completesStore (step s) u now .hostPrimary (statusCells 0 s.cpu) stopped) ∧
              (¬ statusStorable s 0 → step s = .next (stopped u))) ∧
            (s.cpu.stopRequest = .none → s.cpu.psw.disabledWait = true → step s = .fault .disabledWait) ∧
            (s.cpu.stopRequest = .none → s.cpu.psw.disabledWait = false → s.cpu.psw.wait = true → step s = .next u) ∧
            (s.cpu.stopRequest = .none → s.cpu.psw.wait = false →
              (aligned ia 2 = false → s.prefixAreaAssigned = true → entersProgram (step s) u now 6 0 []) ∧
              (aligned ia 2 = true → s.cpu.psw.per = true → step s = .refused .programEventRecording) ∧
              (aligned ia 2 = true → s.cpu.psw.per = false → bitAt (s.cr 12) 0 = true → step s = .refused .branchTracing) ∧
              (aligned ia 2 = true → s.cpu.psw.per = false → bitAt (s.cr 12) 0 = false → s.prefixAreaAssigned = true →
                (fetchFaults ia 2 ≠ [] → fetchException (fetchFaults ia 2)) ∧
                (fetchFaults ia 2 = [] → fetchFaults (ia + 2) (len - 2) ≠ [] → s.cpu.staleBytes = [] →
                  (∀ i, decode (padded head) = .ok i →
                    fetchException (fetchFaults (ia + 2) (len - 2)) ∨ ∃ y, y ∈ u.opcodeFaults false i ∧ suppresses (step s) u len y.code) ∧
                  (∀ x, decode (padded head) = .error x →
                    step s = .refused (.noRowForOpcode (head.headD 0) (head.getD 1 0))))))))))

/-- R180, R181: where nothing else is to be done first, the bytes at the instruction address are decoded, and the step is the meaning of that
instruction, its free values numbered anew and its fetch recorded in the storage keys. Bytes of no row of the opcode table are refused. -/
def Obligations.StepRunsTheDecodedInstruction : Prop :=
  ∀ (s : State), s.inputs = [] → s.cpu.status = .operating → s.cpu.psw.valid = true → s.nextDraw.pending = none →
    s.cpu.stopRequest = .none → s.cpu.psw.wait = false → aligned s.cpu.psw.ia 2 = true → s.cpu.psw.per = false →
    bitAt (s.cr 12) 0 = false → s.cpu.staleBytes = [] →
    let ia := s.cpu.psw.ia
    let code (n : Nat) : List Byte := (s.addrs ia n).map (fun a => s.hp.byte (s.prefixed a))
    let len := instrLength ((code 2).headD 0)
    s.accessFaults instructionTarget controlCheck false ia len = [] →
      (∀ i, decode (code len) = .ok i → step s = exec i (s.nextDraw.noteFetches instructionTarget (s.addrs ia len))) ∧
      (∀ x, decode (code len) = .error x → step s = .refused (.noRowForOpcode ((code 2).headD 0) ((code 2).getD 1 0)))

-- encoding

/-- R172, R186: words of several formats, written out from the tables, decode to the instruction they stand for. -/
def Obligations.DecodedWords : Prop :=
  (decode [0x1a, 0x12]).toOption = some (.ar 1 2) ∧
  (decode [0x58, 0x31, 0x50, 0x04]).toOption = some (.l 3 1 5 0x004) ∧
  (decode [0x90, 0xec, 0xd0, 0x0c]).toOption = some (.stm 14 12 13 0x00c) ∧
  (decode [0x92, 0x40, 0x80, 0xff]).toOption = some (.mvi 0x40 8 0x0ff) ∧
  (decode [0xa7, 0x1a, 0xff, 0xfe]).toOption = some (.ahi 1 0xfffe) ∧
  (decode [0xb2, 0x4c, 0x00, 0x34]).toOption = some (.tar 3 4) ∧
  (decode [0xb2, 0x19, 0x02, 0x00]).toOption = some (.sac 0 0x200) ∧
  (decode [0xd2, 0x07, 0x20, 0x00, 0x30, 0x08]).toOption = some (.mvc 8 2 0x000 3 0x008) ∧
  (decode [0xe5, 0x01, 0x10, 0x00, 0x00, 0x40]).toOption = some (.tprot 1 0x000 0 0x040) ∧
  (decode [0x01, 0x07]).toOption = some .sckpf

/-- R170 to R173, R185, R186: decoding the encoding of any well-formed instruction gives it back; its length is the one its first two bits say. -/
def Obligations.DecodeEncode : Prop :=
  ∀ i : Instr, i.wf = true →
    (decode (encode i)).toOption = some i ∧ (encode i).length = instrLength ((encode i).headD 0)

-- reset and invariants

/-- R71 to R77: the values the spec gives for power-on reset. -/
def Obligations.ResetState : Prop :=
  State.reset.cpu.psw.toDWord = 0 ∧ State.reset.cpu.status = .stopped ∧
  (∀ r, State.reset.cr r = if r = 0 then 0x000000E0 else if r = 14 then 0xC2000000 else 0) ∧
  (∀ r, State.reset.gr r = 0 ∧ State.reset.ar r = 0) ∧ (∀ i : Fin 16, State.reset.cpu.fpr[i] = 0) ∧
  State.reset.cpu.prefixReg = 0 ∧ State.reset.cpu.clockComparator = 0 ∧ State.reset.cpu.cpuTimer = 0 ∧ State.reset.cpu.todProg = 0 ∧
  (∀ a, State.reset.hp.byte a = 0) ∧ (∀ b, State.reset.hp.key b = 0) ∧ State.reset.hp.shareable = false ∧
  (∀ e, e ∈ State.reset.hal → e.state = .unused)

/-- The invariants of the next three statements hold after reset. Where the spec gives no reset value they rest on the model's: that block 0, the prefix
area at reset, is assigned is log entry 4 (HP_RANGES is OPEN); that no CPU is inside EXECUTE and no block is flagged is log entry 9. -/
def Obligations.ResetKeepsInvariants : Prop :=
  storageCanonical State.reset ∧ prefixAreasAssigned State.reset ∧ betweenInstructions State.reset ∧ accessListSound State.reset

/-- Every step keeps storage, storage keys and block flags of every address space in canonical form, so that equal contents are equal data. -/
def Obligations.StorageStaysCanonical : Prop :=
  ∀ s t, storageCanonical s → step s = .next t → storageCanonical t

/-- R27, R102, R386, R430, R512: every step leaves each CPU's prefix area assigned, and no CPU in the middle of EXECUTE; and no interruption is
refused for want of its prefix area, unless the instruction is SET PREFIX, or EXECUTE of one, whose termination may leave any prefix (R402, D14). That an
interruption's own references to storage fail for want of the prefix area alone is log entry 32. -/
def Obligations.CpusStaySound : Prop :=
  ∀ s, prefixAreasAssigned s → betweenInstructions s →
    (∀ t, step s = .next t → prefixAreasAssigned t ∧ betweenInstructions t) ∧
    (¬ setsPrefix { s with inputs := s.inputs.tail }.nextDraw → step s ≠ .refused .prefixAreaNotAssigned)

/-- R131, R132, R135, R141, R151, R154: every step keeps the host access list sound. -/
def Obligations.AccessListStaysSound : Prop :=
  ∀ s t, accessListSound s → step s = .next t → accessListSound t

/-- R110, R112: no instruction, host services apart, changes a byte of a block that is read-only under host page protection, outside the prefix area
of the CPU. -/
def Obligations.HostPageProtection : Prop :=
  ∀ (s t : State) (i : Instr) (id : SpaceId) (a : Addr), s.services = [] → exec i s = .next t → (s.space id).readOnly (blockOf a) = true →
    (id = .hostPrimary → blockOf a ≠ t.cpu.prefixReg) →
    (t.space id).byte a = (s.space id).byte a ∧ (t.space id).readOnly (blockOf a) = true

/-- R450, R183: in the problem state no instruction changes a control register, the prefix, the clock comparator, the TOD programmable register, the
access-control bits of a storage key, or the host access list; and it leaves the problem state, or changes the system mask, the key or the
machine-check mask, only by an interruption, which loads a new PSW. -/
def Obligations.ProblemState : Prop :=
  ∀ (s t : State) (i : Instr), s.cpu.psw.problem = true → exec i s = .next t →
    (∀ r, t.cr r = s.cr r) ∧ t.cpu.prefixReg = s.cpu.prefixReg ∧ t.cpu.clockComparator = s.cpu.clockComparator ∧
    t.cpu.todProg = s.cpu.todProg ∧ t.hal = s.hal ∧ (∀ id b, field ((t.space id).key b) 0 5 = field ((s.space id).key b) 0 5) ∧
    ((t.cpu.psw.problem = true ∧ t.cpu.psw.sysMask = s.cpu.psw.sysMask ∧ t.cpu.psw.key = s.cpu.psw.key ∧
        t.cpu.psw.machineCheck = s.cpu.psw.machineCheck) ∨
      t.cpu.psw = Psw.ofDWord (be64 (t.realBytes 96 8)) ∨ t.cpu.psw = Psw.ofDWord (be64 (t.realBytes 104 8)))
end

