-- ==== Sys2Proof/Laws/Sparse.lean ====
section
/-! SUPPORT. The lists that hold storage, keys and flags: reading after writing, and the canonical form, which every operation keeps and in
which equal contents are equal lists. -/

namespace Sys2Proof.Machine

variable {α : Type}

-- reading

theorem sparseGet_cons_same (z : α) (c : Nat × α) (rest : List (Nat × α)) : sparseGet z (c :: rest) c.1 = c.2 := by
  unfold sparseGet; exact if_pos rfl

theorem sparseGet_cons_other (z : α) (c : Nat × α) (rest : List (Nat × α)) (k : Nat) (h : c.1 ≠ k) :
    sparseGet z (c :: rest) k = sparseGet z rest k := by
  conv => lhs; unfold sparseGet
  exact if_neg h

theorem sparseGet_remove (z : α) (m : List (Nat × α)) (k j : Nat) :
    sparseGet z (sparseRemove k m) j = if j = k then z else sparseGet z m j := by
  induction m with
  | nil => simp [sparseRemove, sparseGet]
  | cons c rest ih =>
    unfold sparseRemove
    by_cases hc : c.1 = k
    · rw [if_pos hc, ih]
      by_cases hj : j = k
      · simp [hj]
      · have hcj : ¬ c.1 = j := fun e => hj (e.symm.trans hc)
        simp [hj, sparseGet, hcj]
    · rw [if_neg hc]
      unfold sparseGet
      by_cases hcj : c.1 = j
      · have hj : ¬ j = k := fun e => hc (hcj.trans e)
        simp [hcj, hj]
      · simp only [if_neg hcj]
        exact ih

theorem sparseGet_insert (z : α) (m : List (Nat × α)) (k j : Nat) (v : α) :
    sparseGet z (sparseInsert k v (sparseRemove k m)) j = if j = k then v else sparseGet z m j := by
  induction m with
  | nil =>
    by_cases hj : j = k
    · simp [sparseRemove, sparseInsert, sparseGet, hj]
    · have hk : ¬ k = j := fun e => hj e.symm
      simp [sparseRemove, sparseInsert, sparseGet, hj, hk]
  | cons c rest ih =>
    unfold sparseRemove
    by_cases hc : c.1 = k
    · rw [if_pos hc, ih]
      by_cases hj : j = k
      · simp [hj]
      · have hcj : ¬ c.1 = j := fun e => hj (e.symm.trans hc)
        simp [hj, sparseGet, hcj]
    · rw [if_neg hc]
      unfold sparseInsert
      by_cases hlt : k < c.1
      · rw [if_pos hlt]
        by_cases hj : j = k
        · simp [sparseGet, hj]
        · have hk : ¬ k = j := fun e => hj e.symm
          have hg := sparseGet_remove z rest k j
          rw [if_neg hj] at hg
          simp only [sparseGet, if_neg hk, if_neg hj, hg]
      · rw [if_neg hlt]
        unfold sparseGet
        by_cases hcj : c.1 = j
        · have hj : ¬ j = k := fun e => hc (hcj.trans e)
          simp [hcj, hj]
        · simp only [if_neg hcj]
          exact ih

/-- Reading after writing: the value written at its own key, and what was there before at every other key. -/
theorem sparseGet_set [DecidableEq α] (z : α) (m : List (Nat × α)) (k j : Nat) (v : α) :
    sparseGet z (sparseSet z m k v) j = if j = k then v else sparseGet z m j := by
  unfold sparseSet
  by_cases hv : v = z
  · rw [if_pos hv, sparseGet_remove, hv]
  · rw [if_neg hv, sparseGet_insert]

-- the canonical form

theorem sparseAbove_iff (k : Nat) (m : List (Nat × α)) : sparseAbove k m = true ↔ ∀ c, m.head? = some c → k < c.1 := by
  cases m with
  | nil => simp [sparseAbove]
  | cons c rest => simp [sparseAbove]

theorem sparseWf_cons [DecidableEq α] (z : α) (c : Nat × α) (rest : List (Nat × α)) :
    sparseWf z (c :: rest) = true ↔ sparseAbove c.1 rest = true ∧ c.2 ≠ z ∧ sparseWf z rest = true := by
  simp [sparseWf, and_assoc]

/-- In the canonical form every later key is above an earlier one. -/
theorem sparseWf_above [DecidableEq α] (z : α) (m : List (Nat × α)) (k : Nat) (hk : sparseAbove k m = true) (h : sparseWf z m = true) :
    ∀ c, c ∈ m → k < c.1 := by
  induction m generalizing k with
  | nil => intro c hc; cases hc
  | cons d rest ih =>
    intro c hc
    have hd : k < d.1 := by simpa [sparseAbove] using hk
    rcases List.mem_cons.mp hc with rfl | hc
    · exact hd
    · have h' := (sparseWf_cons z d rest).mp h
      exact Nat.lt_trans hd (ih d.1 h'.1 h'.2.2 c hc)

theorem sparseAbove_of_forall (k : Nat) (m : List (Nat × α)) (h : ∀ c, c ∈ m → k < c.1) : sparseAbove k m = true := by
  cases m with
  | nil => rfl
  | cons c rest => simpa [sparseAbove] using h c (List.mem_cons_self ..)

theorem sparseWf_filter [DecidableEq α] (z : α) (f : Nat × α → Bool) (m : List (Nat × α)) (h : sparseWf z m = true) :
    sparseWf z (m.filter f) = true := by
  induction m with
  | nil => rfl
  | cons c rest ih =>
    have h' := (sparseWf_cons z c rest).mp h
    by_cases hf : f c = true
    · rw [List.filter_cons_of_pos hf]
      refine (sparseWf_cons z c _).mpr ⟨sparseAbove_of_forall _ _ fun d hd => ?_, h'.2.1, ih h'.2.2⟩
      exact sparseWf_above z rest c.1 h'.1 h'.2.2 d (List.mem_filter.mp hd).1
    · rw [List.filter_cons_of_neg hf]
      exact ih h'.2.2

theorem sparseRemove_eq_filter (k : Nat) (m : List (Nat × α)) : sparseRemove k m = m.filter (fun c => decide (c.1 ≠ k)) := by
  induction m with
  | nil => rfl
  | cons c rest ih =>
    unfold sparseRemove
    by_cases hc : c.1 = k
    · rw [if_pos hc, ih]; simp [hc]
    · rw [if_neg hc, ih]; simp [hc]

theorem mem_sparseRemove (k : Nat) (m : List (Nat × α)) (c : Nat × α) : c ∈ sparseRemove k m ↔ c ∈ m ∧ c.1 ≠ k := by
  rw [sparseRemove_eq_filter]; simp [List.mem_filter]

theorem sparseWf_remove [DecidableEq α] (z : α) (m : List (Nat × α)) (k : Nat) (h : sparseWf z m = true) :
    sparseWf z (sparseRemove k m) = true := by
  rw [sparseRemove_eq_filter]; exact sparseWf_filter z _ m h

theorem mem_sparseInsert (k : Nat) (v : α) (m : List (Nat × α)) (c : Nat × α) : c ∈ sparseInsert k v m → c = (k, v) ∨ c ∈ m := by
  induction m with
  | nil => intro h; simpa [sparseInsert] using h
  | cons d rest ih =>
    intro h
    unfold sparseInsert at h
    by_cases hlt : k < d.1
    · rw [if_pos hlt] at h
      simpa using h
    · rw [if_neg hlt] at h
      rcases List.mem_cons.mp h with rfl | h
      · exact .inr (List.mem_cons_self ..)
      · rcases ih h with h | h
        · exact .inl h
        · exact .inr (List.mem_cons_of_mem _ h)

theorem sparseWf_insert [DecidableEq α] (z : α) (m : List (Nat × α)) (k : Nat) (v : α) (hv : v ≠ z) (hk : ∀ c, c ∈ m → c.1 ≠ k)
    (h : sparseWf z m = true) : sparseWf z (sparseInsert k v m) = true := by
  induction m with
  | nil => simp [sparseInsert, sparseWf, sparseAbove, hv]
  | cons c rest ih =>
    have h' := (sparseWf_cons z c rest).mp h
    have hc : c.1 ≠ k := hk c (List.mem_cons_self ..)
    unfold sparseInsert
    by_cases hlt : k < c.1
    · rw [if_pos hlt]
      exact (sparseWf_cons z _ _).mpr ⟨by simpa [sparseAbove] using hlt, hv, h⟩
    · rw [if_neg hlt]
      refine (sparseWf_cons z _ _).mpr ⟨sparseAbove_of_forall _ _ fun d hd => ?_, h'.2.1,
        ih (fun d hd => hk d (List.mem_cons_of_mem _ hd)) h'.2.2⟩
      rcases mem_sparseInsert k v rest d hd with rfl | hd
      · show c.1 < k
        omega
      · exact sparseWf_above z rest c.1 h'.1 h'.2.2 d hd

/-- Writing keeps the canonical form. -/
theorem sparseWf_set [DecidableEq α] (z : α) (m : List (Nat × α)) (k : Nat) (v : α) (h : sparseWf z m = true) :
    sparseWf z (sparseSet z m k v) = true := by
  unfold sparseSet
  by_cases hv : v = z
  · rw [if_pos hv]; exact sparseWf_remove z m k h
  · rw [if_neg hv]
    exact sparseWf_insert z _ k v hv (fun c hc => ((mem_sparseRemove k m c).mp hc).2) (sparseWf_remove z m k h)

theorem sparseWf_foldl [DecidableEq α] (z : α) (cells m : List (Nat × α)) (h : sparseWf z m = true) :
    sparseWf z (cells.foldl (fun m c => sparseSet z m c.1 c.2) m) = true := by
  induction cells generalizing m with
  | nil => exact h
  | cons c rest ih => exact ih _ (sparseWf_set z m c.1 c.2 h)

/-- A list made from any cells is in canonical form. -/
theorem sparseWf_of [DecidableEq α] (z : α) (cells : List (Nat × α)) : sparseWf z (sparseOf z cells) = true :=
  sparseWf_foldl z cells [] rfl

theorem sparseGet_below (z : α) (m : List (Nat × α)) (k : Nat) (h : ∀ c, c ∈ m → k < c.1) : sparseGet z m k = z := by
  induction m with
  | nil => rfl
  | cons c rest ih =>
    have hc : ¬ c.1 = k := Nat.ne_of_gt (h c (List.mem_cons_self ..))
    simp only [sparseGet, if_neg hc]
    exact ih fun d hd => h d (List.mem_cons_of_mem _ hd)

/-- In the canonical form equal contents are equal lists. -/
theorem sparse_ext [DecidableEq α] (z : α) (m n : List (Nat × α)) (hm : sparseWf z m = true) (hn : sparseWf z n = true)
    (h : ∀ k, sparseGet z m k = sparseGet z n k) : m = n := by
  induction m generalizing n with
  | nil =>
    cases n with
    | nil => rfl
    | cons d rest =>
      have hd := h d.1
      rw [sparseGet_cons_same] at hd
      exact absurd hd.symm ((sparseWf_cons z d rest).mp hn).2.1
  | cons c rest ih =>
    have hc := (sparseWf_cons z c rest).mp hm
    have hcabove := sparseWf_above z rest c.1 hc.1 hc.2.2
    cases n with
    | nil =>
      have hd := h c.1
      rw [sparseGet_cons_same] at hd
      exact absurd hd hc.2.1
    | cons d rest' =>
      have hd := (sparseWf_cons z d rest').mp hn
      have hdabove := sparseWf_above z rest' d.1 hd.1 hd.2.2
      have hkey : c.1 = d.1 := by
        rcases Nat.lt_trichotomy c.1 d.1 with hlt | heq | hgt
        · have h1 := h c.1
          have h2 : sparseGet z (d :: rest') c.1 = z := sparseGet_below z _ _ fun e he => by
            rcases List.mem_cons.mp he with rfl | he
            · exact hlt
            · exact Nat.lt_trans hlt (hdabove e he)
          rw [h2, sparseGet_cons_same] at h1
          exact absurd h1 hc.2.1
        · exact heq
        · have h1 := h d.1
          have h2 : sparseGet z (c :: rest) d.1 = z := sparseGet_below z _ _ fun e he => by
            rcases List.mem_cons.mp he with rfl | he
            · exact hgt
            · exact Nat.lt_trans hgt (hcabove e he)
          rw [h2, sparseGet_cons_same] at h1
          exact absurd h1.symm hd.2.1
      have hval : c.2 = d.2 := by
        have h1 := h c.1
        rw [sparseGet_cons_same, hkey, sparseGet_cons_same] at h1
        exact h1
      have hrest : rest = rest' := ih rest' hc.2.2 hd.2.2 fun k => by
        by_cases hk : c.1 = k
        · subst hk
          rw [sparseGet_below z rest c.1 hcabove, sparseGet_below z rest' c.1 (fun e he => hkey ▸ hdabove e he)]
        · have h1 := h k
          have hk' : ¬ d.1 = k := fun e => hk (hkey.trans e)
          rw [sparseGet_cons_other z c rest k hk, sparseGet_cons_other z d rest' k hk'] at h1
          exact h1
      rw [Prod.ext hkey hval, hrest]

-- storage

/-- Reading a byte after writing one. -/
theorem Memory.read_write (m : Memory) (a b : Nat) (v : Byte) : (m.write a v).read b = if b = a then v else m.read b :=
  sparseGet_set 0 m a b v

theorem Memory.read_write_same (m : Memory) (a : Nat) (v : Byte) : (m.write a v).read a = v := by
  rw [Memory.read_write, if_pos rfl]

theorem Memory.read_write_other (m : Memory) (a b : Nat) (v : Byte) (h : b ≠ a) : (m.write a v).read b = m.read b := by
  rw [Memory.read_write, if_neg h]

/-- Writing a byte keeps the canonical form. -/
theorem Memory.wf_write (m : Memory) (a : Nat) (v : Byte) (h : m.wf = true) : (m.write a v).wf = true := sparseWf_set 0 m a v h

/-- Clearing a block keeps the canonical form. -/
theorem Memory.wf_clearBlock (m : Memory) (b : Block) (h : m.wf = true) : (m.clearBlock b).wf = true := sparseWf_filter 0 _ m h

theorem sparseGet_filter (z : α) (f : Nat → Bool) (m : List (Nat × α)) (k : Nat) :
    sparseGet z (m.filter (fun c => f c.1)) k = if f k = true then sparseGet z m k else z := by
  induction m with
  | nil => simp [sparseGet]
  | cons c rest ih =>
    rw [List.filter_cons]
    by_cases hf : f c.1 = true
    · rw [if_pos hf]
      by_cases hk : c.1 = k
      · subst hk; rw [sparseGet_cons_same, sparseGet_cons_same, if_pos hf]
      · rw [sparseGet_cons_other _ _ _ _ hk, sparseGet_cons_other _ _ _ _ hk]; exact ih
    · rw [if_neg hf, ih]
      by_cases hk : c.1 = k
      · subst hk; rw [if_neg hf, if_neg hf]
      · rw [sparseGet_cons_other _ _ _ _ hk]

/-- Reading a byte after clearing a block: zero in the block. -/
theorem Memory.read_clearBlock (m : Memory) (b : Block) (a : Nat) :
    (m.clearBlock b).read a = if a / 4096 = b.toNat then 0 else m.read a := by
  have h := sparseGet_filter (0 : Byte) (fun k => k / 4096 != b.toNat) m a
  unfold Memory.read Memory.clearBlock
  rw [h]
  by_cases hk : a / 4096 = b.toNat
  · simp [hk]
  · simp [hk]

-- one address space

@[simp] theorem Space.setByte_asit (p : Space) (a : Addr) (v : Byte) : (p.setByte a v).asit = p.asit := rfl
@[simp] theorem Space.setByte_ranges (p : Space) (a : Addr) (v : Byte) : (p.setByte a v).ranges = p.ranges := rfl
@[simp] theorem Space.setByte_keys (p : Space) (a : Addr) (v : Byte) : (p.setByte a v).keys = p.keys := rfl
@[simp] theorem Space.setByte_key (p : Space) (a : Addr) (v : Byte) (b : Block) : (p.setByte a v).key b = p.key b := rfl
@[simp] theorem Space.setByte_assigned (p : Space) (a : Addr) (v : Byte) (b : Block) : (p.setByte a v).assigned b = p.assigned b := rfl
@[simp] theorem Space.setByte_readOnly (p : Space) (a : Addr) (v : Byte) (b : Block) : (p.setByte a v).readOnly b = p.readOnly b := rfl
@[simp] theorem Space.setByte_usable (p : Space) (a : Addr) (v : Byte) (b : Block) : (p.setByte a v).usable b = p.usable b := rfl
@[simp] theorem Space.setKey_asit (p : Space) (b : Block) (k : BitVec 7) : (p.setKey b k).asit = p.asit := rfl
@[simp] theorem Space.setKey_ranges (p : Space) (b : Block) (k : BitVec 7) : (p.setKey b k).ranges = p.ranges := rfl
@[simp] theorem Space.setKey_mem (p : Space) (b : Block) (k : BitVec 7) : (p.setKey b k).mem = p.mem := rfl
@[simp] theorem Space.setKey_byte (p : Space) (b : Block) (k : BitVec 7) (a : Addr) : (p.setKey b k).byte a = p.byte a := rfl
@[simp] theorem Space.setKey_assigned (p : Space) (b : Block) (k : BitVec 7) (c : Block) : (p.setKey b k).assigned c = p.assigned c := rfl
@[simp] theorem Space.setKey_readOnly (p : Space) (b : Block) (k : BitVec 7) (c : Block) : (p.setKey b k).readOnly c = p.readOnly c := rfl
@[simp] theorem Space.setKey_usable (p : Space) (b : Block) (k : BitVec 7) (c : Block) : (p.setKey b k).usable c = p.usable c := rfl

/-- Reading a byte of a space after replacing one. -/
theorem Space.byte_setByte (p : Space) (a b : Addr) (v : Byte) : (p.setByte a v).byte b = if b = a then v else p.byte b := by
  have h := Memory.read_write p.mem a.toNat b.toNat v
  by_cases hb : b = a
  · subst hb; simpa [Space.byte, Space.setByte] using h
  · have hn : ¬ b.toNat = a.toNat := fun e => hb (BitVec.eq_of_toNat_eq e)
    rw [if_neg hn] at h
    rw [if_neg hb]
    exact h

/-- Reading a storage key after replacing one. -/
theorem Space.key_setKey (p : Space) (a b : Block) (k : BitVec 7) : (p.setKey a k).key b = if b = a then k else p.key b := by
  have h := sparseGet_set (0 : BitVec 7) p.keys a.toNat b.toNat k
  by_cases hb : b = a
  · subst hb; simpa [Space.key, Space.setKey] using h
  · have hn : ¬ b.toNat = a.toNat := fun e => hb (BitVec.eq_of_toNat_eq e)
    rw [if_neg hn] at h
    rw [if_neg hb]
    exact h

/-- Every list of the space is in canonical form. -/
theorem Space.wf_iff (p : Space) : p.wf = true ↔ Memory.wf p.mem = true ∧ sparseWf 0 p.keys = true ∧ sparseWf 0 p.readOnlyBlocks = true ∧
    sparseWf 0 p.unusableBlocks = true := by
  simp [Space.wf, and_assoc]

theorem Space.wf_setByte (p : Space) (a : Addr) (v : Byte) (h : p.wf = true) : (p.setByte a v).wf = true := by
  rw [Space.wf_iff] at h ⊢
  exact ⟨Memory.wf_write p.mem a.toNat v h.1, h.2⟩

theorem Space.wf_setKey (p : Space) (b : Block) (k : BitVec 7) (h : p.wf = true) : (p.setKey b k).wf = true := by
  rw [Space.wf_iff] at h ⊢
  exact ⟨h.1, sparseWf_set 0 p.keys b.toNat k h.2.1, h.2.2⟩

theorem Space.wf_setReadOnly (p : Space) (b : Block) (on : Bool) (h : p.wf = true) : (p.setReadOnly b on).wf = true := by
  rw [Space.wf_iff] at h ⊢
  exact ⟨h.1, h.2.1, sparseWf_set 0 p.readOnlyBlocks b.toNat _ h.2.2.1, h.2.2.2⟩

theorem Space.wf_setUnusable (p : Space) (b : Block) (on : Bool) (h : p.wf = true) : (p.setUnusable b on).wf = true := by
  rw [Space.wf_iff] at h ⊢
  exact ⟨h.1, h.2.1, h.2.2.1, sparseWf_set 0 p.unusableBlocks b.toNat _ h.2.2.2⟩

theorem Space.wf_clearMem (p : Space) (b : Block) (h : p.wf = true) : ({ p with mem := Memory.clearBlock p.mem b } : Space).wf = true := by
  rw [Space.wf_iff] at h ⊢
  exact ⟨Memory.wf_clearBlock p.mem b h.1, h.2⟩

/-- Storage after reset is in canonical form. -/
theorem reset_storage_wf : State.reset.hp.wf = true := rfl

end Sys2Proof.Machine
end

