-- ==== Sys2Proof/Laws/State.lean ====
section
/-! SUPPORT. What each update of the state does to each field, true by `rfl`, so that no proof unfolds a record update; and reading a register
after writing one. -/

namespace Sys2Proof.Machine

-- setGr

@[simp] theorem State.setGr_cfg (s : State) (r : Reg) (v : Word) : (s.setGr r v).cfg = s.cfg := rfl
@[simp] theorem State.setGr_others (s : State) (r : Reg) (v : Word) : (s.setGr r v).others = s.others := rfl
@[simp] theorem State.setGr_hp (s : State) (r : Reg) (v : Word) : (s.setGr r v).hp = s.hp := rfl
@[simp] theorem State.setGr_spaces (s : State) (r : Reg) (v : Word) : (s.setGr r v).spaces = s.spaces := rfl
@[simp] theorem State.setGr_hal (s : State) (r : Reg) (v : Word) : (s.setGr r v).hal = s.hal := rfl
@[simp] theorem State.setGr_issued (s : State) (r : Reg) (v : Word) : (s.setGr r v).issued = s.issued := rfl
@[simp] theorem State.setGr_pendingIo (s : State) (r : Reg) (v : Word) : (s.setGr r v).pendingIo = s.pendingIo := rfl
@[simp] theorem State.setGr_serviceSignal (s : State) (r : Reg) (v : Word) : (s.setGr r v).serviceSignal = s.serviceSignal := rfl
@[simp] theorem State.setGr_channelReports (s : State) (r : Reg) (v : Word) : (s.setGr r v).channelReports = s.channelReports := rfl
@[simp] theorem State.setGr_tod (s : State) (r : Reg) (v : Word) : (s.setGr r v).tod = s.tod := rfl
@[simp] theorem State.setGr_inputs (s : State) (r : Reg) (v : Word) : (s.setGr r v).inputs = s.inputs := rfl
@[simp] theorem State.setGr_services (s : State) (r : Reg) (v : Word) : (s.setGr r v).services = s.services := rfl
@[simp] theorem State.setGr_draws (s : State) (r : Reg) (v : Word) : (s.setGr r v).draws = s.draws := rfl
@[simp] theorem State.setGr_cpu_address (s : State) (r : Reg) (v : Word) : (s.setGr r v).cpu.address = s.cpu.address := rfl
@[simp] theorem State.setGr_cpu_gr (s : State) (r : Reg) (v : Word) : (s.setGr r v).cpu.gr = s.cpu.gr.set r.toNat v r.isLt := rfl
@[simp] theorem State.setGr_cpu_ar (s : State) (r : Reg) (v : Word) : (s.setGr r v).cpu.ar = s.cpu.ar := rfl
@[simp] theorem State.setGr_cpu_cr (s : State) (r : Reg) (v : Word) : (s.setGr r v).cpu.cr = s.cpu.cr := rfl
@[simp] theorem State.setGr_cpu_fpr (s : State) (r : Reg) (v : Word) : (s.setGr r v).cpu.fpr = s.cpu.fpr := rfl
@[simp] theorem State.setGr_cpu_psw (s : State) (r : Reg) (v : Word) : (s.setGr r v).cpu.psw = s.cpu.psw := rfl
@[simp] theorem State.setGr_cpu_prefixReg (s : State) (r : Reg) (v : Word) : (s.setGr r v).cpu.prefixReg = s.cpu.prefixReg := rfl
@[simp] theorem State.setGr_cpu_clockComparator (s : State) (r : Reg) (v : Word) : (s.setGr r v).cpu.clockComparator = s.cpu.clockComparator := rfl
@[simp] theorem State.setGr_cpu_cpuTimer (s : State) (r : Reg) (v : Word) : (s.setGr r v).cpu.cpuTimer = s.cpu.cpuTimer := rfl
@[simp] theorem State.setGr_cpu_todProg (s : State) (r : Reg) (v : Word) : (s.setGr r v).cpu.todProg = s.cpu.todProg := rfl
@[simp] theorem State.setGr_cpu_status (s : State) (r : Reg) (v : Word) : (s.setGr r v).cpu.status = s.cpu.status := rfl
@[simp] theorem State.setGr_cpu_stopRequest (s : State) (r : Reg) (v : Word) : (s.setGr r v).cpu.stopRequest = s.cpu.stopRequest := rfl
@[simp] theorem State.setGr_cpu_externalCall (s : State) (r : Reg) (v : Word) : (s.setGr r v).cpu.externalCall = s.cpu.externalCall := rfl
@[simp] theorem State.setGr_cpu_emergencySignals (s : State) (r : Reg) (v : Word) : (s.setGr r v).cpu.emergencySignals = s.cpu.emergencySignals := rfl
@[simp] theorem State.setGr_cpu_malfunctionAlerts (s : State) (r : Reg) (v : Word) : (s.setGr r v).cpu.malfunctionAlerts = s.cpu.malfunctionAlerts := rfl
@[simp] theorem State.setGr_cpu_interruptKey (s : State) (r : Reg) (v : Word) : (s.setGr r v).cpu.interruptKey = s.cpu.interruptKey := rfl
@[simp] theorem State.setGr_cpu_hostSignals (s : State) (r : Reg) (v : Word) : (s.setGr r v).cpu.hostSignals = s.cpu.hostSignals := rfl
@[simp] theorem State.setGr_cpu_restartPending (s : State) (r : Reg) (v : Word) : (s.setGr r v).cpu.restartPending = s.cpu.restartPending := rfl
@[simp] theorem State.setGr_cpu_machineChecks (s : State) (r : Reg) (v : Word) : (s.setGr r v).cpu.machineChecks = s.cpu.machineChecks := rfl
@[simp] theorem State.setGr_cpu_busy (s : State) (r : Reg) (v : Word) : (s.setGr r v).cpu.busy = s.cpu.busy := rfl
@[simp] theorem State.setGr_cpu_operatorStatus (s : State) (r : Reg) (v : Word) : (s.setGr r v).cpu.operatorStatus = s.cpu.operatorStatus := rfl
@[simp] theorem State.setGr_cpu_exTarget (s : State) (r : Reg) (v : Word) : (s.setGr r v).cpu.exTarget = s.cpu.exTarget := rfl
@[simp] theorem State.setGr_cpu_staleBytes (s : State) (r : Reg) (v : Word) : (s.setGr r v).cpu.staleBytes = s.cpu.staleBytes := rfl
@[simp] theorem State.setGr_ar (s : State) (r : Reg) (v : Word) (i : Reg) : (s.setGr r v).ar i = s.ar i := rfl
@[simp] theorem State.setGr_cr (s : State) (r : Reg) (v : Word) (i : Reg) : (s.setGr r v).cr i = s.cr i := rfl
@[simp] theorem State.setGr_space (s : State) (r : Reg) (v : Word) (id : SpaceId) : (s.setGr r v).space id = s.space id := by cases id <;> rfl

-- setAr

@[simp] theorem State.setAr_cfg (s : State) (r : Reg) (v : Word) : (s.setAr r v).cfg = s.cfg := rfl
@[simp] theorem State.setAr_others (s : State) (r : Reg) (v : Word) : (s.setAr r v).others = s.others := rfl
@[simp] theorem State.setAr_hp (s : State) (r : Reg) (v : Word) : (s.setAr r v).hp = s.hp := rfl
@[simp] theorem State.setAr_spaces (s : State) (r : Reg) (v : Word) : (s.setAr r v).spaces = s.spaces := rfl
@[simp] theorem State.setAr_hal (s : State) (r : Reg) (v : Word) : (s.setAr r v).hal = s.hal := rfl
@[simp] theorem State.setAr_issued (s : State) (r : Reg) (v : Word) : (s.setAr r v).issued = s.issued := rfl
@[simp] theorem State.setAr_pendingIo (s : State) (r : Reg) (v : Word) : (s.setAr r v).pendingIo = s.pendingIo := rfl
@[simp] theorem State.setAr_serviceSignal (s : State) (r : Reg) (v : Word) : (s.setAr r v).serviceSignal = s.serviceSignal := rfl
@[simp] theorem State.setAr_channelReports (s : State) (r : Reg) (v : Word) : (s.setAr r v).channelReports = s.channelReports := rfl
@[simp] theorem State.setAr_tod (s : State) (r : Reg) (v : Word) : (s.setAr r v).tod = s.tod := rfl
@[simp] theorem State.setAr_inputs (s : State) (r : Reg) (v : Word) : (s.setAr r v).inputs = s.inputs := rfl
@[simp] theorem State.setAr_services (s : State) (r : Reg) (v : Word) : (s.setAr r v).services = s.services := rfl
@[simp] theorem State.setAr_draws (s : State) (r : Reg) (v : Word) : (s.setAr r v).draws = s.draws := rfl
@[simp] theorem State.setAr_cpu_address (s : State) (r : Reg) (v : Word) : (s.setAr r v).cpu.address = s.cpu.address := rfl
@[simp] theorem State.setAr_cpu_gr (s : State) (r : Reg) (v : Word) : (s.setAr r v).cpu.gr = s.cpu.gr := rfl
@[simp] theorem State.setAr_cpu_ar (s : State) (r : Reg) (v : Word) : (s.setAr r v).cpu.ar = s.cpu.ar.set r.toNat v r.isLt := rfl
@[simp] theorem State.setAr_cpu_cr (s : State) (r : Reg) (v : Word) : (s.setAr r v).cpu.cr = s.cpu.cr := rfl
@[simp] theorem State.setAr_cpu_fpr (s : State) (r : Reg) (v : Word) : (s.setAr r v).cpu.fpr = s.cpu.fpr := rfl
@[simp] theorem State.setAr_cpu_psw (s : State) (r : Reg) (v : Word) : (s.setAr r v).cpu.psw = s.cpu.psw := rfl
@[simp] theorem State.setAr_cpu_prefixReg (s : State) (r : Reg) (v : Word) : (s.setAr r v).cpu.prefixReg = s.cpu.prefixReg := rfl
@[simp] theorem State.setAr_cpu_clockComparator (s : State) (r : Reg) (v : Word) : (s.setAr r v).cpu.clockComparator = s.cpu.clockComparator := rfl
@[simp] theorem State.setAr_cpu_cpuTimer (s : State) (r : Reg) (v : Word) : (s.setAr r v).cpu.cpuTimer = s.cpu.cpuTimer := rfl
@[simp] theorem State.setAr_cpu_todProg (s : State) (r : Reg) (v : Word) : (s.setAr r v).cpu.todProg = s.cpu.todProg := rfl
@[simp] theorem State.setAr_cpu_status (s : State) (r : Reg) (v : Word) : (s.setAr r v).cpu.status = s.cpu.status := rfl
@[simp] theorem State.setAr_cpu_stopRequest (s : State) (r : Reg) (v : Word) : (s.setAr r v).cpu.stopRequest = s.cpu.stopRequest := rfl
@[simp] theorem State.setAr_cpu_externalCall (s : State) (r : Reg) (v : Word) : (s.setAr r v).cpu.externalCall = s.cpu.externalCall := rfl
@[simp] theorem State.setAr_cpu_emergencySignals (s : State) (r : Reg) (v : Word) : (s.setAr r v).cpu.emergencySignals = s.cpu.emergencySignals := rfl
@[simp] theorem State.setAr_cpu_malfunctionAlerts (s : State) (r : Reg) (v : Word) : (s.setAr r v).cpu.malfunctionAlerts = s.cpu.malfunctionAlerts := rfl
@[simp] theorem State.setAr_cpu_interruptKey (s : State) (r : Reg) (v : Word) : (s.setAr r v).cpu.interruptKey = s.cpu.interruptKey := rfl
@[simp] theorem State.setAr_cpu_hostSignals (s : State) (r : Reg) (v : Word) : (s.setAr r v).cpu.hostSignals = s.cpu.hostSignals := rfl
@[simp] theorem State.setAr_cpu_restartPending (s : State) (r : Reg) (v : Word) : (s.setAr r v).cpu.restartPending = s.cpu.restartPending := rfl
@[simp] theorem State.setAr_cpu_machineChecks (s : State) (r : Reg) (v : Word) : (s.setAr r v).cpu.machineChecks = s.cpu.machineChecks := rfl
@[simp] theorem State.setAr_cpu_busy (s : State) (r : Reg) (v : Word) : (s.setAr r v).cpu.busy = s.cpu.busy := rfl
@[simp] theorem State.setAr_cpu_operatorStatus (s : State) (r : Reg) (v : Word) : (s.setAr r v).cpu.operatorStatus = s.cpu.operatorStatus := rfl
@[simp] theorem State.setAr_cpu_exTarget (s : State) (r : Reg) (v : Word) : (s.setAr r v).cpu.exTarget = s.cpu.exTarget := rfl
@[simp] theorem State.setAr_cpu_staleBytes (s : State) (r : Reg) (v : Word) : (s.setAr r v).cpu.staleBytes = s.cpu.staleBytes := rfl
@[simp] theorem State.setAr_gr (s : State) (r : Reg) (v : Word) (i : Reg) : (s.setAr r v).gr i = s.gr i := rfl
@[simp] theorem State.setAr_cr (s : State) (r : Reg) (v : Word) (i : Reg) : (s.setAr r v).cr i = s.cr i := rfl
@[simp] theorem State.setAr_space (s : State) (r : Reg) (v : Word) (id : SpaceId) : (s.setAr r v).space id = s.space id := by cases id <;> rfl

-- setCr

@[simp] theorem State.setCr_cfg (s : State) (r : Reg) (v : Word) : (s.setCr r v).cfg = s.cfg := rfl
@[simp] theorem State.setCr_others (s : State) (r : Reg) (v : Word) : (s.setCr r v).others = s.others := rfl
@[simp] theorem State.setCr_hp (s : State) (r : Reg) (v : Word) : (s.setCr r v).hp = s.hp := rfl
@[simp] theorem State.setCr_spaces (s : State) (r : Reg) (v : Word) : (s.setCr r v).spaces = s.spaces := rfl
@[simp] theorem State.setCr_hal (s : State) (r : Reg) (v : Word) : (s.setCr r v).hal = s.hal := rfl
@[simp] theorem State.setCr_issued (s : State) (r : Reg) (v : Word) : (s.setCr r v).issued = s.issued := rfl
@[simp] theorem State.setCr_pendingIo (s : State) (r : Reg) (v : Word) : (s.setCr r v).pendingIo = s.pendingIo := rfl
@[simp] theorem State.setCr_serviceSignal (s : State) (r : Reg) (v : Word) : (s.setCr r v).serviceSignal = s.serviceSignal := rfl
@[simp] theorem State.setCr_channelReports (s : State) (r : Reg) (v : Word) : (s.setCr r v).channelReports = s.channelReports := rfl
@[simp] theorem State.setCr_tod (s : State) (r : Reg) (v : Word) : (s.setCr r v).tod = s.tod := rfl
@[simp] theorem State.setCr_inputs (s : State) (r : Reg) (v : Word) : (s.setCr r v).inputs = s.inputs := rfl
@[simp] theorem State.setCr_services (s : State) (r : Reg) (v : Word) : (s.setCr r v).services = s.services := rfl
@[simp] theorem State.setCr_draws (s : State) (r : Reg) (v : Word) : (s.setCr r v).draws = s.draws := rfl
@[simp] theorem State.setCr_cpu_address (s : State) (r : Reg) (v : Word) : (s.setCr r v).cpu.address = s.cpu.address := rfl
@[simp] theorem State.setCr_cpu_gr (s : State) (r : Reg) (v : Word) : (s.setCr r v).cpu.gr = s.cpu.gr := rfl
@[simp] theorem State.setCr_cpu_ar (s : State) (r : Reg) (v : Word) : (s.setCr r v).cpu.ar = s.cpu.ar := rfl
@[simp] theorem State.setCr_cpu_cr (s : State) (r : Reg) (v : Word) : (s.setCr r v).cpu.cr = s.cpu.cr.set r.toNat v r.isLt := rfl
@[simp] theorem State.setCr_cpu_fpr (s : State) (r : Reg) (v : Word) : (s.setCr r v).cpu.fpr = s.cpu.fpr := rfl
@[simp] theorem State.setCr_cpu_psw (s : State) (r : Reg) (v : Word) : (s.setCr r v).cpu.psw = s.cpu.psw := rfl
@[simp] theorem State.setCr_cpu_prefixReg (s : State) (r : Reg) (v : Word) : (s.setCr r v).cpu.prefixReg = s.cpu.prefixReg := rfl
@[simp] theorem State.setCr_cpu_clockComparator (s : State) (r : Reg) (v : Word) : (s.setCr r v).cpu.clockComparator = s.cpu.clockComparator := rfl
@[simp] theorem State.setCr_cpu_cpuTimer (s : State) (r : Reg) (v : Word) : (s.setCr r v).cpu.cpuTimer = s.cpu.cpuTimer := rfl
@[simp] theorem State.setCr_cpu_todProg (s : State) (r : Reg) (v : Word) : (s.setCr r v).cpu.todProg = s.cpu.todProg := rfl
@[simp] theorem State.setCr_cpu_status (s : State) (r : Reg) (v : Word) : (s.setCr r v).cpu.status = s.cpu.status := rfl
@[simp] theorem State.setCr_cpu_stopRequest (s : State) (r : Reg) (v : Word) : (s.setCr r v).cpu.stopRequest = s.cpu.stopRequest := rfl
@[simp] theorem State.setCr_cpu_externalCall (s : State) (r : Reg) (v : Word) : (s.setCr r v).cpu.externalCall = s.cpu.externalCall := rfl
@[simp] theorem State.setCr_cpu_emergencySignals (s : State) (r : Reg) (v : Word) : (s.setCr r v).cpu.emergencySignals = s.cpu.emergencySignals := rfl
@[simp] theorem State.setCr_cpu_malfunctionAlerts (s : State) (r : Reg) (v : Word) : (s.setCr r v).cpu.malfunctionAlerts = s.cpu.malfunctionAlerts := rfl
@[simp] theorem State.setCr_cpu_interruptKey (s : State) (r : Reg) (v : Word) : (s.setCr r v).cpu.interruptKey = s.cpu.interruptKey := rfl
@[simp] theorem State.setCr_cpu_hostSignals (s : State) (r : Reg) (v : Word) : (s.setCr r v).cpu.hostSignals = s.cpu.hostSignals := rfl
@[simp] theorem State.setCr_cpu_restartPending (s : State) (r : Reg) (v : Word) : (s.setCr r v).cpu.restartPending = s.cpu.restartPending := rfl
@[simp] theorem State.setCr_cpu_machineChecks (s : State) (r : Reg) (v : Word) : (s.setCr r v).cpu.machineChecks = s.cpu.machineChecks := rfl
@[simp] theorem State.setCr_cpu_busy (s : State) (r : Reg) (v : Word) : (s.setCr r v).cpu.busy = s.cpu.busy := rfl
@[simp] theorem State.setCr_cpu_operatorStatus (s : State) (r : Reg) (v : Word) : (s.setCr r v).cpu.operatorStatus = s.cpu.operatorStatus := rfl
@[simp] theorem State.setCr_cpu_exTarget (s : State) (r : Reg) (v : Word) : (s.setCr r v).cpu.exTarget = s.cpu.exTarget := rfl
@[simp] theorem State.setCr_cpu_staleBytes (s : State) (r : Reg) (v : Word) : (s.setCr r v).cpu.staleBytes = s.cpu.staleBytes := rfl
@[simp] theorem State.setCr_gr (s : State) (r : Reg) (v : Word) (i : Reg) : (s.setCr r v).gr i = s.gr i := rfl
@[simp] theorem State.setCr_ar (s : State) (r : Reg) (v : Word) (i : Reg) : (s.setCr r v).ar i = s.ar i := rfl
@[simp] theorem State.setCr_space (s : State) (r : Reg) (v : Word) (id : SpaceId) : (s.setCr r v).space id = s.space id := by cases id <;> rfl

-- setPsw

@[simp] theorem State.setPsw_cfg (s : State) (p : Psw) : (s.setPsw p).cfg = s.cfg := rfl
@[simp] theorem State.setPsw_others (s : State) (p : Psw) : (s.setPsw p).others = s.others := rfl
@[simp] theorem State.setPsw_hp (s : State) (p : Psw) : (s.setPsw p).hp = s.hp := rfl
@[simp] theorem State.setPsw_spaces (s : State) (p : Psw) : (s.setPsw p).spaces = s.spaces := rfl
@[simp] theorem State.setPsw_hal (s : State) (p : Psw) : (s.setPsw p).hal = s.hal := rfl
@[simp] theorem State.setPsw_issued (s : State) (p : Psw) : (s.setPsw p).issued = s.issued := rfl
@[simp] theorem State.setPsw_pendingIo (s : State) (p : Psw) : (s.setPsw p).pendingIo = s.pendingIo := rfl
@[simp] theorem State.setPsw_serviceSignal (s : State) (p : Psw) : (s.setPsw p).serviceSignal = s.serviceSignal := rfl
@[simp] theorem State.setPsw_channelReports (s : State) (p : Psw) : (s.setPsw p).channelReports = s.channelReports := rfl
@[simp] theorem State.setPsw_tod (s : State) (p : Psw) : (s.setPsw p).tod = s.tod := rfl
@[simp] theorem State.setPsw_inputs (s : State) (p : Psw) : (s.setPsw p).inputs = s.inputs := rfl
@[simp] theorem State.setPsw_services (s : State) (p : Psw) : (s.setPsw p).services = s.services := rfl
@[simp] theorem State.setPsw_draws (s : State) (p : Psw) : (s.setPsw p).draws = s.draws := rfl
@[simp] theorem State.setPsw_cpu_address (s : State) (p : Psw) : (s.setPsw p).cpu.address = s.cpu.address := rfl
@[simp] theorem State.setPsw_cpu_gr (s : State) (p : Psw) : (s.setPsw p).cpu.gr = s.cpu.gr := rfl
@[simp] theorem State.setPsw_cpu_ar (s : State) (p : Psw) : (s.setPsw p).cpu.ar = s.cpu.ar := rfl
@[simp] theorem State.setPsw_cpu_cr (s : State) (p : Psw) : (s.setPsw p).cpu.cr = s.cpu.cr := rfl
@[simp] theorem State.setPsw_cpu_fpr (s : State) (p : Psw) : (s.setPsw p).cpu.fpr = s.cpu.fpr := rfl
@[simp] theorem State.setPsw_cpu_psw (s : State) (p : Psw) : (s.setPsw p).cpu.psw = p := rfl
@[simp] theorem State.setPsw_cpu_prefixReg (s : State) (p : Psw) : (s.setPsw p).cpu.prefixReg = s.cpu.prefixReg := rfl
@[simp] theorem State.setPsw_cpu_clockComparator (s : State) (p : Psw) : (s.setPsw p).cpu.clockComparator = s.cpu.clockComparator := rfl
@[simp] theorem State.setPsw_cpu_cpuTimer (s : State) (p : Psw) : (s.setPsw p).cpu.cpuTimer = s.cpu.cpuTimer := rfl
@[simp] theorem State.setPsw_cpu_todProg (s : State) (p : Psw) : (s.setPsw p).cpu.todProg = s.cpu.todProg := rfl
@[simp] theorem State.setPsw_cpu_status (s : State) (p : Psw) : (s.setPsw p).cpu.status = s.cpu.status := rfl
@[simp] theorem State.setPsw_cpu_stopRequest (s : State) (p : Psw) : (s.setPsw p).cpu.stopRequest = s.cpu.stopRequest := rfl
@[simp] theorem State.setPsw_cpu_externalCall (s : State) (p : Psw) : (s.setPsw p).cpu.externalCall = s.cpu.externalCall := rfl
@[simp] theorem State.setPsw_cpu_emergencySignals (s : State) (p : Psw) : (s.setPsw p).cpu.emergencySignals = s.cpu.emergencySignals := rfl
@[simp] theorem State.setPsw_cpu_malfunctionAlerts (s : State) (p : Psw) : (s.setPsw p).cpu.malfunctionAlerts = s.cpu.malfunctionAlerts := rfl
@[simp] theorem State.setPsw_cpu_interruptKey (s : State) (p : Psw) : (s.setPsw p).cpu.interruptKey = s.cpu.interruptKey := rfl
@[simp] theorem State.setPsw_cpu_hostSignals (s : State) (p : Psw) : (s.setPsw p).cpu.hostSignals = s.cpu.hostSignals := rfl
@[simp] theorem State.setPsw_cpu_restartPending (s : State) (p : Psw) : (s.setPsw p).cpu.restartPending = s.cpu.restartPending := rfl
@[simp] theorem State.setPsw_cpu_machineChecks (s : State) (p : Psw) : (s.setPsw p).cpu.machineChecks = s.cpu.machineChecks := rfl
@[simp] theorem State.setPsw_cpu_busy (s : State) (p : Psw) : (s.setPsw p).cpu.busy = s.cpu.busy := rfl
@[simp] theorem State.setPsw_cpu_operatorStatus (s : State) (p : Psw) : (s.setPsw p).cpu.operatorStatus = s.cpu.operatorStatus := rfl
@[simp] theorem State.setPsw_cpu_exTarget (s : State) (p : Psw) : (s.setPsw p).cpu.exTarget = s.cpu.exTarget := rfl
@[simp] theorem State.setPsw_cpu_staleBytes (s : State) (p : Psw) : (s.setPsw p).cpu.staleBytes = s.cpu.staleBytes := rfl
@[simp] theorem State.setPsw_gr (s : State) (p : Psw) (i : Reg) : (s.setPsw p).gr i = s.gr i := rfl
@[simp] theorem State.setPsw_ar (s : State) (p : Psw) (i : Reg) : (s.setPsw p).ar i = s.ar i := rfl
@[simp] theorem State.setPsw_cr (s : State) (p : Psw) (i : Reg) : (s.setPsw p).cr i = s.cr i := rfl
@[simp] theorem State.setPsw_space (s : State) (p : Psw) (id : SpaceId) : (s.setPsw p).space id = s.space id := by cases id <;> rfl

-- setCc

@[simp] theorem State.setCc_cfg (s : State) (n : BitVec 2) : (s.setCc n).cfg = s.cfg := rfl
@[simp] theorem State.setCc_others (s : State) (n : BitVec 2) : (s.setCc n).others = s.others := rfl
@[simp] theorem State.setCc_hp (s : State) (n : BitVec 2) : (s.setCc n).hp = s.hp := rfl
@[simp] theorem State.setCc_spaces (s : State) (n : BitVec 2) : (s.setCc n).spaces = s.spaces := rfl
@[simp] theorem State.setCc_hal (s : State) (n : BitVec 2) : (s.setCc n).hal = s.hal := rfl
@[simp] theorem State.setCc_issued (s : State) (n : BitVec 2) : (s.setCc n).issued = s.issued := rfl
@[simp] theorem State.setCc_pendingIo (s : State) (n : BitVec 2) : (s.setCc n).pendingIo = s.pendingIo := rfl
@[simp] theorem State.setCc_serviceSignal (s : State) (n : BitVec 2) : (s.setCc n).serviceSignal = s.serviceSignal := rfl
@[simp] theorem State.setCc_channelReports (s : State) (n : BitVec 2) : (s.setCc n).channelReports = s.channelReports := rfl
@[simp] theorem State.setCc_tod (s : State) (n : BitVec 2) : (s.setCc n).tod = s.tod := rfl
@[simp] theorem State.setCc_inputs (s : State) (n : BitVec 2) : (s.setCc n).inputs = s.inputs := rfl
@[simp] theorem State.setCc_services (s : State) (n : BitVec 2) : (s.setCc n).services = s.services := rfl
@[simp] theorem State.setCc_draws (s : State) (n : BitVec 2) : (s.setCc n).draws = s.draws := rfl
@[simp] theorem State.setCc_cpu_address (s : State) (n : BitVec 2) : (s.setCc n).cpu.address = s.cpu.address := rfl
@[simp] theorem State.setCc_cpu_gr (s : State) (n : BitVec 2) : (s.setCc n).cpu.gr = s.cpu.gr := rfl
@[simp] theorem State.setCc_cpu_ar (s : State) (n : BitVec 2) : (s.setCc n).cpu.ar = s.cpu.ar := rfl
@[simp] theorem State.setCc_cpu_cr (s : State) (n : BitVec 2) : (s.setCc n).cpu.cr = s.cpu.cr := rfl
@[simp] theorem State.setCc_cpu_fpr (s : State) (n : BitVec 2) : (s.setCc n).cpu.fpr = s.cpu.fpr := rfl
@[simp] theorem State.setCc_cpu_psw (s : State) (n : BitVec 2) : (s.setCc n).cpu.psw = { s.cpu.psw with cc := n } := rfl
@[simp] theorem State.setCc_cpu_prefixReg (s : State) (n : BitVec 2) : (s.setCc n).cpu.prefixReg = s.cpu.prefixReg := rfl
@[simp] theorem State.setCc_cpu_clockComparator (s : State) (n : BitVec 2) : (s.setCc n).cpu.clockComparator = s.cpu.clockComparator := rfl
@[simp] theorem State.setCc_cpu_cpuTimer (s : State) (n : BitVec 2) : (s.setCc n).cpu.cpuTimer = s.cpu.cpuTimer := rfl
@[simp] theorem State.setCc_cpu_todProg (s : State) (n : BitVec 2) : (s.setCc n).cpu.todProg = s.cpu.todProg := rfl
@[simp] theorem State.setCc_cpu_status (s : State) (n : BitVec 2) : (s.setCc n).cpu.status = s.cpu.status := rfl
@[simp] theorem State.setCc_cpu_stopRequest (s : State) (n : BitVec 2) : (s.setCc n).cpu.stopRequest = s.cpu.stopRequest := rfl
@[simp] theorem State.setCc_cpu_externalCall (s : State) (n : BitVec 2) : (s.setCc n).cpu.externalCall = s.cpu.externalCall := rfl
@[simp] theorem State.setCc_cpu_emergencySignals (s : State) (n : BitVec 2) : (s.setCc n).cpu.emergencySignals = s.cpu.emergencySignals := rfl
@[simp] theorem State.setCc_cpu_malfunctionAlerts (s : State) (n : BitVec 2) : (s.setCc n).cpu.malfunctionAlerts = s.cpu.malfunctionAlerts := rfl
@[simp] theorem State.setCc_cpu_interruptKey (s : State) (n : BitVec 2) : (s.setCc n).cpu.interruptKey = s.cpu.interruptKey := rfl
@[simp] theorem State.setCc_cpu_hostSignals (s : State) (n : BitVec 2) : (s.setCc n).cpu.hostSignals = s.cpu.hostSignals := rfl
@[simp] theorem State.setCc_cpu_restartPending (s : State) (n : BitVec 2) : (s.setCc n).cpu.restartPending = s.cpu.restartPending := rfl
@[simp] theorem State.setCc_cpu_machineChecks (s : State) (n : BitVec 2) : (s.setCc n).cpu.machineChecks = s.cpu.machineChecks := rfl
@[simp] theorem State.setCc_cpu_busy (s : State) (n : BitVec 2) : (s.setCc n).cpu.busy = s.cpu.busy := rfl
@[simp] theorem State.setCc_cpu_operatorStatus (s : State) (n : BitVec 2) : (s.setCc n).cpu.operatorStatus = s.cpu.operatorStatus := rfl
@[simp] theorem State.setCc_cpu_exTarget (s : State) (n : BitVec 2) : (s.setCc n).cpu.exTarget = s.cpu.exTarget := rfl
@[simp] theorem State.setCc_cpu_staleBytes (s : State) (n : BitVec 2) : (s.setCc n).cpu.staleBytes = s.cpu.staleBytes := rfl
@[simp] theorem State.setCc_gr (s : State) (n : BitVec 2) (i : Reg) : (s.setCc n).gr i = s.gr i := rfl
@[simp] theorem State.setCc_ar (s : State) (n : BitVec 2) (i : Reg) : (s.setCc n).ar i = s.ar i := rfl
@[simp] theorem State.setCc_cr (s : State) (n : BitVec 2) (i : Reg) : (s.setCc n).cr i = s.cr i := rfl
@[simp] theorem State.setCc_space (s : State) (n : BitVec 2) (id : SpaceId) : (s.setCc n).space id = s.space id := by cases id <;> rfl

-- setIa

@[simp] theorem State.setIa_cfg (s : State) (t : Addr) : (s.setIa t).cfg = s.cfg := rfl
@[simp] theorem State.setIa_others (s : State) (t : Addr) : (s.setIa t).others = s.others := rfl
@[simp] theorem State.setIa_hp (s : State) (t : Addr) : (s.setIa t).hp = s.hp := rfl
@[simp] theorem State.setIa_spaces (s : State) (t : Addr) : (s.setIa t).spaces = s.spaces := rfl
@[simp] theorem State.setIa_hal (s : State) (t : Addr) : (s.setIa t).hal = s.hal := rfl
@[simp] theorem State.setIa_issued (s : State) (t : Addr) : (s.setIa t).issued = s.issued := rfl
@[simp] theorem State.setIa_pendingIo (s : State) (t : Addr) : (s.setIa t).pendingIo = s.pendingIo := rfl
@[simp] theorem State.setIa_serviceSignal (s : State) (t : Addr) : (s.setIa t).serviceSignal = s.serviceSignal := rfl
@[simp] theorem State.setIa_channelReports (s : State) (t : Addr) : (s.setIa t).channelReports = s.channelReports := rfl
@[simp] theorem State.setIa_tod (s : State) (t : Addr) : (s.setIa t).tod = s.tod := rfl
@[simp] theorem State.setIa_inputs (s : State) (t : Addr) : (s.setIa t).inputs = s.inputs := rfl
@[simp] theorem State.setIa_services (s : State) (t : Addr) : (s.setIa t).services = s.services := rfl
@[simp] theorem State.setIa_draws (s : State) (t : Addr) : (s.setIa t).draws = s.draws := rfl
@[simp] theorem State.setIa_cpu_address (s : State) (t : Addr) : (s.setIa t).cpu.address = s.cpu.address := rfl
@[simp] theorem State.setIa_cpu_gr (s : State) (t : Addr) : (s.setIa t).cpu.gr = s.cpu.gr := rfl
@[simp] theorem State.setIa_cpu_ar (s : State) (t : Addr) : (s.setIa t).cpu.ar = s.cpu.ar := rfl
@[simp] theorem State.setIa_cpu_cr (s : State) (t : Addr) : (s.setIa t).cpu.cr = s.cpu.cr := rfl
@[simp] theorem State.setIa_cpu_fpr (s : State) (t : Addr) : (s.setIa t).cpu.fpr = s.cpu.fpr := rfl
@[simp] theorem State.setIa_cpu_psw (s : State) (t : Addr) : (s.setIa t).cpu.psw = { s.cpu.psw with ia := t } := rfl
@[simp] theorem State.setIa_cpu_prefixReg (s : State) (t : Addr) : (s.setIa t).cpu.prefixReg = s.cpu.prefixReg := rfl
@[simp] theorem State.setIa_cpu_clockComparator (s : State) (t : Addr) : (s.setIa t).cpu.clockComparator = s.cpu.clockComparator := rfl
@[simp] theorem State.setIa_cpu_cpuTimer (s : State) (t : Addr) : (s.setIa t).cpu.cpuTimer = s.cpu.cpuTimer := rfl
@[simp] theorem State.setIa_cpu_todProg (s : State) (t : Addr) : (s.setIa t).cpu.todProg = s.cpu.todProg := rfl
@[simp] theorem State.setIa_cpu_status (s : State) (t : Addr) : (s.setIa t).cpu.status = s.cpu.status := rfl
@[simp] theorem State.setIa_cpu_stopRequest (s : State) (t : Addr) : (s.setIa t).cpu.stopRequest = s.cpu.stopRequest := rfl
@[simp] theorem State.setIa_cpu_externalCall (s : State) (t : Addr) : (s.setIa t).cpu.externalCall = s.cpu.externalCall := rfl
@[simp] theorem State.setIa_cpu_emergencySignals (s : State) (t : Addr) : (s.setIa t).cpu.emergencySignals = s.cpu.emergencySignals := rfl
@[simp] theorem State.setIa_cpu_malfunctionAlerts (s : State) (t : Addr) : (s.setIa t).cpu.malfunctionAlerts = s.cpu.malfunctionAlerts := rfl
@[simp] theorem State.setIa_cpu_interruptKey (s : State) (t : Addr) : (s.setIa t).cpu.interruptKey = s.cpu.interruptKey := rfl
@[simp] theorem State.setIa_cpu_hostSignals (s : State) (t : Addr) : (s.setIa t).cpu.hostSignals = s.cpu.hostSignals := rfl
@[simp] theorem State.setIa_cpu_restartPending (s : State) (t : Addr) : (s.setIa t).cpu.restartPending = s.cpu.restartPending := rfl
@[simp] theorem State.setIa_cpu_machineChecks (s : State) (t : Addr) : (s.setIa t).cpu.machineChecks = s.cpu.machineChecks := rfl
@[simp] theorem State.setIa_cpu_busy (s : State) (t : Addr) : (s.setIa t).cpu.busy = s.cpu.busy := rfl
@[simp] theorem State.setIa_cpu_operatorStatus (s : State) (t : Addr) : (s.setIa t).cpu.operatorStatus = s.cpu.operatorStatus := rfl
@[simp] theorem State.setIa_cpu_exTarget (s : State) (t : Addr) : (s.setIa t).cpu.exTarget = s.cpu.exTarget := rfl
@[simp] theorem State.setIa_cpu_staleBytes (s : State) (t : Addr) : (s.setIa t).cpu.staleBytes = s.cpu.staleBytes := rfl
@[simp] theorem State.setIa_gr (s : State) (t : Addr) (i : Reg) : (s.setIa t).gr i = s.gr i := rfl
@[simp] theorem State.setIa_ar (s : State) (t : Addr) (i : Reg) : (s.setIa t).ar i = s.ar i := rfl
@[simp] theorem State.setIa_cr (s : State) (t : Addr) (i : Reg) : (s.setIa t).cr i = s.cr i := rfl
@[simp] theorem State.setIa_space (s : State) (t : Addr) (id : SpaceId) : (s.setIa t).space id = s.space id := by cases id <;> rfl

-- advance

@[simp] theorem State.advance_cfg (s : State) (n : Nat) : (s.advance n).cfg = s.cfg := rfl
@[simp] theorem State.advance_others (s : State) (n : Nat) : (s.advance n).others = s.others := rfl
@[simp] theorem State.advance_hp (s : State) (n : Nat) : (s.advance n).hp = s.hp := rfl
@[simp] theorem State.advance_spaces (s : State) (n : Nat) : (s.advance n).spaces = s.spaces := rfl
@[simp] theorem State.advance_hal (s : State) (n : Nat) : (s.advance n).hal = s.hal := rfl
@[simp] theorem State.advance_issued (s : State) (n : Nat) : (s.advance n).issued = s.issued := rfl
@[simp] theorem State.advance_pendingIo (s : State) (n : Nat) : (s.advance n).pendingIo = s.pendingIo := rfl
@[simp] theorem State.advance_serviceSignal (s : State) (n : Nat) : (s.advance n).serviceSignal = s.serviceSignal := rfl
@[simp] theorem State.advance_channelReports (s : State) (n : Nat) : (s.advance n).channelReports = s.channelReports := rfl
@[simp] theorem State.advance_tod (s : State) (n : Nat) : (s.advance n).tod = s.tod := rfl
@[simp] theorem State.advance_inputs (s : State) (n : Nat) : (s.advance n).inputs = s.inputs := rfl
@[simp] theorem State.advance_services (s : State) (n : Nat) : (s.advance n).services = s.services := rfl
@[simp] theorem State.advance_draws (s : State) (n : Nat) : (s.advance n).draws = s.draws := rfl
@[simp] theorem State.advance_cpu_address (s : State) (n : Nat) : (s.advance n).cpu.address = s.cpu.address := rfl
@[simp] theorem State.advance_cpu_gr (s : State) (n : Nat) : (s.advance n).cpu.gr = s.cpu.gr := rfl
@[simp] theorem State.advance_cpu_ar (s : State) (n : Nat) : (s.advance n).cpu.ar = s.cpu.ar := rfl
@[simp] theorem State.advance_cpu_cr (s : State) (n : Nat) : (s.advance n).cpu.cr = s.cpu.cr := rfl
@[simp] theorem State.advance_cpu_fpr (s : State) (n : Nat) : (s.advance n).cpu.fpr = s.cpu.fpr := rfl
@[simp] theorem State.advance_cpu_psw (s : State) (n : Nat) : (s.advance n).cpu.psw = { s.cpu.psw with ia := s.nextIa n } := rfl
@[simp] theorem State.advance_cpu_prefixReg (s : State) (n : Nat) : (s.advance n).cpu.prefixReg = s.cpu.prefixReg := rfl
@[simp] theorem State.advance_cpu_clockComparator (s : State) (n : Nat) : (s.advance n).cpu.clockComparator = s.cpu.clockComparator := rfl
@[simp] theorem State.advance_cpu_cpuTimer (s : State) (n : Nat) : (s.advance n).cpu.cpuTimer = s.cpu.cpuTimer := rfl
@[simp] theorem State.advance_cpu_todProg (s : State) (n : Nat) : (s.advance n).cpu.todProg = s.cpu.todProg := rfl
@[simp] theorem State.advance_cpu_status (s : State) (n : Nat) : (s.advance n).cpu.status = s.cpu.status := rfl
@[simp] theorem State.advance_cpu_stopRequest (s : State) (n : Nat) : (s.advance n).cpu.stopRequest = s.cpu.stopRequest := rfl
@[simp] theorem State.advance_cpu_externalCall (s : State) (n : Nat) : (s.advance n).cpu.externalCall = s.cpu.externalCall := rfl
@[simp] theorem State.advance_cpu_emergencySignals (s : State) (n : Nat) : (s.advance n).cpu.emergencySignals = s.cpu.emergencySignals := rfl
@[simp] theorem State.advance_cpu_malfunctionAlerts (s : State) (n : Nat) : (s.advance n).cpu.malfunctionAlerts = s.cpu.malfunctionAlerts := rfl
@[simp] theorem State.advance_cpu_interruptKey (s : State) (n : Nat) : (s.advance n).cpu.interruptKey = s.cpu.interruptKey := rfl
@[simp] theorem State.advance_cpu_hostSignals (s : State) (n : Nat) : (s.advance n).cpu.hostSignals = s.cpu.hostSignals := rfl
@[simp] theorem State.advance_cpu_restartPending (s : State) (n : Nat) : (s.advance n).cpu.restartPending = s.cpu.restartPending := rfl
@[simp] theorem State.advance_cpu_machineChecks (s : State) (n : Nat) : (s.advance n).cpu.machineChecks = s.cpu.machineChecks := rfl
@[simp] theorem State.advance_cpu_busy (s : State) (n : Nat) : (s.advance n).cpu.busy = s.cpu.busy := rfl
@[simp] theorem State.advance_cpu_operatorStatus (s : State) (n : Nat) : (s.advance n).cpu.operatorStatus = s.cpu.operatorStatus := rfl
@[simp] theorem State.advance_cpu_exTarget (s : State) (n : Nat) : (s.advance n).cpu.exTarget = s.cpu.exTarget := rfl
@[simp] theorem State.advance_cpu_staleBytes (s : State) (n : Nat) : (s.advance n).cpu.staleBytes = s.cpu.staleBytes := rfl
@[simp] theorem State.advance_gr (s : State) (n : Nat) (i : Reg) : (s.advance n).gr i = s.gr i := rfl
@[simp] theorem State.advance_ar (s : State) (n : Nat) (i : Reg) : (s.advance n).ar i = s.ar i := rfl
@[simp] theorem State.advance_cr (s : State) (n : Nat) (i : Reg) : (s.advance n).cr i = s.cr i := rfl
@[simp] theorem State.advance_space (s : State) (n : Nat) (id : SpaceId) : (s.advance n).space id = s.space id := by cases id <;> rfl

-- setComparator

@[simp] theorem State.setComparator_cfg (s : State) (v : DWord) : (s.setComparator v).cfg = s.cfg := rfl
@[simp] theorem State.setComparator_others (s : State) (v : DWord) : (s.setComparator v).others = s.others := rfl
@[simp] theorem State.setComparator_hp (s : State) (v : DWord) : (s.setComparator v).hp = s.hp := rfl
@[simp] theorem State.setComparator_spaces (s : State) (v : DWord) : (s.setComparator v).spaces = s.spaces := rfl
@[simp] theorem State.setComparator_hal (s : State) (v : DWord) : (s.setComparator v).hal = s.hal := rfl
@[simp] theorem State.setComparator_issued (s : State) (v : DWord) : (s.setComparator v).issued = s.issued := rfl
@[simp] theorem State.setComparator_pendingIo (s : State) (v : DWord) : (s.setComparator v).pendingIo = s.pendingIo := rfl
@[simp] theorem State.setComparator_serviceSignal (s : State) (v : DWord) : (s.setComparator v).serviceSignal = s.serviceSignal := rfl
@[simp] theorem State.setComparator_channelReports (s : State) (v : DWord) : (s.setComparator v).channelReports = s.channelReports := rfl
@[simp] theorem State.setComparator_tod (s : State) (v : DWord) : (s.setComparator v).tod = s.tod := rfl
@[simp] theorem State.setComparator_inputs (s : State) (v : DWord) : (s.setComparator v).inputs = s.inputs := rfl
@[simp] theorem State.setComparator_services (s : State) (v : DWord) : (s.setComparator v).services = s.services := rfl
@[simp] theorem State.setComparator_draws (s : State) (v : DWord) : (s.setComparator v).draws = s.draws := rfl
@[simp] theorem State.setComparator_cpu_address (s : State) (v : DWord) : (s.setComparator v).cpu.address = s.cpu.address := rfl
@[simp] theorem State.setComparator_cpu_gr (s : State) (v : DWord) : (s.setComparator v).cpu.gr = s.cpu.gr := rfl
@[simp] theorem State.setComparator_cpu_ar (s : State) (v : DWord) : (s.setComparator v).cpu.ar = s.cpu.ar := rfl
@[simp] theorem State.setComparator_cpu_cr (s : State) (v : DWord) : (s.setComparator v).cpu.cr = s.cpu.cr := rfl
@[simp] theorem State.setComparator_cpu_fpr (s : State) (v : DWord) : (s.setComparator v).cpu.fpr = s.cpu.fpr := rfl
@[simp] theorem State.setComparator_cpu_psw (s : State) (v : DWord) : (s.setComparator v).cpu.psw = s.cpu.psw := rfl
@[simp] theorem State.setComparator_cpu_prefixReg (s : State) (v : DWord) : (s.setComparator v).cpu.prefixReg = s.cpu.prefixReg := rfl
@[simp] theorem State.setComparator_cpu_clockComparator (s : State) (v : DWord) : (s.setComparator v).cpu.clockComparator = v := rfl
@[simp] theorem State.setComparator_cpu_cpuTimer (s : State) (v : DWord) : (s.setComparator v).cpu.cpuTimer = s.cpu.cpuTimer := rfl
@[simp] theorem State.setComparator_cpu_todProg (s : State) (v : DWord) : (s.setComparator v).cpu.todProg = s.cpu.todProg := rfl
@[simp] theorem State.setComparator_cpu_status (s : State) (v : DWord) : (s.setComparator v).cpu.status = s.cpu.status := rfl
@[simp] theorem State.setComparator_cpu_stopRequest (s : State) (v : DWord) : (s.setComparator v).cpu.stopRequest = s.cpu.stopRequest := rfl
@[simp] theorem State.setComparator_cpu_externalCall (s : State) (v : DWord) : (s.setComparator v).cpu.externalCall = s.cpu.externalCall := rfl
@[simp] theorem State.setComparator_cpu_emergencySignals (s : State) (v : DWord) : (s.setComparator v).cpu.emergencySignals = s.cpu.emergencySignals := rfl
@[simp] theorem State.setComparator_cpu_malfunctionAlerts (s : State) (v : DWord) : (s.setComparator v).cpu.malfunctionAlerts = s.cpu.malfunctionAlerts := rfl
@[simp] theorem State.setComparator_cpu_interruptKey (s : State) (v : DWord) : (s.setComparator v).cpu.interruptKey = s.cpu.interruptKey := rfl
@[simp] theorem State.setComparator_cpu_hostSignals (s : State) (v : DWord) : (s.setComparator v).cpu.hostSignals = s.cpu.hostSignals := rfl
@[simp] theorem State.setComparator_cpu_restartPending (s : State) (v : DWord) : (s.setComparator v).cpu.restartPending = s.cpu.restartPending := rfl
@[simp] theorem State.setComparator_cpu_machineChecks (s : State) (v : DWord) : (s.setComparator v).cpu.machineChecks = s.cpu.machineChecks := rfl
@[simp] theorem State.setComparator_cpu_busy (s : State) (v : DWord) : (s.setComparator v).cpu.busy = s.cpu.busy := rfl
@[simp] theorem State.setComparator_cpu_operatorStatus (s : State) (v : DWord) : (s.setComparator v).cpu.operatorStatus = s.cpu.operatorStatus := rfl
@[simp] theorem State.setComparator_cpu_exTarget (s : State) (v : DWord) : (s.setComparator v).cpu.exTarget = s.cpu.exTarget := rfl
@[simp] theorem State.setComparator_cpu_staleBytes (s : State) (v : DWord) : (s.setComparator v).cpu.staleBytes = s.cpu.staleBytes := rfl
@[simp] theorem State.setComparator_gr (s : State) (v : DWord) (i : Reg) : (s.setComparator v).gr i = s.gr i := rfl
@[simp] theorem State.setComparator_ar (s : State) (v : DWord) (i : Reg) : (s.setComparator v).ar i = s.ar i := rfl
@[simp] theorem State.setComparator_cr (s : State) (v : DWord) (i : Reg) : (s.setComparator v).cr i = s.cr i := rfl
@[simp] theorem State.setComparator_space (s : State) (v : DWord) (id : SpaceId) : (s.setComparator v).space id = s.space id := by cases id <;> rfl

-- setTimer

@[simp] theorem State.setTimer_cfg (s : State) (v : DWord) : (s.setTimer v).cfg = s.cfg := rfl
@[simp] theorem State.setTimer_others (s : State) (v : DWord) : (s.setTimer v).others = s.others := rfl
@[simp] theorem State.setTimer_hp (s : State) (v : DWord) : (s.setTimer v).hp = s.hp := rfl
@[simp] theorem State.setTimer_spaces (s : State) (v : DWord) : (s.setTimer v).spaces = s.spaces := rfl
@[simp] theorem State.setTimer_hal (s : State) (v : DWord) : (s.setTimer v).hal = s.hal := rfl
@[simp] theorem State.setTimer_issued (s : State) (v : DWord) : (s.setTimer v).issued = s.issued := rfl
@[simp] theorem State.setTimer_pendingIo (s : State) (v : DWord) : (s.setTimer v).pendingIo = s.pendingIo := rfl
@[simp] theorem State.setTimer_serviceSignal (s : State) (v : DWord) : (s.setTimer v).serviceSignal = s.serviceSignal := rfl
@[simp] theorem State.setTimer_channelReports (s : State) (v : DWord) : (s.setTimer v).channelReports = s.channelReports := rfl
@[simp] theorem State.setTimer_tod (s : State) (v : DWord) : (s.setTimer v).tod = s.tod := rfl
@[simp] theorem State.setTimer_inputs (s : State) (v : DWord) : (s.setTimer v).inputs = s.inputs := rfl
@[simp] theorem State.setTimer_services (s : State) (v : DWord) : (s.setTimer v).services = s.services := rfl
@[simp] theorem State.setTimer_draws (s : State) (v : DWord) : (s.setTimer v).draws = s.draws := rfl
@[simp] theorem State.setTimer_cpu_address (s : State) (v : DWord) : (s.setTimer v).cpu.address = s.cpu.address := rfl
@[simp] theorem State.setTimer_cpu_gr (s : State) (v : DWord) : (s.setTimer v).cpu.gr = s.cpu.gr := rfl
@[simp] theorem State.setTimer_cpu_ar (s : State) (v : DWord) : (s.setTimer v).cpu.ar = s.cpu.ar := rfl
@[simp] theorem State.setTimer_cpu_cr (s : State) (v : DWord) : (s.setTimer v).cpu.cr = s.cpu.cr := rfl
@[simp] theorem State.setTimer_cpu_fpr (s : State) (v : DWord) : (s.setTimer v).cpu.fpr = s.cpu.fpr := rfl
@[simp] theorem State.setTimer_cpu_psw (s : State) (v : DWord) : (s.setTimer v).cpu.psw = s.cpu.psw := rfl
@[simp] theorem State.setTimer_cpu_prefixReg (s : State) (v : DWord) : (s.setTimer v).cpu.prefixReg = s.cpu.prefixReg := rfl
@[simp] theorem State.setTimer_cpu_clockComparator (s : State) (v : DWord) : (s.setTimer v).cpu.clockComparator = s.cpu.clockComparator := rfl
@[simp] theorem State.setTimer_cpu_cpuTimer (s : State) (v : DWord) : (s.setTimer v).cpu.cpuTimer = v := rfl
@[simp] theorem State.setTimer_cpu_todProg (s : State) (v : DWord) : (s.setTimer v).cpu.todProg = s.cpu.todProg := rfl
@[simp] theorem State.setTimer_cpu_status (s : State) (v : DWord) : (s.setTimer v).cpu.status = s.cpu.status := rfl
@[simp] theorem State.setTimer_cpu_stopRequest (s : State) (v : DWord) : (s.setTimer v).cpu.stopRequest = s.cpu.stopRequest := rfl
@[simp] theorem State.setTimer_cpu_externalCall (s : State) (v : DWord) : (s.setTimer v).cpu.externalCall = s.cpu.externalCall := rfl
@[simp] theorem State.setTimer_cpu_emergencySignals (s : State) (v : DWord) : (s.setTimer v).cpu.emergencySignals = s.cpu.emergencySignals := rfl
@[simp] theorem State.setTimer_cpu_malfunctionAlerts (s : State) (v : DWord) : (s.setTimer v).cpu.malfunctionAlerts = s.cpu.malfunctionAlerts := rfl
@[simp] theorem State.setTimer_cpu_interruptKey (s : State) (v : DWord) : (s.setTimer v).cpu.interruptKey = s.cpu.interruptKey := rfl
@[simp] theorem State.setTimer_cpu_hostSignals (s : State) (v : DWord) : (s.setTimer v).cpu.hostSignals = s.cpu.hostSignals := rfl
@[simp] theorem State.setTimer_cpu_restartPending (s : State) (v : DWord) : (s.setTimer v).cpu.restartPending = s.cpu.restartPending := rfl
@[simp] theorem State.setTimer_cpu_machineChecks (s : State) (v : DWord) : (s.setTimer v).cpu.machineChecks = s.cpu.machineChecks := rfl
@[simp] theorem State.setTimer_cpu_busy (s : State) (v : DWord) : (s.setTimer v).cpu.busy = s.cpu.busy := rfl
@[simp] theorem State.setTimer_cpu_operatorStatus (s : State) (v : DWord) : (s.setTimer v).cpu.operatorStatus = s.cpu.operatorStatus := rfl
@[simp] theorem State.setTimer_cpu_exTarget (s : State) (v : DWord) : (s.setTimer v).cpu.exTarget = s.cpu.exTarget := rfl
@[simp] theorem State.setTimer_cpu_staleBytes (s : State) (v : DWord) : (s.setTimer v).cpu.staleBytes = s.cpu.staleBytes := rfl
@[simp] theorem State.setTimer_gr (s : State) (v : DWord) (i : Reg) : (s.setTimer v).gr i = s.gr i := rfl
@[simp] theorem State.setTimer_ar (s : State) (v : DWord) (i : Reg) : (s.setTimer v).ar i = s.ar i := rfl
@[simp] theorem State.setTimer_cr (s : State) (v : DWord) (i : Reg) : (s.setTimer v).cr i = s.cr i := rfl
@[simp] theorem State.setTimer_space (s : State) (v : DWord) (id : SpaceId) : (s.setTimer v).space id = s.space id := by cases id <;> rfl

-- setFpr

@[simp] theorem State.setFpr_cfg (s : State) (r : Reg) (v : DWord) : (s.setFpr r v).cfg = s.cfg := rfl
@[simp] theorem State.setFpr_others (s : State) (r : Reg) (v : DWord) : (s.setFpr r v).others = s.others := rfl
@[simp] theorem State.setFpr_hp (s : State) (r : Reg) (v : DWord) : (s.setFpr r v).hp = s.hp := rfl
@[simp] theorem State.setFpr_spaces (s : State) (r : Reg) (v : DWord) : (s.setFpr r v).spaces = s.spaces := rfl
@[simp] theorem State.setFpr_hal (s : State) (r : Reg) (v : DWord) : (s.setFpr r v).hal = s.hal := rfl
@[simp] theorem State.setFpr_issued (s : State) (r : Reg) (v : DWord) : (s.setFpr r v).issued = s.issued := rfl
@[simp] theorem State.setFpr_pendingIo (s : State) (r : Reg) (v : DWord) : (s.setFpr r v).pendingIo = s.pendingIo := rfl
@[simp] theorem State.setFpr_serviceSignal (s : State) (r : Reg) (v : DWord) : (s.setFpr r v).serviceSignal = s.serviceSignal := rfl
@[simp] theorem State.setFpr_channelReports (s : State) (r : Reg) (v : DWord) : (s.setFpr r v).channelReports = s.channelReports := rfl
@[simp] theorem State.setFpr_tod (s : State) (r : Reg) (v : DWord) : (s.setFpr r v).tod = s.tod := rfl
@[simp] theorem State.setFpr_inputs (s : State) (r : Reg) (v : DWord) : (s.setFpr r v).inputs = s.inputs := rfl
@[simp] theorem State.setFpr_services (s : State) (r : Reg) (v : DWord) : (s.setFpr r v).services = s.services := rfl
@[simp] theorem State.setFpr_draws (s : State) (r : Reg) (v : DWord) : (s.setFpr r v).draws = s.draws := rfl
@[simp] theorem State.setFpr_cpu_address (s : State) (r : Reg) (v : DWord) : (s.setFpr r v).cpu.address = s.cpu.address := rfl
@[simp] theorem State.setFpr_cpu_gr (s : State) (r : Reg) (v : DWord) : (s.setFpr r v).cpu.gr = s.cpu.gr := rfl
@[simp] theorem State.setFpr_cpu_ar (s : State) (r : Reg) (v : DWord) : (s.setFpr r v).cpu.ar = s.cpu.ar := rfl
@[simp] theorem State.setFpr_cpu_cr (s : State) (r : Reg) (v : DWord) : (s.setFpr r v).cpu.cr = s.cpu.cr := rfl
@[simp] theorem State.setFpr_cpu_fpr (s : State) (r : Reg) (v : DWord) : (s.setFpr r v).cpu.fpr =
    if s.fprNumbers.contains r.toNat then s.cpu.fpr.set r.toNat v r.isLt else s.cpu.fpr := rfl
@[simp] theorem State.setFpr_cpu_psw (s : State) (r : Reg) (v : DWord) : (s.setFpr r v).cpu.psw = s.cpu.psw := rfl
@[simp] theorem State.setFpr_cpu_prefixReg (s : State) (r : Reg) (v : DWord) : (s.setFpr r v).cpu.prefixReg = s.cpu.prefixReg := rfl
@[simp] theorem State.setFpr_cpu_clockComparator (s : State) (r : Reg) (v : DWord) : (s.setFpr r v).cpu.clockComparator = s.cpu.clockComparator := rfl
@[simp] theorem State.setFpr_cpu_cpuTimer (s : State) (r : Reg) (v : DWord) : (s.setFpr r v).cpu.cpuTimer = s.cpu.cpuTimer := rfl
@[simp] theorem State.setFpr_cpu_todProg (s : State) (r : Reg) (v : DWord) : (s.setFpr r v).cpu.todProg = s.cpu.todProg := rfl
@[simp] theorem State.setFpr_cpu_status (s : State) (r : Reg) (v : DWord) : (s.setFpr r v).cpu.status = s.cpu.status := rfl
@[simp] theorem State.setFpr_cpu_stopRequest (s : State) (r : Reg) (v : DWord) : (s.setFpr r v).cpu.stopRequest = s.cpu.stopRequest := rfl
@[simp] theorem State.setFpr_cpu_externalCall (s : State) (r : Reg) (v : DWord) : (s.setFpr r v).cpu.externalCall = s.cpu.externalCall := rfl
@[simp] theorem State.setFpr_cpu_emergencySignals (s : State) (r : Reg) (v : DWord) : (s.setFpr r v).cpu.emergencySignals = s.cpu.emergencySignals := rfl
@[simp] theorem State.setFpr_cpu_malfunctionAlerts (s : State) (r : Reg) (v : DWord) : (s.setFpr r v).cpu.malfunctionAlerts = s.cpu.malfunctionAlerts := rfl
@[simp] theorem State.setFpr_cpu_interruptKey (s : State) (r : Reg) (v : DWord) : (s.setFpr r v).cpu.interruptKey = s.cpu.interruptKey := rfl
@[simp] theorem State.setFpr_cpu_hostSignals (s : State) (r : Reg) (v : DWord) : (s.setFpr r v).cpu.hostSignals = s.cpu.hostSignals := rfl
@[simp] theorem State.setFpr_cpu_restartPending (s : State) (r : Reg) (v : DWord) : (s.setFpr r v).cpu.restartPending = s.cpu.restartPending := rfl
@[simp] theorem State.setFpr_cpu_machineChecks (s : State) (r : Reg) (v : DWord) : (s.setFpr r v).cpu.machineChecks = s.cpu.machineChecks := rfl
@[simp] theorem State.setFpr_cpu_busy (s : State) (r : Reg) (v : DWord) : (s.setFpr r v).cpu.busy = s.cpu.busy := rfl
@[simp] theorem State.setFpr_cpu_operatorStatus (s : State) (r : Reg) (v : DWord) : (s.setFpr r v).cpu.operatorStatus = s.cpu.operatorStatus := rfl
@[simp] theorem State.setFpr_cpu_exTarget (s : State) (r : Reg) (v : DWord) : (s.setFpr r v).cpu.exTarget = s.cpu.exTarget := rfl
@[simp] theorem State.setFpr_cpu_staleBytes (s : State) (r : Reg) (v : DWord) : (s.setFpr r v).cpu.staleBytes = s.cpu.staleBytes := rfl
@[simp] theorem State.setFpr_gr (s : State) (r : Reg) (v : DWord) (i : Reg) : (s.setFpr r v).gr i = s.gr i := rfl
@[simp] theorem State.setFpr_ar (s : State) (r : Reg) (v : DWord) (i : Reg) : (s.setFpr r v).ar i = s.ar i := rfl
@[simp] theorem State.setFpr_cr (s : State) (r : Reg) (v : DWord) (i : Reg) : (s.setFpr r v).cr i = s.cr i := rfl
@[simp] theorem State.setFpr_space (s : State) (r : Reg) (v : DWord) (id : SpaceId) : (s.setFpr r v).space id = s.space id := by cases id <;> rfl

-- setPrefix

@[simp] theorem State.setPrefix_cfg (s : State) (b : Block) : (s.setPrefix b).cfg = s.cfg := rfl
@[simp] theorem State.setPrefix_others (s : State) (b : Block) : (s.setPrefix b).others = s.others := rfl
@[simp] theorem State.setPrefix_hp (s : State) (b : Block) : (s.setPrefix b).hp = s.hp := rfl
@[simp] theorem State.setPrefix_spaces (s : State) (b : Block) : (s.setPrefix b).spaces = s.spaces := rfl
@[simp] theorem State.setPrefix_hal (s : State) (b : Block) : (s.setPrefix b).hal = s.hal := rfl
@[simp] theorem State.setPrefix_issued (s : State) (b : Block) : (s.setPrefix b).issued = s.issued := rfl
@[simp] theorem State.setPrefix_pendingIo (s : State) (b : Block) : (s.setPrefix b).pendingIo = s.pendingIo := rfl
@[simp] theorem State.setPrefix_serviceSignal (s : State) (b : Block) : (s.setPrefix b).serviceSignal = s.serviceSignal := rfl
@[simp] theorem State.setPrefix_channelReports (s : State) (b : Block) : (s.setPrefix b).channelReports = s.channelReports := rfl
@[simp] theorem State.setPrefix_tod (s : State) (b : Block) : (s.setPrefix b).tod = s.tod := rfl
@[simp] theorem State.setPrefix_inputs (s : State) (b : Block) : (s.setPrefix b).inputs = s.inputs := rfl
@[simp] theorem State.setPrefix_services (s : State) (b : Block) : (s.setPrefix b).services = s.services := rfl
@[simp] theorem State.setPrefix_draws (s : State) (b : Block) : (s.setPrefix b).draws = s.draws := rfl
@[simp] theorem State.setPrefix_cpu_address (s : State) (b : Block) : (s.setPrefix b).cpu.address = s.cpu.address := rfl
@[simp] theorem State.setPrefix_cpu_gr (s : State) (b : Block) : (s.setPrefix b).cpu.gr = s.cpu.gr := rfl
@[simp] theorem State.setPrefix_cpu_ar (s : State) (b : Block) : (s.setPrefix b).cpu.ar = s.cpu.ar := rfl
@[simp] theorem State.setPrefix_cpu_cr (s : State) (b : Block) : (s.setPrefix b).cpu.cr = s.cpu.cr := rfl
@[simp] theorem State.setPrefix_cpu_fpr (s : State) (b : Block) : (s.setPrefix b).cpu.fpr = s.cpu.fpr := rfl
@[simp] theorem State.setPrefix_cpu_psw (s : State) (b : Block) : (s.setPrefix b).cpu.psw = s.cpu.psw := rfl
@[simp] theorem State.setPrefix_cpu_prefixReg (s : State) (b : Block) : (s.setPrefix b).cpu.prefixReg = b := rfl
@[simp] theorem State.setPrefix_cpu_clockComparator (s : State) (b : Block) : (s.setPrefix b).cpu.clockComparator = s.cpu.clockComparator := rfl
@[simp] theorem State.setPrefix_cpu_cpuTimer (s : State) (b : Block) : (s.setPrefix b).cpu.cpuTimer = s.cpu.cpuTimer := rfl
@[simp] theorem State.setPrefix_cpu_todProg (s : State) (b : Block) : (s.setPrefix b).cpu.todProg = s.cpu.todProg := rfl
@[simp] theorem State.setPrefix_cpu_status (s : State) (b : Block) : (s.setPrefix b).cpu.status = s.cpu.status := rfl
@[simp] theorem State.setPrefix_cpu_stopRequest (s : State) (b : Block) : (s.setPrefix b).cpu.stopRequest = s.cpu.stopRequest := rfl
@[simp] theorem State.setPrefix_cpu_externalCall (s : State) (b : Block) : (s.setPrefix b).cpu.externalCall = s.cpu.externalCall := rfl
@[simp] theorem State.setPrefix_cpu_emergencySignals (s : State) (b : Block) : (s.setPrefix b).cpu.emergencySignals = s.cpu.emergencySignals := rfl
@[simp] theorem State.setPrefix_cpu_malfunctionAlerts (s : State) (b : Block) : (s.setPrefix b).cpu.malfunctionAlerts = s.cpu.malfunctionAlerts := rfl
@[simp] theorem State.setPrefix_cpu_interruptKey (s : State) (b : Block) : (s.setPrefix b).cpu.interruptKey = s.cpu.interruptKey := rfl
@[simp] theorem State.setPrefix_cpu_hostSignals (s : State) (b : Block) : (s.setPrefix b).cpu.hostSignals = s.cpu.hostSignals := rfl
@[simp] theorem State.setPrefix_cpu_restartPending (s : State) (b : Block) : (s.setPrefix b).cpu.restartPending = s.cpu.restartPending := rfl
@[simp] theorem State.setPrefix_cpu_machineChecks (s : State) (b : Block) : (s.setPrefix b).cpu.machineChecks = s.cpu.machineChecks := rfl
@[simp] theorem State.setPrefix_cpu_busy (s : State) (b : Block) : (s.setPrefix b).cpu.busy = s.cpu.busy := rfl
@[simp] theorem State.setPrefix_cpu_operatorStatus (s : State) (b : Block) : (s.setPrefix b).cpu.operatorStatus = s.cpu.operatorStatus := rfl
@[simp] theorem State.setPrefix_cpu_exTarget (s : State) (b : Block) : (s.setPrefix b).cpu.exTarget = s.cpu.exTarget := rfl
@[simp] theorem State.setPrefix_cpu_staleBytes (s : State) (b : Block) : (s.setPrefix b).cpu.staleBytes = s.cpu.staleBytes := rfl
@[simp] theorem State.setPrefix_gr (s : State) (b : Block) (i : Reg) : (s.setPrefix b).gr i = s.gr i := rfl
@[simp] theorem State.setPrefix_ar (s : State) (b : Block) (i : Reg) : (s.setPrefix b).ar i = s.ar i := rfl
@[simp] theorem State.setPrefix_cr (s : State) (b : Block) (i : Reg) : (s.setPrefix b).cr i = s.cr i := rfl
@[simp] theorem State.setPrefix_space (s : State) (b : Block) (id : SpaceId) : (s.setPrefix b).space id = s.space id := by cases id <;> rfl

-- serialize

@[simp] theorem State.serialize_cfg (s : State) : (s.serialize).cfg = s.cfg := rfl
@[simp] theorem State.serialize_others (s : State) : (s.serialize).others = s.others := rfl
@[simp] theorem State.serialize_hp (s : State) : (s.serialize).hp = s.hp := rfl
@[simp] theorem State.serialize_spaces (s : State) : (s.serialize).spaces = s.spaces := rfl
@[simp] theorem State.serialize_hal (s : State) : (s.serialize).hal = s.hal := rfl
@[simp] theorem State.serialize_issued (s : State) : (s.serialize).issued = s.issued := rfl
@[simp] theorem State.serialize_pendingIo (s : State) : (s.serialize).pendingIo = s.pendingIo := rfl
@[simp] theorem State.serialize_serviceSignal (s : State) : (s.serialize).serviceSignal = s.serviceSignal := rfl
@[simp] theorem State.serialize_channelReports (s : State) : (s.serialize).channelReports = s.channelReports := rfl
@[simp] theorem State.serialize_tod (s : State) : (s.serialize).tod = s.tod := rfl
@[simp] theorem State.serialize_inputs (s : State) : (s.serialize).inputs = s.inputs := rfl
@[simp] theorem State.serialize_services (s : State) : (s.serialize).services = s.services := rfl
@[simp] theorem State.serialize_draws (s : State) : (s.serialize).draws = s.draws := rfl
@[simp] theorem State.serialize_cpu_address (s : State) : (s.serialize).cpu.address = s.cpu.address := rfl
@[simp] theorem State.serialize_cpu_gr (s : State) : (s.serialize).cpu.gr = s.cpu.gr := rfl
@[simp] theorem State.serialize_cpu_ar (s : State) : (s.serialize).cpu.ar = s.cpu.ar := rfl
@[simp] theorem State.serialize_cpu_cr (s : State) : (s.serialize).cpu.cr = s.cpu.cr := rfl
@[simp] theorem State.serialize_cpu_fpr (s : State) : (s.serialize).cpu.fpr = s.cpu.fpr := rfl
@[simp] theorem State.serialize_cpu_psw (s : State) : (s.serialize).cpu.psw = s.cpu.psw := rfl
@[simp] theorem State.serialize_cpu_prefixReg (s : State) : (s.serialize).cpu.prefixReg = s.cpu.prefixReg := rfl
@[simp] theorem State.serialize_cpu_clockComparator (s : State) : (s.serialize).cpu.clockComparator = s.cpu.clockComparator := rfl
@[simp] theorem State.serialize_cpu_cpuTimer (s : State) : (s.serialize).cpu.cpuTimer = s.cpu.cpuTimer := rfl
@[simp] theorem State.serialize_cpu_todProg (s : State) : (s.serialize).cpu.todProg = s.cpu.todProg := rfl
@[simp] theorem State.serialize_cpu_status (s : State) : (s.serialize).cpu.status = s.cpu.status := rfl
@[simp] theorem State.serialize_cpu_stopRequest (s : State) : (s.serialize).cpu.stopRequest = s.cpu.stopRequest := rfl
@[simp] theorem State.serialize_cpu_externalCall (s : State) : (s.serialize).cpu.externalCall = s.cpu.externalCall := rfl
@[simp] theorem State.serialize_cpu_emergencySignals (s : State) : (s.serialize).cpu.emergencySignals = s.cpu.emergencySignals := rfl
@[simp] theorem State.serialize_cpu_malfunctionAlerts (s : State) : (s.serialize).cpu.malfunctionAlerts = s.cpu.malfunctionAlerts := rfl
@[simp] theorem State.serialize_cpu_interruptKey (s : State) : (s.serialize).cpu.interruptKey = s.cpu.interruptKey := rfl
@[simp] theorem State.serialize_cpu_hostSignals (s : State) : (s.serialize).cpu.hostSignals = s.cpu.hostSignals := rfl
@[simp] theorem State.serialize_cpu_restartPending (s : State) : (s.serialize).cpu.restartPending = s.cpu.restartPending := rfl
@[simp] theorem State.serialize_cpu_machineChecks (s : State) : (s.serialize).cpu.machineChecks = s.cpu.machineChecks := rfl
@[simp] theorem State.serialize_cpu_busy (s : State) : (s.serialize).cpu.busy = s.cpu.busy := rfl
@[simp] theorem State.serialize_cpu_operatorStatus (s : State) : (s.serialize).cpu.operatorStatus = s.cpu.operatorStatus := rfl
@[simp] theorem State.serialize_cpu_exTarget (s : State) : (s.serialize).cpu.exTarget = s.cpu.exTarget := rfl
@[simp] theorem State.serialize_cpu_staleBytes (s : State) : (s.serialize).cpu.staleBytes = [] := rfl
@[simp] theorem State.serialize_gr (s : State) (i : Reg) : (s.serialize).gr i = s.gr i := rfl
@[simp] theorem State.serialize_ar (s : State) (i : Reg) : (s.serialize).ar i = s.ar i := rfl
@[simp] theorem State.serialize_cr (s : State) (i : Reg) : (s.serialize).cr i = s.cr i := rfl
@[simp] theorem State.serialize_space (s : State) (id : SpaceId) : (s.serialize).space id = s.space id := by cases id <;> rfl

/-- Reading a register after writing one. -/
theorem State.gr_setGr (s : State) (r : Reg) (v : Word) (i : Reg) : (s.setGr r v).gr i = if i = r then v else s.gr i := by
  unfold State.gr State.setGr
  by_cases h : i = r
  · subst h
    rw [if_pos rfl, Vector.getElem_set_self]
  · have h' : r.toNat ≠ i.toNat := fun e => h (BitVec.eq_of_toNat_eq e.symm)
    rw [if_neg h, Vector.getElem_set_ne _ _ h']

@[simp] theorem State.gr_setGr_same (s : State) (r : Reg) (v : Word) : (s.setGr r v).gr r = v := by
  rw [State.gr_setGr, if_pos rfl]

theorem State.gr_setGr_other (s : State) (r : Reg) (v : Word) (i : Reg) (h : i ≠ r) : (s.setGr r v).gr i = s.gr i := by
  rw [State.gr_setGr, if_neg h]

/-- Reading a register after writing one. -/
theorem State.ar_setAr (s : State) (r : Reg) (v : Word) (i : Reg) : (s.setAr r v).ar i = if i = r then v else s.ar i := by
  unfold State.ar State.setAr
  by_cases h : i = r
  · subst h
    rw [if_pos rfl, Vector.getElem_set_self]
  · have h' : r.toNat ≠ i.toNat := fun e => h (BitVec.eq_of_toNat_eq e.symm)
    rw [if_neg h, Vector.getElem_set_ne _ _ h']

@[simp] theorem State.ar_setAr_same (s : State) (r : Reg) (v : Word) : (s.setAr r v).ar r = v := by
  rw [State.ar_setAr, if_pos rfl]

theorem State.ar_setAr_other (s : State) (r : Reg) (v : Word) (i : Reg) (h : i ≠ r) : (s.setAr r v).ar i = s.ar i := by
  rw [State.ar_setAr, if_neg h]

/-- Reading a register after writing one. -/
theorem State.cr_setCr (s : State) (r : Reg) (v : Word) (i : Reg) : (s.setCr r v).cr i = if i = r then v else s.cr i := by
  unfold State.cr State.setCr
  by_cases h : i = r
  · subst h
    rw [if_pos rfl, Vector.getElem_set_self]
  · have h' : r.toNat ≠ i.toNat := fun e => h (BitVec.eq_of_toNat_eq e.symm)
    rw [if_neg h, Vector.getElem_set_ne _ _ h']

@[simp] theorem State.cr_setCr_same (s : State) (r : Reg) (v : Word) : (s.setCr r v).cr r = v := by
  rw [State.cr_setCr, if_pos rfl]

theorem State.cr_setCr_other (s : State) (r : Reg) (v : Word) (i : Reg) (h : i ≠ r) : (s.setCr r v).cr i = s.cr i := by
  rw [State.cr_setCr, if_neg h]

-- updateSpace

@[simp] theorem State.updateSpace_cfg (s : State) (id : SpaceId) (f : Space → Space) : (s.updateSpace id f).cfg = s.cfg := by cases id <;> rfl
@[simp] theorem State.updateSpace_others (s : State) (id : SpaceId) (f : Space → Space) : (s.updateSpace id f).others = s.others := by cases id <;> rfl
@[simp] theorem State.updateSpace_hal (s : State) (id : SpaceId) (f : Space → Space) : (s.updateSpace id f).hal = s.hal := by cases id <;> rfl
@[simp] theorem State.updateSpace_issued (s : State) (id : SpaceId) (f : Space → Space) : (s.updateSpace id f).issued = s.issued := by cases id <;> rfl
@[simp] theorem State.updateSpace_pendingIo (s : State) (id : SpaceId) (f : Space → Space) : (s.updateSpace id f).pendingIo = s.pendingIo := by cases id <;> rfl
@[simp] theorem State.updateSpace_serviceSignal (s : State) (id : SpaceId) (f : Space → Space) : (s.updateSpace id f).serviceSignal = s.serviceSignal := by cases id <;> rfl
@[simp] theorem State.updateSpace_channelReports (s : State) (id : SpaceId) (f : Space → Space) : (s.updateSpace id f).channelReports = s.channelReports := by cases id <;> rfl
@[simp] theorem State.updateSpace_tod (s : State) (id : SpaceId) (f : Space → Space) : (s.updateSpace id f).tod = s.tod := by cases id <;> rfl
@[simp] theorem State.updateSpace_inputs (s : State) (id : SpaceId) (f : Space → Space) : (s.updateSpace id f).inputs = s.inputs := by cases id <;> rfl
@[simp] theorem State.updateSpace_services (s : State) (id : SpaceId) (f : Space → Space) : (s.updateSpace id f).services = s.services := by cases id <;> rfl
@[simp] theorem State.updateSpace_draws (s : State) (id : SpaceId) (f : Space → Space) : (s.updateSpace id f).draws = s.draws := by cases id <;> rfl
@[simp] theorem State.updateSpace_cpu (s : State) (id : SpaceId) (f : Space → Space) : (s.updateSpace id f).cpu = s.cpu := by cases id <;> rfl
@[simp] theorem State.updateSpace_gr (s : State) (id : SpaceId) (f : Space → Space) (i : Reg) : (s.updateSpace id f).gr i = s.gr i := by cases id <;> rfl
@[simp] theorem State.updateSpace_ar (s : State) (id : SpaceId) (f : Space → Space) (i : Reg) : (s.updateSpace id f).ar i = s.ar i := by cases id <;> rfl
@[simp] theorem State.updateSpace_cr (s : State) (id : SpaceId) (f : Space → Space) (i : Reg) : (s.updateSpace id f).cr i = s.cr i := by cases id <;> rfl

-- record

@[simp] theorem State.record_cfg (s : State) (id : SpaceId) (b : Block) (c : Bool) : (s.record id b c).cfg = s.cfg := by cases id <;> rfl
@[simp] theorem State.record_others (s : State) (id : SpaceId) (b : Block) (c : Bool) : (s.record id b c).others = s.others := by cases id <;> rfl
@[simp] theorem State.record_hal (s : State) (id : SpaceId) (b : Block) (c : Bool) : (s.record id b c).hal = s.hal := by cases id <;> rfl
@[simp] theorem State.record_issued (s : State) (id : SpaceId) (b : Block) (c : Bool) : (s.record id b c).issued = s.issued := by cases id <;> rfl
@[simp] theorem State.record_pendingIo (s : State) (id : SpaceId) (b : Block) (c : Bool) : (s.record id b c).pendingIo = s.pendingIo := by cases id <;> rfl
@[simp] theorem State.record_serviceSignal (s : State) (id : SpaceId) (b : Block) (c : Bool) : (s.record id b c).serviceSignal = s.serviceSignal := by cases id <;> rfl
@[simp] theorem State.record_channelReports (s : State) (id : SpaceId) (b : Block) (c : Bool) : (s.record id b c).channelReports = s.channelReports := by cases id <;> rfl
@[simp] theorem State.record_tod (s : State) (id : SpaceId) (b : Block) (c : Bool) : (s.record id b c).tod = s.tod := by cases id <;> rfl
@[simp] theorem State.record_inputs (s : State) (id : SpaceId) (b : Block) (c : Bool) : (s.record id b c).inputs = s.inputs := by cases id <;> rfl
@[simp] theorem State.record_services (s : State) (id : SpaceId) (b : Block) (c : Bool) : (s.record id b c).services = s.services := by cases id <;> rfl
@[simp] theorem State.record_draws (s : State) (id : SpaceId) (b : Block) (c : Bool) : (s.record id b c).draws = s.draws := by cases id <;> rfl
@[simp] theorem State.record_cpu (s : State) (id : SpaceId) (b : Block) (c : Bool) : (s.record id b c).cpu = s.cpu := by cases id <;> rfl
@[simp] theorem State.record_gr (s : State) (id : SpaceId) (b : Block) (c : Bool) (i : Reg) : (s.record id b c).gr i = s.gr i := by cases id <;> rfl
@[simp] theorem State.record_ar (s : State) (id : SpaceId) (b : Block) (c : Bool) (i : Reg) : (s.record id b c).ar i = s.ar i := by cases id <;> rfl
@[simp] theorem State.record_cr (s : State) (id : SpaceId) (b : Block) (c : Bool) (i : Reg) : (s.record id b c).cr i = s.cr i := by cases id <;> rfl

-- poke

@[simp] theorem State.poke_cfg (s : State) (id : SpaceId) (a : Addr) (v : Byte) : (s.poke id a v).cfg = s.cfg := by cases id <;> rfl
@[simp] theorem State.poke_others (s : State) (id : SpaceId) (a : Addr) (v : Byte) : (s.poke id a v).others = s.others := by cases id <;> rfl
@[simp] theorem State.poke_hal (s : State) (id : SpaceId) (a : Addr) (v : Byte) : (s.poke id a v).hal = s.hal := by cases id <;> rfl
@[simp] theorem State.poke_issued (s : State) (id : SpaceId) (a : Addr) (v : Byte) : (s.poke id a v).issued = s.issued := by cases id <;> rfl
@[simp] theorem State.poke_pendingIo (s : State) (id : SpaceId) (a : Addr) (v : Byte) : (s.poke id a v).pendingIo = s.pendingIo := by cases id <;> rfl
@[simp] theorem State.poke_serviceSignal (s : State) (id : SpaceId) (a : Addr) (v : Byte) : (s.poke id a v).serviceSignal = s.serviceSignal := by cases id <;> rfl
@[simp] theorem State.poke_channelReports (s : State) (id : SpaceId) (a : Addr) (v : Byte) : (s.poke id a v).channelReports = s.channelReports := by cases id <;> rfl
@[simp] theorem State.poke_tod (s : State) (id : SpaceId) (a : Addr) (v : Byte) : (s.poke id a v).tod = s.tod := by cases id <;> rfl
@[simp] theorem State.poke_inputs (s : State) (id : SpaceId) (a : Addr) (v : Byte) : (s.poke id a v).inputs = s.inputs := by cases id <;> rfl
@[simp] theorem State.poke_services (s : State) (id : SpaceId) (a : Addr) (v : Byte) : (s.poke id a v).services = s.services := by cases id <;> rfl
@[simp] theorem State.poke_draws (s : State) (id : SpaceId) (a : Addr) (v : Byte) : (s.poke id a v).draws = s.draws := by cases id <;> rfl
@[simp] theorem State.poke_cpu (s : State) (id : SpaceId) (a : Addr) (v : Byte) : (s.poke id a v).cpu = s.cpu := by cases id <;> rfl
@[simp] theorem State.poke_gr (s : State) (id : SpaceId) (a : Addr) (v : Byte) (i : Reg) : (s.poke id a v).gr i = s.gr i := by cases id <;> rfl
@[simp] theorem State.poke_ar (s : State) (id : SpaceId) (a : Addr) (v : Byte) (i : Reg) : (s.poke id a v).ar i = s.ar i := by cases id <;> rfl
@[simp] theorem State.poke_cr (s : State) (id : SpaceId) (a : Addr) (v : Byte) (i : Reg) : (s.poke id a v).cr i = s.cr i := by cases id <;> rfl

end Sys2Proof.Machine
end

