-- ==== Sys2Proof/Laws/Storage.lean ====
section
/-! SUPPORT. Storage as the state holds it: what changing one address space does to each, what recording a reference and storing a byte do, and that
neither touches anything else. -/

namespace Sys2Proof.Machine

open Sys2Proof.Safety

-- address spaces

/-- A token that designates a space of the configuration. -/
def State.knows (s : State) : SpaceId → Bool
  | .hostPrimary => true
  | .data asit => s.spaces.any (fun p => p.asit == asit)

theorem find_map_asit (l : List Space) (asit x : DWord) (f : Space → Space) (hf : ∀ p, (f p).asit = p.asit) :
    (l.map (fun p => if p.asit == x then f p else p)).find? (fun p => p.asit == asit) =
      (l.find? (fun p => p.asit == asit)).map (fun p => if p.asit == x then f p else p) := by
  induction l with
  | nil => rfl
  | cons p rest ih =>
    have ha : (if p.asit == x then f p else p).asit = p.asit := by split <;> simp [hf]
    rw [List.map_cons, List.find?_cons, List.find?_cons, ha]
    cases p.asit == asit with
    | true => rfl
    | false => exact ih

theorem find_any_asit (l : List Space) (asit : DWord) :
    (l.any (fun p => p.asit == asit) = true → ∃ p, l.find? (fun p => p.asit == asit) = some p ∧ p.asit = asit ∧ p ∈ l) ∧
    (l.any (fun p => p.asit == asit) = false → l.find? (fun p => p.asit == asit) = none) := by
  constructor
  · intro h
    cases hf : l.find? (fun p => p.asit == asit) with
    | none =>
      rw [List.find?_eq_none] at hf
      rw [List.any_eq_true] at h
      obtain ⟨p, hp, hpa⟩ := h
      exact absurd hpa (hf p hp)
    | some p => exact ⟨p, rfl, by simpa using List.find?_some hf, List.mem_of_find?_eq_some hf⟩
  · intro h
    rw [List.find?_eq_none]
    rw [List.any_eq_false] at h
    exact h

/-- One space changed: that space, where the token designates one, and no other. -/
theorem State.space_updateSpace (s : State) (id : SpaceId) (f : Space → Space) (hf : ∀ p, (f p).asit = p.asit) (i : SpaceId) :
    (s.updateSpace id f).space i = if i = id ∧ s.knows id = true then f (s.space id) else s.space i := by
  cases id with
  | hostPrimary => cases i <;> simp [State.updateSpace, State.space, State.knows]
  | data x =>
    cases i with
    | hostPrimary => simp [State.updateSpace, State.space]
    | data y =>
      show ((s.spaces.map (fun p => if p.asit == x then f p else p)).find? (fun p => p.asit == y)).getD Space.absent = _
      rw [find_map_asit s.spaces y x f hf]
      by_cases hk : s.spaces.any (fun p => p.asit == y) = true
      · obtain ⟨p, hp, hpa, _⟩ := (find_any_asit s.spaces y).1 hk
        simp only [State.space, State.knows]
        rw [hp]
        by_cases hyx : y = x
        · subst hyx
          simp [hk, hpa, hp]
        · have hd : ¬ SpaceId.data y = SpaceId.data x := fun e => hyx (SpaceId.data.inj e)
          have hpx : ¬ p.asit = x := fun e => hyx (hpa.symm.trans e)
          simp [hd, hpx]
      · have hn := (find_any_asit s.spaces y).2 (by simpa using hk)
        simp only [State.space, State.knows]
        rw [hn]
        by_cases hyx : y = x
        · subst hyx
          simp [hk]
        · have hd : ¬ SpaceId.data y = SpaceId.data x := fun e => hyx (SpaceId.data.inj e)
          simp [hd]

/-- A space with an assigned block is a space of the configuration. -/
theorem State.knows_of_assigned (s : State) (id : SpaceId) (b : Block) (h : (s.space id).assigned b = true) : s.knows id = true := by
  cases id with
  | hostPrimary => rfl
  | data x =>
    by_cases hk : s.spaces.any (fun p => p.asit == x) = true
    · exact hk
    · have hn := (find_any_asit s.spaces x).2 (by simpa using hk)
      simp [State.space, hn, Space.absent, Space.assigned] at h

-- the rest of a space

/-- What of a space does not depend on its bytes and storage keys. -/
theorem spaceFrame_assigned (p q : Space) (h : spaceFrame p = spaceFrame q) (b : Block) : p.assigned b = q.assigned b := by
  have : (spaceFrame p).ranges = (spaceFrame q).ranges := by rw [h]
  have : p.ranges = q.ranges := this
  simp [Space.assigned, this]

theorem spaceFrame_readOnly (p q : Space) (h : spaceFrame p = spaceFrame q) (b : Block) : p.readOnly b = q.readOnly b := by
  have : (spaceFrame p).readOnlyBlocks = (spaceFrame q).readOnlyBlocks := by rw [h]
  have : p.readOnlyBlocks = q.readOnlyBlocks := this
  simp [Space.readOnly, this]

theorem spaceFrame_usable (p q : Space) (h : spaceFrame p = spaceFrame q) (b : Block) : p.usable b = q.usable b := by
  have : (spaceFrame p).unusableBlocks = (spaceFrame q).unusableBlocks := by rw [h]
  have : p.unusableBlocks = q.unusableBlocks := this
  simp [Space.usable, this]

theorem spaceFrame_asit (p q : Space) (h : spaceFrame p = spaceFrame q) : p.asit = q.asit := by
  have : (spaceFrame p).asit = (spaceFrame q).asit := by rw [h]
  exact this

theorem spaceFrame_find (l m : List Space) (h : l.map spaceFrame = m.map spaceFrame) (asit : DWord) :
    spaceFrame ((l.find? (fun p => p.asit == asit)).getD Space.absent) =
      spaceFrame ((m.find? (fun p => p.asit == asit)).getD Space.absent) := by
  induction l generalizing m with
  | nil =>
    cases m with
    | nil => rfl
    | cons q m => simp at h
  | cons p l ih =>
    cases m with
    | nil => simp at h
    | cons q m =>
      rw [List.map_cons, List.map_cons] at h
      injection h with h1 h2
      have ha := spaceFrame_asit p q h1
      rw [List.find?_cons, List.find?_cons, ha]
      cases q.asit == asit with
      | true => exact h1
      | false => exact ih m h2

theorem spaceFrame_any (l m : List Space) (h : l.map spaceFrame = m.map spaceFrame) (asit : DWord) :
    l.any (fun p => p.asit == asit) = m.any (fun p => p.asit == asit) := by
  induction l generalizing m with
  | nil =>
    cases m with
    | nil => rfl
    | cons q m => simp at h
  | cons p l ih =>
    cases m with
    | nil => simp at h
    | cons q m =>
      rw [List.map_cons, List.map_cons] at h
      injection h with h1 h2
      rw [List.any_cons, List.any_cons, spaceFrame_asit p q h1, ih m h2]

theorem frame_hp (s t : State) (h : frame t = frame s) : spaceFrame t.hp = spaceFrame s.hp := congrArg State.hp h
theorem frame_spaces (s t : State) (h : frame t = frame s) : t.spaces.map spaceFrame = s.spaces.map spaceFrame := congrArg State.spaces h
theorem frame_cpu (s t : State) (h : frame t = frame s) : cpuFrame t.cpu = cpuFrame s.cpu := congrArg State.cpu h

/-- Equal frames: each space has the same shape and flags. -/
theorem frame_space (s t : State) (h : frame t = frame s) (id : SpaceId) : spaceFrame (t.space id) = spaceFrame (s.space id) := by
  cases id with
  | hostPrimary => exact frame_hp s t h
  | data x => exact spaceFrame_find t.spaces s.spaces (frame_spaces s t h) x

theorem frame_assigned (s t : State) (h : frame t = frame s) (id : SpaceId) (b : Block) :
    (t.space id).assigned b = (s.space id).assigned b := spaceFrame_assigned _ _ (frame_space s t h id) b

theorem frame_readOnly (s t : State) (h : frame t = frame s) (id : SpaceId) (b : Block) :
    (t.space id).readOnly b = (s.space id).readOnly b := spaceFrame_readOnly _ _ (frame_space s t h id) b

theorem frame_knows (s t : State) (h : frame t = frame s) (id : SpaceId) : t.knows id = s.knows id := by
  cases id with
  | hostPrimary => rfl
  | data x => exact spaceFrame_any t.spaces s.spaces (frame_spaces s t h) x

theorem frame_prefixReg (s t : State) (h : frame t = frame s) : t.cpu.prefixReg = s.cpu.prefixReg := by
  have h1 : (cpuFrame t.cpu).prefixReg = (cpuFrame s.cpu).prefixReg := by rw [frame_cpu s t h]
  exact h1
theorem frame_exTarget (s t : State) (h : frame t = frame s) : t.cpu.exTarget = s.cpu.exTarget := by
  have h1 : (cpuFrame t.cpu).exTarget = (cpuFrame s.cpu).exTarget := by rw [frame_cpu s t h]
  exact h1

theorem frame_prefixed (s t : State) (h : frame t = frame s) (r : Addr) : t.prefixed r = s.prefixed r := by
  unfold State.prefixed; rw [frame_prefixReg s t h]

theorem frame_absolute (s t : State) (h : frame t = frame s) (tg : Target) (e : Addr) : t.absolute tg e = s.absolute tg e := by
  unfold State.absolute; rw [frame_prefixed s t h]

theorem frame_prefixAreaAssigned (s t : State) (h : frame t = frame s) : t.prefixAreaAssigned = s.prefixAreaAssigned := by
  unfold State.prefixAreaAssigned
  rw [frame_prefixReg s t h]
  exact spaceFrame_assigned _ _ (frame_hp s t h) _

theorem frame_draw (s t : State) (h : frame t = frame s) (u : FreeUse) : t.draw u = s.draw u := by
  unfold State.draw
  have h1 : (frame t).draws = (frame s).draws := by rw [h]
  have h2 : t.draws = s.draws := h1
  rw [h2]

theorem frame_updateSpace (s : State) (id : SpaceId) (f : Space → Space) (hf : ∀ p, spaceFrame (f p) = spaceFrame p) :
    frame (s.updateSpace id f) = frame s := by
  cases id with
  | hostPrimary => simp [frame, State.updateSpace, hf]
  | data x =>
    have h : (s.spaces.map (fun p => if p.asit == x then f p else p)).map spaceFrame = s.spaces.map spaceFrame := by
      rw [List.map_map]
      refine List.map_congr_left fun p _ => ?_
      show spaceFrame (if p.asit == x then f p else p) = spaceFrame p
      split
      · exact hf p
      · rfl
    unfold frame State.updateSpace
    simp only [h]

-- updates of registers leave storage and the rest alone

@[simp] theorem frame_setGr (s : State) (r : Reg) (v : Word) : frame (s.setGr r v) = frame s := rfl
@[simp] theorem frame_setAr (s : State) (r : Reg) (v : Word) : frame (s.setAr r v) = frame s := rfl
@[simp] theorem frame_setCr (s : State) (r : Reg) (v : Word) : frame (s.setCr r v) = frame s := rfl
@[simp] theorem frame_setPsw (s : State) (p : Psw) : frame (s.setPsw p) = frame s := rfl
@[simp] theorem frame_setCc (s : State) (n : BitVec 2) : frame (s.setCc n) = frame s := rfl
@[simp] theorem frame_setIa (s : State) (a : Addr) : frame (s.setIa a) = frame s := rfl
@[simp] theorem frame_advance (s : State) (n : Nat) : frame (s.advance n) = frame s := rfl
@[simp] theorem frame_serialize (s : State) : frame s.serialize = frame s := rfl

-- storage keys

theorem keyKept_refl (k : BitVec 7) : keyKept k k := ⟨rfl, id, id⟩

theorem keyKept_trans {a b c : BitVec 7} (h1 : keyKept a b) (h2 : keyKept b c) : keyKept a c :=
  ⟨h2.1.trans h1.1, fun h => h2.2.1 (h1.2.1 h), fun h => h2.2.2 (h1.2.2 h)⟩

theorem keyWith_field : ∀ (k : BitVec 7) (r c : Bool), field (keyWith k r c) 0 5 = field k 0 5 := by decide
theorem keyWith_reference : ∀ (k : BitVec 7) (r c : Bool), keyReference (keyWith k r c) = r := by decide
theorem keyWith_change : ∀ (k : BitVec 7) (r c : Bool), keyChange (keyWith k r c) = c := by decide

theorem keyKept_with (k : BitVec 7) (c : Bool) : keyKept k (keyWith k true (keyChange k || c)) :=
  ⟨keyWith_field k _ _, fun _ => keyWith_reference k _ _, fun h => by rw [keyWith_change, h]; rfl⟩

theorem keysKept_refl (s : State) : keysKept s s := fun _ _ => keyKept_refl _
theorem keysKept_trans {s t u : State} (h1 : keysKept s t) (h2 : keysKept t u) : keysKept s u :=
  fun id b => keyKept_trans (h1 id b) (h2 id b)
theorem bytesKept_refl (s : State) : bytesKept s s := fun _ _ => rfl
theorem bytesKept_trans {s t u : State} (h1 : bytesKept s t) (h2 : bytesKept t u) : bytesKept s u :=
  fun id a => (h2 id a).trans (h1 id a)

-- recording a reference

/-- What recording a reference to a block can do: raise that block's reference bit, and its change bit if asked to; nothing else. -/
theorem State.record_key (s : State) (id : SpaceId) (b : Block) (c : Bool) (i : SpaceId) (d : Block) :
    ((s.record id b c).space i).key d =
      if (i = id ∧ s.knows id = true) ∧ d = b then keyWith ((s.space id).key b) true (keyChange ((s.space id).key b) || c)
      else (s.space i).key d := by
  unfold State.record
  rw [State.space_updateSpace s id (fun p => p.setKey b (keyWith (p.key b) true (keyChange (p.key b) || c)))
    (fun _ => Space.setKey_asit _ _ _)]
  by_cases h : i = id ∧ s.knows id = true
  · rw [if_pos h, Space.key_setKey]
    by_cases hd : d = b
    · rw [if_pos hd, if_pos ⟨h, hd⟩]
    · rw [if_neg hd, if_neg (fun e => hd e.2), h.1]
  · rw [if_neg h, if_neg (fun e => h e.1)]

theorem State.record_keysKept (s : State) (id : SpaceId) (b : Block) (c : Bool) : keysKept s (s.record id b c) := by
  intro i d
  rw [State.record_key]
  split
  · rename_i h
    rw [h.1.1, h.2]
    exact keyKept_with _ _
  · exact keyKept_refl _

theorem State.record_bytesKept (s : State) (id : SpaceId) (b : Block) (c : Bool) : bytesKept s (s.record id b c) := by
  intro i a
  unfold State.record
  rw [State.space_updateSpace s id (fun p => p.setKey b (keyWith (p.key b) true (keyChange (p.key b) || c)))
    (fun _ => Space.setKey_asit _ _ _)]
  split
  · rename_i h
    rw [h.1]
    exact Space.setKey_byte _ _ _ _
  · rfl

@[simp] theorem State.record_frame (s : State) (id : SpaceId) (b : Block) (c : Bool) : frame (s.record id b c) = frame s :=
  frame_updateSpace s id _ fun _ => rfl

-- fetching

theorem State.noteFetches_frame (s : State) (t : Target) (l : List Addr) : frame (s.noteFetches t l) = frame s := by
  induction l generalizing s with
  | nil => rfl
  | cons e rest ih => exact (ih _).trans (State.record_frame s _ _ _)

theorem State.noteFetches_cpu (s : State) (t : Target) (l : List Addr) : (s.noteFetches t l).cpu = s.cpu := by
  induction l generalizing s with
  | nil => rfl
  | cons e rest ih => exact (ih _).trans (State.record_cpu s _ _ _)

theorem State.noteFetches_keysKept (s : State) (t : Target) (l : List Addr) : keysKept s (s.noteFetches t l) := by
  induction l generalizing s with
  | nil => exact keysKept_refl s
  | cons e rest ih => exact keysKept_trans (State.record_keysKept s _ _ _) (ih _)

theorem State.noteFetches_bytesKept (s : State) (t : Target) (l : List Addr) : bytesKept s (s.noteFetches t l) := by
  induction l generalizing s with
  | nil => exact bytesKept_refl s
  | cons e rest ih => exact bytesKept_trans (State.record_bytesKept s _ _ _) (ih _)

-- storing

theorem State.poke_byte (s : State) (id : SpaceId) (a : Addr) (v : Byte) (i : SpaceId) (x : Addr) :
    ((s.poke id a v).space i).byte x = if (i = id ∧ s.knows id = true) ∧ x = a then v else (s.space i).byte x := by
  unfold State.poke
  rw [State.space_updateSpace s id (fun p => p.setByte a v) (fun _ => Space.setByte_asit _ _ _)]
  by_cases h : i = id ∧ s.knows id = true
  · rw [if_pos h, Space.byte_setByte]
    by_cases hx : x = a
    · rw [if_pos hx, if_pos ⟨h, hx⟩]
    · rw [if_neg hx, if_neg (fun e => hx e.2), h.1]
  · rw [if_neg h, if_neg (fun e => h e.1)]

theorem State.poke_keys (s : State) (id : SpaceId) (a : Addr) (v : Byte) (i : SpaceId) (b : Block) :
    ((s.poke id a v).space i).key b = (s.space i).key b := by
  unfold State.poke
  rw [State.space_updateSpace s id (fun p => p.setByte a v) (fun _ => Space.setByte_asit _ _ _)]
  split
  · rename_i h
    rw [h.1]
    rfl
  · rfl

@[simp] theorem State.poke_frame (s : State) (id : SpaceId) (a : Addr) (v : Byte) : frame (s.poke id a v) = frame s :=
  frame_updateSpace s id _ fun _ => rfl

/-- Noting what fetches may see of a location changes nothing but the model's own record of stale bytes. -/
theorem State.noteStale_record (s : State) (t : Target) (e : Addr) :
    ∃ l, s.noteStale t e = { s with cpu := { s.cpu with staleBytes := l } } := by
  unfold State.noteStale
  split
  · exact ⟨_, rfl⟩
  · exact ⟨s.cpu.staleBytes, rfl⟩

theorem State.noteStale_space (s : State) (t : Target) (e : Addr) (id : SpaceId) : (s.noteStale t e).space id = s.space id := by
  obtain ⟨l, h⟩ := State.noteStale_record s t e
  rw [h]
  cases id <;> rfl

theorem State.noteStale_frame (s : State) (t : Target) (e : Addr) : frame (s.noteStale t e) = frame s := by
  obtain ⟨l, h⟩ := State.noteStale_record s t e
  rw [h]
  rfl

@[simp] theorem State.storeByte_frame (s : State) (t : Target) (e : Addr) (v : Byte) : frame (s.storeByte t e v) = frame s := by
  unfold State.storeByte
  rw [State.record_frame, State.poke_frame, State.noteStale_frame]

/-- The byte an access stores: at its own absolute address in its own space, and nowhere else. -/
theorem State.storeByte_byte (s : State) (t : Target) (e : Addr) (v : Byte) (i : SpaceId) (x : Addr) :
    ((s.storeByte t e v).space i).byte x =
      if (i = t.space ∧ s.knows t.space = true) ∧ x = s.absolute t e then v else (s.space i).byte x := by
  unfold State.storeByte
  rw [State.record_bytesKept _ _ _ _ i x, State.poke_byte, State.noteStale_space, frame_knows s _ (State.noteStale_frame s t e)]

theorem State.storeByte_keysKept (s : State) (t : Target) (e : Addr) (v : Byte) : keysKept s (s.storeByte t e v) := by
  intro i b
  unfold State.storeByte
  have h := State.record_keysKept ((s.noteStale t e).poke t.space (s.absolute t e) v) t.space (blockOf (s.absolute t e)) true i b
  rwa [State.poke_keys, State.noteStale_space] at h

theorem State.storeByte_recorded (s : State) (t : Target) (e : Addr) (v : Byte) (h : s.knows t.space = true) :
    keyReference (((s.storeByte t e v).space t.space).key (blockOf (s.absolute t e))) = true ∧
      keyChange (((s.storeByte t e v).space t.space).key (blockOf (s.absolute t e))) = true := by
  unfold State.storeByte
  have hk : ((s.noteStale t e).poke t.space (s.absolute t e) v).knows t.space = true := by
    rw [frame_knows _ _ (State.poke_frame _ _ _ _), frame_knows _ _ (State.noteStale_frame s t e), h]
  rw [State.record_key, if_pos ⟨⟨rfl, hk⟩, rfl⟩]
  exact ⟨keyWith_reference _ _ _, by rw [keyWith_change, Bool.or_true]⟩

/-- A store touches nothing of the CPU but the model's own record of stale bytes. -/
theorem State.storeByte_cpu (s : State) (t : Target) (e : Addr) (v : Byte) :
    (s.storeByte t e v).cpu = { s.cpu with staleBytes := (s.storeByte t e v).cpu.staleBytes } := by
  unfold State.storeByte
  rw [State.record_cpu, State.poke_cpu]
  obtain ⟨l, h⟩ := State.noteStale_record s t e
  rw [h]

theorem State.storeBytes_frame (s : State) (t : Target) (l : List (Addr × Byte)) : frame (s.storeBytes t l) = frame s := by
  induction l generalizing s with
  | nil => rfl
  | cons c rest ih => exact (ih _).trans (State.storeByte_frame s t _ _)

theorem State.storeBytes_keysKept (s : State) (t : Target) (l : List (Addr × Byte)) : keysKept s (s.storeBytes t l) := by
  induction l generalizing s with
  | nil => exact keysKept_refl s
  | cons c rest ih => exact keysKept_trans (State.storeByte_keysKept s t _ _) (ih _)

theorem State.storeBytes_cpu (s : State) (t : Target) (l : List (Addr × Byte)) :
    (s.storeBytes t l).cpu = { s.cpu with staleBytes := (s.storeBytes t l).cpu.staleBytes } := by
  induction l generalizing s with
  | nil => rfl
  | cons c rest ih =>
    have h := ih (s.storeByte t c.1 c.2)
    rw [State.storeByte_cpu s t c.1 c.2] at h
    exact h

theorem State.storeBytes_psw (s : State) (t : Target) (l : List (Addr × Byte)) : (s.storeBytes t l).cpu.psw = s.cpu.psw := by
  rw [State.storeBytes_cpu]
theorem State.storeBytes_gr (s : State) (t : Target) (l : List (Addr × Byte)) (r : Reg) : (s.storeBytes t l).gr r = s.gr r := by
  unfold State.gr; rw [State.storeBytes_cpu]
theorem State.storeBytes_ar (s : State) (t : Target) (l : List (Addr × Byte)) (r : Reg) : (s.storeBytes t l).ar r = s.ar r := by
  unfold State.ar; rw [State.storeBytes_cpu]
theorem State.storeBytes_cr (s : State) (t : Target) (l : List (Addr × Byte)) (r : Reg) : (s.storeBytes t l).cr r = s.cr r := by
  unfold State.cr; rw [State.storeBytes_cpu]

theorem withCells_not_mem (old : Addr → Byte) (l : List (Addr × Byte)) (a : Addr) (h : ∀ c, c ∈ l → c.1 ≠ a) : withCells old l a = old a := by
  induction l with
  | nil => rfl
  | cons c rest ih =>
    rw [withCells, if_neg (fun e => h c (List.mem_cons_self ..) e.symm)]
    exact ih fun d hd => h d (List.mem_cons_of_mem _ hd)

theorem withCells_congr (f g : Addr → Byte) (l : List (Addr × Byte)) (a : Addr) (h : f a = g a) : withCells f l a = withCells g l a := by
  induction l with
  | nil => exact h
  | cons c rest ih => rw [withCells, withCells, ih]

/-- Stores at different absolute addresses: each address holds its byte afterwards, and no other byte changes. -/
theorem State.storeBytes_stored (s : State) (t : Target) (l : List (Addr × Byte)) (hk : s.knows t.space = true)
    (hd : (l.map (fun c => s.absolute t c.1)).Nodup) :
    bytesStored s (s.storeBytes t l) t.space (l.map (fun c => (s.absolute t c.1, c.2))) := by
  induction l generalizing s with
  | nil =>
    intro i a
    simp [State.storeBytes, withCells]
  | cons c rest ih =>
    intro i a
    have hf := State.storeByte_frame s t c.1 c.2
    have habs : ∀ e, (s.storeByte t c.1 c.2).absolute t e = s.absolute t e := fun e => frame_absolute s _ hf t e
    rw [List.map_cons, List.nodup_cons] at hd
    have h := ih (s.storeByte t c.1 c.2) (by rw [frame_knows _ _ hf, hk]) (by simpa only [habs] using hd.2) i a
    simp only [habs] at h
    show (((s.storeByte t c.1 c.2).storeBytes t rest).space i).byte a = _
    rw [h]
    by_cases hi : i = t.space
    · rw [if_pos hi, if_pos hi, List.map_cons, withCells]
      by_cases ha : a = s.absolute t c.1
      · rw [if_pos ha, withCells_not_mem]
        · rw [State.storeByte_byte, if_pos ⟨⟨hi, hk⟩, ha⟩]
        · intro d hdm hda
          obtain ⟨x, hx, rfl⟩ := List.mem_map.mp hdm
          exact hd.1 (ha ▸ hda ▸ List.mem_map_of_mem (f := fun c : Addr × Byte => s.absolute t c.1) hx)
      · rw [if_neg ha]
        refine withCells_congr _ _ _ _ ?_
        rw [State.storeByte_byte, if_neg (fun e => ha e.2)]
    · rw [if_neg hi, if_neg hi, State.storeByte_byte, if_neg (fun e => hi e.1.1)]

theorem State.storeBytes_recorded (s : State) (t : Target) (l : List (Addr × Byte)) (hk : s.knows t.space = true) :
    ∀ c, c ∈ l → keyReference (((s.storeBytes t l).space t.space).key (blockOf (s.absolute t c.1))) = true ∧
      keyChange (((s.storeBytes t l).space t.space).key (blockOf (s.absolute t c.1))) = true := by
  induction l generalizing s with
  | nil => intro c hc; cases hc
  | cons d rest ih =>
    intro c hc
    have hf := State.storeByte_frame s t d.1 d.2
    have habs : ∀ e, (s.storeByte t d.1 d.2).absolute t e = s.absolute t e := fun e => frame_absolute s _ hf t e
    rcases List.mem_cons.mp hc with rfl | hc
    · have h1 := State.storeByte_recorded s t c.1 c.2 hk
      have h2 := State.storeBytes_keysKept (s.storeByte t c.1 c.2) t rest t.space (blockOf (s.absolute t c.1))
      exact ⟨h2.2.1 h1.1, h2.2.2 h1.2⟩
    · have h := ih (s.storeByte t d.1 d.2) (by rw [frame_knows _ _ hf, hk]) c hc
      rw [habs] at h
      exact h

-- prefixing and addresses

theorem toNat_append_offset (b : Block) (o : BitVec 12) : (b ++ o).toNat = b.toNat * 2 ^ 12 + o.toNat := by
  rw [BitVec.toNat_append, ← Nat.shiftLeft_add_eq_or_of_lt o.isLt, Nat.shiftLeft_eq]

theorem toNat_blockOf (r : Addr) : (blockOf r).toNat = r.toNat / 4096 := by
  have h2 : r.toNat < 2 ^ 31 := r.isLt
  rw [blockOf, BitVec.extractLsb'_toNat, Nat.shiftRight_eq_div_pow]
  omega

theorem toNat_offset (r : Addr) : (r.extractLsb' 0 12).toNat = r.toNat % 4096 := by
  rw [BitVec.extractLsb'_toNat, Nat.shiftRight_eq_div_pow, Nat.pow_zero, Nat.div_one]

theorem blockOf_append (b : Block) (o : BitVec 12) : blockOf (b ++ o) = b := by
  apply BitVec.eq_of_toNat_eq
  have h1 : o.toNat < 2 ^ 12 := o.isLt
  have h := toNat_append_offset b o
  rw [toNat_blockOf]
  omega

theorem offset_append (b : Block) (o : BitVec 12) : (b ++ o).extractLsb' 0 12 = o := by
  apply BitVec.eq_of_toNat_eq
  have h1 : o.toNat < 2 ^ 12 := o.isLt
  have h := toNat_append_offset b o
  rw [toNat_offset]
  omega

theorem append_blockOf (r : Addr) : blockOf r ++ r.extractLsb' 0 12 = r := by
  apply BitVec.eq_of_toNat_eq
  rw [toNat_append_offset, toNat_blockOf, toNat_offset]
  omega

/-- Prefixing is its own inverse (R102). -/
theorem State.prefixed_prefixed (s : State) (r : Addr) : s.prefixed (s.prefixed r) = r := by
  have hb := blockOf_append
  have ho := offset_append
  have hr := append_blockOf
  unfold State.prefixed
  by_cases h0 : blockOf r = 0
  · simp only [if_pos h0]
    by_cases hp : s.cpu.prefixReg = 0
    · rw [hb, if_pos hp, ho, hp]
      rw [← h0]; exact hr r
    · rw [hb, if_neg hp, if_pos rfl, ho]
      rw [← h0]; exact hr r
  · simp only [if_neg h0]
    by_cases hp : blockOf r = s.cpu.prefixReg
    · simp only [if_pos hp]
      rw [hb, if_pos rfl, ho, ← hp]; exact hr r
    · rw [if_neg hp, if_neg h0, if_neg hp]

theorem State.prefixed_inj (s : State) (a b : Addr) (h : s.prefixed a = s.prefixed b) : a = b := by
  rw [← State.prefixed_prefixed s a, h, State.prefixed_prefixed]

/-- A storage key set: that key of that space changes, no other key and no byte, and nothing outside storage. -/
theorem State.setKey_sets (s : State) (id : SpaceId) (b : Block) (k : BitVec 7) (h : s.knows id = true) :
    (∀ i x, ((s.updateSpace id (fun p => p.setKey b k)).space i).key x = if i = id ∧ x = b then k else (s.space i).key x) ∧
    bytesKept s (s.updateSpace id (fun p => p.setKey b k)) ∧ frame (s.updateSpace id (fun p => p.setKey b k)) = frame s := by
  refine ⟨fun i x => ?_, fun i a => ?_, frame_updateSpace s id _ fun _ => rfl⟩
  · rw [State.space_updateSpace s id _ (fun _ => Space.setKey_asit _ _ _)]
    by_cases hi : i = id
    · rw [if_pos ⟨hi, h⟩, Space.key_setKey, hi]
      by_cases hx : x = b
      · rw [if_pos hx, if_pos ⟨rfl, hx⟩]
      · rw [if_neg hx, if_neg (fun e => hx e.2)]
    · rw [if_neg (fun e => hi e.1), if_neg (fun e => hi e.1)]
  · rw [State.space_updateSpace s id _ (fun _ => Space.setKey_asit _ _ _)]
    split
    · rename_i hi
      rw [hi.1]
      exact Space.setKey_byte ..
    · rfl

theorem State.absolute_inj (s : State) (t : Target) (a b : Addr) (h : s.absolute t a = s.absolute t b) : a = b := by
  unfold State.absolute at h
  split at h
  · exact State.prefixed_inj s a b h
  · exact h

theorem wrapMode_toNat (amode : Bool) (a : Addr) : (wrapMode amode a).toNat = a.toNat % (if amode = true then 2 ^ 31 else 2 ^ 24) := by
  unfold wrapMode
  cases amode with
  | true => simp only [if_true]; exact (Nat.mod_eq_of_lt a.isLt).symm
  | false =>
    simp only [Bool.false_eq_true, if_false, BitVec.toNat_setWidth]
    omega

/-- The addresses of an operand of at most 2^24 bytes are different. -/
theorem operandAddrs_nodup (amode : Bool) (ea : Addr) (n : Nat) (hn : n ≤ 2 ^ 24) : (operandAddrs amode ea n).Nodup := by
  unfold operandAddrs
  rw [List.nodup_iff_pairwise_ne, List.pairwise_map]
  refine List.Pairwise.imp_of_mem ?_ (List.nodup_iff_pairwise_ne.mp List.nodup_range)
  intro i j hi hj hij h
  have hi' : i < n := List.mem_range.mp hi
  have hj' : j < n := List.mem_range.mp hj
  have h' := congrArg BitVec.toNat h
  rw [wrapMode_toNat, wrapMode_toNat, BitVec.toNat_add, BitVec.toNat_add, BitVec.toNat_ofNat, BitVec.toNat_ofNat] at h'
  cases amode with
  | true => simp only [if_true] at h'; omega
  | false => simp only [Bool.false_eq_true, if_false] at h'; omega

end Sys2Proof.Machine
end

