-- ==== Sys2Proof/Laws/Values.lean ====
section
/-! SUPPORT. What the arithmetic helpers compute, as numbers: the exact result, what of it a word keeps, its condition code and its overflow. -/

namespace Sys2Proof.Machine

open Sys2Proof.Safety

theorem word_toInt_bounds (v : Word) : -(2 ^ 31) ≤ v.toInt ∧ v.toInt < 2 ^ 31 := by
  have h := v.isLt
  rw [BitVec.toInt_eq_toNat_cond]
  split <;> omega

theorem dword_toInt_bounds (v : DWord) : -(2 ^ 63) ≤ v.toInt ∧ v.toInt < 2 ^ 63 := by
  have h := v.isLt
  rw [BitVec.toInt_eq_toNat_cond]
  split <;> omega

theorem toInt_ofInt_word (x : Int) (h : fitsWord x) : (BitVec.ofInt 32 x).toInt = x := by
  rw [BitVec.toInt_ofInt, Int.bmod_def]
  simp only [Nat.reducePow]
  split <;> omega

theorem toInt_ofInt_dword (x : Int) (h : -(2 ^ 63) ≤ x ∧ x < 2 ^ 63) : (BitVec.ofInt 64 x).toInt = x := by
  rw [BitVec.toInt_ofInt, Int.bmod_def]
  simp only [Nat.reducePow]
  split <;> omega

theorem add_eq_ofInt (a b : Word) : a + b = BitVec.ofInt 32 (a.toInt + b.toInt) := by
  apply BitVec.eq_of_toInt_eq
  rw [BitVec.toInt_add, BitVec.toInt_ofInt]

theorem sub_eq_ofInt (a b : Word) : a - b = BitVec.ofInt 32 (a.toInt - b.toInt) := by
  apply BitVec.eq_of_toInt_eq
  rw [BitVec.toInt_sub, BitVec.toInt_ofInt]

theorem mul_eq_ofInt (a b : Word) : a * b = BitVec.ofInt 32 (a.toInt * b.toInt) := by
  apply BitVec.eq_of_toInt_eq
  rw [BitVec.toInt_mul, BitVec.toInt_ofInt]

theorem zero_toInt : (0 : Word).toInt = 0 := rfl

theorem sext32_toInt (h : Half) : (sext32 h).toInt = h.toInt := by
  unfold sext32
  rw [BitVec.toInt_signExtend_of_le (by decide)]

theorem sext32_eq_ofInt (h : Half) : sext32 h = BitVec.ofInt 32 h.toInt := by
  apply BitVec.eq_of_toInt_eq
  have hb : -(2 ^ 15) ≤ h.toInt ∧ h.toInt < 2 ^ 15 := by
    have hl := h.isLt
    rw [BitVec.toInt_eq_toNat_cond]
    split <;> omega
  rw [sext32_toInt, toInt_ofInt_word _ (by omega)]

/-- `CCsign` of a value of any width is the condition code of the number it stands for. -/
theorem ccSign_eq {w : Nat} (v : BitVec w) : ccSign v = signCc v.toInt := by
  have h0 : v = 0 ↔ v.toInt = 0 :=
    ⟨fun h => by rw [h]; exact BitVec.toInt_zero, fun h => BitVec.eq_of_toInt_eq (by rw [h]; exact BitVec.toInt_zero.symm)⟩
  unfold ccSign signCc
  by_cases h : v = 0
  · rw [if_pos h, if_pos (h0.mp h)]
  · rw [if_neg h, if_neg (fun e => h (h0.mpr e)), BitVec.msb_eq_toInt]
    simp

/-- The end of the three lemmas below: a signed result, once its value and its overflow are known. -/
theorem signed_cc (x : Int) : (Signed.mk (BitVec.ofInt 32 x) (decide (¬ fitsWord x))).cc = sumCc x := by
  unfold Signed.cc sumCc
  by_cases h : fitsWord x
  · have h1 : ¬ (x < -(2 ^ 31) ∨ 2 ^ 31 ≤ x) := by omega
    rw [if_neg h1]
    show (if decide (¬ fitsWord x) = true then (3 : BitVec 2) else ccSign (BitVec.ofInt 32 x)) = signCc x
    rw [if_neg (fun e => of_decide_eq_true (p := ¬ fitsWord x) e h), ccSign_eq, toInt_ofInt_word x h]
  · have h1 : x < -(2 ^ 31) ∨ 2 ^ 31 ≤ x := by omega
    rw [if_pos h1]
    exact if_pos (decide_eq_true h)

theorem signed_ext {a c : Word} {b d : Bool} (h1 : a = c) (h2 : b = d) : Signed.mk a b = Signed.mk c d := by rw [h1, h2]

/-- `AddS`: the exact sum modulo 2^32, and whether it fits a word. -/
theorem addS_eq (a b : Word) : addS a b = ⟨BitVec.ofInt 32 (a.toInt + b.toInt), decide (¬ fitsWord (a.toInt + b.toInt))⟩ := by
  have ha := word_toInt_bounds a
  have hb := word_toInt_bounds b
  have hv := add_eq_ofInt a b
  unfold addS
  rw [hv]
  generalize ht : a.toInt + b.toInt = x
  congr 1
  rw [BitVec.msb_eq_toInt, BitVec.msb_eq_toInt, BitVec.msb_eq_toInt, BitVec.toInt_ofInt, Int.bmod_def]
  rw [Bool.eq_iff_iff]
  simp only [Nat.reducePow, Bool.and_eq_true, beq_iff_eq, bne_iff_ne, decide_eq_true_eq, decide_eq_decide, ne_eq]
  split <;> omega

/-- `SubS`: the exact difference modulo 2^32, and whether it fits a word. -/
theorem subS_eq (a b : Word) : subS a b = ⟨BitVec.ofInt 32 (a.toInt - b.toInt), decide (¬ fitsWord (a.toInt - b.toInt))⟩ := by
  have ha := word_toInt_bounds a
  have hb := word_toInt_bounds b
  have hv := sub_eq_ofInt a b
  unfold subS
  rw [hv]
  generalize ht : a.toInt - b.toInt = x
  congr 1
  rw [BitVec.msb_eq_toInt, BitVec.msb_eq_toInt, BitVec.msb_eq_toInt, BitVec.toInt_ofInt, Int.bmod_def]
  rw [Bool.eq_iff_iff]
  simp only [Nat.reducePow, Bool.and_eq_true, bne_iff_ne, decide_eq_true_eq, decide_eq_decide, ne_eq]
  split <;> omega

/-- LOAD POSITIVE: the exact absolute value modulo 2^32, and whether it fits a word. -/
theorem absS_eq (a : Word) : absS a = ⟨BitVec.ofInt 32 a.toInt.natAbs, decide (¬ fitsWord a.toInt.natAbs)⟩ := by
  have ha := word_toInt_bounds a
  have h0 := zero_toInt
  unfold absS
  refine signed_ext ?_ ?_
  · rw [BitVec.msb_eq_toInt]
    by_cases h : a.toInt < 0
    · rw [if_pos (decide_eq_true h), sub_eq_ofInt]
      congr 1
      omega
    · rw [if_neg (by simpa using h)]
      apply BitVec.eq_of_toInt_eq
      rw [toInt_ofInt_word _ (by omega)]
      omega
  · rw [Bool.eq_iff_iff, beq_iff_eq, decide_eq_true_eq]
    have hm : a = 0x80000000 ↔ a.toInt = -2147483648 :=
      ⟨fun h => by rw [h]; rfl, fun h => BitVec.eq_of_toInt_eq (by rw [h]; rfl)⟩
    rw [hm]
    omega

/-- The first word of two words side by side. -/
theorem field_append_high (a b : Word) : field (a ++ b : DWord) 0 32 = a := by
  unfold field
  apply BitVec.eq_of_toNat_eq
  have ha := a.isLt
  have hb := b.isLt
  rw [BitVec.extractLsb'_toNat, BitVec.toNat_append, ← Nat.shiftLeft_add_eq_or_of_lt hb, Nat.shiftLeft_eq, Nat.shiftRight_eq_div_pow]
  omega

/-- The second word of two words side by side. -/
theorem field_append_low (a b : Word) : field (a ++ b : DWord) 32 32 = b := by
  unfold field
  apply BitVec.eq_of_toNat_eq
  have ha := a.isLt
  have hb := b.isLt
  rw [BitVec.extractLsb'_toNat, BitVec.toNat_append, ← Nat.shiftLeft_add_eq_or_of_lt hb, Nat.shiftLeft_eq, Nat.shiftRight_eq_div_pow]
  omega

-- bytes and the PSW

theorem extract_skip {v w : Nat} (x : BitVec v) (y : BitVec w) (k n : Nat) :
    BitVec.extractLsb' (k + w) n (x ++ y) = BitVec.extractLsb' k n x := by
  rw [BitVec.extractLsb'_append_eq_of_le (Nat.le_add_left ..), Nat.add_sub_cancel]

theorem extract_take {v w : Nat} (x : BitVec v) (y : BitVec w) (n : Nat) (h : n ≤ w) :
    BitVec.extractLsb' 0 n (x ++ y) = BitVec.extractLsb' 0 n y := by
  rw [BitVec.extractLsb'_append_eq_of_add_le (by omega)]

theorem extract_all {w : Nat} (x : BitVec w) : BitVec.extractLsb' 0 w x = x := BitVec.extractLsb'_eq_self

theorem bit_high {v w : Nat} (x : BitVec v) (y : BitVec w) (i : Nat) (h : i < v) : (x ++ y).getMsbD i = x.getMsbD i := by
  rw [BitVec.getMsbD_append, if_neg (by omega)]

theorem bit_low {v w : Nat} (x : BitVec v) (y : BitVec w) (i : Nat) (h : v ≤ i) : (x ++ y).getMsbD i = y.getMsbD (i - v) := by
  rw [BitVec.getMsbD_append, if_pos h]

theorem bit_ofBool (b : Bool) : (BitVec.ofBool b).getMsbD 0 = b := by cases b <;> rfl

theorem list_four {a b c d a' b' c' d' : Byte} (h1 : a = a') (h2 : b = b') (h3 : c = c') (h4 : d = d') : [a, b, c, d] = [a', b', c', d'] := by
  rw [h1, h2, h3, h4]

theorem list_eight {a b c d e f g h a' b' c' d' e' f' g' h' : Byte} (h1 : a = a') (h2 : b = b') (h3 : c = c') (h4 : d = d') (h5 : e = e')
    (h6 : f = f') (h7 : g = g') (h8 : h = h') : [a, b, c, d, e, f, g, h] = [a', b', c', d', e', f', g', h'] := by
  rw [h1, h2, h3, h4, h5, h6, h7, h8]

/-- The bytes of a word made of four bytes. -/
theorem bytes32_be32 (a b c d : Byte) : bytes32 (be32 [a, b, c, d]) = [a, b, c, d] := by
  unfold bytes32 be32 field
  apply list_four
  all_goals repeat first
    | exact extract_all _
    | refine (extract_take _ _ _ (by decide)).trans ?_
    | refine (extract_skip _ _ _ _).trans ?_

/-- The bytes of a doubleword made of eight bytes. -/
theorem bytes64_be64 (a b c d e f g h : Byte) : bytes64 (be64 [a, b, c, d, e, f, g, h]) = [a, b, c, d, e, f, g, h] := by
  unfold bytes64 be64 field
  apply list_eight
  all_goals repeat first
    | exact extract_all _
    | refine (extract_take _ _ _ (by decide)).trans ?_
    | refine (extract_skip _ _ _ _).trans ?_

/-- A word is what its bytes make. -/
theorem be32_bytes32 (v : Word) : be32 (bytes32 v) = v := by
  unfold bytes32 be32 field
  apply BitVec.eq_of_getLsbD_eq
  intro k hk
  simp only [BitVec.getLsbD_append, BitVec.getLsbD_extractLsb']
  grind

/-- A doubleword is what its bytes make. -/
theorem be64_bytes64 (v : DWord) : be64 (bytes64 v) = v := by
  unfold bytes64 be64 field
  apply BitVec.eq_of_getLsbD_eq
  intro k hk
  simp only [BitVec.getLsbD_append, BitVec.getLsbD_extractLsb']
  grind

theorem psw_ext {p q : Psw} (h1 : p.sysMask = q.sysMask) (h2 : p.key = q.key) (h3 : p.one = q.one) (h4 : p.machineCheck = q.machineCheck)
    (h5 : p.wait = q.wait) (h6 : p.problem = q.problem) (h7 : p.bit16 = q.bit16) (h8 : p.arMode = q.arMode) (h9 : p.cc = q.cc)
    (h10 : p.progMask = q.progMask) (h11 : p.zeros = q.zeros) (h12 : p.amode = q.amode) (h13 : p.ia = q.ia) : p = q := by
  cases p
  cases q
  simp_all

/-- A PSW is what its 64 bits make. -/
theorem psw_ofDWord_toDWord (p : Psw) : Psw.ofDWord p.toDWord = p := by
  apply psw_ext
  all_goals dsimp only [Psw.toDWord, Psw.ofDWord, bitAt]
  all_goals first
    | (repeat rw [bit_high _ _ _ (by decide)]
       rw [bit_low _ _ _ (by decide)]
       exact bit_ofBool _)
    | repeat first
      | exact extract_all _
      | refine (extract_take _ _ _ (by decide)).trans ?_
      | refine (extract_skip _ _ _ _).trans ?_

theorem bytesOfWords_length (l : List Word) : (bytesOfWords l).length = 4 * l.length := by
  induction l with
  | nil => rfl
  | cons w l ih =>
    show (bytes32 w ++ bytesOfWords l).length = _
    rw [List.length_append, ih, List.length_cons]
    show 4 + _ = _
    omega

end Sys2Proof.Machine
end

