-- ==== Sys2Proof/Laws/Agents.lean ====
section
/-! SUPPORT. What agents outside the CPU can do: stores by absolute address (R156, R166, R470), host services (R245, D25) and the store-status function (R488). -/

namespace Sys2Proof.Machine

open Sys2Proof.Safety

/-- A byte put at an absolute address with its storage key recorded: that byte and that key change, nothing else. -/
theorem State.put_byte (s : State) (id : SpaceId) (a : Addr) (v : Byte) (i : SpaceId) (x : Addr) :
    (((s.poke id a v).record id (blockOf a) true).space i).byte x = if (i = id ∧ s.knows id = true) ∧ x = a then v else (s.space i).byte x := by
  rw [State.record_bytesKept _ _ _ _ i x, State.poke_byte]

theorem State.put_keysKept (s : State) (id : SpaceId) (a : Addr) (v : Byte) : keysKept s ((s.poke id a v).record id (blockOf a) true) := by
  intro i b
  have h := State.record_keysKept (s.poke id a v) id (blockOf a) true i b
  rwa [State.poke_keys] at h

theorem State.put_recorded (s : State) (id : SpaceId) (a : Addr) (v : Byte) (h : s.knows id = true) :
    keyReference ((((s.poke id a v).record id (blockOf a) true).space id).key (blockOf a)) = true ∧
      keyChange ((((s.poke id a v).record id (blockOf a) true).space id).key (blockOf a)) = true := by
  have hk : (s.poke id a v).knows id = true := by rw [frame_knows _ _ (State.poke_frame _ _ _ _), h]
  rw [State.record_key, if_pos ⟨⟨rfl, hk⟩, rfl⟩]
  exact ⟨keyWith_reference _ _ _, by rw [keyWith_change, Bool.or_true]⟩

theorem State.put_frame (s : State) (id : SpaceId) (a : Addr) (v : Byte) :
    frame ((s.poke id a v).record id (blockOf a) true) = frame s := by
  rw [State.record_frame, State.poke_frame]

-- another agent

/-- The executing CPU and the others with the byte noted as one that instruction fetches may still see. -/
theorem State.noteForeignStore_frame (s : State) (a : Addr) :
    frame (s.noteForeignStore a) =
      { frame s with others := s.others.map (fun c => { c with staleBytes := (a.toNat, s.hp.byte a) :: c.staleBytes }) } := rfl

/-- What a store by another agent can do: one byte of one space, its key recorded, and, in the host-primary space, its old value noted at every CPU. -/
theorem State.agentStore_stores (s : State) (id : SpaceId) (a : Addr) (v : Byte) :
    (∀ i x, ((s.agentStore id a v).space i).byte x = if (i = id ∧ s.knows id = true) ∧ x = a then v else (s.space i).byte x) ∧
    keysKept s (s.agentStore id a v) ∧
    (s.knows id = true → keyReference (((s.agentStore id a v).space id).key (blockOf a)) = true ∧
      keyChange (((s.agentStore id a v).space id).key (blockOf a)) = true) ∧
    (∃ l, (s.agentStore id a v).cpu = { s.cpu with staleBytes := l }) ∧
    frame (s.agentStore id a v) = frame (if id = .hostPrimary then s.noteForeignStore a else s) := by
  unfold State.agentStore
  by_cases h : id = .hostPrimary
  · simp only [if_pos h]
    have hs : ∀ i, (s.noteForeignStore a).space i = s.space i := fun i => by cases i <;> rfl
    have hk : (s.noteForeignStore a).knows id = s.knows id := by cases id <;> rfl
    refine ⟨fun i x => ?_, fun i b => ?_, fun hn => State.put_recorded _ id a v (hk.trans hn), ⟨(s.noteForeignStore a).cpu.staleBytes, ?_⟩, State.put_frame _ _ _ _⟩
    · rw [State.put_byte, hk, hs]
    · have := State.put_keysKept (s.noteForeignStore a) id a v i b
      rwa [hs] at this
    · rw [State.record_cpu, State.poke_cpu]
      rfl
  · simp only [if_neg h]
    exact ⟨State.put_byte s id a v, State.put_keysKept s id a v, State.put_recorded s id a v, ⟨s.cpu.staleBytes, by rw [State.record_cpu, State.poke_cpu]⟩,
      State.put_frame s id a v⟩

-- host services

theorem masked_iff {w : Nat} (v mask value : BitVec w) : masked mask value v = true ↔ bitsAre v mask value := beq_iff_eq

/-- The answer to a question of a host service about the state is yes exactly where what it asks for is so. -/
theorem State.meets_iff (s : State) (x : StateTest) : s.meets x = true ↔ testHolds s x := by
  cases x with
  | cpu address c =>
    unfold State.meets
    rw [beq_iff_eq]
    cases c with
    | none => exact Option.map_eq_none_iff
    | some c =>
      cases h : s.cpuAt address with
      | none => simp [testHolds, h]
      | some d =>
        simp only [testHolds, h, Option.map_some, Option.some.injEq]
        exact ⟨fun e => ⟨d, rfl, e⟩, fun ⟨_, e, k⟩ => e ▸ k⟩
  | floating io signal reports => simp [State.meets, testHolds, and_assoc]
  | _ => first | exact masked_iff _ _ _ | exact beq_iff_eq

/-- The exceptions in which a host service may end. -/
theorem ServiceEnding.possible_exception (code : Half) (nullified : Bool) (alet : Option Word) :
    (ServiceEnding.exception code nullified alet).possible = true ↔ serviceException code nullified alet := by
  cases alet with
  | some a => simp [ServiceEnding.possible, serviceException]
  | none =>
    have hc : serviceCodes.contains code = true ↔
        (1 ≤ code.toNat ∧ code.toNat ≤ 0x0F) ∨ code = 0x13 ∨ code = 0x15 ∨ code = 0x1D ∨ code = 0x28 := by
      simp only [serviceCodes, List.contains_iff_mem, List.mem_cons, List.not_mem_nil, or_false, ← BitVec.toNat_inj, BitVec.reduceToNat]
      omega
    simp only [ServiceEnding.possible, serviceException, Bool.and_eq_true, hc, Bool.not_eq_true']

/-- Which floating-point registers a CPU has (R26). -/
theorem State.fprNumbers_contains (s : State) (i : Fin 16) :
    s.fprNumbers.contains i.val = true ↔ s.cfg.fpExtInstalled = true ∨ i = 0 ∨ i = 2 ∨ i = 4 ∨ i = 6 := by
  unfold State.fprNumbers
  cases s.cfg.fpExtInstalled <;> revert i <;> decide

@[simp] theorem State.servedCpu_prefixReg (s : State) (c o : Cpu) : (s.servedCpu c o).prefixReg = c.prefixReg := rfl

@[simp] theorem State.servedCpu_exTarget (s : State) (c o : Cpu) : (s.servedCpu c o).exTarget = o.exTarget := rfl

/-- What a host service leaves of a CPU: as given, but for the registers that it does not have and the model's own fields. -/
theorem State.servedCpu_eq (s : State) (c o : Cpu) :
    s.servedCpu c o =
      { c with fpr := Vector.ofFn (fun i : Fin 16 =>
                 if s.cfg.fpExtInstalled = true ∨ i = 0 ∨ i = 2 ∨ i = 4 ∨ i = 6 then c.fpr[i] else o.fpr[i]),
               todProg := if s.cfg.extTodInstalled = true then c.todProg else o.todProg,
               exTarget := o.exTarget, staleBytes := o.staleBytes } := by
  unfold State.servedCpu
  simp only [State.fprNumbers_contains]

/-- What a host service can leave of the CPU that executes, and of another. -/
theorem State.serviceCpu_executing (s : State) (c : Cpu) (hp : s.hp.assigned c.prefixReg = true) (ha : c.address = s.cpu.address) :
    s.serviceCpu c = { s with cpu := s.servedCpu c s.cpu } := by
  unfold State.serviceCpu State.onCpu
  rw [if_pos hp, if_pos ha.symm]

theorem State.serviceCpu_other (s : State) (c : Cpu) (hp : s.hp.assigned c.prefixReg = true) (ha : c.address ≠ s.cpu.address) :
    s.serviceCpu c = { s with others := s.others.map (fun o => if o.address = c.address then s.servedCpu c o else o) } := by
  unfold State.serviceCpu State.onCpu
  rw [if_pos hp, if_neg (Ne.symm ha)]
  simp only [beq_iff_eq]

-- the store-status function

theorem State.storeAbsolute_cpu (s : State) (l : List (Addr × Byte)) : (s.storeAbsolute l).cpu = s.cpu := by
  induction l generalizing s with
  | nil => rfl
  | cons c rest ih => exact (ih _).trans (by rw [State.record_cpu, State.poke_cpu])

theorem State.storeAbsolute_frame (s : State) (l : List (Addr × Byte)) : frame (s.storeAbsolute l) = frame s := by
  induction l generalizing s with
  | nil => rfl
  | cons c rest ih => exact (ih _).trans (State.put_frame s _ _ _)

theorem State.storeAbsolute_keysKept (s : State) (l : List (Addr × Byte)) : keysKept s (s.storeAbsolute l) := by
  induction l generalizing s with
  | nil => exact keysKept_refl s
  | cons c rest ih => exact keysKept_trans (State.put_keysKept s _ _ _) (ih _)

/-- Stores at different absolute addresses of the host-primary space: each holds its byte afterwards, and no other byte changes. -/
theorem State.storeAbsolute_stored (s : State) (l : List (Addr × Byte)) (hd : (l.map Prod.fst).Nodup) :
    bytesStored s (s.storeAbsolute l) .hostPrimary l := by
  induction l generalizing s with
  | nil => intro i a; split <;> rfl
  | cons c rest ih =>
    rw [List.map_cons, List.nodup_cons] at hd
    intro i a
    refine (ih _ hd.2 i a).trans ?_
    by_cases hi : i = .hostPrimary
    · rw [if_pos hi, if_pos hi, withCells]
      by_cases ha : a = c.1
      · have hn : ∀ d, d ∈ rest → d.1 ≠ a := fun d hdm e => hd.1 (ha ▸ e ▸ List.mem_map_of_mem (f := Prod.fst) hdm)
        rw [if_pos ha, withCells_not_mem _ _ _ hn, State.put_byte, if_pos ⟨⟨hi, rfl⟩, ha⟩]
      · rw [if_neg ha]
        exact withCells_congr _ _ _ _ (by rw [State.put_byte, if_neg (fun e => ha e.2)])
    · rw [if_neg hi, if_neg hi, State.put_byte, if_neg (fun e => hi e.1.1)]

theorem State.storeAbsolute_recorded (s : State) (l : List (Addr × Byte)) (c : Addr × Byte) (hc : c ∈ l) :
    keyReference (((s.storeAbsolute l).space .hostPrimary).key (blockOf c.1)) = true ∧
      keyChange (((s.storeAbsolute l).space .hostPrimary).key (blockOf c.1)) = true := by
  induction l generalizing s with
  | nil => cases hc
  | cons d rest ih =>
    rcases List.mem_cons.mp hc with rfl | hc
    · have h0 := State.put_recorded s .hostPrimary c.1 c.2 rfl
      have hk := State.storeAbsolute_keysKept ((s.poke .hostPrimary c.1 c.2).record .hostPrimary (blockOf c.1) true) rest .hostPrimary (blockOf c.1)
      exact ⟨hk.2.1 h0.1, hk.2.2 h0.2⟩
    · exact ih _ hc

/-- The real offsets of the fields of a status. -/
def statusOffsets : List Nat :=
  [(216, 8), (224, 8), (256, 8), (264, 4), (288, 64), (352, 32), (384, 64), (448, 64)].flatMap (fun f => (List.range f.2).map (f.1 + ·))

theorem statusCells_addrs (base : Addr) (c : Cpu) :
    (statusCells base c).map Prod.fst = statusOffsets.map (fun n => base + BitVec.ofNat 31 n) := by
  have hw : ∀ v : Vector Word 16, (bytesOfWords v.toList).length = 64 := fun v => by rw [bytesOfWords_length]; simp
  have z : ∀ (o n : Nat) (bs : List Byte), bs.length = n → List.map Prod.fst
      (((List.range bs.length).map (fun i => base + BitVec.ofNat 31 (o + i))).zip bs) = (List.range n).map (fun i => base + BitVec.ofNat 31 (o + i)) :=
    fun o n bs h => by rw [List.map_fst_zip (by simp), h]
  unfold statusCells statusFields statusOffsets
  simp only [List.flatMap_cons, List.flatMap_nil, List.map_append, List.append_nil]
  rw [z 216 8 _ rfl, z 224 8 _ rfl, z 256 8 _ rfl, z 264 4 _ rfl, z 288 64 _ (hw _), z 352 32 _ rfl, z 384 64 _ (hw _), z 448 64 _ (hw _)]
  simp only [List.map_map, Function.comp_def]

set_option maxRecDepth 100000 in
/-- The bytes of a status lie at different addresses. -/
theorem statusCells_nodup (base : Addr) (c : Cpu) : ((statusCells base c).map Prod.fst).Nodup := by
  have h1 : statusOffsets.Nodup := by decide
  have h2 : ∀ n, n ∈ statusOffsets → n < 512 := by decide
  rw [statusCells_addrs]
  unfold List.Nodup
  rw [List.pairwise_map]
  refine List.Pairwise.imp_of_mem ?_ h1
  intro x y hx hy hne e
  refine hne ?_
  have hx := h2 x hx
  have hy := h2 y hy
  have e := congrArg BitVec.toNat e
  have hb := base.isLt
  simp only [BitVec.toNat_add, BitVec.toNat_ofNat] at e
  omega

/-- Where a status can be stored, its fields are; elsewhere nothing is (log entry 26). -/
theorem State.storeStatusOf_storable (s : State) (base : Addr) (c : Cpu) (h : statusStorable s base) :
    s.storeStatusOf base c = s.storeAbsolute (statusCells base c) := by
  have hb : s.statusBlockOk (blockOf base) = true := by
    unfold State.statusBlockOk
    rw [h.1, h.2]
    rfl
  unfold State.storeStatusOf
  rw [if_pos hb]
  rfl

theorem State.storeStatusOf_not_storable (s : State) (base : Addr) (c : Cpu) (h : ¬ statusStorable s base) : s.storeStatusOf base c = s := by
  unfold State.storeStatusOf
  rw [if_neg]
  intro hb
  unfold State.statusBlockOk at hb
  rw [Bool.and_eq_true, Bool.not_eq_true'] at hb
  exact h hb

end Sys2Proof.Machine
end

