-- ==== Sys2Proof/Laws/Meaning.lean ====
section
/-! SUPPORT. What the shared operations of the meanings can do, said once: an instruction whose operands meet no exception, one that ends with an
exception, and an interruption. -/

namespace Sys2Proof.Machine

open Sys2Proof.Safety

-- storage and the rest as they were

/-- Storage, storage keys but for recording, and everything but the registers and the PSW of the CPU are as before. -/
structure Quiet (s t : State) : Prop where
  bytes : bytesKept s t
  keys : keysKept s t
  rest : frame t = frame s

theorem Quiet.refl (s : State) : Quiet s s := ⟨bytesKept_refl s, keysKept_refl s, rfl⟩

theorem Quiet.trans {s t u : State} (h1 : Quiet s t) (h2 : Quiet t u) : Quiet s u :=
  ⟨bytesKept_trans h1.bytes h2.bytes, keysKept_trans h1.keys h2.keys, h2.rest.trans h1.rest⟩

theorem Quiet.of_spaces {s t : State} (h : ∀ id, t.space id = s.space id) (hf : frame t = frame s) : Quiet s t :=
  ⟨fun id a => by rw [h], fun id b => by rw [h]; exact keyKept_refl _, hf⟩

theorem Quiet.setGr {s t : State} (h : Quiet s t) (r : Reg) (v : Word) : Quiet s (t.setGr r v) :=
  h.trans (Quiet.of_spaces (State.setGr_space t r v) rfl)
theorem Quiet.setAr {s t : State} (h : Quiet s t) (r : Reg) (v : Word) : Quiet s (t.setAr r v) :=
  h.trans (Quiet.of_spaces (State.setAr_space t r v) rfl)
theorem Quiet.setCr {s t : State} (h : Quiet s t) (r : Reg) (v : Word) : Quiet s (t.setCr r v) :=
  h.trans (Quiet.of_spaces (State.setCr_space t r v) rfl)
theorem Quiet.setPsw {s t : State} (h : Quiet s t) (p : Psw) : Quiet s (t.setPsw p) := h.trans (Quiet.of_spaces (State.setPsw_space t p) rfl)
theorem Quiet.setCc {s t : State} (h : Quiet s t) (n : BitVec 2) : Quiet s (t.setCc n) := h.trans (Quiet.of_spaces (State.setCc_space t n) rfl)
theorem Quiet.setIa {s t : State} (h : Quiet s t) (a : Addr) : Quiet s (t.setIa a) := h.trans (Quiet.of_spaces (State.setIa_space t a) rfl)
theorem Quiet.advance {s t : State} (h : Quiet s t) (n : Nat) : Quiet s (t.advance n) :=
  h.trans (Quiet.of_spaces (State.advance_space t n) rfl)
theorem Quiet.serialize {s t : State} (h : Quiet s t) : Quiet s t.serialize := h.trans (Quiet.of_spaces (State.serialize_space t) rfl)
theorem Quiet.record {s t : State} (h : Quiet s t) (id : SpaceId) (b : Block) (c : Bool) : Quiet s (t.record id b c) :=
  h.trans ⟨State.record_bytesKept t id b c, State.record_keysKept t id b c, State.record_frame t id b c⟩
theorem Quiet.noteFetches {s t : State} (h : Quiet s t) (tg : Target) (l : List Addr) : Quiet s (t.noteFetches tg l) :=
  h.trans ⟨State.noteFetches_bytesKept t tg l, State.noteFetches_keysKept t tg l, State.noteFetches_frame t tg l⟩

theorem Quiet.setGrs {s t : State} (h : Quiet s t) (l : List (Reg × Word)) : Quiet s (t.setGrs l) := by
  induction l generalizing t with
  | nil => exact h
  | cons c rest ih => exact ih (h.setGr c.1 c.2)
theorem Quiet.setArs {s t : State} (h : Quiet s t) (l : List (Reg × Word)) : Quiet s (t.setArs l) := by
  induction l generalizing t with
  | nil => exact h
  | cons c rest ih => exact ih (h.setAr c.1 c.2)
theorem Quiet.setCrs {s t : State} (h : Quiet s t) (l : List (Reg × Word)) : Quiet s (t.setCrs l) := by
  induction l generalizing t with
  | nil => exact h
  | cons c rest ih => exact ih (h.setCr c.1 c.2)

/-- An instruction that answers a next state with storage and the rest as they were. -/
theorem completes_of {s t : State} {e : Effect} (hp : t.cpu.psw = e.psw) (hr : e.onRegisters s t) (hq : Quiet s t) :
    completes (.next t) s e := ⟨t, rfl, hp, hr, hq.bytes, hq.keys, hq.rest⟩

-- reading registers after several were written

theorem setGrs_ar (s : State) (l : List (Reg × Word)) (r : Reg) : (s.setGrs l).ar r = s.ar r := by
  induction l generalizing s with
  | nil => rfl
  | cons c rest ih => exact ih _
theorem setGrs_cr (s : State) (l : List (Reg × Word)) (r : Reg) : (s.setGrs l).cr r = s.cr r := by
  induction l generalizing s with
  | nil => rfl
  | cons c rest ih => exact ih _
theorem setArs_gr (s : State) (l : List (Reg × Word)) (r : Reg) : (s.setArs l).gr r = s.gr r := by
  induction l generalizing s with
  | nil => rfl
  | cons c rest ih => exact ih _
theorem setArs_cr (s : State) (l : List (Reg × Word)) (r : Reg) : (s.setArs l).cr r = s.cr r := by
  induction l generalizing s with
  | nil => rfl
  | cons c rest ih => exact ih _
theorem setCrs_gr (s : State) (l : List (Reg × Word)) (r : Reg) : (s.setCrs l).gr r = s.gr r := by
  induction l generalizing s with
  | nil => rfl
  | cons c rest ih => exact ih _
theorem setCrs_ar (s : State) (l : List (Reg × Word)) (r : Reg) : (s.setCrs l).ar r = s.ar r := by
  induction l generalizing s with
  | nil => rfl
  | cons c rest ih => exact ih _
theorem setGrs_psw (s : State) (l : List (Reg × Word)) : (s.setGrs l).cpu.psw = s.cpu.psw := by
  induction l generalizing s with
  | nil => rfl
  | cons c rest ih => exact ih _
theorem setArs_psw (s : State) (l : List (Reg × Word)) : (s.setArs l).cpu.psw = s.cpu.psw := by
  induction l generalizing s with
  | nil => rfl
  | cons c rest ih => exact ih _
theorem setCrs_psw (s : State) (l : List (Reg × Word)) : (s.setCrs l).cpu.psw = s.cpu.psw := by
  induction l generalizing s with
  | nil => rfl
  | cons c rest ih => exact ih _

theorem withRegs_not_mem (old : Reg → Word) (l : List (Reg × Word)) (r : Reg) (h : ∀ c, c ∈ l → c.1 ≠ r) : withRegs old l r = old r := by
  induction l with
  | nil => rfl
  | cons c rest ih =>
    rw [withRegs, if_neg (fun e => h c (List.mem_cons_self ..) e.symm)]
    exact ih fun d hd => h d (List.mem_cons_of_mem _ hd)

theorem withRegs_congr (f g : Reg → Word) (l : List (Reg × Word)) (r : Reg) (h : f r = g r) : withRegs f l r = withRegs g l r := by
  induction l with
  | nil => exact h
  | cons c rest ih => rw [withRegs, withRegs, ih]

/-- Registers written one after the other, all different: each holds its value, and no other register changes. -/
theorem setGrs_gr (s : State) (l : List (Reg × Word)) (hd : (l.map Prod.fst).Nodup) (r : Reg) : (s.setGrs l).gr r = withRegs s.gr l r := by
  induction l generalizing s with
  | nil => rfl
  | cons c rest ih =>
    rw [List.map_cons, List.nodup_cons] at hd
    show ((s.setGr c.1 c.2).setGrs rest).gr r = _
    rw [ih _ hd.2, withRegs]
    by_cases hr : r = c.1
    · rw [if_pos hr, withRegs_not_mem]
      · rw [hr, State.gr_setGr_same]
      · intro d hdm hdr
        exact hd.1 (hr ▸ hdr ▸ List.mem_map_of_mem (f := Prod.fst) hdm)
    · rw [if_neg hr]
      exact withRegs_congr _ _ _ _ (State.gr_setGr_other s _ _ r hr)
theorem setArs_ar (s : State) (l : List (Reg × Word)) (hd : (l.map Prod.fst).Nodup) (r : Reg) : (s.setArs l).ar r = withRegs s.ar l r := by
  induction l generalizing s with
  | nil => rfl
  | cons c rest ih =>
    rw [List.map_cons, List.nodup_cons] at hd
    show ((s.setAr c.1 c.2).setArs rest).ar r = _
    rw [ih _ hd.2, withRegs]
    by_cases hr : r = c.1
    · rw [if_pos hr, withRegs_not_mem]
      · rw [hr, State.ar_setAr_same]
      · intro d hdm hdr
        exact hd.1 (hr ▸ hdr ▸ List.mem_map_of_mem (f := Prod.fst) hdm)
    · rw [if_neg hr]
      exact withRegs_congr _ _ _ _ (State.ar_setAr_other s _ _ r hr)
theorem setCrs_cr (s : State) (l : List (Reg × Word)) (hd : (l.map Prod.fst).Nodup) (r : Reg) : (s.setCrs l).cr r = withRegs s.cr l r := by
  induction l generalizing s with
  | nil => rfl
  | cons c rest ih =>
    rw [List.map_cons, List.nodup_cons] at hd
    show ((s.setCr c.1 c.2).setCrs rest).cr r = _
    rw [ih _ hd.2, withRegs]
    by_cases hr : r = c.1
    · rw [if_pos hr, withRegs_not_mem]
      · rw [hr, State.cr_setCr_same]
      · intro d hdm hdr
        exact hd.1 (hr ▸ hdr ▸ List.mem_map_of_mem (f := Prod.fst) hdm)
    · rw [if_neg hr]
      exact withRegs_congr _ _ _ _ (State.cr_setCr_other s _ _ r hr)

/-- The registers of a range are different. -/
theorem regRange_nodup (r1 r3 : Reg) : (regRange r1 r3).Nodup := by
  unfold regRange
  rw [List.nodup_iff_pairwise_ne, List.pairwise_map]
  refine List.Pairwise.imp_of_mem ?_ (List.nodup_iff_pairwise_ne.mp List.nodup_range)
  intro i j hi hj hij h
  have hb : (r3 - r1).toNat < 16 := (r3 - r1).isLt
  have hi' := List.mem_range.mp hi
  have hj' := List.mem_range.mp hj
  have h' := congrArg BitVec.toNat h
  rw [BitVec.toNat_add, BitVec.toNat_add, BitVec.toNat_ofNat, BitVec.toNat_ofNat] at h'
  omega

-- the frame of an instruction

theorem choose_one (s : State) (x : ProgExc) : s.choose x [] = x := by
  simp [State.choose, distinct]

theorem choose_mem (s : State) (x : ProgExc) (rest : List ProgExc) : s.choose x rest ∈ x :: rest := by
  have hd : ∀ (l : List ProgExc) (y : ProgExc), y ∈ distinct l → y ∈ l := by
    intro l
    induction l with
    | nil => intro y h; exact h
    | cons z zs ih =>
      intro y h
      rw [distinct] at h
      rcases List.mem_cons.mp h with rfl | h
      · exact List.mem_cons_self ..
      · exact List.mem_cons_of_mem _ (ih y (List.mem_filter.mp h).1)
  unfold State.choose
  split
  · exact List.mem_cons_self ..
  · rename_i y hy
    exact hd _ y (by rw [hy]; exact List.mem_cons_self ..)
  · rename_i h1 h2
    refine hd _ _ ?_
    have hpos : 0 < (distinct (x :: rest)).length := by rw [distinct]; exact Nat.succ_pos _
    have hlt := Nat.mod_lt (s.draw .whichException).toNat hpos
    rw [List.getD_eq_getElem?_getD, List.getElem?_eq_getElem hlt]
    exact List.getElem_mem hlt

/-- Where nothing is recognized the instruction goes on with the updated instruction address. -/
theorem guarded_ok (s : State) (len : Nat) (r : Results) (faults : List ProgExc) (k : State → Out) (h : faults = []) :
    s.guarded len r faults k = k (s.advance len) := by
  rw [h]; rfl

theorem guarded_one (s : State) (len : Nat) (r : Results) (x : ProgExc) (k : State → Out) :
    s.guarded len r [x] k = s.takeException len r x := by
  show s.takeException len r (s.choose x []) = _
  rw [choose_one]

theorem guarded_cons (s : State) (len : Nat) (r : Results) (x : ProgExc) (rest : List ProgExc) (k : State → Out) :
    s.guarded len r (x :: rest) k = s.takeException len r (s.choose x rest) := rfl

theorem supervisorOnly_ok (s : State) (len : Nat) (k : Out) (h : s.cpu.psw.problem = false) : s.supervisorOnly len k = k := by
  simp [State.supervisorOnly, h]

theorem supervisorOnly_problem (s : State) (len : Nat) (k : Out) (h : s.cpu.psw.problem = true) :
    s.supervisorOnly len k = s.takeException len {} .privilegedOperation := by
  simp [State.supervisorOnly, h]

theorem withFetch_ok (s : State) (len : Nat) (r : Results) (c : Check) (spec : List ProgExc) (b : Reg) (ea : Addr) (n : Nat)
    (k : State → List Byte → Out) (hs : spec = []) (h : s.operandFaults c false b ea n = []) :
    s.withFetch len r c spec b ea n k = k ((s.advance len).noteFetches (s.target b) (s.addrs ea n)) (operand s b ea n) := by
  unfold State.withFetch
  rw [guarded_ok _ _ _ _ _ (by rw [hs, h]; rfl)]
  rfl

theorem withStore_ok (s : State) (len : Nat) (r : Results) (spec : List ProgExc) (b : Reg) (ea : Addr) (bytes : List Byte)
    (k : State → Out) (hs : spec = []) (h : storable s b ea bytes.length) :
    s.withStore len r spec b ea bytes k = k ((s.advance len).storeOperand (s.target b) ea bytes) := by
  unfold State.withStore
  rw [guarded_ok _ _ _ _ _ (by rw [hs, h]; rfl)]

theorem withUpdate_ok (s : State) (len : Nat) (r : Results) (b : Reg) (ea : Addr) (f : Byte → Byte) (k : State → Byte → Out)
    (h : storable s b ea 1) :
    s.withUpdate len r b ea f k =
      k ((s.advance len).storeByte (s.target b) ea (f (s.byteAt (s.target b) ea))) (f (s.byteAt (s.target b) ea)) := by
  unfold State.withUpdate
  rw [guarded_ok _ _ _ _ _ h]

theorem withRealFetch_ok (s : State) (len : Nat) (r : Results) (spec : List ProgExc) (ea : Addr) (n : Nat)
    (k : State → List Byte → Out) (hs : spec = []) (h : s.accessFaults hostPrimaryTarget controlCheck false ea n = []) :
    s.withRealFetch len r spec ea n k =
      k ((s.advance len).noteFetches hostPrimaryTarget (s.addrs ea n)) (s.operandBytes hostPrimaryTarget ea n) := by
  unfold State.withRealFetch
  rw [guarded_ok _ _ _ _ _ (by rw [hs, h]; rfl)]

theorem specUnless_true (b : Bool) (h : b = true) : specUnless b = [] := by rw [h]; rfl
theorem specUnless_false (b : Bool) (h : b = false) : specUnless b = [.specification] := by rw [h]; rfl

/-- The space of an operand some byte of which meets no exception is a space of the configuration. -/
theorem knows_of_access (s : State) (t : Target) (c : Check) (store : Bool) (ea : Addr) (n : Nat) (hn : 0 < n)
    (h : s.accessFaults t c store ea n = []) : s.knows t.space = true := by
  unfold State.accessFaults at h
  rw [List.flatMap_eq_nil_iff] at h
  have h0 := h (wrapMode s.cpu.psw.amode (ea + BitVec.ofNat 31 0)) (List.mem_map.mpr ⟨0, List.mem_range.mpr hn, rfl⟩)
  unfold State.byteFaults at h0
  rw [List.append_eq_nil_iff] at h0
  have h1 := h0.2
  split at h1
  · cases h1
  · split at h1
    · cases h1
    · rename_i ha
      exact State.knows_of_assigned s t.space (blockOf (s.absolute t (wrapMode s.cpu.psw.amode (ea + BitVec.ofNat 31 0)))) (by simpa using ha)

theorem knows_of_operand (s : State) (c : Check) (store : Bool) (b : Reg) (ea : Addr) (n : Nat) (hn : 0 < n)
    (h : s.operandFaults c store b ea n = []) : s.knows (s.target b).space = true := by
  unfold State.operandFaults at h
  unfold State.target
  cases hr : s.resolve b with
  | error x => rw [hr] at h; cases h
  | ok t => rw [hr] at h; exact knows_of_access s t c store ea n hn h

-- storing an operand

theorem storeOperand_frame (s : State) (t : Target) (ea : Addr) (bytes : List Byte) : frame (s.storeOperand t ea bytes) = frame s :=
  State.storeBytes_frame s t _
theorem storeOperand_keysKept (s : State) (t : Target) (ea : Addr) (bytes : List Byte) : keysKept s (s.storeOperand t ea bytes) :=
  State.storeBytes_keysKept s t _
theorem storeOperand_cpu (s : State) (t : Target) (ea : Addr) (bytes : List Byte) :
    (s.storeOperand t ea bytes).cpu = { s.cpu with staleBytes := (s.storeOperand t ea bytes).cpu.staleBytes } :=
  State.storeBytes_cpu s t _

theorem zip_absolute (s : State) (t : Target) (l : List Addr) (bytes : List Byte) :
    (l.zip bytes).map (fun c => (s.absolute t c.1, c.2)) = (l.map (s.absolute t)).zip bytes := by
  rw [List.zip_map_left]
  rfl

/-- Addresses that are different stay different as absolute addresses. -/
theorem absolute_nodup (s : State) (t : Target) (l : List Addr) (h : l.Nodup) : (l.map (s.absolute t)).Nodup := by
  rw [List.nodup_iff_pairwise_ne, List.pairwise_map]
  exact (List.nodup_iff_pairwise_ne.mp h).imp fun hne he => hne (State.absolute_inj s t _ _ he)

theorem zip_fst_sublist (s : State) (t : Target) (l : List Addr) (bytes : List Byte) :
    ((l.zip bytes).map (fun c => s.absolute t c.1)).Sublist (l.map (s.absolute t)) := by
  induction l generalizing bytes with
  | nil => exact List.Sublist.refl _
  | cons a l ih =>
    cases bytes with
    | nil => exact List.nil_sublist _
    | cons b bs => exact (ih bs).cons_cons _

/-- What storing the bytes of an operand does to storage: those bytes, in order, at the absolute addresses of the operand, and no others. -/
theorem storeOperand_stored (s : State) (t : Target) (ea : Addr) (bytes : List Byte) (hn : bytes.length ≤ 2 ^ 24)
    (hk : 0 < bytes.length → s.knows t.space = true) :
    bytesStored s (s.storeOperand t ea bytes) t.space (((s.addrs ea bytes.length).map (s.absolute t)).zip bytes) := by
  unfold State.storeOperand
  cases bytes with
  | nil =>
    intro i a
    simp [State.addrs, operandAddrs, State.storeBytes, withCells]
  | cons b bs =>
    have hd := (absolute_nodup s t _ (operandAddrs_nodup s.cpu.psw.amode ea (b :: bs).length hn)).sublist
      (zip_fst_sublist s t _ (b :: bs))
    have h := State.storeBytes_stored s t ((s.addrs ea (b :: bs).length).zip (b :: bs)) (hk (Nat.succ_pos _)) hd
    rwa [zip_absolute] at h

theorem storeOperand_recorded (s : State) (t : Target) (ea : Addr) (bytes : List Byte) (hk : 0 < bytes.length → s.knows t.space = true) :
    ∀ c, c ∈ ((s.addrs ea bytes.length).map (s.absolute t)).zip bytes →
      keyReference (((s.storeOperand t ea bytes).space t.space).key (blockOf c.1)) = true ∧
        keyChange (((s.storeOperand t ea bytes).space t.space).key (blockOf c.1)) = true := by
  intro c hc
  rw [← zip_absolute] at hc
  obtain ⟨d, hd, rfl⟩ := List.mem_map.mp hc
  have hpos : 0 < bytes.length := by
    cases bytes with
    | nil => simp at hd
    | cons b bs => exact Nat.succ_pos _
  exact State.storeBytes_recorded s t _ (hk hpos) d hd

/-- An instruction that stores an operand and then changes registers or the PSW alone. -/
theorem completesStore_of {s t u : State} {e : Effect} (b : Reg) (ea : Addr) (bytes : List Byte) (len : Nat)
    (hs : storable s b ea bytes.length) (hn : bytes.length ≤ 2 ^ 24) (ht : t = (s.advance len).storeOperand (s.target b) ea bytes)
    (hq : Quiet t u) (hp : u.cpu.psw = e.psw) (hr : e.onRegisters s u) :
    completesStore (.next u) s e (operandSpace s b) (storedCells s b ea bytes) := by
  have hk : 0 < bytes.length → (s.advance len).knows (s.target b).space = true := fun h => by
    rw [frame_knows _ _ (frame_advance s len)]
    exact knows_of_operand s operandCheck true b ea bytes.length h hs
  have hst := storeOperand_stored (s.advance len) (s.target b) ea bytes hn hk
  have hrec := storeOperand_recorded (s.advance len) (s.target b) ea bytes hk
  subst ht
  refine ⟨u, rfl, hp, hr, ?_, ?_, ?_, ?_⟩
  · intro i a
    rw [hq.bytes i a]
    have h := hst i a
    rw [State.advance_space] at h
    exact h
  · refine keysKept_trans ?_ hq.keys
    intro i b'
    have h := storeOperand_keysKept (s.advance len) (s.target b) ea bytes i b'
    rwa [State.advance_space] at h
  · rw [hq.rest, storeOperand_frame, frame_advance]
  · intro c hc
    have h := hrec c hc
    have hkk := hq.keys (s.target b).space (blockOf c.1)
    exact ⟨hkk.2.1 h.1, hkk.2.2 h.2⟩

-- interruptions

/-- The real locations of fields, in order. -/
def fieldLocs (fields : List (Nat × List Byte)) : List Nat :=
  fields.flatMap (fun f => (List.range f.2.length).map (fun i => f.1 + i))

/-- The real addresses and the bytes of fields. -/
def fieldCells (fields : List (Nat × List Byte)) : List (Addr × Byte) :=
  fields.flatMap (fun f => ((List.range f.2.length).map (fun i => BitVec.ofNat 31 (f.1 + i))).zip f.2)

theorem storeBytes_append (s : State) (t : Target) (l m : List (Addr × Byte)) :
    s.storeBytes t (l ++ m) = (s.storeBytes t l).storeBytes t m := by
  induction l generalizing s with
  | nil => rfl
  | cons c rest ih => exact ih _

theorem storeReals_eq (s : State) (fields : List (Nat × List Byte)) : s.storeReals fields = s.storeBytes hostPrimaryTarget (fieldCells fields) := by
  induction fields generalizing s with
  | nil => rfl
  | cons f rest ih =>
    show (s.storeReal f.1 f.2).storeReals rest = _
    rw [ih, show fieldCells (f :: rest) =
      ((List.range f.2.length).map (fun i => BitVec.ofNat 31 (f.1 + i))).zip f.2 ++ fieldCells rest from rfl, storeBytes_append]
    rfl

theorem realCells_eq (s : State) (fields : List (Nat × List Byte)) :
    (fieldCells fields).map (fun c => (s.absolute hostPrimaryTarget c.1, c.2)) = realCells s fields := by
  induction fields with
  | nil => rfl
  | cons f rest ih =>
    rw [show fieldCells (f :: rest) =
      ((List.range f.2.length).map (fun i => BitVec.ofNat 31 (f.1 + i))).zip f.2 ++ fieldCells rest from rfl, List.map_append, ih,
      zip_absolute, List.map_map]
    rfl

theorem fieldCells_fst_sublist (fields : List (Nat × List Byte)) :
    ((fieldCells fields).map Prod.fst).Sublist ((fieldLocs fields).map (BitVec.ofNat 31)) := by
  induction fields with
  | nil => exact List.Sublist.refl _
  | cons f rest ih =>
    rw [fieldCells, fieldLocs, List.flatMap_cons, List.flatMap_cons, List.map_append, List.map_append]
    rw [fieldCells, fieldLocs] at ih
    refine List.Sublist.append ?_ ih
    rw [List.map_map]
    generalize (List.range f.2.length) = l
    generalize f.2 = bs
    induction l generalizing bs with
    | nil => exact List.Sublist.refl _
    | cons i l ih =>
      cases bs with
      | nil => exact List.nil_sublist _
      | cons b bs => exact (ih bs).cons_cons _

theorem ofNat31_nodup (l : List Nat) (h : l.Nodup) (hb : ∀ n, n ∈ l → n < 2 ^ 31) : (l.map (BitVec.ofNat 31)).Nodup := by
  rw [List.nodup_iff_pairwise_ne, List.pairwise_map]
  refine List.Pairwise.imp_of_mem ?_ (List.nodup_iff_pairwise_ne.mp h)
  intro i j hi hj hij he
  have h' := congrArg BitVec.toNat he
  rw [BitVec.toNat_ofNat, BitVec.toNat_ofNat, Nat.mod_eq_of_lt (hb i hi), Nat.mod_eq_of_lt (hb j hj)] at h'
  exact hij h'

/-- The fields of an interruption lie apart from one another and from the new PSW. -/
def apart (new : Nat) (fields : List (Nat × List Byte)) : Prop :=
  (fieldLocs fields).Nodup ∧ (∀ n, n ∈ fieldLocs fields → n < 4096 ∧ ¬ (new ≤ n ∧ n < new + 8)) ∧ new + 8 ≤ 4096

theorem mem_fieldCells (fields : List (Nat × List Byte)) (c : Addr × Byte) (h : c ∈ fieldCells fields) :
    ∃ n, n ∈ fieldLocs fields ∧ c.1 = BitVec.ofNat 31 n := by
  have h1 : c.1 ∈ (fieldCells fields).map Prod.fst := List.mem_map_of_mem h
  obtain ⟨n, hn, he⟩ := List.mem_map.mp ((fieldCells_fst_sublist fields).subset h1)
  exact ⟨n, hn, he.symm⟩

/-- What storing fields at real locations does. -/
theorem storeReals_stored (s : State) (fields : List (Nat × List Byte)) (hd : (fieldLocs fields).Nodup)
    (hb : ∀ n, n ∈ fieldLocs fields → n < 2 ^ 31) : bytesStored s (s.storeReals fields) .hostPrimary (realCells s fields) := by
  rw [storeReals_eq]
  have hnd : ((fieldCells fields).map (fun c => s.absolute hostPrimaryTarget c.1)).Nodup := by
    have h1 := (ofNat31_nodup _ hd hb).sublist (fieldCells_fst_sublist fields)
    have h2 := absolute_nodup s hostPrimaryTarget _ h1
    rwa [List.map_map] at h2
  have h := State.storeBytes_stored s hostPrimaryTarget (fieldCells fields) rfl hnd
  rwa [realCells_eq] at h

/-- Fields stored leave the locations of the new PSW alone. -/
theorem storeReals_realBytes (s : State) (new : Nat) (fields : List (Nat × List Byte)) (hap : apart new fields) :
    (s.storeReals fields).realBytes new 8 = s.realBytes new 8 := by
  obtain ⟨hd, hb, hnew⟩ := hap
  have hbs := storeReals_stored s fields hd (fun n hn => Nat.lt_trans (hb n hn).1 (by decide))
  have hfr : frame (s.storeReals fields) = frame s := by rw [storeReals_eq, State.storeBytes_frame]
  unfold State.realBytes
  refine List.map_congr_left fun i hi => ?_
  have hi8 : i < 8 := List.mem_range.mp hi
  unfold State.byteAt
  rw [frame_absolute _ _ hfr]
  have h := hbs .hostPrimary (s.absolute hostPrimaryTarget (BitVec.ofNat 31 (new + i)))
  rw [if_pos rfl] at h
  refine h.trans (withCells_not_mem _ _ _ fun c hc => ?_)
  rw [← realCells_eq] at hc
  obtain ⟨d, hdm, rfl⟩ := List.mem_map.mp hc
  obtain ⟨n, hn, hdn⟩ := mem_fieldCells _ d hdm
  intro he
  have he' := State.absolute_inj s hostPrimaryTarget _ _ he
  rw [hdn] at he'
  have h' := congrArg BitVec.toNat he'
  have hnb := hb n hn
  rw [BitVec.toNat_ofNat, BitVec.toNat_ofNat] at h'
  omega

/-- The end of an interruption, from the state its stores have made. -/
theorem enters_of {s u : State} {old new : Nat} {fields : List (Nat × List Byte)} {e : Effect} {l : List Addr}
    (hb : bytesStored s u .hostPrimary (realCells s ((old, bytes64 e.psw.toDWord) :: fields))) (hk : keysKept s u)
    (hf : frame u = frame s) (hr : e.onRegisters s u) (hn : u.realBytes new 8 = s.realBytes new 8) :
    enters (.next ((u.noteFetches hostPrimaryTarget l).setPsw (Psw.ofDWord (be64 (u.realBytes new 8))))) s e old new fields := by
  refine ⟨_, rfl, ?_, ?_, ?_, ?_, ?_⟩
  · rw [State.setPsw_cpu_psw, hn]
  · have hq := State.noteFetches_cpu u hostPrimaryTarget l
    refine ⟨fun r => ?_, fun r => ?_, fun r => ?_⟩
    · rw [State.setPsw_gr, ← hr.1 r]; unfold State.gr; simp only [hq]
    · rw [State.setPsw_ar, ← hr.2.1 r]; unfold State.ar; simp only [hq]
    · rw [State.setPsw_cr, ← hr.2.2 r]; unfold State.cr; simp only [hq]
  · intro i a
    rw [State.setPsw_space, State.noteFetches_bytesKept _ _ _ i a]
    exact hb i a
  · exact keysKept_trans hk ((Quiet.refl u).noteFetches _ _ |>.setPsw _).keys
  · rw [frame_setPsw, State.noteFetches_frame, hf]

theorem interrupt_eq (s : State) (old new : Nat) (ident : List (Nat × List Byte)) (ha : s.prefixAreaAssigned = true) :
    s.interrupt old new ident =
      .next (((s.serialize.storeReals ((old, bytes64 s.cpu.psw.toDWord) :: ident)).noteFetches hostPrimaryTarget
        ((List.range 8).map (fun i => BitVec.ofNat 31 (new + i)))).setPsw
          (Psw.ofDWord (be64 ((s.serialize.storeReals ((old, bytes64 s.cpu.psw.toDWord) :: ident)).realBytes new 8)))) := by
  unfold State.interrupt
  rw [if_pos ha]
  generalize bytes64 s.cpu.psw.toDWord = b
  rfl

/-- An interruption (R400) in a state `s`, everything it can do, as seen from a state `s0` from which the CPU came to `s` by changing registers and
the PSW alone. -/
theorem interrupt_enters {s0 s : State} {e : Effect} (old new : Nat) (ident : List (Nat × List Byte)) (ha : s0.prefixAreaAssigned = true)
    (hq : Quiet s0 s) (hr : e.onRegisters s0 s) (hp : s.cpu.psw = e.psw)
    (hap : apart new ((old, bytes64 e.psw.toDWord) :: ident)) : enters (s.interrupt old new ident) s0 e old new ident := by
  have ha' : s.prefixAreaAssigned = true := by rw [frame_prefixAreaAssigned s0 s hq.rest, ha]
  rw [interrupt_eq s old new ident ha', hp]
  have hq' : Quiet s0 s.serialize := hq.serialize
  generalize hfs : ((old, bytes64 e.psw.toDWord) :: ident) = fields at hap ⊢
  have hst := storeReals_stored s.serialize fields hap.1 (fun n hn => Nat.lt_trans (hap.2.1 n hn).1 (by decide))
  have hcells : realCells s.serialize fields = realCells s0 fields := by
    have h : ∀ r, s.serialize.prefixed r = s0.prefixed r := frame_prefixed s0 _ hq'.rest
    unfold realCells
    simp only [h]
  have hfr : frame (s.serialize.storeReals fields) = frame s0 := by rw [storeReals_eq, State.storeBytes_frame, hq'.rest]
  refine enters_of ?_ ?_ hfr ?_ ?_
  · rw [hfs]
    intro i a
    have h := hst i a
    rw [hcells] at h
    rw [h]
    by_cases hi : i = .hostPrimary
    · rw [if_pos hi, if_pos hi]
      exact withCells_congr _ _ _ _ (hq'.bytes i a)
    · rw [if_neg hi, if_neg hi]
      exact hq'.bytes i a
  · rw [storeReals_eq]
    exact keysKept_trans hq'.keys (State.storeBytes_keysKept _ _ _)
  · refine ⟨fun r => ?_, fun r => ?_, fun r => ?_⟩
    · rw [storeReals_eq, State.storeBytes_gr, State.serialize_gr]; exact hr.1 r
    · rw [storeReals_eq, State.storeBytes_ar, State.serialize_ar]; exact hr.2.1 r
    · rw [storeReals_eq, State.storeBytes_cr, State.serialize_cr]; exact hr.2.2 r
  · rw [storeReals_realBytes _ _ _ hap]
    unfold State.realBytes
    refine List.map_congr_left fun i _ => ?_
    unfold State.byteAt
    rw [frame_absolute _ _ hq'.rest]
    exact hq'.bytes .hostPrimary _

theorem apart_two (old new loc : Nat) (b b' : List Byte) (hb : b.length = 8) (hb' : b'.length = 4)
    (h : apart new [(old, List.replicate 8 0), (loc, List.replicate 4 0)]) : apart new [(old, b), (loc, b')] := by
  have he : fieldLocs [(old, b), (loc, b')] = fieldLocs [(old, List.replicate 8 0), (loc, List.replicate 4 0)] := by
    simp only [fieldLocs, List.flatMap_cons, List.flatMap_nil, hb, hb', List.length_replicate]
  unfold apart at h ⊢
  rwa [he]

theorem bytes64_length (v : DWord) : (bytes64 v).length = 8 := rfl
theorem bytes32_length (v : Word) : (bytes32 v).length = 4 := rfl
theorem bytes16_length (v : Half) : (bytes16 v).length = 2 := rfl

theorem apart_program (v : DWord) (b0 b1 : Byte) (code : Half) : apart 104 [(40, bytes64 v), (140, [b0, b1] ++ bytes16 code)] := by
  refine apart_two 40 104 140 _ _ rfl rfl ?_
  unfold apart
  decide

theorem apart_supervisor (v : DWord) (b0 b1 b2 b3 : Byte) : apart 96 [(32, bytes64 v), (136, [b0, b1, b2, b3])] := by
  refine apart_two 32 96 136 _ _ rfl rfl ?_
  unfold apart
  decide

theorem apart_alet (v : DWord) (b0 b1 b2 : Byte) (code : Half) (w : Word) :
    apart 104 [(40, bytes64 v), (140, [b0, b1] ++ bytes16 code), (168, bytes32 w), (160, [b2])] := by
  have he : fieldLocs [(40, bytes64 v), (140, [b0, b1] ++ bytes16 code), (168, bytes32 w), (160, [b2])] =
      fieldLocs [(40, List.replicate 8 0), (140, List.replicate 4 0), (168, List.replicate 4 0), (160, List.replicate 1 0)] := by
    simp only [fieldLocs, List.flatMap_cons, List.flatMap_nil, bytes64_length, bytes32_length, bytes16_length, List.length_append,
      List.length_cons, List.length_nil, List.length_replicate]
  unfold apart
  rw [he]
  decide

/-- A program interruption without identification fields of its own (R403). -/
theorem programInterruption_enters {s0 s : State} {e : Effect} (code : Half) (ilc : Nat) (ha : s0.prefixAreaAssigned = true)
    (hq : Quiet s0 s) (hr : e.onRegisters s0 s) (hp : s.cpu.psw = e.psw) :
    entersProgram (s.programInterruption code ilc []) s0 e code ilc [] :=
  interrupt_enters 40 104 _ ha hq hr hp (apart_program _ _ _ _)

/-- A program interruption that stores an ALET and an exception access identification (R409, R410). -/
theorem programInterruption_alet {s0 s : State} {e : Effect} (code : Half) (ilc : Nat) (w : Word) (b : Byte)
    (ha : s0.prefixAreaAssigned = true) (hq : Quiet s0 s) (hr : e.onRegisters s0 s) (hp : s.cpu.psw = e.psw) :
    entersProgram (s.programInterruption code ilc [(168, bytes32 w), (160, [b])]) s0 e code ilc [(168, bytes32 w), (160, [b])] :=
  interrupt_enters 40 104 _ ha hq hr hp (apart_alet _ _ _ _ _ _)

theorem apart_protection (v : DWord) (b0 b1 b2 : Byte) (code : Half) (w : Word) :
    apart 104 [(40, bytes64 v), (140, [b0, b1] ++ bytes16 code), (144, bytes32 w), (160, [b2])] := by
  have he : fieldLocs [(40, bytes64 v), (140, [b0, b1] ++ bytes16 code), (144, bytes32 w), (160, [b2])] =
      fieldLocs [(40, List.replicate 8 0), (140, List.replicate 4 0), (144, List.replicate 4 0), (160, List.replicate 1 0)] := by
    simp only [fieldLocs, List.flatMap_cons, List.flatMap_nil, bytes64_length, bytes32_length, bytes16_length, List.length_append,
      List.length_cons, List.length_nil, List.length_replicate]
  unfold apart
  rw [he]
  decide

/-- A program interruption that stores a translation-exception identification and an exception access identification (R412). -/
theorem programInterruption_protection {s0 s : State} {e : Effect} (code : Half) (ilc : Nat) (w : Word) (b : Byte)
    (ha : s0.prefixAreaAssigned = true) (hq : Quiet s0 s) (hr : e.onRegisters s0 s) (hp : s.cpu.psw = e.psw) :
    entersProgram (s.programInterruption code ilc [(144, bytes32 w), (160, [b])]) s0 e code ilc [(144, bytes32 w), (160, [b])] :=
  interrupt_enters 40 104 _ ha hq hr hp (apart_protection _ _ _ _ _ _)

theorem onRegisters_of_eq {s t : State} {p : Psw} (hg : ∀ r, t.gr r = s.gr r) (ha : ∀ r, t.ar r = s.ar r) (hc : ∀ r, t.cr r = s.cr r) :
    (Effect.mk p [] [] []).onRegisters s t := ⟨hg, ha, hc⟩

/-- An exception that always suppresses and stores no field of its own. -/
def ProgExc.plain : ProgExc → Bool
  | .operation => true
  | .privilegedOperation => true
  | .execute => true
  | .specification => true
  | .fixedPointDivide => true
  | .translationSpecification => true
  | .specialOperation => true
  | .aletSpecification => true
  | .addressing terminates => !terminates
  | _ => false

theorem ending_plain (s : State) (x : ProgExc) (hx : x.plain = true) : s.ending x = .suppress ∧ s.extraStores x = [] := by
  cases x with
  | addressing terminates =>
    cases terminates with
    | false => exact ⟨rfl, rfl⟩
    | true => exact absurd hx (by decide)
  | protection b t v => exact Bool.noConfusion hx
  | fixedPointOverflow => exact Bool.noConfusion hx
  | alenTranslation a r => exact Bool.noConfusion hx
  | addressingCapability a r => exact Bool.noConfusion hx
  | operation => exact ⟨rfl, rfl⟩
  | privilegedOperation => exact ⟨rfl, rfl⟩
  | execute => exact ⟨rfl, rfl⟩
  | specification => exact ⟨rfl, rfl⟩
  | fixedPointDivide => exact ⟨rfl, rfl⟩
  | translationSpecification => exact ⟨rfl, rfl⟩
  | specialOperation => exact ⟨rfl, rfl⟩
  | aletSpecification => exact ⟨rfl, rfl⟩

theorem ended_suppress (s : State) (len : Nat) (r : Results) (x : ProgExc) (hx : s.ending x = .suppress)
    (hn : ∀ b t v, x ≠ .protection b t v) : s.ended len r x = s.advance len := by
  unfold State.ended
  rw [hx]
  cases x with
  | protection b t v => exact absurd rfl (hn b t v)
  | _ => rfl

/-- Taking an exception that suppresses. -/
theorem takeException_suppresses (s : State) (len : Nat) (r : Results) (x : ProgExc) (hx : x.plain = true)
    (ha : s.prefixAreaAssigned = true) : suppresses (s.takeException len r x) s len x.code := by
  have h := ending_plain s x hx
  have he : s.ended len r x = s.advance len := ended_suppress s len r x h.1 (fun b t v e => by rw [e] at hx; exact Bool.noConfusion hx)
  unfold State.takeException
  rw [he, h.2]
  exact programInterruption_enters x.code (s.ilcOf len) ha ((Quiet.refl s).advance len)
    (onRegisters_of_eq (fun _ => rfl) (fun _ => rfl) (fun _ => rfl)) rfl

/-- An instruction that recognizes one exception, and that one suppresses. -/
theorem guarded_suppresses (s : State) (len : Nat) (r : Results) (faults : List ProgExc) (k : State → Out) (x : ProgExc) (hf : faults = [x])
    (hx : x.plain = true) (ha : s.prefixAreaAssigned = true) : suppresses (s.guarded len r faults k) s len x.code := by
  rw [hf, guarded_one]
  exact takeException_suppresses s len r x hx ha

end Sys2Proof.Machine
end

