-- ==== Sys2Proof/Laws/Completion.lean ====
section
/-! SUPPORT. How an instruction completes: the state in the middle of an instruction, and what each ending from there is. -/

namespace Sys2Proof.Machine

open Sys2Proof.Safety

theorem registers_none {s t : State} {p : Psw} (hg : ∀ r, t.gr r = s.gr r) (ha : ∀ r, t.ar r = s.ar r) (hc : ∀ r, t.cr r = s.cr r) :
    (Effect.mk p [] [] []).onRegisters s t := ⟨hg, ha, hc⟩

theorem registers_one {s t : State} {p : Psw} {r1 : Reg} {v : Word} (hg : ∀ r, t.gr r = if r = r1 then v else s.gr r)
    (ha : ∀ r, t.ar r = s.ar r) (hc : ∀ r, t.cr r = s.cr r) : (Effect.mk p [(r1, v)] [] []).onRegisters s t := ⟨hg, ha, hc⟩

/-- `u` is `s` in the middle of an instruction `n` bytes long: the instruction address updated, fetches recorded, no register replaced yet. -/
structure Advanced (s u : State) (n : Nat) : Prop where
  quiet : Quiet s u
  psw : u.cpu.psw = pswNext s n
  gr : ∀ r, u.gr r = s.gr r
  ar : ∀ r, u.ar r = s.ar r
  cr : ∀ r, u.cr r = s.cr r
  target : u.cpu.exTarget = s.cpu.exTarget

theorem Advanced.start (s : State) (n : Nat) : Advanced s (s.advance n) n :=
  ⟨(Quiet.refl s).advance n, rfl, fun _ => rfl, fun _ => rfl, fun _ => rfl, rfl⟩

theorem Advanced.fetch {s u : State} {n : Nat} (b : Advanced s u n) (t : Target) (l : List Addr) : Advanced s (u.noteFetches t l) n := by
  have h := State.noteFetches_cpu u t l
  refine ⟨b.quiet.noteFetches t l, by rw [h, b.psw], fun r => ?_, fun r => ?_, fun r => ?_, by rw [h, b.target]⟩
  · rw [← b.gr r]; unfold State.gr; simp only [h]
  · rw [← b.ar r]; unfold State.ar; simp only [h]
  · rw [← b.cr r]; unfold State.cr; simp only [h]

/-- The state from which an instruction goes on after fetching its operand. -/
theorem Advanced.fetched (s : State) (n : Nat) (t : Target) (l : List Addr) : Advanced s ((s.advance n).noteFetches t l) n :=
  (Advanced.start s n).fetch t l

theorem Advanced.serialize {s u : State} {n : Nat} (b : Advanced s u n) : Advanced s u.serialize n :=
  ⟨b.quiet.serialize, b.psw, b.gr, b.ar, b.cr, b.target⟩

theorem Advanced.record {s u : State} {n : Nat} (b : Advanced s u n) (id : SpaceId) (k : Block) (c : Bool) :
    Advanced s (u.record id k c) n := by
  have h := State.record_cpu u id k c
  refine ⟨b.quiet.record id k c, by rw [h, b.psw], fun r => ?_, fun r => ?_, fun r => ?_, by rw [h, b.target]⟩
  · rw [← b.gr r]; unfold State.gr; simp only [h]
  · rw [← b.ar r]; unfold State.ar; simp only [h]
  · rw [← b.cr r]; unfold State.cr; simp only [h]

/-- Completion without a result. -/
theorem Advanced.nothing {s u : State} {n : Nat} (b : Advanced s u n) : completes (.next u) s { psw := pswNext s n } :=
  completes_of b.psw (registers_none b.gr b.ar b.cr) b.quiet

/-- Completion with one general register replaced. -/
theorem Advanced.one {s u : State} {n : Nat} (b : Advanced s u n) {r1 : Reg} {v w : Word} (hv : v = w) :
    completes (.next (u.setGr r1 v)) s { psw := pswNext s n, grs := [(r1, w)] } := by
  subst hv
  exact completes_of b.psw (registers_one (fun r => by rw [State.gr_setGr, b.gr]) (fun r => by rw [State.setGr_ar, b.ar])
    (fun r => by rw [State.setGr_cr, b.cr])) (b.quiet.setGr r1 v)

/-- Completion with one general register and the condition code. -/
theorem Advanced.oneCc {s u : State} {n : Nat} (b : Advanced s u n) {r1 : Reg} {v w : Word} {c d : BitVec 2} (hv : v = w) (hc : c = d) :
    completes (.next ((u.setGr r1 v).setCc c)) s { psw := pswCc s n d, grs := [(r1, w)] } := by
  subst hv hc
  refine completes_of ?_ (registers_one (fun r => by rw [State.setCc_gr, State.gr_setGr, b.gr])
    (fun r => by rw [State.setCc_ar, State.setGr_ar, b.ar]) (fun r => by rw [State.setCc_cr, State.setGr_cr, b.cr]))
    ((b.quiet.setGr r1 v).setCc c)
  rw [State.setCc_cpu_psw, State.setGr_cpu_psw, b.psw]
  rfl

/-- Completion with the condition code alone. -/
theorem Advanced.cc {s u : State} {n : Nat} (b : Advanced s u n) {c d : BitVec 2} (hc : c = d) :
    completes (.next (u.setCc c)) s { psw := pswCc s n d } := by
  subst hc
  refine completes_of ?_ (registers_none (fun r => by rw [State.setCc_gr, b.gr]) (fun r => by rw [State.setCc_ar, b.ar])
    (fun r => by rw [State.setCc_cr, b.cr])) (b.quiet.setCc c)
  rw [State.setCc_cpu_psw, b.psw]
  rfl

/-- Completion with several general registers. -/
theorem Advanced.several {s u : State} {n : Nat} (b : Advanced s u n) (l : List (Reg × Word)) (hd : (l.map Prod.fst).Nodup) :
    completes (.next (u.setGrs l)) s { psw := pswNext s n, grs := l } := by
  refine completes_of (by rw [setGrs_psw, b.psw]) ⟨fun r => ?_, fun r => ?_, fun r => ?_⟩ (b.quiet.setGrs l)
  · rw [setGrs_gr u l hd]; exact withRegs_congr _ _ _ _ (b.gr r)
  · rw [setGrs_ar, b.ar]; rfl
  · rw [setGrs_cr, b.cr]; rfl

/-- Completion with several access registers. -/
theorem Advanced.severalArs {s u : State} {n : Nat} (b : Advanced s u n) (l : List (Reg × Word)) (hd : (l.map Prod.fst).Nodup) :
    completes (.next (u.setArs l)) s { psw := pswNext s n, ars := l } := by
  refine completes_of (by rw [setArs_psw, b.psw]) ⟨fun r => ?_, fun r => ?_, fun r => ?_⟩ (b.quiet.setArs l)
  · rw [setArs_gr, b.gr]; rfl
  · rw [setArs_ar u l hd]; exact withRegs_congr _ _ _ _ (b.ar r)
  · rw [setArs_cr, b.cr]; rfl

/-- Completion with several control registers. -/
theorem Advanced.severalCrs {s u : State} {n : Nat} (b : Advanced s u n) (l : List (Reg × Word)) (hd : (l.map Prod.fst).Nodup) :
    completes (.next (u.setCrs l)) s { psw := pswNext s n, crs := l } := by
  refine completes_of (by rw [setCrs_psw, b.psw]) ⟨fun r => ?_, fun r => ?_, fun r => ?_⟩ (b.quiet.setCrs l)
  · rw [setCrs_gr, b.gr]; rfl
  · rw [setCrs_ar, b.ar]; rfl
  · rw [setCrs_cr u l hd]; exact withRegs_congr _ _ _ _ (b.cr r)

/-- Completion with the PSW replaced. -/
theorem Advanced.newPsw {s u : State} {n : Nat} (b : Advanced s u n) {p q : Psw} (h : p = q) : completes (.next (u.setPsw p)) s { psw := q } := by
  subst h
  exact completes_of rfl (registers_none (fun r => by rw [State.setPsw_gr, b.gr]) (fun r => by rw [State.setPsw_ar, b.ar])
    (fun r => by rw [State.setPsw_cr, b.cr])) (b.quiet.setPsw p)

theorem oddOf_ne (r : Reg) (h : evenReg r = true) : oddOf r ≠ r := by
  revert h; revert r; decide

/-- Completion with an even-odd pair of general registers. -/
theorem Advanced.pair {s u : State} {n : Nat} (b : Advanced s u n) {r1 : Reg} {v w : DWord} (he : evenReg r1 = true) (hv : v = w) :
    completes (.next (u.setPair r1 v)) s { psw := pswNext s n, grs := [(r1, field w 0 32), (oddOf r1, field w 32 32)] } := by
  subst hv
  refine Advanced.several b [(r1, field v 0 32), (oddOf r1, field v 32 32)] ?_
  have h := oddOf_ne r1 he
  simp only [List.map_cons, List.map_nil, List.nodup_cons, List.mem_cons, List.not_mem_nil, or_false, not_false_iff, List.nodup_nil, and_true]
  exact fun e => h e.symm

/-- Completion with an even-odd pair and the condition code. -/
theorem Advanced.pairCc {s u : State} {n : Nat} (b : Advanced s u n) {r1 : Reg} {v w : DWord} {c d : BitVec 2} (he : evenReg r1 = true)
    (hv : v = w) (hc : c = d) :
    completes (.next ((u.setPair r1 v).setCc c)) s { psw := pswCc s n d, grs := [(r1, field w 0 32), (oddOf r1, field w 32 32)] } := by
  subst hc
  obtain ⟨t, ht, hp, hr, hb, hk, hf⟩ := b.pair he hv
  have h0 : u.setPair r1 v = t := Host.Outcome.next.inj ht
  rw [h0]
  refine ⟨_, rfl, ?_, ⟨fun r => ?_, fun r => ?_, fun r => ?_⟩, fun i a => ?_, fun i k => ?_, ?_⟩
  · rw [State.setCc_cpu_psw, hp]; rfl
  · rw [State.setCc_gr]; exact hr.1 r
  · rw [State.setCc_ar]; exact hr.2.1 r
  · rw [State.setCc_cr]; exact hr.2.2 r
  · rw [State.setCc_space]; exact hb i a
  · rw [State.setCc_space]; exact hk i k
  · rw [frame_setCc]; exact hf

/-- The end of signed arithmetic: completion where the exact result fits a word or the overflow is masked. -/
theorem Advanced.signed {s u : State} {n : Nat} (b : Advanced s u n) {r1 : Reg} {r : Signed} {x : Int}
    (h : r = ⟨BitVec.ofInt 32 x, decide (¬ fitsWord x)⟩) (ho : s.cpu.psw.overflowMask = false ∨ fitsWord x) :
    completes (u.signedResult n r1 r) s { psw := pswCc s n (sumCc x), grs := [(r1, BitVec.ofInt 32 x)] } := by
  subst h
  have hm : ((u.setGr r1 (BitVec.ofInt 32 x)).setCc (sumCc x)).cpu.psw.overflowMask = s.cpu.psw.overflowMask := by
    show ({ u.cpu.psw with cc := sumCc x } : Psw).overflowMask = _
    rw [b.psw]
    rfl
  have hz : (decide (¬ fitsWord x) && s.cpu.psw.overflowMask) = false := by
    rcases ho with h | h
    · rw [h, Bool.and_false]
    · rw [decide_eq_false (fun e => e h), Bool.false_and]
  unfold State.signedResult State.overflow
  rw [signed_cc, hm, hz]
  exact b.oneCc rfl rfl

/-- An overflow that is not masked: the results are in place when its interruption is taken (R418). -/
theorem overflow_enters {s u : State} {n : Nat} {e : Effect} (hq : Quiet s u) (hr : e.onRegisters s u) (hp : u.cpu.psw = e.psw)
    (hm : e.psw.overflowMask = true) (hi : u.ilcOf n = s.ilcOf n) (ha : s.prefixAreaAssigned = true) :
    entersProgram (u.overflow n true) s e 8 (s.ilcOf n) [] := by
  unfold State.overflow State.report
  rw [hp, hm, hi]
  exact programInterruption_enters _ _ ha hq hr hp

/-- The end of signed arithmetic that overflows with the overflow not masked. -/
theorem Advanced.overflows {s u : State} {n : Nat} (b : Advanced s u n) {r1 : Reg} {r : Signed} {x : Int}
    (h : r = ⟨BitVec.ofInt 32 x, decide (¬ fitsWord x)⟩) (ho : s.cpu.psw.overflowMask = true) (hx : ¬ fitsWord x)
    (ha : s.prefixAreaAssigned = true) :
    entersProgram (u.signedResult n r1 r) s { psw := pswCc s n 3, grs := [(r1, BitVec.ofInt 32 x)] } 8 (s.ilcOf n) [] := by
  subst h
  have hs : sumCc x = 3 := if_pos (by omega)
  unfold State.signedResult
  rw [signed_cc, hs, decide_eq_true hx]
  refine overflow_enters ((b.quiet.setGr r1 _).setCc _) ⟨fun r => ?_, fun r => ?_, fun r => ?_⟩ ?_ ho ?_ ha
  · rw [State.setCc_gr, State.gr_setGr, b.gr]; rfl
  · rw [State.setCc_ar, State.setGr_ar, b.ar]; rfl
  · rw [State.setCc_cr, State.setGr_cr, b.cr]; rfl
  · rw [State.setCc_cpu_psw, State.setGr_cpu_psw, b.psw]; rfl
  · show (if u.cpu.exTarget.isSome then 2 else n / 2) = _
    rw [b.target]
    rfl

-- operands

theorem operand_length (s : State) (b : Reg) (ea : Addr) (n : Nat) : (operand s b ea n).length = n := by
  simp [operand, State.operandBytes, State.addrs, operandAddrs]

/-- Where a longer operand meets no exception, a shorter one at the same address meets none. -/
theorem operandFaults_shorter (s : State) (c : Check) (store : Bool) (b : Reg) (ea : Addr) (m n : Nat) (hm : m ≤ n)
    (h : s.operandFaults c store b ea n = []) : s.operandFaults c store b ea m = [] := by
  unfold State.operandFaults at h ⊢
  cases hr : s.resolve b with
  | error x => rw [hr] at h; cases h
  | ok t =>
    rw [hr] at h
    simp only [State.accessFaults, State.addrs, operandAddrs, List.flatMap_eq_nil_iff, List.mem_map, List.mem_range] at h ⊢
    rintro a ⟨i, hi, rfl⟩
    exact h _ ⟨i, by omega, rfl⟩

/-- An effective address lies within the addressing mode. -/
theorem truncMode_wrap (amode : Bool) (v : Word) : wrapMode amode (truncMode amode v + BitVec.ofNat 31 0) = truncMode amode v := by
  have h0 : truncMode amode v + BitVec.ofNat 31 0 = truncMode amode v := BitVec.add_zero _
  rw [h0]
  unfold wrapMode truncMode
  cases amode with
  | true => rfl
  | false =>
    show (((v.setWidth 24).setWidth 31).setWidth 24).setWidth 31 = (v.setWidth 24).setWidth 31
    apply BitVec.eq_of_toNat_eq
    simp only [BitVec.toNat_setWidth]
    omega

/-- The one address of a one-byte operand. -/
theorem addrs_one (s : State) (b x : Reg) (d : Disp) : s.addrs (s.ea b x d) 1 = [s.ea b x d] := by
  show [wrapMode s.cpu.psw.amode (truncMode s.cpu.psw.amode _ + BitVec.ofNat 31 0)] = [_]
  rw [truncMode_wrap]
  rfl

-- stores

/-- The CPU in the middle of an instruction that has stored its operand: the instruction address updated, no register replaced. -/
theorem stored_psw (s : State) (len : Nat) (t : Target) (ea : Addr) (bytes : List Byte) :
    ((s.advance len).storeOperand t ea bytes).cpu.psw = pswNext s len := by
  rw [storeOperand_cpu]
  rfl

theorem stored_registers (s : State) (len : Nat) (t : Target) (ea : Addr) (bytes : List Byte) (p : Psw) :
    (Effect.mk p [] [] []).onRegisters s ((s.advance len).storeOperand t ea bytes) :=
  ⟨fun r => State.storeBytes_gr _ t _ r, fun r => State.storeBytes_ar _ t _ r, fun r => State.storeBytes_cr _ t _ r⟩

/-- An instruction that does nothing but store. -/
theorem stored_completes (s : State) (len : Nat) (b : Reg) (ea : Addr) (bytes : List Byte) (h : storable s b ea bytes.length)
    (hn : bytes.length ≤ 2 ^ 24) :
    completesStore (.next ((s.advance len).storeOperand (s.target b) ea bytes)) s { psw := pswNext s len } (operandSpace s b)
      (storedCells s b ea bytes) :=
  completesStore_of b ea bytes len h hn rfl (Quiet.refl _) (stored_psw s len _ ea bytes) (stored_registers s len _ ea bytes _)

/-- An instruction that stores and then sets the condition code. -/
theorem stored_cc_completes (s : State) (len : Nat) (b : Reg) (ea : Addr) (bytes : List Byte) (c : BitVec 2)
    (h : storable s b ea bytes.length) (hn : bytes.length ≤ 2 ^ 24) :
    completesStore (.next (((s.advance len).storeOperand (s.target b) ea bytes).setCc c)) s { psw := pswCc s len c } (operandSpace s b)
      (storedCells s b ea bytes) := by
  refine completesStore_of b ea bytes len h hn rfl ((Quiet.refl _).setCc c) ?_ (stored_registers s len _ ea bytes _)
  rw [State.setCc_cpu_psw, stored_psw]
  rfl

theorem withStore_completes (s : State) (len : Nat) (r : Results) (spec : List ProgExc) (b : Reg) (ea : Addr) (bytes : List Byte)
    (hs : spec = []) (h : storable s b ea bytes.length) (hn : bytes.length ≤ 2 ^ 24) :
    completesStore (s.withStore len r spec b ea bytes .next) s { psw := pswNext s len } (operandSpace s b) (storedCells s b ea bytes) := by
  rw [withStore_ok s len r spec b ea bytes _ hs h]
  exact stored_completes s len b ea bytes h hn

-- serialization

/-- An instruction that completes may serialize too. -/
theorem completes_serialize {s u : State} {e : Effect} {other : State → State} (h : completes (.next u) s e other) :
    completes (.next u.serialize) s e other := by
  obtain ⟨t, ht, hp, hr, hb, hk, hf⟩ := h
  cases ht
  exact ⟨_, rfl, hp, hr, hb, hk, hf⟩

theorem completesStore_serialize {s u : State} {e : Effect} {id : SpaceId} {cells : List (Addr × Byte)} {other : State → State}
    (h : completesStore (.next u) s e id cells other) : completesStore (.next u.serialize) s e id cells other := by
  obtain ⟨t, ht, hp, hr, hb, hk, hf, hc⟩ := h
  cases ht
  exact ⟨_, rfl, hp, hr, hb, hk, hf, hc⟩

-- exceptions of the operands

/-- An instruction whose fetch meets no exception, but whose operands are not as they should be. -/
theorem withFetch_suppresses (s : State) (len : Nat) (r : Results) (c : Check) (ok : Bool) (b : Reg) (ea : Addr) (n : Nat)
    (k : State → List Byte → Out) (hs : ok = false) (h : s.operandFaults c false b ea n = []) (ha : s.prefixAreaAssigned = true) :
    suppresses (s.withFetch len r c (specUnless ok) b ea n k) s len 6 :=
  guarded_suppresses s len _ _ _ .specification (by rw [specUnless_false _ hs, h]; rfl) rfl ha

/-- The same of a store. -/
theorem withStore_suppresses (s : State) (len : Nat) (r : Results) (ok : Bool) (b : Reg) (ea : Addr) (bytes : List Byte)
    (k : State → Out) (hs : ok = false) (h : storable s b ea bytes.length) (ha : s.prefixAreaAssigned = true) :
    suppresses (s.withStore len r (specUnless ok) b ea bytes k) s len 6 := by
  unfold State.withStore
  refine guarded_suppresses s len _ _ _ .specification ?_ rfl ha
  rw [specUnless_false _ hs, show s.operandFaults operandCheck true b ea bytes.length = [] from h]
  rfl

end Sys2Proof.Machine
end

