-- ==== Sys2Proof/Laws/Updates.lean ====
section
/-! SUPPORT. Everything an instruction can do, said once: the single updates of which the meanings are composed, and the ways an instruction ends.
An invariant of the machine needs to be shown for each single update only. -/

namespace Sys2Proof.Machine

open Sys2Proof.Safety

/-- The fields of the PSW that only a privileged instruction or an interruption changes. -/
def Psw.sameControl (p q : Psw) : Prop :=
  p.problem = q.problem ∧ p.sysMask = q.sysMask ∧ p.key = q.key ∧ p.machineCheck = q.machineCheck

/-- A byte that an instruction may store into: its block is not read-only under host page protection. -/
def State.writable (u : State) (id : SpaceId) (a : Addr) : Prop := (u.space id).readOnly (blockOf a) = false

/-- One update; those of privileged instructions ask for `sup`. -/
inductive Update (sup : Bool) (u : State) : State → Prop
  | gr (r : Reg) (v : Word) : Update sup u (u.setGr r v)
  | ar (r : Reg) (v : Word) : Update sup u (u.setAr r v)
  | psw (p : Psw) (h : p.sameControl u.cpu.psw) : Update sup u (u.setPsw p)
  | stale (l : List Host.Cell) : Update sup u { u with cpu := { u.cpu with staleBytes := l } }
  | record (id : SpaceId) (b : Block) (c : Bool) : Update sup u (u.record id b c)
  | poke (id : SpaceId) (a : Addr) (v : Byte) (h : u.writable id a) : Update sup u (u.poke id a v)
  | time (d : DWord) : Update sup u (u.passTime d)
  | control (hs : sup = true) (r : Reg) (v : Word) : Update sup u (u.setCr r v)
  | newPsw (hs : sup = true) (p : Psw) : Update sup u (u.setPsw p)
  | comparator (hs : sup = true) (v : DWord) : Update sup u (u.setComparator v)
  | timer (hs : sup = true) (v : DWord) : Update sup u (u.setTimer v)
  | todProg (hs : sup = true) (v : Half) : Update sup u { u with cpu := { u.cpu with todProg := v } }
  | prefixTo (hs : sup = true) (b : Block) (h : b = u.cpu.prefixReg ∨ u.hp.assigned b = true) : Update sup u (u.setPrefix b)
  | key (hs : sup = true) (id : SpaceId) (b : Block) (k : BitVec 7) : Update sup u (u.updateSpace id (fun p => p.setKey b k))
  | clear (hs : sup = true) (id : SpaceId) (b : Block) (r c : Bool) (h : (u.space id).readOnly b = false) :
      Update sup u (u.updateSpace id (fun p => { p with mem := Memory.clearBlock p.mem b }.setKey b (keyWith (p.key b) r c)))
  | cpu (hs : sup = true) (address : Half) (f : Cpu → Cpu)
      (hf : ∀ c, ((f c).exTarget = c.exTarget ∨ (f c).exTarget = none) ∧
        ((f c).prefixReg = c.prefixReg ∨ (f c).prefixReg = 0 ∨ u.hp.assigned (f c).prefixReg = true)) : Update sup u (u.onCpu address f)
  | service (hs : sup = true) (hv : u.services ≠ []) (i : Input) (hi : i.isService = true) : Update sup u (applyInput i u)

/-- Updates one after the other. -/
inductive Updates (sup : Bool) (s : State) : State → Prop
  | none : Updates sup s s
  | after {u t : State} (h : Updates sup s u) (hu : Update sup u t) : Updates sup s t

/-- How an instruction ends: after updates, or with a supervisor-call or program interruption taken after them. -/
def Ended (sup : Bool) (s t : State) : Prop :=
  Updates sup s t ∨ ∃ u old new ident, Updates sup s u ∧ ((old = 32 ∧ new = 96) ∨ (old = 40 ∧ new = 104)) ∧
    (∀ f, f ∈ ident → f.1 + f.2.length ≤ 4096) ∧ u.interrupt old new ident = .next t

/-- Where the outcome is a next state, it is one an instruction can come to. -/
def Reaches (sup : Bool) (s : State) (o : Out) : Prop := ∀ t, o = .next t → Ended sup s t

/-- Moreover an interruption is refused only where updates lead to a prefix area that is not assigned. This is so of every instruction but SET PREFIX,
whose termination may leave any prefix. -/
def Leads (sup : Bool) (s : State) (o : Out) : Prop :=
  Reaches sup s o ∧
    (o = .refused .prefixAreaNotAssigned → ∃ u, Updates sup s u ∧ u.prefixAreaAssigned = false)

variable {sup : Bool} {s u : State}

theorem Updates.trans {t : State} (h1 : Updates sup s u) (h2 : Updates sup u t) : Updates sup s t := by
  induction h2 with
  | none => exact h1
  | after _ hu ih => exact ih.after hu

theorem Updates.setGr (h : Updates sup s u) (r : Reg) (v : Word) : Updates sup s (u.setGr r v) := h.after (.gr r v)
theorem Updates.setAr (h : Updates sup s u) (r : Reg) (v : Word) : Updates sup s (u.setAr r v) := h.after (.ar r v)
theorem Updates.setCc (h : Updates sup s u) (c : BitVec 2) : Updates sup s (u.setCc c) := h.after (.psw _ ⟨rfl, rfl, rfl, rfl⟩)
theorem Updates.setIa (h : Updates sup s u) (a : Addr) : Updates sup s (u.setIa a) := h.after (.psw _ ⟨rfl, rfl, rfl, rfl⟩)
theorem Updates.advance (h : Updates sup s u) (n : Nat) : Updates sup s (u.advance n) := h.setIa _
theorem Updates.serialize (h : Updates sup s u) : Updates sup s u.serialize := h.after (.stale [])
theorem Updates.record (h : Updates sup s u) (id : SpaceId) (b : Block) (c : Bool) : Updates sup s (u.record id b c) := h.after (.record id b c)
theorem Updates.setPair (h : Updates sup s u) (r : Reg) (v : DWord) : Updates sup s (u.setPair r v) := (h.setGr _ _).setGr _ _
theorem Updates.noteFetches (h : Updates sup s u) (t : Target) (l : List Addr) : Updates sup s (u.noteFetches t l) := by
  induction l generalizing u with
  | nil => exact h
  | cons e rest ih => exact ih (h.record _ _ _)
theorem Updates.setGrs (h : Updates sup s u) (l : List (Reg × Word)) : Updates sup s (u.setGrs l) := by
  induction l generalizing u with
  | nil => exact h
  | cons c rest ih => exact ih (h.setGr _ _)
theorem Updates.setArs (h : Updates sup s u) (l : List (Reg × Word)) : Updates sup s (u.setArs l) := by
  induction l generalizing u with
  | nil => exact h
  | cons c rest ih => exact ih (h.setAr _ _)
theorem Updates.setCrs (h : Updates sup s u) (hs : sup = true) (l : List (Reg × Word)) : Updates sup s (u.setCrs l) := by
  induction l generalizing u with
  | nil => exact h
  | cons c rest ih => exact ih (h.after (.control hs _ _))

-- stores

theorem writable_frame {t : State} (hf : frame t = frame u) {id : SpaceId} {a : Addr} (h : u.writable id a) : t.writable id a := by
  unfold State.writable at *
  rw [frame_readOnly u t hf]
  exact h

theorem Updates.storeByte (h : Updates sup s u) (t : Target) (e : Addr) (v : Byte) (hw : u.writable t.space (u.absolute t e)) :
    Updates sup s (u.storeByte t e v) := by
  have h1 : Updates sup s (u.noteStale t e) := by
    unfold State.noteStale
    split
    · exact h.after (.stale _)
    · exact h
  exact (h1.after (.poke _ _ _ (writable_frame (State.noteStale_frame u t e) hw))).record _ _ _

theorem Updates.storeBytes (h : Updates sup s u) (t : Target) (l : List (Addr × Byte))
    (hw : ∀ c, c ∈ l → u.writable t.space (u.absolute t c.1)) : Updates sup s (u.storeBytes t l) := by
  induction l generalizing u with
  | nil => exact h
  | cons c rest ih =>
    refine ih (h.storeByte t c.1 c.2 (hw c (List.mem_cons_self ..))) fun d hd => ?_
    rw [frame_absolute u _ (State.storeByte_frame u t c.1 c.2)]
    exact writable_frame (State.storeByte_frame u t c.1 c.2) (hw d (List.mem_cons_of_mem _ hd))

/-- A byte whose store meets no exception may be stored into. -/
theorem writable_of_faults (s : State) (t : Target) (c : Check) (e : Addr) (h : s.byteFaults t c true e = []) :
    s.writable t.space (s.absolute t e) := by
  unfold State.byteFaults at h
  rw [List.append_eq_nil_iff] at h
  have h2 := h.2
  simp only [Bool.true_and] at h2
  by_cases h3 : t.readOnly = true
  · rw [if_pos h3] at h2; cases h2
  · rw [if_neg h3] at h2
    by_cases h4 : (!(s.space t.space).assigned (blockOf (s.absolute t e))) = true
    · rw [if_pos h4] at h2; cases h2
    · rw [if_neg h4] at h2
      by_cases h5 : (s.space t.space).readOnly (blockOf (s.absolute t e)) = true
      · rw [if_pos h5] at h2; cases h2
      · exact (Bool.not_eq_true _).mp h5

theorem writable_of_operand (s : State) (c : Check) (b : Reg) (ea : Addr) (n : Nat) (h : s.operandFaults c true b ea n = [])
    (e : Addr) (he : e ∈ s.addrs ea n) : s.writable (s.target b).space (s.absolute (s.target b) e) := by
  unfold State.operandFaults at h
  unfold State.target
  cases hr : s.resolve b with
  | error x => rw [hr] at h; cases h
  | ok t =>
    rw [hr] at h
    exact writable_of_faults s t c e (List.flatMap_eq_nil_iff.mp h e he)

/-- A store of an operand that meets no exception, in the middle of an instruction. -/
theorem Updates.storeOperand (h : Updates sup s u) (hf : frame u = frame s) (ha : u.cpu.psw.amode = s.cpu.psw.amode) (b : Reg) (ea : Addr)
    (bytes : List Byte) (n : Nat) (hn : n = bytes.length) (c : Check) (h0 : s.operandFaults c true b ea n = []) :
    Updates sup s (u.storeOperand (s.target b) ea bytes) := by
  subst hn
  refine h.storeBytes _ _ fun c hc => ?_
  have he : c.1 ∈ s.addrs ea bytes.length := by
    have := (List.of_mem_zip hc).1
    unfold State.addrs at this ⊢
    rwa [ha] at this
  rw [frame_absolute s u hf]
  exact writable_frame hf (writable_of_operand s _ b ea _ h0 c.1 he)

-- endings

theorem Leads.next {t : State} (h : Updates sup s t) : Leads sup s (.next t) :=
  ⟨fun _ hv => Host.Outcome.next.inj hv ▸ .inl h, fun hv => (nomatch hv)⟩

theorem Leads.refused (r : Refusal) (h : r ≠ .prefixAreaNotAssigned) : Leads sup s (.refused r) :=
  ⟨fun _ hv => (nomatch hv), fun hv => absurd (Host.Outcome.refused.inj hv) h⟩

/-- An interruption taken after updates. -/
theorem Leads.interrupt (h : Updates sup s u) (old new : Nat) (ident : List (Nat × List Byte))
    (ho : (old = 32 ∧ new = 96) ∨ (old = 40 ∧ new = 104)) (hb : ∀ f, f ∈ ident → f.1 + f.2.length ≤ 4096) :
    Leads sup s (u.interrupt old new ident) := by
  refine ⟨fun t ht => .inr ⟨u, old, new, ident, h, ho, hb, ht⟩, fun hr => ⟨u, h, ?_⟩⟩
  unfold State.interrupt at hr
  split at hr
  · cases hr
  · exact (Bool.not_eq_true _).mp ‹_›

theorem Leads.ite {p : Prop} [Decidable p] {a b : Out} (ha : p → Leads sup s a) (hb : ¬ p → Leads sup s b) : Leads sup s (if p then a else b) := by
  split
  · exact ha ‹_›
  · exact hb ‹_›

theorem real_block (loc : Nat) (h : loc < 4096) : blockOf (BitVec.ofNat 31 loc) = 0 := by
  apply BitVec.eq_of_toNat_eq
  rw [toNat_blockOf, BitVec.toNat_ofNat]
  show loc % 2 ^ 31 / 4096 = 0
  omega

theorem real_absolute (u : State) (loc : Nat) (h : loc < 4096) : blockOf (u.absolute hostPrimaryTarget (BitVec.ofNat 31 loc)) = u.cpu.prefixReg := by
  show blockOf (u.prefixed _) = _
  unfold State.prefixed
  rw [if_pos (real_block loc h), blockOf_append]

theorem realBytes_noteFetches (u : State) (t : Target) (l : List Addr) (loc n : Nat) :
    (u.noteFetches t l).realBytes loc n = u.realBytes loc n := by
  unfold State.realBytes State.byteAt
  have hb := State.noteFetches_bytesKept u t l
  have hf := State.noteFetches_frame u t l
  simp only [frame_absolute _ _ hf, hb _ _]

/-- What an interruption stores is in the prefix area. -/
theorem realCells_block (u : State) (fields : List (Nat × List Byte)) (hb : ∀ f, f ∈ fields → f.1 + f.2.length ≤ 4096) (c : Addr × Byte)
    (hc : c ∈ fieldCells fields) : blockOf (u.absolute hostPrimaryTarget c.1) = u.cpu.prefixReg := by
  obtain ⟨f, hf, hc⟩ := List.mem_flatMap.mp hc
  obtain ⟨i, hi, he⟩ := List.mem_map.mp (List.of_mem_zip hc).1
  have hi' := List.mem_range.mp hi
  have := hb f hf
  rw [← he]
  exact real_absolute u _ (by omega)

theorem storeBytes_bytes_other (u : State) (t : Target) (l : List (Addr × Byte)) (id : SpaceId) (a : Addr)
    (h : ∀ c, c ∈ l → id = t.space → a ≠ u.absolute t c.1) : ((u.storeBytes t l).space id).byte a = (u.space id).byte a := by
  induction l generalizing u with
  | nil => rfl
  | cons c rest ih =>
    have hf := State.storeByte_frame u t c.1 c.2
    rw [State.storeBytes, ih _ (fun d hd hi => by rw [frame_absolute _ _ hf]; exact h d (List.mem_cons_of_mem _ hd) hi), State.storeByte_byte]
    rw [if_neg]
    intro hh
    exact h c (List.mem_cons_self ..) hh.1.1 hh.2

/-- Everything an interruption does: it stores in the prefix area, and loads its new PSW. -/
structure Interrupted (u t : State) (new : Nat) : Prop where
  rest : frame t = frame u
  cpu : t.cpu = { u.cpu with psw := t.cpu.psw, staleBytes := t.cpu.staleBytes }
  keys : keysKept u t
  bytes : ∀ id a, (id = .hostPrimary → blockOf a ≠ u.cpu.prefixReg) → (t.space id).byte a = (u.space id).byte a
  psw : t.cpu.psw = Psw.ofDWord (be64 (t.realBytes new 8))

theorem stored_interrupted (u : State) (fields : List (Nat × List Byte)) (l : List Addr) (p : Psw) (new : Nat)
    (hb : ∀ f, f ∈ fields → f.1 + f.2.length ≤ 4096) (hp : p = Psw.ofDWord (be64 ((u.serialize.storeReals fields).realBytes new 8))) :
    Interrupted u (((u.serialize.storeReals fields).noteFetches hostPrimaryTarget l).setPsw p) new := by
  rw [storeReals_eq] at hp ⊢
  have hcpu : ((u.serialize.storeBytes hostPrimaryTarget (fieldCells fields)).noteFetches hostPrimaryTarget l).cpu =
      { u.cpu with staleBytes := (u.serialize.storeBytes hostPrimaryTarget (fieldCells fields)).cpu.staleBytes } := by
    rw [State.noteFetches_cpu, State.storeBytes_cpu]
    rfl
  refine ⟨?_, ?_, ?_, ?_, ?_⟩
  · rw [frame_setPsw, State.noteFetches_frame, State.storeBytes_frame]
    rfl
  · show ({ ((u.serialize.storeBytes hostPrimaryTarget (fieldCells fields)).noteFetches hostPrimaryTarget l).cpu with psw := p } : Cpu) = _
    rw [hcpu]
    simp only [State.setPsw, hcpu]
  · refine keysKept_trans (t := u.serialize.storeBytes hostPrimaryTarget (fieldCells fields)) ?_ ?_
    · exact keysKept_trans (t := u.serialize) (fun i b => by rw [State.serialize_space]; exact keyKept_refl _) (State.storeBytes_keysKept _ _ _)
    · refine keysKept_trans (State.noteFetches_keysKept _ hostPrimaryTarget l) fun i b => ?_
      rw [State.setPsw_space]
      exact keyKept_refl _
  · intro id a ha
    rw [State.setPsw_space, State.noteFetches_bytesKept, storeBytes_bytes_other, State.serialize_space]
    intro c hc hi he
    refine ha hi ?_
    rw [he]
    exact realCells_block u.serialize fields hb c hc
  · rw [show ∀ (v : State) (p : Psw), (v.setPsw p).realBytes new 8 = v.realBytes new 8 from fun _ _ => rfl, realBytes_noteFetches]
    exact hp

theorem interrupt_interrupted {t : State} (old new : Nat) (ident : List (Nat × List Byte)) (ho : old ≤ 4000)
    (hb : ∀ f, f ∈ ident → f.1 + f.2.length ≤ 4096) (ht : u.interrupt old new ident = .next t) : Interrupted u t new := by
  unfold State.interrupt at ht
  split at ht
  · have hb2 : ∀ f, f ∈ (old, bytes64 u.cpu.psw.toDWord) :: ident → f.1 + f.2.length ≤ 4096 := by
      intro f hf
      rcases List.mem_cons.mp hf with rfl | hf
      · show old + 8 ≤ 4096
        omega
      · exact hb f hf
    have h := stored_interrupted u ((old, bytes64 u.cpu.psw.toDWord) :: ident) ((List.range 8).map (fun i => BitVec.ofNat 31 (new + i))) _ new hb2 rfl
    rw [State.storeReals] at h
    rwa [← Host.Outcome.next.inj ht]
  · cases ht

theorem extraStores_low (s : State) (x : ProgExc) (f : Nat × List Byte) (h : f ∈ s.extraStores x) : f.1 + f.2.length ≤ 4096 := by
  cases x <;> simp only [State.extraStores, List.mem_cons, List.not_mem_nil, or_false] at h
  all_goals rcases h with rfl | rfl <;> (simp [bytes32])

theorem Leads.programInterruption (h : Updates sup s u) (code : Half) (ilc : Nat) (extra : List (Nat × List Byte))
    (hb : ∀ f, f ∈ extra → f.1 + f.2.length ≤ 4096) : Leads sup s (u.programInterruption code ilc extra) := by
  refine Leads.interrupt h 40 104 _ (.inr ⟨rfl, rfl⟩) fun f hf => ?_
  rcases List.mem_cons.mp hf with rfl | hf
  · show 140 + 4 ≤ 4096
    omega
  · exact hb f hf

theorem Leads.report (h : Updates sup s u) (len : Nat) (x : ProgExc) : Leads sup s (u.report len x) :=
  Leads.programInterruption h _ _ [] (fun _ hf => nomatch hf)

/-- The result fields are none that only a privileged instruction has. -/
def Results.plain (r : Results) : Prop := r.crs = [] ∧ r.comparator = false ∧ r.timer = false ∧ r.prefixRegister = false

/-- The result fields do not name the prefix, and name registers that only a privileged instruction has in the supervisor state alone. -/
def Results.allowed (sup : Bool) (r : Results) : Prop := (sup = true ∧ r.prefixRegister = false) ∨ r.plain

theorem strayStores_writable (s : State) (t : Target) (c : Check) (addrs : List Addr) (d : Addr × Byte) (h : d ∈ s.strayStores t c addrs) :
    s.writable t.space (s.absolute t d.1) := by
  unfold State.strayStores at h
  obtain ⟨i, _, hd⟩ := List.mem_filterMap.mp h
  simp only [Bool.and_eq_true, List.isEmpty_iff] at hd
  split at hd
  · rename_i hc
    cases hd
    exact writable_of_faults s t c _ hc.1
  · cases hd

/-- The registers of `Results` that only a privileged instruction has, at any value. -/
theorem Updates.privileged {v : State} (h : Updates sup s v) (hs : sup = true) (k t c : Bool) (a b : DWord) (cc : BitVec 2) :
    Updates sup s (
      let s5 := if k then v.setComparator a else v
      let s6 := if t then s5.setTimer b else s5
      if c then s6.setCc cc else s6) := by
  have h5 : Updates sup s (if k then v.setComparator a else v) := by
    split
    · exact h.after (.comparator hs _)
    · exact h
  dsimp only
  generalize (if k then v.setComparator a else v) = s5 at h5 ⊢
  have h6 : Updates sup s (if t then s5.setTimer b else s5) := by
    split
    · exact h5.after (.timer hs _)
    · exact h5
  generalize (if t then s5.setTimer b else s5) = s6 at h6 ⊢
  split
  · exact h6.setCc _
  · exact h6

/-- The registers of `Results` at any value, after a store. -/
theorem Updates.registers {v : State} (h : Updates sup s v) (r : Results) (hr : r.allowed sup) :
    Updates sup s (
      let s2 := v.setGrs (r.grs.map (fun i => (i, (s.draw (.generalRegister i.toNat)).setWidth 32)))
      let s3 := s2.setArs (r.ars.map (fun i => (i, (s.draw (.accessRegister i.toNat)).setWidth 32)))
      let s4 := s3.setCrs (r.crs.map (fun i => (i, (s.draw (.controlRegister i.toNat)).setWidth 32)))
      let s5 := if r.comparator then s4.setComparator (s.draw .comparator) else s4
      let s6 := if r.timer then s5.setTimer (s.draw .timer) else s5
      let s7 := if r.prefixRegister then s6.setPrefix s.strayPrefix else s6
      if r.cc then s7.setCc ((s.draw .conditionCode).setWidth 2) else s7) := by
  have h3 := (h.setGrs (r.grs.map (fun i => (i, (s.draw (.generalRegister i.toNat)).setWidth 32)))).setArs
    (r.ars.map (fun i => (i, (s.draw (.accessRegister i.toNat)).setWidth 32)))
  rcases hr with ⟨hs, hx⟩ | ⟨hc, hk, ht, hx⟩
  · rw [hx]
    exact (h3.setCrs hs (r.crs.map (fun i => (i, (s.draw (.controlRegister i.toNat)).setWidth 32)))).privileged hs r.comparator r.timer r.cc
      (s.draw .comparator) (s.draw .timer) ((s.draw .conditionCode).setWidth 2)
  · rw [hc, hk, ht, hx]
    cases r.cc with
    | true => exact h3.setCc _
    | false => exact h3

theorem Updates.scramble (s : State) (r : Results) (hr : r.allowed sup) : Updates sup s (s.scramble r) := by
  unfold State.scramble
  cases hst : r.store with
  | none => exact Updates.registers (v := s) .none r hr
  | some x =>
    exact Updates.registers (Updates.none.storeBytes x.1 (s.strayStores x.1 x.2.1 x.2.2) (fun d hd => strayStores_writable s _ _ _ d hd)) r hr

theorem Updates.ended (s : State) (len : Nat) (r : Results) (x : ProgExc) (hr : r.allowed sup) : Updates sup s (s.ended len r x) := by
  unfold State.ended
  split
  · exact Updates.none.advance len
  · exact .none
  · split
    · split
      · exact (Updates.none.setCc _).advance len
      · exact Updates.none.advance len
    · exact Updates.none.advance len
  · exact (Updates.scramble s r hr).advance len

theorem Leads.takeException (s : State) (len : Nat) (r : Results) (x : ProgExc) (hr : r.allowed sup) :
    Leads sup s (s.takeException len r x) :=
  Leads.programInterruption (.ended s len r x hr) _ _ _ (extraStores_low s x)

/-- SET PREFIX: a next state is reached only where the prefix its termination leaves is that of an assigned block. -/
theorem Reaches.prefixException (s : State) (len : Nat) (x : ProgExc) : Reaches true s (s.takeException len { prefixRegister := true } x) := by
  by_cases hx : s.ending x = .terminate
  · have he : s.ended len { prefixRegister := true } x = (s.setPrefix s.strayPrefix).advance len := by
      unfold State.ended
      rw [hx]
      rfl
    intro t ht
    unfold State.takeException at ht
    rw [he] at ht
    by_cases ha : s.hp.assigned s.strayPrefix = true
    · exact (Leads.programInterruption ((Updates.none.after (.prefixTo rfl _ (.inr ha))).advance len) _ _ _ (extraStores_low s x)).1 t ht
    · unfold State.programInterruption State.interrupt at ht
      rw [if_neg (show ¬ ((s.setPrefix s.strayPrefix).advance len).prefixAreaAssigned = true from ha)] at ht
      cases ht
  · have he : s.ended len { prefixRegister := true } x = s.ended len {} x := by
      unfold State.ended
      cases h : s.ending x with
      | terminate => exact absurd h hx
      | complete => rfl
      | nullify => rfl
      | suppress => rfl
    unfold State.takeException
    rw [he]
    exact (Leads.takeException s len {} x (.inr ⟨rfl, rfl, rfl, rfl⟩)).1

/-- Exceptions first, or the rest of the instruction: what holds of the next states of both holds of those of the instruction. -/
theorem Reaches.guarded (s : State) (len : Nat) (r : Results) (faults : List ProgExc) (k : State → Out)
    (hx : ∀ x, Reaches sup s (s.takeException len r x)) (hk : faults = [] → Reaches sup s (k (s.advance len))) :
    Reaches sup s (s.guarded len r faults k) := by
  cases faults with
  | nil => exact hk rfl
  | cons x rest => exact hx _

theorem Leads.guarded (s : State) (len : Nat) (r : Results) (faults : List ProgExc) (k : State → Out) (hr : r.allowed sup)
    (hk : faults = [] → Leads sup s (k (s.advance len))) : Leads sup s (s.guarded len r faults k) := by
  cases faults with
  | nil => exact hk rfl
  | cons x rest => exact Leads.takeException s len r _ hr

theorem plain_none : (({} : Results)).plain := ⟨rfl, rfl, rfl, rfl⟩

/-- A privileged instruction in the problem state takes its exception, and has its effects in the supervisor state only. -/
theorem Leads.supervisorOnly (s : State) (len : Nat) (k : Out) (hk : Leads true s k) :
    Leads (!s.cpu.psw.problem) s (s.supervisorOnly len k) := by
  unfold State.supervisorOnly
  split
  · exact Leads.takeException s len {} _ (.inr plain_none)
  · rename_i h
    rw [Bool.not_eq_true] at h
    rw [h]
    exact hk

theorem Reaches.supervisorOnly (s : State) (len : Nat) (k : Out) (hk : Reaches true s k) :
    Reaches (!s.cpu.psw.problem) s (s.supervisorOnly len k) := by
  unfold State.supervisorOnly
  split
  · exact (Leads.takeException s len {} _ (.inr plain_none)).1
  · rename_i h
    rw [Bool.not_eq_true] at h
    rw [h]
    exact hk

theorem Leads.withFetch (s : State) (len : Nat) (r : Results) (c : Check) (spec : List ProgExc) (b : Reg) (ea : Addr) (n : Nat)
    (k : State → List Byte → Out) (hr : r.allowed sup)
    (hk : ∀ v bs, Updates sup s v → frame v = frame s → Leads sup s (k v bs)) : Leads sup s (s.withFetch len r c spec b ea n k) :=
  Leads.guarded s len r _ _ hr fun _ => hk _ _ ((Updates.none.advance len).noteFetches _ _) (State.noteFetches_frame _ _ _)

theorem Leads.withRealFetch (s : State) (len : Nat) (r : Results) (spec : List ProgExc) (ea : Addr) (n : Nat)
    (k : State → List Byte → Out) (hr : r.allowed sup)
    (hk : ∀ v bs, Updates sup s v → frame v = frame s → Leads sup s (k v bs)) : Leads sup s (s.withRealFetch len r spec ea n k) :=
  Leads.guarded s len r _ _ hr fun _ => hk _ _ ((Updates.none.advance len).noteFetches _ _) (State.noteFetches_frame _ _ _)

theorem Leads.withStore (s : State) (len : Nat) (r : Results) (spec : List ProgExc) (b : Reg) (ea : Addr) (bytes : List Byte)
    (k : State → Out) (hr : r.allowed sup)
    (hk : ∀ v, Updates sup s v → frame v = frame s → Leads sup s (k v)) : Leads sup s (s.withStore len r spec b ea bytes k) := by
  refine Leads.guarded s len _ _ _ hr fun h => hk _ ?_ (storeOperand_frame _ _ _ _)
  exact (Updates.none.advance len).storeOperand rfl rfl b ea bytes _ rfl _ (List.append_eq_nil_iff.mp h).2

theorem Leads.withUpdate (s : State) (len : Nat) (r : Results) (b : Reg) (ea : Addr) (f : Byte → Byte) (k : State → Byte → Out)
    (hea : wrapMode s.cpu.psw.amode (ea + BitVec.ofNat 31 0) = ea) (hr : r.allowed sup)
    (hk : ∀ v w, Updates sup s v → Leads sup s (k v w)) : Leads sup s (s.withUpdate len r b ea f k) := by
  unfold State.withUpdate
  refine Leads.guarded s len _ _ _ hr fun h => hk _ _ ?_
  refine (Updates.none.advance len).storeByte _ _ _ (writable_frame (t := s.advance len) rfl (writable_of_operand s _ b ea 1 h ea ?_))
  show ea ∈ [wrapMode s.cpu.psw.amode (ea + BitVec.ofNat 31 0)]
  rw [hea]
  exact List.mem_cons_self ..

theorem Leads.overflow (h : Updates sup s u) (len : Nat) (o : Bool) : Leads sup s (u.overflow len o) := by
  unfold State.overflow
  split
  · exact Leads.report h _ _
  · exact Leads.next h

theorem Leads.signedResult (h : Updates sup s u) (len : Nat) (r1 : Reg) (r : Signed) : Leads sup s (u.signedResult len r1 r) :=
  Leads.overflow ((h.setGr _ _).setCc _) _ _

theorem Leads.branchIf (h : Updates sup s u) (taken : Bool) (t : Addr) : Leads sup s (u.branchIf taken t) := by
  refine Leads.next ?_
  split
  · exact h.setIa t
  · exact h

theorem Leads.countDown (h : Updates sup s u) (r1 : Reg) (b : Bool) (t : Addr) : Leads sup s (u.countDown r1 b t) :=
  Leads.branchIf (h.setGr _ _) _ _

theorem Leads.divideInto (h : Updates sup s u) (len : Nat) (r1 : Reg) (d : Word) : Leads sup s (u.divideInto len r1 d) := by
  unfold State.divideInto
  split
  · exact Leads.report h _ _
  · exact Leads.next (h.setPair _ _)

theorem Leads.enterPsw (h : Updates sup s u) (hs : sup = true) (p : Psw) (ilc : Nat) : Leads sup s (u.enterPsw p ilc) := by
  unfold State.enterPsw
  split
  · exact Leads.next (h.after (.newPsw hs p))
  · exact Leads.programInterruption (h.after (.newPsw hs p)) _ _ [] (fun _ hf => nomatch hf)

end Sys2Proof.Machine
end

