-- ==== Sys2Proof/Laws/Effects.lean ====
section
/-! SUPPORT. Every instruction leads only to states its updates give (`Updates.lean`), one case for each constructor of `Instr`. -/

namespace Sys2Proof.Machine

open Sys2Proof.Safety

variable {sup : Bool}

theorem leads_bcr (s : State) (m1 r2 : Reg) : Leads sup s (execBcr m1 r2 s) := by
  refine Leads.branchIf ?_ _ _
  split
  · exact (Updates.none.advance _).serialize
  · exact Updates.none.advance _

theorem leads_svc (s : State) (i : Byte) : Leads sup s (execSvc i s) := by
  refine Leads.interrupt (Updates.none.advance 2) 32 96 _ (.inl ⟨rfl, rfl⟩) fun f hf => ?_
  rcases List.mem_cons.mp hf with rfl | hf
  · show 136 + 4 ≤ 4096
    omega
  · cases hf

theorem updates_byteSerial {s u : State} (t1 t2 : Target) (f : Byte → Byte → Byte) (l : List (Addr × Addr)) (h : Updates sup s u)
    (hw : ∀ c, c ∈ l → u.writable t1.space (u.absolute t1 c.1)) : Updates sup s (State.byteSerial t1 t2 f l u).1 := by
  induction l generalizing u with
  | nil => exact h
  | cons c rest ih =>
    have hf : frame (u.noteFetch t2 c.2) = frame u := State.record_frame ..
    have hg : frame ((u.noteFetch t2 c.2).storeByte t1 c.1 (f (u.byteAt t1 c.1) (u.byteAt t2 c.2))) = frame u :=
      (State.storeByte_frame ..).trans hf
    refine ih (u := (u.noteFetch t2 c.2).storeByte t1 c.1 (f (u.byteAt t1 c.1) (u.byteAt t2 c.2))) ?_ fun d hd => ?_
    · refine (h.record _ _ _).storeByte _ _ _ ?_
      rw [show (u.record t2.space (blockOf (u.absolute t2 c.2)) false).absolute t1 c.1 = u.absolute t1 c.1 from frame_absolute _ _ hf _ _]
      exact writable_frame hf (hw c (List.mem_cons_self ..))
    · rw [frame_absolute _ _ hg]
      exact writable_frame hg (hw d (List.mem_cons_of_mem _ hd))

theorem leads_string (s : State) (r : Results) (len : Nat) (b1 : Reg) (d1 : Disp) (b2 : Reg) (d2 : Disp) (f : Byte → Byte → Byte)
    (k : State → Byte → Out) (hr : r.allowed sup) (hk : ∀ v w, Updates sup s v → Leads sup s (k v w)) :
    Leads sup s (s.stringOp r len b1 d1 b2 d2 f k) := by
  unfold State.stringOp
  refine Leads.guarded s 6 _ _ _ hr fun h => hk _ _ ?_
  have h1 := (List.append_eq_nil_iff.mp h).1
  refine updates_byteSerial _ _ _ _ (Updates.none.advance 6) fun c hc => ?_
  exact writable_frame (u := s) rfl (writable_of_operand s _ b1 _ len h1 c.1 (List.of_mem_zip hc).1)

theorem leads_interlocked (s : State) (r : Results) (spec : List ProgExc) (b2 : Reg) (ea : Addr) (n : Nat) (equal : List Byte → Bool)
    (new : List Byte) (loaded : State → List Byte → State) (hr : r.allowed sup) (hn : n = new.length)
    (hl : ∀ v bs, Updates sup s v → Updates sup s (loaded v bs)) : Leads sup s (s.interlocked r spec b2 ea n equal new loaded) := by
  unfold State.interlocked
  refine Leads.guarded s 4 _ _ _ hr fun h => ?_
  refine Leads.ite (fun _ => Leads.next ?_) fun _ => Leads.next ?_
  · exact (((Updates.none.advance 4).storeOperand rfl rfl b2 ea new n hn _ (List.append_eq_nil_iff.mp h).2).setCc _).serialize
  · exact ((hl _ _ ((Updates.none.advance 4).record _ _ _)).setCc _).serialize

theorem leads_stcm (s : State) (r1 m3 b2 : Reg) (d2 : Disp) : Leads sup s (execStcm r1 m3 b2 d2 s) := by
  unfold execStcm
  refine Leads.guarded s 4 _ _ _ (.inr ⟨rfl, rfl, rfl, rfl⟩) fun h => Leads.next ?_
  by_cases hm : m3 = 0
  · subst hm
    exact Updates.none.advance 4
  · rw [if_neg hm] at h
    exact (Updates.none.advance 4).storeOperand rfl rfl b2 _ _ (maskBytes m3).length (by simp [selectedBytes]) _ h

theorem leads_clc (s : State) (len : Nat) (b1 : Reg) (d1 : Disp) (b2 : Reg) (d2 : Disp) : Leads sup s (execClc len b1 d1 b2 d2 s) := by
  unfold execClc
  exact Leads.guarded s 6 _ _ _ (.inr ⟨rfl, rfl, rfl, rfl⟩) fun _ => Leads.next ((((Updates.none.advance 6).noteFetches _ _).noteFetches _ _).setCc _)

theorem leads_clm (s : State) (r1 m3 b2 : Reg) (d2 : Disp) : Leads sup s (execClm r1 m3 b2 d2 s) := by
  unfold execClm
  refine Leads.ite (fun _ => ?_) fun _ => ?_
  · exact Leads.guarded s 4 _ _ _ (.inr ⟨rfl, rfl, rfl, rfl⟩) fun _ => Leads.next ((Updates.none.advance 4).setCc _)
  · exact Leads.withFetch s _ _ _ _ _ _ _ _ (.inr ⟨rfl, rfl, rfl, rfl⟩) fun _ _ h _ => Leads.next (h.setCc _)

theorem leads_lae (s : State) (r1 x2 b2 : Reg) (d2 : Disp) : Leads sup s (execLae r1 x2 b2 d2 s) := by
  unfold execLae
  exact Leads.ite (fun _ => Leads.next (((Updates.none.advance 4).setGr _ _).setAr _ _)) fun _ =>
    Leads.next (((Updates.none.advance 4).setGr _ _).setAr _ _)

theorem leads_setAsc (s : State) (b2 : Reg) (d2 : Disp) (k : State → State) (hk : ∀ v, Updates sup s v → Updates sup s (k v)) :
    Leads sup s (s.setAsc b2 d2 k) := by
  unfold State.setAsc
  exact Leads.guarded s 4 _ _ _ (.inr ⟨rfl, rfl, rfl, rfl⟩) fun _ => Leads.next (hk _ ((Updates.none.advance 4).after (.psw _ ⟨rfl, rfl, rfl, rfl⟩)))

theorem leads_sac (s : State) (b2 : Reg) (d2 : Disp) : Leads sup s (execSac b2 d2 s) := leads_setAsc s b2 d2 _ fun _ h => h.serialize

theorem leads_sacf (s : State) (b2 : Reg) (d2 : Disp) : Leads sup s (execSacf b2 d2 s) := by
  unfold execSacf
  exact Leads.ite (fun _ => leads_setAsc s b2 d2 _ fun _ h => h) fun _ => Leads.takeException s _ _ _ (.inr plain_none)

theorem leads_tar (s : State) (r1 r2 : Reg) : Leads sup s (execTar r1 r2 s) := by
  unfold execTar
  exact Leads.guarded s 4 _ _ _ (.inr ⟨rfl, rfl, rfl, rfl⟩) fun _ => Leads.next ((Updates.none.advance 4).setCc _)

theorem leads_stck (s : State) (b2 : Reg) (d2 : Disp) : Leads sup s (execStck b2 d2 s) :=
  Leads.withStore s _ _ _ _ _ _ _ (.inr ⟨rfl, rfl, rfl, rfl⟩) fun _ h _ => Leads.next (((h.after (.time _)).setCc _).serialize)

theorem leads_stcke (s : State) (b2 : Reg) (d2 : Disp) : Leads sup s (execStcke b2 d2 s) := by
  unfold execStcke
  exact Leads.ite (fun _ => Leads.withStore s _ _ _ _ _ _ _ (.inr ⟨rfl, rfl, rfl, rfl⟩) fun _ h _ =>
    Leads.next (((h.after (.time _)).setCc _).serialize)) fun _ => Leads.takeException s _ _ _ (.inr plain_none)

theorem leads_sckpf (s : State) : Leads (!s.cpu.psw.problem) s (execSckpf s) := by
  unfold execSckpf
  exact Leads.ite (fun _ => Leads.supervisorOnly s _ _ (Leads.guarded s _ _ _ _ (.inl ⟨rfl, rfl⟩) fun _ =>
    Leads.next ((Updates.none.advance 2).after (.todProg rfl _)))) fun _ => Leads.takeException s _ _ _ (.inr plain_none)

theorem leads_stura (s : State) (r1 r2 : Reg) : Leads (!s.cpu.psw.problem) s (execStura r1 r2 s) := by
  unfold execStura
  refine Leads.supervisorOnly s _ _ (Leads.guarded s _ _ _ _ (.inl ⟨rfl, rfl⟩) fun h => Leads.next ?_)
  have h2 := (List.append_eq_nil_iff.mp h).2
  refine (Updates.none.advance 4).storeBytes _ _ fun c hc => ?_
  exact writable_frame (u := s) rfl (writable_of_faults s hostPrimaryTarget _ c.1 (List.flatMap_eq_nil_iff.mp h2 c.1 (List.of_mem_zip hc).1))

theorem leads_ipte (s : State) (r1 r2 : Reg) : Leads (!s.cpu.psw.problem) s (execIpte r1 r2 s) := by
  unfold execIpte
  refine Leads.supervisorOnly s _ _ (Leads.guarded s _ _ _ _ (.inl ⟨rfl, rfl⟩) fun h => Leads.next (Updates.serialize ?_))
  split at h
  · refine (Updates.none.advance 4).storeBytes _ _ fun c hc => ?_
    exact writable_frame (u := s) rfl (writable_of_faults s hostPrimaryTarget _ c.1 (List.flatMap_eq_nil_iff.mp h c.1 (List.of_mem_zip hc).1))
  · cases h

theorem leads_trace (s : State) (r1 r3 b2 : Reg) (d2 : Disp) : Leads (!s.cpu.psw.problem) s (execTrace r1 r3 b2 d2 s) := by
  unfold execTrace
  refine Leads.supervisorOnly s _ _ (Leads.ite (fun _ => ?_) fun _ => ?_)
  · exact Leads.withFetch s _ _ _ _ _ _ _ _ (.inl ⟨rfl, rfl⟩) fun _ _ h _ => Leads.ite (fun _ => Leads.next h.serialize) fun _ => Leads.refused _ (fun h => nomatch h)
  · exact Leads.guarded s _ _ _ _ (.inl ⟨rfl, rfl⟩) fun _ => Leads.next (Updates.none.advance 4).serialize

theorem leads_iske (s : State) (r1 r2 : Reg) : Leads (!s.cpu.psw.problem) s (execIske r1 r2 s) := by
  unfold execIske
  exact Leads.supervisorOnly s _ _ (Leads.guarded s _ _ _ _ (.inl ⟨rfl, rfl⟩) fun _ => Leads.next ((Updates.none.advance 4).setGr _ _))

theorem leads_rrbe (s : State) (r1 r2 : Reg) : Leads (!s.cpu.psw.problem) s (execRrbe r1 r2 s) := by
  unfold execRrbe
  exact Leads.supervisorOnly s _ _ (Leads.guarded s _ _ _ _ (.inl ⟨rfl, rfl⟩) fun _ =>
    Leads.next (((Updates.none.advance 4).after (.key rfl _ _ _)).setCc _))

theorem leads_sske (s : State) (r1 r2 : Reg) : Leads (!s.cpu.psw.problem) s (execSske r1 r2 s) := by
  unfold execSske
  exact Leads.supervisorOnly s _ _ (Leads.guarded s _ _ _ _ (.inl ⟨rfl, rfl⟩) fun _ =>
    Leads.next ((Updates.none.advance 4).after (.key rfl _ _ _)).serialize)

/-- A block whose first byte meets no exception may be cleared. -/
theorem updates_clearBlock {s u : State} (h : Updates true s u) (t : Target) (b : Block) (hr : (u.space t.space).readOnly b = false) :
    Updates true s (u.clearBlock t b) := by
  unfold State.clearBlock
  have h1 : Updates true s (u.noteStaleBlock t b) ∧ (u.noteStaleBlock t b).space t.space = u.space t.space := by
    unfold State.noteStaleBlock
    split
    · exact ⟨h.after (.stale _), by cases t.space <;> rfl⟩
    · exact ⟨h, rfl⟩
  exact h1.1.after (.clear rfl _ _ _ _ (by rw [h1.2]; exact hr))

theorem wrap_block (amode : Bool) (v : Word) :
    wrapMode amode (blockOf (truncMode amode v) ++ 0#12 + BitVec.ofNat 31 0) = blockOf (truncMode amode v) ++ 0#12 := by
  have h0 : (blockOf (truncMode amode v) ++ 0#12 : Addr) + BitVec.ofNat 31 0 = blockOf (truncMode amode v) ++ 0#12 := BitVec.add_zero _
  rw [h0]
  apply BitVec.eq_of_toNat_eq
  rw [wrapMode_toNat, toNat_append_offset, toNat_blockOf]
  unfold truncMode
  cases amode with
  | true => simp only [if_true]; have := (v.setWidth 31).isLt; simp; omega
  | false => simp; omega

theorem leads_tb (s : State) (r2 : Reg) : Leads (!s.cpu.psw.problem) s (execTb r2 s) := by
  unfold execTb
  refine Leads.supervisorOnly s _ _ (Leads.guarded s _ _ _ _ (.inl ⟨rfl, rfl⟩) fun h => Leads.ite (fun _ => Leads.next ?_) fun _ => Leads.next ?_)
  · refine (Updates.setCc ?_ _).setGr _ _
    refine updates_clearBlock (Updates.none.advance 4) _ _ ?_
    unfold State.blockFaults State.operandFaults at h
    unfold State.target State.blockAt State.registerAddress
    unfold State.registerAddress at h
    cases hr : s.resolve r2 with
    | error x => rw [hr] at h; cases h
    | ok t =>
      rw [hr] at h
      refine (congrArg (fun p => Space.readOnly p _) (State.advance_space s 4 t.space)).trans (writable_of_faults s t testBlockCheck _ ?_)
      refine List.flatMap_eq_nil_iff.mp h _ ?_
      show _ ∈ [wrapMode s.cpu.psw.amode _]
      rw [wrap_block]
      exact List.mem_cons_self ..
  · exact ((Updates.none.advance 4).setCc _).setGr _ _

theorem leads_tprot (s : State) (b1 : Reg) (d1 : Disp) (b2 : Reg) (d2 : Disp) : Leads (!s.cpu.psw.problem) s (execTprot b1 d1 b2 d2 s) := by
  unfold execTprot
  refine Leads.supervisorOnly s _ _ ?_
  split
  · exact Leads.next ((Updates.none.advance 6).setCc _)
  · refine Leads.guarded s _ _ _ _ (.inl ⟨rfl, rfl⟩) fun _ => Leads.next (Updates.setCc ?_ _)
    split
    · exact (Updates.none.advance 6).record _ _ _
    · exact Updates.none.advance 6

theorem updates_serve {s u : State} (h : Updates true s u) (l : List Input) (hl : ∀ i, i ∈ l → i.isService = true) (hv : u.services ≠ [])
    (hk : ∀ i v, i.isService = true → (applyInput i v).services = v.services) : Updates true s (u.serve l) := by
  induction l generalizing u with
  | nil => exact h
  | cons i rest ih =>
    have hi := hl i (List.mem_cons_self ..)
    exact ih (h.after (.service rfl hv i hi)) (fun j hj => hl j (List.mem_cons_of_mem _ hj)) (by rw [hk i u hi]; exact hv)

theorem updateSpace_services (s : State) (id : SpaceId) (f : Space → Space) : (s.updateSpace id f).services = s.services := by
  cases id <;> rfl

theorem onBlock_services (s : State) (asit : DWord) (b : Block) (f : Space → Space) : (s.onBlock asit b f).services = s.services := by
  unfold State.onBlock
  dsimp only
  split
  · exact updateSpace_services _ _ _
  · rfl

theorem updateOwned_services (s : State) (asit : DWord) (f : Space → Space) : (s.updateOwned asit f).services = s.services := by
  unfold State.updateOwned
  split
  · rfl
  · split
    · exact updateSpace_services _ _ _
    · rfl

theorem onCpu_services (s : State) (address : Half) (f : Cpu → Cpu) : (s.onCpu address f).services = s.services := by
  unfold State.onCpu
  split <;> rfl

theorem storeAbsolute_services (s : State) (l : List (Addr × Byte)) : (s.storeAbsolute l).services = s.services := by
  induction l generalizing s with
  | nil => rfl
  | cons c rest ih => exact (ih _).trans rfl

theorem loadBytes_services (s : State) (l : List (Addr × Byte)) : (s.loadBytes l).services = s.services := by
  induction l generalizing s with
  | nil => rfl
  | cons c rest ih => exact (ih _).trans rfl

theorem agentStore_services (s : State) (id : SpaceId) (a : Addr) (v : Byte) : (s.agentStore id a v).services = s.services := by
  unfold State.agentStore
  refine (updateSpace_services _ _ _).trans ((updateSpace_services _ _ _).trans ?_)
  split <;> rfl

theorem subsystemReset_services (s : State) : s.subsystemReset.services = s.services := rfl

theorem loadNormal_services (s : State) (contents : List Host.Cell) (keys : List (Nat × BitVec 7)) :
    (s.loadNormal contents keys).services = s.services := by
  dsimp only [State.loadNormal]
  rw [subsystemReset_services]
  rfl

theorem systemResetClear_services (s : State) : s.systemResetClear.services = s.services := by
  dsimp only [State.systemResetClear]
  exact subsystemReset_services _

theorem loadStart_services (s : State) (clear : Bool) (contents : List Host.Cell) (keys : List (Nat × BitVec 7)) :
    (s.loadStart clear contents keys).services = s.services := by
  dsimp only [State.loadStart]
  cases clear with
  | true => exact systemResetClear_services s
  | false => exact loadNormal_services s contents keys

/-- A move of a host service leaves the `HostService` parameter as it is. -/
theorem service_services (i : Input) (s : State) (h : i.isService = true) : (applyInput i s).services = s.services := by
  cases i with
  | cpu => cases h
  | dispatch address => cases h
  | timePasses d => unfold applyInput; dsimp only; split <;> rfl
  | adrspaceCreate asit blocks contents keys =>
    show (s.adrspaceCreate _ _ _ _).services = _
    unfold State.adrspaceCreate
    split <;> rfl
  | adrspaceDestroy asit =>
    show (s.adrspaceDestroy _).services = _
    unfold State.adrspaceDestroy
    split <;> rfl
  | adrspacePermit asit machine access =>
    show (s.adrspacePermit _ _ _).services = _
    unfold State.adrspacePermit
    split
    · exact updateOwned_services _ _ _
    · rfl
  | adrspaceIsolate asit => exact updateOwned_services _ _ _
  | alservAdd asit access alet asynchronous =>
    show (s.alservAdd _ _ _ _).services = _
    unfold State.alservAdd
    split <;> rfl
  | alservRemove alet => rfl
  | foreignPermit asit blocks contents keys access =>
    show (s.foreignPermit _ _ _ _ _).services = _
    unfold State.foreignPermit
    split
    · exact updateSpace_services _ _ _
    · split <;> rfl
  | foreignIsolate asit =>
    show (s.foreignIsolate _).services = _
    unfold State.foreignIsolate
    split
    · exact updateSpace_services _ _ _
    · rfl
  | foreignDestroy asit =>
    show (s.foreignDestroy _).services = _
    unfold State.foreignDestroy
    split <;> rfl
  | foreignStore asit addr value =>
    show (s.foreignStore _ _ _).services = _
    unfold State.foreignStore
    dsimp only
    split
    · exact agentStore_services _ _ _ _
    · rfl
  | foreignKey asit block key =>
    show (s.foreignKey _ _ _).services = _
    unfold State.foreignKey
    dsimp only
    split
    · exact updateSpace_services _ _ _
    · rfl
  | setPageProtection asit block readOnly => exact onBlock_services _ _ _ _
  | setUnusable asit block unusable => exact onBlock_services _ _ _ _
  | recordKey asit block reference change => exact onBlock_services _ _ _ _
  | channelStore key addr value =>
    show (s.channelStore _ _ _).services = _
    unfold State.channelStore
    split
    · exact agentStore_services _ _ _ _
    · rfl
  | ioInterruption i => rfl
  | serviceSignal parameter => rfl
  | hostSignal address h => exact onCpu_services _ _ _
  | channelReport m => rfl
  | machineCheck address m => exact onCpu_services _ _ _
  | interruptKey address => exact onCpu_services _ _ _
  | malfunctionAlert address source => exact onCpu_services _ _ _
  | setBusy address busy => exact onCpu_services _ _ _
  | setOperatorStatus address status => exact onCpu_services _ _ _
  | operatorStart address => exact onCpu_services _ _ _
  | operatorStop address => exact onCpu_services _ _ _
  | operatorRestart address => exact onCpu_services _ _ _
  | storeStatus address =>
    unfold applyInput
    dsimp only
    split
    · split
      · unfold State.storeStatusOf
        split
        · exact storeAbsolute_services _ _
        · rfl
      · rfl
    · rfl
  | systemResetNormal => exact subsystemReset_services _
  | systemResetClear => exact systemResetClear_services s
  | loadStart clear contents keys => exact loadStart_services s clear contents keys
  | loadComplete image subsystem =>
    show (s.loadComplete _ _).services = _
    unfold State.loadComplete
    split
    · dsimp only [State.setPsw]
      simp only [loadBytes_services]
    · rfl
  | serviceRegister r value => rfl
  | serviceAccessRegister r value => rfl
  | serviceControlRegister r value => rfl
  | serviceFloat r value => rfl
  | serviceCondition cc => rfl
  | servicePrefix block =>
    show (s.servicePrefix _).services = _
    unfold State.servicePrefix
    split <;> rfl
  | serviceComparator value => rfl
  | serviceTimer value => rfl
  | serviceTodProg value =>
    show (s.serviceTodProg _).services = _
    unfold State.serviceTodProg
    split <;> rfl
  | serviceKey asit block key => exact onBlock_services _ _ _ _
  | serviceCpu c =>
    show (s.serviceCpu _).services = _
    unfold State.serviceCpu
    split
    · exact onCpu_services _ _ _
    · rfl
  | serviceFloating io signal reports => rfl
  | serviceStore asit addr value =>
    show (s.serviceStore _ _ _).services = _
    unfold State.serviceStore
    dsimp only
    split
    · exact agentStore_services _ _ _ _
    · rfl

theorem leads_endService {s u : State} (h : Updates true s u) (ilc : Nat) (e : ServiceEnding) : Leads true s (u.endService ilc e) := by
  cases e with
  | completes => exact Leads.next h
  | exception code nullified alet =>
    refine Leads.programInterruption h code ilc _ fun f hf => ?_
    unfold State.serviceStores at hf
    cases alet with
    | none =>
      dsimp only at hf
      split at hf
      · exact extraStores_low u u.serviceProtection f hf
      · cases hf
    | some a =>
      rcases List.mem_cons.mp hf with rfl | hf
      · show 168 + 4 ≤ 4096
        omega
      · rcases List.mem_cons.mp hf with rfl | hf
        · show 160 + 1 ≤ 4096
          omega
        · cases hf
  | loadsPsw p => exact Leads.enterPsw h rfl _ _

theorem updates_beginService (s : State) (e : ServiceEnding) : Updates sup s (s.beginService e) := by
  cases e with
  | completes => exact Updates.none.advance 4
  | loadsPsw p => exact Updates.none.advance 4
  | exception code nullified alet =>
    cases nullified with
    | true => exact .none
    | false => exact Updates.none.advance 4

/-- DIAGNOSE reads the `HostService` parameter only, and does not change it. -/
theorem beginService_services (s : State) (e : ServiceEnding) : (s.beginService e).services = s.services := by
  cases e with
  | completes => rfl
  | loadsPsw p => rfl
  | exception code nullified alet => cases nullified <;> rfl

theorem leads_diag (s : State) (r1 r3 b2 : Reg) (d2 : Disp) : Leads (!s.cpu.psw.problem) s (execDiag r1 r3 b2 d2 s) := by
  unfold execDiag
  refine Leads.supervisorOnly s _ _ ?_
  split
  · exact Leads.refused _ (fun h => nomatch h)
  · rename_i o ho
    have hv : s.services ≠ [] := by
      intro hn
      unfold State.serviceFor at ho
      rw [hn] at ho
      cases ho
    have hm : Updates true s (s.beginService o.ending).maySerialize := (updates_beginService s o.ending).after (.stale _)
    have hs : (s.beginService o.ending).maySerialize.services ≠ [] := by
      show (s.beginService o.ending).services ≠ []
      rw [beginService_services]
      exact hv
    exact leads_endService (updates_serve hm _ (fun i hi => (List.mem_filter.mp hi).2) hs service_services) _ _

-- SIGNAL PROCESSOR

theorem updates_storeAbsolute {s u : State} (h : Updates true s u) (l : List (Addr × Byte)) (hw : ∀ c, c ∈ l → u.hp.readOnly (blockOf c.1) = false) :
    Updates true s (u.storeAbsolute l) := by
  induction l generalizing u with
  | nil => exact h
  | cons c rest ih =>
    refine ih ((h.after (.poke .hostPrimary c.1 c.2 (hw c (List.mem_cons_self ..)))).record _ _ _) fun d hd => ?_
    exact hw d (List.mem_cons_of_mem _ hd)

theorem absoluteFrom_block (base : Addr) (hb : base.toNat % 512 = 0) (o : Nat) (bytes : List Byte) (ho : o + bytes.length ≤ 512) (c : Addr × Byte)
    (hc : c ∈ absoluteFrom base o bytes) : blockOf c.1 = blockOf base := by
  obtain ⟨i, hi, he⟩ := List.mem_map.mp (List.of_mem_zip hc).1
  have hi' := List.mem_range.mp hi
  rw [← he]
  apply BitVec.eq_of_toNat_eq
  rw [toNat_blockOf, toNat_blockOf, BitVec.toNat_add, BitVec.toNat_ofNat]
  have := base.isLt
  omega

theorem statusArea_low (c : Cpu) (f : Nat × List Byte) (h : f ∈ c.statusArea) : f.1 + f.2.length ≤ 512 := by
  simp only [Cpu.statusArea, List.mem_cons, List.not_mem_nil, or_false] at h
  rcases h with rfl | rfl | rfl | rfl | rfl | rfl | rfl | rfl <;>
    simp [bytesOfWords_length, bytes64, bytes32]

theorem updates_storeStatus {s u : State} (h : Updates true s u) (base : Addr) (hb : base.toNat % 512 = 0) (c : Cpu) :
    Updates true s (u.storeStatusOf base c) := by
  unfold State.storeStatusOf
  split
  · rename_i hok
    simp only [State.statusBlockOk, Bool.and_eq_true, Bool.not_eq_true'] at hok
    refine updates_storeAbsolute h _ fun d hd => ?_
    obtain ⟨f, hf, hd⟩ := List.mem_flatMap.mp hd
    rw [absoluteFrom_block base hb f.1 f.2 (statusArea_low c f hf) d hd]
    exact hok.2
  · exact h

/-- What an accepted order makes of the configuration. -/
theorem order_updates {s u v : State} (h : Updates true s u) (code : Byte) (target : Half) (c : Cpu) (param : Word)
    (ho : u.order code target c param = .accepted v) : Updates true s v := by
  have same : ∀ f : Cpu → Cpu, (∀ c, (f c).exTarget = c.exTarget ∧ (f c).prefixReg = c.prefixReg) → Updates true s (u.onCpu target f) :=
    fun f hf => h.after (.cpu rfl target f fun c => ⟨.inl (hf c).1, .inl (hf c).2⟩)
  have orderCpu : ∀ f : Cpu → Cpu, (∀ c, (f c).exTarget = c.exTarget ∧ (f c).prefixReg = c.prefixReg) →
      u.orderCpu target c f = .accepted v → Updates true s v := by
    intro f hf hv
    unfold State.orderCpu at hv
    split at hv
    · cases hv
    · cases hv
      exact same f hf
  have stop : ∀ (how : StopRequest) (c : Cpu), (c.stop how).exTarget = c.exTarget ∧ (c.stop how).prefixReg = c.prefixReg := by
    intro how c
    unfold Cpu.stop
    split <;> exact ⟨rfl, rfl⟩
  have stopped : ∀ (ok : Bool) (w : State), stoppedOrder c ok w = .accepted v → w = v ∧ ok = true := by
    intro ok w hv
    unfold stoppedOrder at hv
    by_cases hz : ((if c.status = .stopped then 0 else statusBit 22) ||| (if ok = true then 0 else statusBit 23) : Word) = 0
    · rw [if_pos hz] at hv
      refine ⟨OrderResult.accepted.inj hv, ?_⟩
      cases ok with
      | true => rfl
      | false =>
        exfalso
        by_cases hs : c.status = .stopped
        · rw [if_pos hs] at hz
          revert hz
          decide
        · rw [if_neg hs] at hz
          revert hz
          decide
    · rw [if_neg hz] at hv
      cases hv
  have reset : ∀ f : Cpu → Cpu, (∀ c, ((f c).exTarget = c.exTarget ∨ (f c).exTarget = none) ∧
      ((f c).prefixReg = c.prefixReg ∨ (f c).prefixReg = 0 ∨ u.hp.assigned (f c).prefixReg = true)) →
      u.orderReset target f = .accepted v → Updates true s v := by
    intro f hf hv
    unfold State.orderReset at hv
    split at hv
    · cases hv
      exact h.after (.cpu rfl target f hf)
    · split at hv
      · cases hv
        exact h
      · cases hv
  unfold State.order at ho
  split at ho
  · split at ho
    · cases ho; exact h
    · cases ho
  · split at ho
    · cases ho
    · exact orderCpu _ (by exact fun _ => ⟨rfl, rfl⟩) ho
  · exact orderCpu _ (by exact fun _ => ⟨rfl, rfl⟩) ho
  · refine orderCpu _ (fun c => ?_) ho
    unfold Cpu.start
    split <;> exact ⟨rfl, rfl⟩
  · exact orderCpu _ (stop _) ho
  · exact orderCpu _ (by exact fun _ => ⟨rfl, rfl⟩) ho
  · split at ho
    · cases ho
      exact updates_storeStatus h 0 rfl c
    · exact orderCpu _ (stop _) ho
  · exact reset Cpu.initialReset (fun c => ⟨.inr rfl, .inr (.inl rfl)⟩) ho
  · exact reset Cpu.cpuReset (fun c => ⟨.inr rfl, .inl rfl⟩) ho
  · obtain ⟨rfl, hb⟩ := stopped _ _ ho
    exact h.after (.cpu rfl target _ fun c => ⟨.inl rfl, .inr (.inr hb)⟩)
  · obtain ⟨rfl, _⟩ := stopped _ _ ho
    refine updates_storeStatus h _ ?_ c
    rw [BitVec.toNat_append, Nat.shiftLeft_eq]
    show (_ ||| 0) % 512 = 0
    rw [Nat.or_zero]
    omega
  · cases ho

theorem leads_sigp (s : State) (r1 r3 b2 : Reg) (d2 : Disp) : Leads (!s.cpu.psw.problem) s (execSigp r1 r3 b2 d2 s) := by
  unfold execSigp
  refine Leads.supervisorOnly s _ _ ?_
  have h1 : Updates true s (s.advance 4).serialize := (Updates.none.advance 4).serialize
  dsimp only
  split
  · exact Leads.next (h1.setCc _)
  · refine Leads.ite (fun _ => Leads.next (h1.setCc _)) fun _ => ?_
    split
    · rename_i v hv
      refine Leads.next ?_
      unfold State.signal at hv
      split at hv
      · cases hv
      · exact order_updates (h1.setCc _) _ _ _ _ hv
    · exact Leads.next ((h1.setCc _).setGr _ _)

-- one instruction after the other

theorem leads_spm (s : State) (r1 : Reg) : Leads sup s (execSpm r1 s) := by
  unfold execSpm
  exact Leads.next ((Updates.none.advance _).after (.psw _ ⟨rfl, rfl, rfl, rfl⟩))

theorem leads_balr (s : State) (r1 : Reg) (r2 : Reg) : Leads sup s (execBalr r1 r2 s) := by
  unfold execBalr
  exact Leads.branchIf ((Updates.none.advance _).setGr _ _) _ _

theorem leads_bctr (s : State) (r1 : Reg) (r2 : Reg) : Leads sup s (execBctr r1 r2 s) := by
  unfold execBctr
  exact Leads.countDown (Updates.none.advance _) _ _ _

theorem leads_basr (s : State) (r1 : Reg) (r2 : Reg) : Leads sup s (execBasr r1 r2 s) := by
  unfold execBasr
  exact Leads.branchIf ((Updates.none.advance _).setGr _ _) _ _

theorem leads_lpr (s : State) (r1 : Reg) (r2 : Reg) : Leads sup s (execLpr r1 r2 s) := by
  unfold execLpr
  exact Leads.signedResult (Updates.none.advance _) _ _ _

theorem leads_lnr (s : State) (r1 : Reg) (r2 : Reg) : Leads sup s (execLnr r1 r2 s) := by
  unfold execLnr
  exact Leads.next (((Updates.none.advance _).setGr _ _).setCc _)

theorem leads_ltr (s : State) (r1 : Reg) (r2 : Reg) : Leads sup s (execLtr r1 r2 s) := by
  unfold execLtr
  exact Leads.next (((Updates.none.advance _).setGr _ _).setCc _)

theorem leads_lcr (s : State) (r1 : Reg) (r2 : Reg) : Leads sup s (execLcr r1 r2 s) := by
  unfold execLcr
  exact Leads.signedResult (Updates.none.advance _) _ _ _

theorem leads_nr (s : State) (r1 : Reg) (r2 : Reg) : Leads sup s (execNr r1 r2 s) := by
  unfold execNr
  exact Leads.next (((Updates.none.advance _).setGr _ _).setCc _)

theorem leads_clr (s : State) (r1 : Reg) (r2 : Reg) : Leads sup s (execClr r1 r2 s) := by
  unfold execClr
  exact Leads.next ((Updates.none.advance _).setCc _)

theorem leads_or (s : State) (r1 : Reg) (r2 : Reg) : Leads sup s (execOr r1 r2 s) := by
  unfold execOr
  exact Leads.next (((Updates.none.advance _).setGr _ _).setCc _)

theorem leads_xr (s : State) (r1 : Reg) (r2 : Reg) : Leads sup s (execXr r1 r2 s) := by
  unfold execXr
  exact Leads.next (((Updates.none.advance _).setGr _ _).setCc _)

theorem leads_lr (s : State) (r1 : Reg) (r2 : Reg) : Leads sup s (execLr r1 r2 s) := by
  unfold execLr
  exact Leads.next ((Updates.none.advance _).setGr _ _)

theorem leads_cr (s : State) (r1 : Reg) (r2 : Reg) : Leads sup s (execCr r1 r2 s) := by
  unfold execCr
  exact Leads.next ((Updates.none.advance _).setCc _)

theorem leads_ar (s : State) (r1 : Reg) (r2 : Reg) : Leads sup s (execAr r1 r2 s) := by
  unfold execAr
  exact Leads.signedResult (Updates.none.advance _) _ _ _

theorem leads_sr (s : State) (r1 : Reg) (r2 : Reg) : Leads sup s (execSr r1 r2 s) := by
  unfold execSr
  exact Leads.signedResult (Updates.none.advance _) _ _ _

theorem leads_mr (s : State) (r1 : Reg) (r2 : Reg) : Leads sup s (execMr r1 r2 s) := by
  unfold execMr
  exact Leads.guarded s _ _ _ _ (.inr ⟨rfl, rfl, rfl, rfl⟩) fun _ => Leads.next ((Updates.none.advance _).setPair _ _)

theorem leads_dr (s : State) (r1 : Reg) (r2 : Reg) : Leads sup s (execDr r1 r2 s) := by
  unfold execDr
  exact Leads.guarded s _ _ _ _ (.inr ⟨rfl, rfl, rfl, rfl⟩) fun _ => Leads.divideInto (Updates.none.advance _) _ _ _

theorem leads_alr (s : State) (r1 : Reg) (r2 : Reg) : Leads sup s (execAlr r1 r2 s) := by
  unfold execAlr
  exact Leads.next (((Updates.none.advance _).setGr _ _).setCc _)

theorem leads_slr (s : State) (r1 : Reg) (r2 : Reg) : Leads sup s (execSlr r1 r2 s) := by
  unfold execSlr
  exact Leads.next (((Updates.none.advance _).setGr _ _).setCc _)

theorem leads_sth (s : State) (r1 : Reg) (x2 : Reg) (b2 : Reg) (d2 : Disp) : Leads sup s (execSth r1 x2 b2 d2 s) := by
  unfold execSth
  exact Leads.withStore s _ _ _ _ _ _ _ (.inr ⟨rfl, rfl, rfl, rfl⟩) fun _ h _ => Leads.next h

theorem leads_la (s : State) (r1 : Reg) (x2 : Reg) (b2 : Reg) (d2 : Disp) : Leads sup s (execLa r1 x2 b2 d2 s) := by
  unfold execLa
  exact Leads.next ((Updates.none.advance _).setGr _ _)

theorem leads_stc (s : State) (r1 : Reg) (x2 : Reg) (b2 : Reg) (d2 : Disp) : Leads sup s (execStc r1 x2 b2 d2 s) := by
  unfold execStc
  exact Leads.withStore s _ _ _ _ _ _ _ (.inr ⟨rfl, rfl, rfl, rfl⟩) fun _ h _ => Leads.next h

theorem leads_ic (s : State) (r1 : Reg) (x2 : Reg) (b2 : Reg) (d2 : Disp) : Leads sup s (execIc r1 x2 b2 d2 s) := by
  unfold execIc
  exact Leads.withFetch s _ _ _ _ _ _ _ _ (.inr ⟨rfl, rfl, rfl, rfl⟩) fun _ _ h _ => Leads.next (h.setGr _ _)

theorem leads_bal (s : State) (r1 : Reg) (x2 : Reg) (b2 : Reg) (d2 : Disp) : Leads sup s (execBal r1 x2 b2 d2 s) := by
  unfold execBal
  exact Leads.branchIf ((Updates.none.advance _).setGr _ _) _ _

theorem leads_bct (s : State) (r1 : Reg) (x2 : Reg) (b2 : Reg) (d2 : Disp) : Leads sup s (execBct r1 x2 b2 d2 s) := by
  unfold execBct
  exact Leads.countDown (Updates.none.advance _) _ _ _

theorem leads_bc (s : State) (m1 : Reg) (x2 : Reg) (b2 : Reg) (d2 : Disp) : Leads sup s (execBc m1 x2 b2 d2 s) := by
  unfold execBc
  exact Leads.branchIf (Updates.none.advance _) _ _

theorem leads_lh (s : State) (r1 : Reg) (x2 : Reg) (b2 : Reg) (d2 : Disp) : Leads sup s (execLh r1 x2 b2 d2 s) := by
  unfold execLh
  exact Leads.withFetch s _ _ _ _ _ _ _ _ (.inr ⟨rfl, rfl, rfl, rfl⟩) fun _ _ h _ => Leads.next (h.setGr _ _)

theorem leads_ch (s : State) (r1 : Reg) (x2 : Reg) (b2 : Reg) (d2 : Disp) : Leads sup s (execCh r1 x2 b2 d2 s) := by
  unfold execCh State.testStorage
  exact Leads.withFetch s _ _ _ _ _ _ _ _ (.inr ⟨rfl, rfl, rfl, rfl⟩) fun _ _ h _ => Leads.next (h.setCc _)

theorem leads_ah (s : State) (r1 : Reg) (x2 : Reg) (b2 : Reg) (d2 : Disp) : Leads sup s (execAh r1 x2 b2 d2 s) := by
  unfold execAh State.signedStorage
  exact Leads.withFetch s _ _ _ _ _ _ _ _ (.inr ⟨rfl, rfl, rfl, rfl⟩) fun _ _ h _ => Leads.signedResult h _ _ _

theorem leads_sh (s : State) (r1 : Reg) (x2 : Reg) (b2 : Reg) (d2 : Disp) : Leads sup s (execSh r1 x2 b2 d2 s) := by
  unfold execSh State.signedStorage
  exact Leads.withFetch s _ _ _ _ _ _ _ _ (.inr ⟨rfl, rfl, rfl, rfl⟩) fun _ _ h _ => Leads.signedResult h _ _ _

theorem leads_mh (s : State) (r1 : Reg) (x2 : Reg) (b2 : Reg) (d2 : Disp) : Leads sup s (execMh r1 x2 b2 d2 s) := by
  unfold execMh
  exact Leads.withFetch s _ _ _ _ _ _ _ _ (.inr ⟨rfl, rfl, rfl, rfl⟩) fun _ _ h _ => Leads.next (h.setGr _ _)

theorem leads_bas (s : State) (r1 : Reg) (x2 : Reg) (b2 : Reg) (d2 : Disp) : Leads sup s (execBas r1 x2 b2 d2 s) := by
  unfold execBas
  exact Leads.branchIf ((Updates.none.advance _).setGr _ _) _ _

theorem leads_st (s : State) (r1 : Reg) (x2 : Reg) (b2 : Reg) (d2 : Disp) : Leads sup s (execSt r1 x2 b2 d2 s) := by
  unfold execSt
  exact Leads.withStore s _ _ _ _ _ _ _ (.inr ⟨rfl, rfl, rfl, rfl⟩) fun _ h _ => Leads.next h

theorem leads_n (s : State) (r1 : Reg) (x2 : Reg) (b2 : Reg) (d2 : Disp) : Leads sup s (execN r1 x2 b2 d2 s) := by
  unfold execN State.bitsStorage
  exact Leads.withFetch s _ _ _ _ _ _ _ _ (.inr ⟨rfl, rfl, rfl, rfl⟩) fun _ _ h _ => Leads.next ((h.setGr _ _).setCc _)

theorem leads_cl (s : State) (r1 : Reg) (x2 : Reg) (b2 : Reg) (d2 : Disp) : Leads sup s (execCl r1 x2 b2 d2 s) := by
  unfold execCl State.testStorage
  exact Leads.withFetch s _ _ _ _ _ _ _ _ (.inr ⟨rfl, rfl, rfl, rfl⟩) fun _ _ h _ => Leads.next (h.setCc _)

theorem leads_o (s : State) (r1 : Reg) (x2 : Reg) (b2 : Reg) (d2 : Disp) : Leads sup s (execO r1 x2 b2 d2 s) := by
  unfold execO State.bitsStorage
  exact Leads.withFetch s _ _ _ _ _ _ _ _ (.inr ⟨rfl, rfl, rfl, rfl⟩) fun _ _ h _ => Leads.next ((h.setGr _ _).setCc _)

theorem leads_x (s : State) (r1 : Reg) (x2 : Reg) (b2 : Reg) (d2 : Disp) : Leads sup s (execX r1 x2 b2 d2 s) := by
  unfold execX State.bitsStorage
  exact Leads.withFetch s _ _ _ _ _ _ _ _ (.inr ⟨rfl, rfl, rfl, rfl⟩) fun _ _ h _ => Leads.next ((h.setGr _ _).setCc _)

theorem leads_l (s : State) (r1 : Reg) (x2 : Reg) (b2 : Reg) (d2 : Disp) : Leads sup s (execL r1 x2 b2 d2 s) := by
  unfold execL
  exact Leads.withFetch s _ _ _ _ _ _ _ _ (.inr ⟨rfl, rfl, rfl, rfl⟩) fun _ _ h _ => Leads.next (h.setGr _ _)

theorem leads_c (s : State) (r1 : Reg) (x2 : Reg) (b2 : Reg) (d2 : Disp) : Leads sup s (execC r1 x2 b2 d2 s) := by
  unfold execC State.testStorage
  exact Leads.withFetch s _ _ _ _ _ _ _ _ (.inr ⟨rfl, rfl, rfl, rfl⟩) fun _ _ h _ => Leads.next (h.setCc _)

theorem leads_a (s : State) (r1 : Reg) (x2 : Reg) (b2 : Reg) (d2 : Disp) : Leads sup s (execA r1 x2 b2 d2 s) := by
  unfold execA State.signedStorage
  exact Leads.withFetch s _ _ _ _ _ _ _ _ (.inr ⟨rfl, rfl, rfl, rfl⟩) fun _ _ h _ => Leads.signedResult h _ _ _

theorem leads_s (s : State) (r1 : Reg) (x2 : Reg) (b2 : Reg) (d2 : Disp) : Leads sup s (execS r1 x2 b2 d2 s) := by
  unfold execS State.signedStorage
  exact Leads.withFetch s _ _ _ _ _ _ _ _ (.inr ⟨rfl, rfl, rfl, rfl⟩) fun _ _ h _ => Leads.signedResult h _ _ _

theorem leads_m (s : State) (r1 : Reg) (x2 : Reg) (b2 : Reg) (d2 : Disp) : Leads sup s (execM r1 x2 b2 d2 s) := by
  unfold execM
  exact Leads.withFetch s _ _ _ _ _ _ _ _ (.inr ⟨rfl, rfl, rfl, rfl⟩) fun _ _ h _ => Leads.next (h.setPair _ _)

theorem leads_d (s : State) (r1 : Reg) (x2 : Reg) (b2 : Reg) (d2 : Disp) : Leads sup s (execD r1 x2 b2 d2 s) := by
  unfold execD
  exact Leads.withFetch s _ _ _ _ _ _ _ _ (.inr ⟨rfl, rfl, rfl, rfl⟩) fun _ _ h _ => Leads.divideInto h _ _ _

theorem leads_al (s : State) (r1 : Reg) (x2 : Reg) (b2 : Reg) (d2 : Disp) : Leads sup s (execAl r1 x2 b2 d2 s) := by
  unfold execAl
  exact Leads.withFetch s _ _ _ _ _ _ _ _ (.inr ⟨rfl, rfl, rfl, rfl⟩) fun _ _ h _ => Leads.next ((h.setGr _ _).setCc _)

theorem leads_sl (s : State) (r1 : Reg) (x2 : Reg) (b2 : Reg) (d2 : Disp) : Leads sup s (execSl r1 x2 b2 d2 s) := by
  unfold execSl
  exact Leads.withFetch s _ _ _ _ _ _ _ _ (.inr ⟨rfl, rfl, rfl, rfl⟩) fun _ _ h _ => Leads.next ((h.setGr _ _).setCc _)

theorem leads_bxh (s : State) (r1 : Reg) (r3 : Reg) (b2 : Reg) (d2 : Disp) : Leads sup s (execBxh r1 r3 b2 d2 s) := by
  unfold execBxh
  exact Leads.branchIf ((Updates.none.advance _).setGr _ _) _ _

theorem leads_bxle (s : State) (r1 : Reg) (r3 : Reg) (b2 : Reg) (d2 : Disp) : Leads sup s (execBxle r1 r3 b2 d2 s) := by
  unfold execBxle
  exact Leads.branchIf ((Updates.none.advance _).setGr _ _) _ _

theorem leads_srl (s : State) (r1 : Reg) (b2 : Reg) (d2 : Disp) : Leads sup s (execSrl r1 b2 d2 s) := by
  unfold execSrl
  exact Leads.next ((Updates.none.advance _).setGr _ _)

theorem leads_sll (s : State) (r1 : Reg) (b2 : Reg) (d2 : Disp) : Leads sup s (execSll r1 b2 d2 s) := by
  unfold execSll
  exact Leads.next ((Updates.none.advance _).setGr _ _)

theorem leads_sra (s : State) (r1 : Reg) (b2 : Reg) (d2 : Disp) : Leads sup s (execSra r1 b2 d2 s) := by
  unfold execSra
  exact Leads.next (((Updates.none.advance _).setGr _ _).setCc _)

theorem leads_sla (s : State) (r1 : Reg) (b2 : Reg) (d2 : Disp) : Leads sup s (execSla r1 b2 d2 s) := by
  unfold execSla
  exact Leads.signedResult (Updates.none.advance _) _ _ _

theorem leads_srdl (s : State) (r1 : Reg) (b2 : Reg) (d2 : Disp) : Leads sup s (execSrdl r1 b2 d2 s) := by
  unfold execSrdl State.shiftPair
  exact Leads.guarded s _ _ _ _ (.inr ⟨rfl, rfl, rfl, rfl⟩) fun _ => Leads.next ((Updates.none.advance _).setPair _ _)

theorem leads_sldl (s : State) (r1 : Reg) (b2 : Reg) (d2 : Disp) : Leads sup s (execSldl r1 b2 d2 s) := by
  unfold execSldl State.shiftPair
  exact Leads.guarded s _ _ _ _ (.inr ⟨rfl, rfl, rfl, rfl⟩) fun _ => Leads.next ((Updates.none.advance _).setPair _ _)

theorem leads_srda (s : State) (r1 : Reg) (b2 : Reg) (d2 : Disp) : Leads sup s (execSrda r1 b2 d2 s) := by
  unfold execSrda State.shiftPair
  exact Leads.guarded s _ _ _ _ (.inr ⟨rfl, rfl, rfl, rfl⟩) fun _ => Leads.next (((Updates.none.advance _).setPair _ _).setCc _)

theorem leads_slda (s : State) (r1 : Reg) (b2 : Reg) (d2 : Disp) : Leads sup s (execSlda r1 b2 d2 s) := by
  unfold execSlda State.shiftPair
  exact Leads.guarded s _ _ _ _ (.inr ⟨rfl, rfl, rfl, rfl⟩) fun _ => Leads.overflow (((Updates.none.advance _).setPair _ _).setCc _) _ _

theorem leads_stm (s : State) (r1 : Reg) (r3 : Reg) (b2 : Reg) (d2 : Disp) : Leads sup s (execStm r1 r3 b2 d2 s) := by
  unfold execStm
  exact Leads.withStore s _ _ _ _ _ _ _ (.inr ⟨rfl, rfl, rfl, rfl⟩) fun _ h _ => Leads.next h

theorem leads_tm (s : State) (i2 : Byte) (b1 : Reg) (d1 : Disp) : Leads sup s (execTm i2 b1 d1 s) := by
  unfold execTm State.testStorage
  exact Leads.withFetch s _ _ _ _ _ _ _ _ (.inr ⟨rfl, rfl, rfl, rfl⟩) fun _ _ h _ => Leads.next (h.setCc _)

theorem leads_mvi (s : State) (i2 : Byte) (b1 : Reg) (d1 : Disp) : Leads sup s (execMvi i2 b1 d1 s) := by
  unfold execMvi
  exact Leads.withStore s _ _ _ _ _ _ _ (.inr ⟨rfl, rfl, rfl, rfl⟩) fun _ h _ => Leads.next h

theorem leads_ni (s : State) (i2 : Byte) (b1 : Reg) (d1 : Disp) : Leads sup s (execNi i2 b1 d1 s) := by
  unfold execNi State.bitsImmediate
  exact Leads.withUpdate s _ _ _ _ _ _ (truncMode_wrap _ _) (.inr ⟨rfl, rfl, rfl, rfl⟩) fun _ _ h => Leads.next (h.setCc _)

theorem leads_cli (s : State) (i2 : Byte) (b1 : Reg) (d1 : Disp) : Leads sup s (execCli i2 b1 d1 s) := by
  unfold execCli State.testStorage
  exact Leads.withFetch s _ _ _ _ _ _ _ _ (.inr ⟨rfl, rfl, rfl, rfl⟩) fun _ _ h _ => Leads.next (h.setCc _)

theorem leads_oi (s : State) (i2 : Byte) (b1 : Reg) (d1 : Disp) : Leads sup s (execOi i2 b1 d1 s) := by
  unfold execOi State.bitsImmediate
  exact Leads.withUpdate s _ _ _ _ _ _ (truncMode_wrap _ _) (.inr ⟨rfl, rfl, rfl, rfl⟩) fun _ _ h => Leads.next (h.setCc _)

theorem leads_xi (s : State) (i2 : Byte) (b1 : Reg) (d1 : Disp) : Leads sup s (execXi i2 b1 d1 s) := by
  unfold execXi State.bitsImmediate
  exact Leads.withUpdate s _ _ _ _ _ _ (truncMode_wrap _ _) (.inr ⟨rfl, rfl, rfl, rfl⟩) fun _ _ h => Leads.next (h.setCc _)

theorem leads_lm (s : State) (r1 : Reg) (r3 : Reg) (b2 : Reg) (d2 : Disp) : Leads sup s (execLm r1 r3 b2 d2 s) := by
  unfold execLm
  exact Leads.withFetch s _ _ _ _ _ _ _ _ (.inr ⟨rfl, rfl, rfl, rfl⟩) fun _ _ h _ => Leads.next (h.setGrs _)

theorem leads_brc (s : State) (m1 : Reg) (i2 : Half) : Leads sup s (execBrc m1 i2 s) := by
  unfold execBrc
  exact Leads.branchIf (Updates.none.advance _) _ _

theorem leads_bras (s : State) (r1 : Reg) (i2 : Half) : Leads sup s (execBras r1 i2 s) := by
  unfold execBras
  exact Leads.branchIf ((Updates.none.advance _).setGr _ _) _ _

theorem leads_brct (s : State) (r1 : Reg) (i2 : Half) : Leads sup s (execBrct r1 i2 s) := by
  unfold execBrct
  exact Leads.countDown (Updates.none.advance _) _ _ _

theorem leads_lhi (s : State) (r1 : Reg) (i2 : Half) : Leads sup s (execLhi r1 i2 s) := by
  unfold execLhi
  exact Leads.next ((Updates.none.advance _).setGr _ _)

theorem leads_ahi (s : State) (r1 : Reg) (i2 : Half) : Leads sup s (execAhi r1 i2 s) := by
  unfold execAhi
  exact Leads.signedResult (Updates.none.advance _) _ _ _

theorem leads_mhi (s : State) (r1 : Reg) (i2 : Half) : Leads sup s (execMhi r1 i2 s) := by
  unfold execMhi
  exact Leads.next ((Updates.none.advance _).setGr _ _)

theorem leads_chi (s : State) (r1 : Reg) (i2 : Half) : Leads sup s (execChi r1 i2 s) := by
  unfold execChi
  exact Leads.next ((Updates.none.advance _).setCc _)

theorem leads_stnsm (s : State) (i2 : Byte) (b1 : Reg) (d1 : Disp) : Leads (!s.cpu.psw.problem) s (execStnsm i2 b1 d1 s) := by
  unfold execStnsm
  exact Leads.supervisorOnly s _ _ (Leads.withStore s _ _ _ _ _ _ _ (.inl ⟨rfl, rfl⟩) fun _ h _ => Leads.next (h.after (.newPsw rfl _)))

theorem leads_stctl (s : State) (r1 : Reg) (r3 : Reg) (b2 : Reg) (d2 : Disp) : Leads (!s.cpu.psw.problem) s (execStctl r1 r3 b2 d2 s) := by
  unfold execStctl
  exact Leads.supervisorOnly s _ _ (Leads.withStore s _ _ _ _ _ _ _ (.inl ⟨rfl, rfl⟩) fun _ h _ => Leads.next h)

theorem leads_lctl (s : State) (r1 : Reg) (r3 : Reg) (b2 : Reg) (d2 : Disp) : Leads (!s.cpu.psw.problem) s (execLctl r1 r3 b2 d2 s) := by
  unfold execLctl
  exact Leads.supervisorOnly s _ _ (Leads.withFetch s _ _ _ _ _ _ _ _ (.inl ⟨rfl, rfl⟩) fun _ _ h _ => Leads.next (h.setCrs rfl _))

/-- SET PREFIX, whose termination leaves any prefix: its next states are those of an assigned prefix area. -/
theorem reaches_spx (s : State) (b2 : Reg) (d2 : Disp) : Reaches (!s.cpu.psw.problem) s (execSpx b2 d2 s) := by
  unfold execSpx
  refine Reaches.supervisorOnly s _ _ ?_
  unfold State.withFetch
  refine Reaches.guarded s _ _ _ _ (fun x => .prefixException s 4 x) fun _ => ?_
  have h : Updates true s ((s.advance 4).noteFetches (s.target b2) (s.addrs (s.eaBD b2 d2) 4)) := (Updates.none.advance 4).noteFetches _ _
  exact (Leads.ite (fun hb => Leads.next (h.after (.prefixTo rfl _ (.inr hb))).serialize) fun _ => Leads.report h _ _).1

theorem leads_stpx (s : State) (b2 : Reg) (d2 : Disp) : Leads (!s.cpu.psw.problem) s (execStpx b2 d2 s) := by
  unfold execStpx
  exact Leads.supervisorOnly s _ _ (Leads.withStore s _ _ _ _ _ _ _ (.inl ⟨rfl, rfl⟩) fun _ h _ => Leads.next h)

theorem leads_stap (s : State) (b2 : Reg) (d2 : Disp) : Leads (!s.cpu.psw.problem) s (execStap b2 d2 s) := by
  unfold execStap
  exact Leads.supervisorOnly s _ _ (Leads.withStore s _ _ _ _ _ _ _ (.inl ⟨rfl, rfl⟩) fun _ h _ => Leads.next h)

theorem leads_ipm (s : State) (r1 : Reg) : Leads sup s (execIpm r1 s) := by
  unfold execIpm
  exact Leads.next ((Updates.none.advance _).setGr _ _)

theorem leads_cs (s : State) (r1 : Reg) (r3 : Reg) (b2 : Reg) (d2 : Disp) : Leads sup s (execCs r1 r3 b2 d2 s) := by
  unfold execCs
  exact leads_interlocked s _ _ _ _ _ _ _ _ (.inr ⟨rfl, rfl, rfl, rfl⟩) rfl fun _ _ h => h.setGr _ _

theorem leads_cds (s : State) (r1 : Reg) (r3 : Reg) (b2 : Reg) (d2 : Disp) : Leads sup s (execCds r1 r3 b2 d2 s) := by
  unfold execCds
  exact leads_interlocked s _ _ _ _ _ _ _ _ (.inr ⟨rfl, rfl, rfl, rfl⟩) rfl fun _ _ h => h.setPair _ _

theorem leads_icm (s : State) (r1 : Reg) (m3 : Reg) (b2 : Reg) (d2 : Disp) : Leads sup s (execIcm r1 m3 b2 d2 s) := by
  unfold execIcm
  exact Leads.withFetch s _ _ _ _ _ _ _ _ (.inr ⟨rfl, rfl, rfl, rfl⟩) fun _ _ h _ => Leads.next ((h.setGr _ _).setCc _)

theorem leads_mvc (s : State) (len : Nat) (b1 : Reg) (d1 : Disp) (b2 : Reg) (d2 : Disp) : Leads sup s (execMvc len b1 d1 b2 d2 s) := by
  unfold execMvc
  exact leads_string s _ _ _ _ _ _ _ _ (.inr ⟨rfl, rfl, rfl, rfl⟩) fun _ _ h => Leads.next h

theorem leads_nc (s : State) (len : Nat) (b1 : Reg) (d1 : Disp) (b2 : Reg) (d2 : Disp) : Leads sup s (execNc len b1 d1 b2 d2 s) := by
  unfold execNc
  exact leads_string s _ _ _ _ _ _ _ _ (.inr ⟨rfl, rfl, rfl, rfl⟩) fun _ _ h => Leads.next (h.setCc _)

theorem leads_oc (s : State) (len : Nat) (b1 : Reg) (d1 : Disp) (b2 : Reg) (d2 : Disp) : Leads sup s (execOc len b1 d1 b2 d2 s) := by
  unfold execOc
  exact leads_string s _ _ _ _ _ _ _ _ (.inr ⟨rfl, rfl, rfl, rfl⟩) fun _ _ h => Leads.next (h.setCc _)

theorem leads_xc (s : State) (len : Nat) (b1 : Reg) (d1 : Disp) (b2 : Reg) (d2 : Disp) : Leads sup s (execXc len b1 d1 b2 d2 s) := by
  unfold execXc
  exact leads_string s _ _ _ _ _ _ _ _ (.inr ⟨rfl, rfl, rfl, rfl⟩) fun _ _ h => Leads.next (h.setCc _)

theorem leads_sckc (s : State) (b2 : Reg) (d2 : Disp) : Leads (!s.cpu.psw.problem) s (execSckc b2 d2 s) := by
  unfold execSckc
  exact Leads.supervisorOnly s _ _ (Leads.withFetch s _ _ _ _ _ _ _ _ (.inl ⟨rfl, rfl⟩) fun _ _ h _ => Leads.next (h.after (.comparator rfl _)))

theorem leads_stckc (s : State) (b2 : Reg) (d2 : Disp) : Leads (!s.cpu.psw.problem) s (execStckc b2 d2 s) := by
  unfold execStckc
  exact Leads.supervisorOnly s _ _ (Leads.withStore s _ _ _ _ _ _ _ (.inl ⟨rfl, rfl⟩) fun _ h _ => Leads.next h)

theorem leads_spt (s : State) (b2 : Reg) (d2 : Disp) : Leads (!s.cpu.psw.problem) s (execSpt b2 d2 s) := by
  unfold execSpt
  exact Leads.supervisorOnly s _ _ (Leads.withFetch s _ _ _ _ _ _ _ _ (.inl ⟨rfl, rfl⟩) fun _ _ h _ => Leads.next (h.after (.timer rfl _)))

theorem leads_stpt (s : State) (b2 : Reg) (d2 : Disp) : Leads (!s.cpu.psw.problem) s (execStpt b2 d2 s) := by
  unfold execStpt
  exact Leads.supervisorOnly s _ _ (Leads.withStore s _ _ _ _ _ _ _ (.inl ⟨rfl, rfl⟩) fun _ h _ => Leads.next h)

theorem leads_lam (s : State) (r1 : Reg) (r3 : Reg) (b2 : Reg) (d2 : Disp) : Leads sup s (execLam r1 r3 b2 d2 s) := by
  unfold execLam
  exact Leads.withFetch s _ _ _ _ _ _ _ _ (.inr ⟨rfl, rfl, rfl, rfl⟩) fun _ _ h _ => Leads.next (h.setArs _)

theorem leads_stam (s : State) (r1 : Reg) (r3 : Reg) (b2 : Reg) (d2 : Disp) : Leads sup s (execStam r1 r3 b2 d2 s) := by
  unfold execStam
  exact Leads.withStore s _ _ _ _ _ _ _ (.inr ⟨rfl, rfl, rfl, rfl⟩) fun _ h _ => Leads.next h

theorem leads_cpya (s : State) (r1 : Reg) (r2 : Reg) : Leads sup s (execCpya r1 r2 s) := by
  unfold execCpya
  exact Leads.next ((Updates.none.advance _).setAr _ _)

theorem leads_sar (s : State) (r1 : Reg) (r2 : Reg) : Leads sup s (execSar r1 r2 s) := by
  unfold execSar
  exact Leads.next ((Updates.none.advance _).setAr _ _)

theorem leads_ear (s : State) (r1 : Reg) (r2 : Reg) : Leads sup s (execEar r1 r2 s) := by
  unfold execEar
  exact Leads.next ((Updates.none.advance _).setGr _ _)

theorem leads_pr (s : State) : Leads sup s (execPr s) := by
  unfold execPr State.notProvided
  exact Leads.takeException s _ _ _ (.inr plain_none)

theorem leads_trap2 (s : State) : Leads sup s (execTrap2 s) := by
  unfold execTrap2 State.trapException
  exact Leads.takeException s _ _ _ (.inr plain_none)

theorem leads_lra (s : State) (r1 : Reg) (x2 : Reg) (b2 : Reg) (d2 : Disp) : Leads sup s (execLra r1 x2 b2 d2 s) := by
  unfold execLra State.notProvided
  exact Leads.takeException s _ _ _ (.inr plain_none)

theorem leads_sck (s : State) (b2 : Reg) (d2 : Disp) : Leads sup s (execSck b2 d2 s) := by
  unfold execSck State.notProvided
  exact Leads.takeException s _ _ _ (.inr plain_none)

theorem leads_sie (s : State) (b2 : Reg) (d2 : Disp) : Leads sup s (execSie b2 d2 s) := by
  unfold execSie State.notProvided
  exact Leads.takeException s _ _ _ (.inr plain_none)

theorem leads_pc (s : State) (b2 : Reg) (d2 : Disp) : Leads sup s (execPc b2 d2 s) := by
  unfold execPc State.notProvided
  exact Leads.takeException s _ _ _ (.inr plain_none)

theorem leads_ivsk (s : State) (r1 : Reg) (r2 : Reg) : Leads sup s (execIvsk r1 r2 s) := by
  unfold execIvsk State.notProvided
  exact Leads.takeException s _ _ _ (.inr plain_none)

theorem leads_ssar (s : State) (r1 : Reg) (r2 : Reg) : Leads sup s (execSsar r1 r2 s) := by
  unfold execSsar State.notProvided
  exact Leads.takeException s _ _ _ (.inr plain_none)

theorem leads_epar (s : State) (r1 : Reg) : Leads sup s (execEpar r1 s) := by
  unfold execEpar State.notProvided
  exact Leads.takeException s _ _ _ (.inr plain_none)

theorem leads_esar (s : State) (r1 : Reg) : Leads sup s (execEsar r1 s) := by
  unfold execEsar State.notProvided
  exact Leads.takeException s _ _ _ (.inr plain_none)

theorem leads_pt (s : State) (r1 : Reg) (r2 : Reg) : Leads sup s (execPt r1 r2 s) := by
  unfold execPt State.notProvided
  exact Leads.takeException s _ _ _ (.inr plain_none)

theorem leads_bakr (s : State) (r1 : Reg) (r2 : Reg) : Leads sup s (execBakr r1 r2 s) := by
  unfold execBakr State.notProvided
  exact Leads.takeException s _ _ _ (.inr plain_none)

theorem leads_msta (s : State) (r1 : Reg) (r2 : Reg) : Leads sup s (execMsta r1 r2 s) := by
  unfold execMsta State.notProvided
  exact Leads.takeException s _ _ _ (.inr plain_none)

theorem leads_ereg (s : State) (r1 : Reg) (r2 : Reg) : Leads sup s (execEreg r1 r2 s) := by
  unfold execEreg State.notProvided
  exact Leads.takeException s _ _ _ (.inr plain_none)

theorem leads_esta (s : State) (r1 : Reg) (r2 : Reg) : Leads sup s (execEsta r1 r2 s) := by
  unfold execEsta State.notProvided
  exact Leads.takeException s _ _ _ (.inr plain_none)

theorem leads_bsg (s : State) (r1 : Reg) (r2 : Reg) : Leads sup s (execBsg r1 r2 s) := by
  unfold execBsg State.notProvided
  exact Leads.takeException s _ _ _ (.inr plain_none)

theorem leads_trap4 (s : State) (b2 : Reg) (d2 : Disp) : Leads sup s (execTrap4 b2 d2 s) := by
  unfold execTrap4 State.trapException
  exact Leads.takeException s _ _ _ (.inr plain_none)

theorem leads_mvcp (s : State) (r1 : Reg) (r3 : Reg) (b1 : Reg) (d1 : Disp) (b2 : Reg) (d2 : Disp) : Leads sup s (execMvcp r1 r3 b1 d1 b2 d2 s) := by
  unfold execMvcp State.notProvided
  exact Leads.takeException s _ _ _ (.inr plain_none)

theorem leads_mvcs (s : State) (r1 : Reg) (r3 : Reg) (b1 : Reg) (d1 : Disp) (b2 : Reg) (d2 : Disp) : Leads sup s (execMvcs r1 r3 b1 d1 b2 d2 s) := by
  unfold execMvcs State.notProvided
  exact Leads.takeException s _ _ _ (.inr plain_none)

theorem leads_lasp (s : State) (b1 : Reg) (d1 : Disp) (b2 : Reg) (d2 : Disp) : Leads sup s (execLasp b1 d1 b2 d2 s) := by
  unfold execLasp State.notProvided
  exact Leads.takeException s _ _ _ (.inr plain_none)

theorem leads_ssm (s : State) (b2 : Reg) (d2 : Disp) : Leads (!s.cpu.psw.problem) s (execSsm b2 d2 s) := by
  unfold execSsm
  exact Leads.supervisorOnly s _ _ (Leads.withFetch s _ _ _ _ _ _ _ _ (.inl ⟨rfl, rfl⟩) fun _ _ h _ => Leads.enterPsw h rfl _ _)

theorem leads_lpsw (s : State) (b2 : Reg) (d2 : Disp) : Leads (!s.cpu.psw.problem) s (execLpsw b2 d2 s) := by
  unfold execLpsw
  exact Leads.supervisorOnly s _ _ (Leads.withFetch s _ _ _ _ _ _ _ _ (.inl ⟨rfl, rfl⟩) fun _ _ h _ => Leads.enterPsw h.serialize rfl _ _)

theorem leads_stosm (s : State) (i2 : Byte) (b1 : Reg) (d1 : Disp) : Leads (!s.cpu.psw.problem) s (execStosm i2 b1 d1 s) := by
  unfold execStosm
  exact Leads.supervisorOnly s _ _ (Leads.withStore s _ _ _ _ _ _ _ (.inl ⟨rfl, rfl⟩) fun _ h _ => Leads.enterPsw h rfl _ _)

theorem leads_ptlb (s : State) : Leads (!s.cpu.psw.problem) s (execPtlb s) := by
  unfold execPtlb
  exact Leads.supervisorOnly s _ _ (Leads.next (Updates.none.advance _).serialize)

theorem leads_iac (s : State) (r1 : Reg) : Leads sup s (execIac r1 s) := by
  unfold execIac
  exact Leads.next (((Updates.none.advance _).setGr _ _).setCc _)

theorem leads_palb (s : State) : Leads (!s.cpu.psw.problem) s (execPalb s) := by
  unfold execPalb
  exact Leads.supervisorOnly s _ _ (Leads.next (Updates.none.advance _).serialize)

theorem leads_lura (s : State) (r1 : Reg) (r2 : Reg) : Leads (!s.cpu.psw.problem) s (execLura r1 r2 s) := by
  unfold execLura
  exact Leads.supervisorOnly s _ _ (Leads.withRealFetch s _ _ _ _ _ _ (.inl ⟨rfl, rfl⟩) fun _ _ h _ => Leads.next (h.setGr _ _))

theorem leads_bsa (s : State) (r1 : Reg) (r2 : Reg) : Leads sup s (execBsa r1 r2 s) := by
  unfold execBsa
  exact Leads.ite (fun _ => Leads.refused _ (fun h => nomatch h)) fun _ => Leads.takeException s _ _ _ (.inr plain_none)

theorem leads_rp (s : State) (b2 : Reg) (d2 : Disp) : Leads sup s (execRp b2 d2 s) := by
  unfold execRp
  exact Leads.refused _ (fun h => nomatch h)

/-- Every instruction but EXECUTE and SET PREFIX. -/
theorem exec_leads (i : Instr) (s : State) (h : ∀ a x b d, i ≠ .ex a x b d) (hp : ∀ b d, i ≠ .spx b d) : Leads (!s.cpu.psw.problem) s (exec i s) := by
  cases i with
  | spm r1 => exact leads_spm s r1
  | balr r1 r2 => exact leads_balr s r1 r2
  | bctr r1 r2 => exact leads_bctr s r1 r2
  | bcr m1 r2 => exact leads_bcr s m1 r2
  | svc i => exact leads_svc s i
  | basr r1 r2 => exact leads_basr s r1 r2
  | lpr r1 r2 => exact leads_lpr s r1 r2
  | lnr r1 r2 => exact leads_lnr s r1 r2
  | ltr r1 r2 => exact leads_ltr s r1 r2
  | lcr r1 r2 => exact leads_lcr s r1 r2
  | nr r1 r2 => exact leads_nr s r1 r2
  | clr r1 r2 => exact leads_clr s r1 r2
  | or r1 r2 => exact leads_or s r1 r2
  | xr r1 r2 => exact leads_xr s r1 r2
  | lr r1 r2 => exact leads_lr s r1 r2
  | cr r1 r2 => exact leads_cr s r1 r2
  | ar r1 r2 => exact leads_ar s r1 r2
  | sr r1 r2 => exact leads_sr s r1 r2
  | mr r1 r2 => exact leads_mr s r1 r2
  | dr r1 r2 => exact leads_dr s r1 r2
  | alr r1 r2 => exact leads_alr s r1 r2
  | slr r1 r2 => exact leads_slr s r1 r2
  | sth r1 x2 b2 d2 => exact leads_sth s r1 x2 b2 d2
  | la r1 x2 b2 d2 => exact leads_la s r1 x2 b2 d2
  | stc r1 x2 b2 d2 => exact leads_stc s r1 x2 b2 d2
  | ic r1 x2 b2 d2 => exact leads_ic s r1 x2 b2 d2
  | bal r1 x2 b2 d2 => exact leads_bal s r1 x2 b2 d2
  | bct r1 x2 b2 d2 => exact leads_bct s r1 x2 b2 d2
  | bc m1 x2 b2 d2 => exact leads_bc s m1 x2 b2 d2
  | lh r1 x2 b2 d2 => exact leads_lh s r1 x2 b2 d2
  | ch r1 x2 b2 d2 => exact leads_ch s r1 x2 b2 d2
  | ah r1 x2 b2 d2 => exact leads_ah s r1 x2 b2 d2
  | sh r1 x2 b2 d2 => exact leads_sh s r1 x2 b2 d2
  | mh r1 x2 b2 d2 => exact leads_mh s r1 x2 b2 d2
  | bas r1 x2 b2 d2 => exact leads_bas s r1 x2 b2 d2
  | st r1 x2 b2 d2 => exact leads_st s r1 x2 b2 d2
  | n r1 x2 b2 d2 => exact leads_n s r1 x2 b2 d2
  | cl r1 x2 b2 d2 => exact leads_cl s r1 x2 b2 d2
  | o r1 x2 b2 d2 => exact leads_o s r1 x2 b2 d2
  | x r1 x2 b2 d2 => exact leads_x s r1 x2 b2 d2
  | l r1 x2 b2 d2 => exact leads_l s r1 x2 b2 d2
  | c r1 x2 b2 d2 => exact leads_c s r1 x2 b2 d2
  | a r1 x2 b2 d2 => exact leads_a s r1 x2 b2 d2
  | s r1 x2 b2 d2 => exact leads_s s r1 x2 b2 d2
  | m r1 x2 b2 d2 => exact leads_m s r1 x2 b2 d2
  | d r1 x2 b2 d2 => exact leads_d s r1 x2 b2 d2
  | al r1 x2 b2 d2 => exact leads_al s r1 x2 b2 d2
  | sl r1 x2 b2 d2 => exact leads_sl s r1 x2 b2 d2
  | bxh r1 r3 b2 d2 => exact leads_bxh s r1 r3 b2 d2
  | bxle r1 r3 b2 d2 => exact leads_bxle s r1 r3 b2 d2
  | srl r1 b2 d2 => exact leads_srl s r1 b2 d2
  | sll r1 b2 d2 => exact leads_sll s r1 b2 d2
  | sra r1 b2 d2 => exact leads_sra s r1 b2 d2
  | sla r1 b2 d2 => exact leads_sla s r1 b2 d2
  | srdl r1 b2 d2 => exact leads_srdl s r1 b2 d2
  | sldl r1 b2 d2 => exact leads_sldl s r1 b2 d2
  | srda r1 b2 d2 => exact leads_srda s r1 b2 d2
  | slda r1 b2 d2 => exact leads_slda s r1 b2 d2
  | stm r1 r3 b2 d2 => exact leads_stm s r1 r3 b2 d2
  | tm i2 b1 d1 => exact leads_tm s i2 b1 d1
  | mvi i2 b1 d1 => exact leads_mvi s i2 b1 d1
  | ni i2 b1 d1 => exact leads_ni s i2 b1 d1
  | cli i2 b1 d1 => exact leads_cli s i2 b1 d1
  | oi i2 b1 d1 => exact leads_oi s i2 b1 d1
  | xi i2 b1 d1 => exact leads_xi s i2 b1 d1
  | lm r1 r3 b2 d2 => exact leads_lm s r1 r3 b2 d2
  | brc m1 i2 => exact leads_brc s m1 i2
  | bras r1 i2 => exact leads_bras s r1 i2
  | brct r1 i2 => exact leads_brct s r1 i2
  | lhi r1 i2 => exact leads_lhi s r1 i2
  | ahi r1 i2 => exact leads_ahi s r1 i2
  | mhi r1 i2 => exact leads_mhi s r1 i2
  | chi r1 i2 => exact leads_chi s r1 i2
  | stnsm i2 b1 d1 => exact leads_stnsm s i2 b1 d1
  | stctl r1 r3 b2 d2 => exact leads_stctl s r1 r3 b2 d2
  | lctl r1 r3 b2 d2 => exact leads_lctl s r1 r3 b2 d2
  | spx b2 d2 => exact absurd rfl (hp b2 d2)
  | stpx b2 d2 => exact leads_stpx s b2 d2
  | stap b2 d2 => exact leads_stap s b2 d2
  | ipm r1 => exact leads_ipm s r1
  | cs r1 r3 b2 d2 => exact leads_cs s r1 r3 b2 d2
  | cds r1 r3 b2 d2 => exact leads_cds s r1 r3 b2 d2
  | clm r1 m3 b2 d2 => exact leads_clm s r1 m3 b2 d2
  | stcm r1 m3 b2 d2 => exact leads_stcm s r1 m3 b2 d2
  | icm r1 m3 b2 d2 => exact leads_icm s r1 m3 b2 d2
  | mvc len b1 d1 b2 d2 => exact leads_mvc s len b1 d1 b2 d2
  | nc len b1 d1 b2 d2 => exact leads_nc s len b1 d1 b2 d2
  | clc len b1 d1 b2 d2 => exact leads_clc s len b1 d1 b2 d2
  | oc len b1 d1 b2 d2 => exact leads_oc s len b1 d1 b2 d2
  | xc len b1 d1 b2 d2 => exact leads_xc s len b1 d1 b2 d2
  | sckpf => exact leads_sckpf s
  | stck b2 d2 => exact leads_stck s b2 d2
  | sckc b2 d2 => exact leads_sckc s b2 d2
  | stckc b2 d2 => exact leads_stckc s b2 d2
  | spt b2 d2 => exact leads_spt s b2 d2
  | stpt b2 d2 => exact leads_stpt s b2 d2
  | stcke b2 d2 => exact leads_stcke s b2 d2
  | lae r1 x2 b2 d2 => exact leads_lae s r1 x2 b2 d2
  | lam r1 r3 b2 d2 => exact leads_lam s r1 r3 b2 d2
  | stam r1 r3 b2 d2 => exact leads_stam s r1 r3 b2 d2
  | cpya r1 r2 => exact leads_cpya s r1 r2
  | sar r1 r2 => exact leads_sar s r1 r2
  | ear r1 r2 => exact leads_ear s r1 r2
  | pr => exact leads_pr s
  | trap2 => exact leads_trap2 s
  | lra r1 x2 b2 d2 => exact leads_lra s r1 x2 b2 d2
  | sck b2 d2 => exact leads_sck s b2 d2
  | sie b2 d2 => exact leads_sie s b2 d2
  | pc b2 d2 => exact leads_pc s b2 d2
  | ivsk r1 r2 => exact leads_ivsk s r1 r2
  | ssar r1 r2 => exact leads_ssar s r1 r2
  | epar r1 => exact leads_epar s r1
  | esar r1 => exact leads_esar s r1
  | pt r1 r2 => exact leads_pt s r1 r2
  | bakr r1 r2 => exact leads_bakr s r1 r2
  | msta r1 r2 => exact leads_msta s r1 r2
  | ereg r1 r2 => exact leads_ereg s r1 r2
  | esta r1 r2 => exact leads_esta s r1 r2
  | bsg r1 r2 => exact leads_bsg s r1 r2
  | trap4 b2 d2 => exact leads_trap4 s b2 d2
  | mvcp r1 r3 b1 d1 b2 d2 => exact leads_mvcp s r1 r3 b1 d1 b2 d2
  | mvcs r1 r3 b1 d1 b2 d2 => exact leads_mvcs s r1 r3 b1 d1 b2 d2
  | lasp b1 d1 b2 d2 => exact leads_lasp s b1 d1 b2 d2
  | ssm b2 d2 => exact leads_ssm s b2 d2
  | lpsw b2 d2 => exact leads_lpsw s b2 d2
  | diag r1 r3 b2 d2 => exact leads_diag s r1 r3 b2 d2
  | trace r1 r3 b2 d2 => exact leads_trace s r1 r3 b2 d2
  | stosm i2 b1 d1 => exact leads_stosm s i2 b1 d1
  | sigp r1 r3 b2 d2 => exact leads_sigp s r1 r3 b2 d2
  | ptlb => exact leads_ptlb s
  | sac b2 d2 => exact leads_sac s b2 d2
  | ipte r1 r2 => exact leads_ipte s r1 r2
  | iac r1 => exact leads_iac s r1
  | iske r1 r2 => exact leads_iske s r1 r2
  | rrbe r1 r2 => exact leads_rrbe s r1 r2
  | sske r1 r2 => exact leads_sske s r1 r2
  | tb r2 => exact leads_tb s r2
  | stura r1 r2 => exact leads_stura s r1 r2
  | palb => exact leads_palb s
  | lura r1 r2 => exact leads_lura s r1 r2
  | tar r1 r2 => exact leads_tar s r1 r2
  | bsa r1 r2 => exact leads_bsa s r1 r2
  | rp b2 d2 => exact leads_rp s b2 d2
  | sacf b2 d2 => exact leads_sacf s b2 d2
  | tprot b1 d1 b2 d2 => exact leads_tprot s b1 d1 b2 d2
  | ex a x b d => exact absurd rfl (h a x b d)

/-- Every instruction but EXECUTE. -/
theorem exec_reaches (i : Instr) (s : State) (h : ∀ a x b d, i ≠ .ex a x b d) : Reaches (!s.cpu.psw.problem) s (exec i s) := by
  by_cases hp : ∀ b d, i ≠ .spx b d
  · exact (exec_leads i s h hp).1
  · obtain ⟨b, d, rfl⟩ : ∃ b d, i = .spx b d := by simpa using hp
    exact reaches_spx s b d

theorem execTarget_eq (i : Instr) (s : State) (h : ∀ a x b d, i ≠ .ex a x b d) : execTarget i s = exec i s := by
  cases i <;> first | rfl | exact absurd rfl (h _ _ _ _)

/-- A fetch exception changes nothing but perhaps the condition code before its interruption. -/
theorem updates_fetchSuppressed (s : State) (cc : Bool) (x : ProgExc) : Updates sup s (s.fetchSuppressed cc x) := by
  unfold State.fetchSuppressed
  split
  · split
    · exact Updates.none.setCc _
    · exact .none
  · exact .none

theorem Leads.of {s u : State} (h : Updates sup s u) {o : Out} (ho : Leads sup u o) : Leads sup s o := by
  refine ⟨fun t ht => ?_, fun hr => ?_⟩
  · rcases ho.1 t ht with hu | ⟨v, old, new, ident, hv, hw, hb, hi⟩
    · exact .inl (h.trans hu)
    · exact .inr ⟨v, old, new, ident, h.trans hv, hw, hb, hi⟩
  · obtain ⟨v, hv, hn⟩ := ho.2 hr
    exact ⟨v, h.trans hv, hn⟩

theorem leads_fetchSuppressed (s : State) (cc : Bool) (x : ProgExc) : Leads sup s ((s.fetchSuppressed cc x).takeException 4 {} x) :=
  Leads.of (updates_fetchSuppressed s cc x) (Leads.takeException _ _ _ _ (.inr plain_none))

/-- What fetching an instruction makes of the state: its bytes are noted in the storage keys. -/
theorem fetchCode_state (s : State) (target : Bool) (m : Byte) (a : Addr) (i : Instr) (u : State)
    (h : s.fetchCode target m a = .instruction i u) : ∃ l, u = s.noteFetches instructionTarget l := by
  unfold State.fetchCode at h
  dsimp only at h
  split at h
  · cases h
  · split at h
    · split at h <;> cases h
    · split at h
      · cases h
        exact ⟨_, rfl⟩
      · cases h

/-- EXECUTE: an exception, a refusal, or what its target does, which the model knows whole unless it is SET PREFIX. -/
theorem execEx_cases (r1 x2 b2 : Reg) (d2 : Disp) (s : State) :
    Leads (!s.cpu.psw.problem) s (execEx r1 x2 b2 d2 s) ∨
      ∃ j u a o, s.fetchCode true (if r1 = 0 then 0 else byteOf (s.gr r1) 3) (s.ea b2 x2 d2) = .instruction j u ∧
        Updates (!s.cpu.psw.problem) s u ∧ Reaches (!s.cpu.psw.problem) (u.beginExecute a) o ∧
        ((∀ p q, j ≠ .spx p q) → Leads (!s.cpu.psw.problem) (u.beginExecute a) o) ∧
        execEx r1 x2 b2 d2 s = (match o with
          | .next v => .next v.endExecute
          | .fault f => .fault f
          | .refused r => .refused r) := by
  unfold execEx
  dsimp only
  split
  · exact .inl (Leads.takeException s _ _ _ (.inr plain_none))
  · split
    · exact .inl (leads_fetchSuppressed s _ _)
    · exact .inl (Leads.refused _ (fun h => nomatch h))
    · rename_i j s1 hf
      have h1 : ∃ l, s1 = s.noteFetches instructionTarget l := fetchCode_state s true _ _ j s1 hf
      obtain ⟨l, rfl⟩ := h1
      have hp : ((s.noteFetches instructionTarget l).beginExecute (s.ea b2 x2 d2)).cpu.psw = s.cpu.psw := by
        show (s.noteFetches instructionTarget l).cpu.psw = _
        rw [State.noteFetches_cpu]
      have ho : Reaches (!s.cpu.psw.problem) ((s.noteFetches instructionTarget l).beginExecute (s.ea b2 x2 d2))
            (execTarget j ((s.noteFetches instructionTarget l).beginExecute (s.ea b2 x2 d2))) ∧
          ((∀ p q, j ≠ .spx p q) → Leads (!s.cpu.psw.problem) ((s.noteFetches instructionTarget l).beginExecute (s.ea b2 x2 d2))
            (execTarget j ((s.noteFetches instructionTarget l).beginExecute (s.ea b2 x2 d2)))) := by
        rw [← hp]
        by_cases hj : ∀ a x b d, j ≠ .ex a x b d
        · rw [execTarget_eq j _ hj]
          exact ⟨exec_reaches j _ hj, exec_leads j _ hj⟩
        · obtain ⟨a, x, b, d, rfl⟩ : ∃ a x b d, j = .ex a x b d := by
            cases j <;> first | exact ⟨_, _, _, _, rfl⟩ | exact absurd (fun _ _ _ _ h => nomatch h) hj
          have he := Leads.takeException (sup := !((s.noteFetches instructionTarget l).beginExecute (s.ea b2 x2 d2)).cpu.psw.problem)
            ((s.noteFetches instructionTarget l).beginExecute (s.ea b2 x2 d2)) 4 {} .execute (.inr plain_none)
          exact ⟨he.1, fun _ => he⟩
      refine .inr ⟨j, _, s.ea b2 x2 d2, execTarget j ((s.noteFetches instructionTarget l).beginExecute (s.ea b2 x2 d2)), hf,
        Updates.none.noteFetches instructionTarget l, ho.1, ho.2, ?_⟩
      cases execTarget j ((s.noteFetches instructionTarget l).beginExecute (s.ea b2 x2 d2)) <;> rfl

/-- A next state of an instruction: what its updates give, or, for EXECUTE, what those of its target give. -/
theorem exec_ended (i : Instr) (s t : State) (ht : exec i s = .next t) :
    Ended (!s.cpu.psw.problem) s t ∨
      ∃ u a v, Updates (!s.cpu.psw.problem) s u ∧ Ended (!s.cpu.psw.problem) (u.beginExecute a) v ∧ t = v.endExecute := by
  by_cases hi : ∀ a x b d, i ≠ .ex a x b d
  · exact .inl (exec_reaches i s hi t ht)
  · obtain ⟨r1, x2, b2, d2, rfl⟩ : ∃ a x b d, i = .ex a x b d := by
      cases i <;> first | exact ⟨_, _, _, _, rfl⟩ | exact absurd (fun _ _ _ _ h => nomatch h) hi
    rcases execEx_cases r1 x2 b2 d2 s with h | ⟨j, u, a, o, _, hu, ho, _, he⟩
    · exact .inl (h.1 t ht)
    · rw [show exec (.ex r1 x2 b2 d2) s = execEx r1 x2 b2 d2 s from rfl, he] at ht
      cases o with
      | next v => exact .inr ⟨u, a, v, hu, ho v rfl, (Host.Outcome.next.inj ht).symm⟩
      | fault f => cases ht
      | refused r => cases ht

/-- An instruction's interruption is refused only where updates lead to a prefix area that is not assigned, or where the instruction, or its target
of EXECUTE, is SET PREFIX. -/
theorem exec_refused (i : Instr) (s : State) (ht : exec i s = .refused .prefixAreaNotAssigned) :
    (∃ u, Updates (!s.cpu.psw.problem) s u ∧ u.prefixAreaAssigned = false) ∨
      (∃ u a v, Updates (!s.cpu.psw.problem) s u ∧ Updates (!s.cpu.psw.problem) (u.beginExecute a) v ∧ v.prefixAreaAssigned = false) ∨
      (∃ b d, i = .spx b d) ∨
      ∃ r x b d, i = .ex r x b d ∧
        ∃ p q v, s.fetchCode true (if r = 0 then 0 else byteOf (s.gr r) 3) (s.ea b x d) = .instruction (.spx p q) v := by
  by_cases hi : ∀ a x b d, i ≠ .ex a x b d
  · by_cases hp : ∀ b d, i ≠ .spx b d
    · exact .inl ((exec_leads i s hi hp).2 ht)
    · exact .inr (.inr (.inl (by simpa using hp)))
  · obtain ⟨r1, x2, b2, d2, rfl⟩ : ∃ a x b d, i = .ex a x b d := by
      cases i <;> first | exact ⟨_, _, _, _, rfl⟩ | exact absurd (fun _ _ _ _ h => nomatch h) hi
    rcases execEx_cases r1 x2 b2 d2 s with h | ⟨j, u, a, o, hf, hu, _, ho, he⟩
    · exact .inl (h.2 ht)
    · by_cases hp : ∀ p q, j ≠ .spx p q
      · rw [show exec (.ex r1 x2 b2 d2) s = execEx r1 x2 b2 d2 s from rfl, he] at ht
        cases o with
        | next v => cases ht
        | fault f => cases ht
        | refused r =>
          obtain ⟨v, hv, hn⟩ := (ho hp).2 (by rw [← Host.Outcome.refused.inj ht])
          exact .inr (.inl ⟨u, a, v, hu, hv, hn⟩)
      · obtain ⟨p, q, rfl⟩ : ∃ p q, j = .spx p q := by simpa using hp
        exact .inr (.inr (.inr ⟨r1, x2, b2, d2, rfl, p, q, u, hf⟩))

end Sys2Proof.Machine
end

