-- ==== Sys2Proof/Laws/Encoding.lean ====
section
/-! SUPPORT. The fields of an encoding, read back from the bytes they are put into (spec/30_encoding.md R172, R173). -/

namespace Sys2Proof

theorem hiNibble_append (a b : BitVec 4) : hiNibble (a ++ b) = a := by revert b; revert a; decide
theorem loNibble_append (a b : BitVec 4) : loNibble (a ++ b) = b := by revert b; revert a; decide

theorem dispHi_append_dispLo (d : Disp) : dispHi d ++ dispLo d = d := by
  apply BitVec.eq_of_toNat_eq
  rw [BitVec.toNat_append, dispHi, dispLo, BitVec.extractLsb'_toNat, BitVec.extractLsb'_toNat, Nat.shiftRight_zero,
    ← Nat.shiftLeft_add_eq_or_of_lt (Nat.mod_lt _ (by decide)), Nat.shiftLeft_eq, Nat.shiftRight_eq_div_pow]
  have := d.isLt
  omega

/-- The displacement put into a base-displacement halfword. -/
theorem disp_append (b : BitVec 4) (d : Disp) : disp (b ++ dispHi d) (dispLo d) = d := by
  rw [disp, loNibble_append]
  exact dispHi_append_dispLo d

theorem imm_append (i : Half) : imm (immHi i) (immLo i) = i := by
  apply BitVec.eq_of_toNat_eq
  rw [imm, BitVec.toNat_append, immHi, immLo, BitVec.extractLsb'_toNat, BitVec.extractLsb'_toNat, Nat.shiftRight_zero,
    ← Nat.shiftLeft_add_eq_or_of_lt (Nat.mod_lt _ (by decide)), Nat.shiftLeft_eq, Nat.shiftRight_eq_div_pow]
  have := i.isLt
  omega

theorem trueLength_lengthCode (n : Nat) (h : 1 ≤ n ∧ n ≤ 256) : trueLength (lengthCode n) = n := by
  rw [trueLength, lengthCode, BitVec.toNat_ofNat]
  omega

end Sys2Proof
end

