-- ==== Sys2Proof/Laws/Interruption.lean ====
section
/-! SUPPORT. What can be read back after a program interruption: the code it stored, and the new PSW. -/

namespace Sys2Proof.Machine

open Sys2Proof.Safety

theorem withCells_mem (old : Addr → Byte) (cells : List (Addr × Byte)) (hd : (cells.map Prod.fst).Nodup) (c : Addr × Byte) (h : c ∈ cells) :
    withCells old cells c.1 = c.2 := by
  induction cells with
  | nil => cases h
  | cons d rest ih =>
    rw [List.map_cons, List.nodup_cons] at hd
    rw [withCells]
    rcases List.mem_cons.mp h with rfl | h
    · exact if_pos rfl
    · have hne : ¬ c.1 = d.1 := fun e => hd.1 (e ▸ List.mem_map_of_mem (f := Prod.fst) h)
      rw [if_neg hne]
      exact ih hd.2 h

theorem realCells_nodup (s : State) (fields : List (Nat × List Byte)) (hd : (fieldLocs fields).Nodup)
    (hb : ∀ n, n ∈ fieldLocs fields → n < 2 ^ 31) : ((realCells s fields).map Prod.fst).Nodup := by
  have h1 := (ofNat31_nodup _ hd hb).sublist (fieldCells_fst_sublist fields)
  have h2 := absolute_nodup s hostPrimaryTarget _ h1
  rw [← realCells_eq, List.map_map]
  rwa [List.map_map] at h2

/-- The bytes of a field are read back where it was stored. -/
theorem realBytes_stored (s t : State) (fields : List (Nat × List Byte)) (hd : (fieldLocs fields).Nodup)
    (hb : ∀ n, n ∈ fieldLocs fields → n < 2 ^ 31) (hs : bytesStored s t .hostPrimary (realCells s fields)) (hf : frame t = frame s)
    (f : Nat × List Byte) (hm : f ∈ fields) : t.realBytes f.1 f.2.length = f.2 := by
  unfold State.realBytes
  apply List.ext_getElem
  · simp
  · intro i h1 h2
    rw [List.getElem_map, List.getElem_range]
    unfold State.byteAt
    rw [frame_absolute _ _ hf]
    refine (hs .hostPrimary _).trans ?_
    rw [if_pos rfl]
    refine withCells_mem _ _ (realCells_nodup s fields hd hb) (s.prefixed (BitVec.ofNat 31 (f.1 + i)), f.2[i]) ?_
    unfold realCells
    rw [List.mem_flatMap]
    refine ⟨f, hm, ?_⟩
    rw [List.mem_iff_getElem]
    refine ⟨i, by simpa using h2, ?_⟩
    rw [List.getElem_zip, List.getElem_map, List.getElem_range]

/-- The new PSW is read back where it was. -/
theorem realBytes_kept (s t : State) (new : Nat) (fields : List (Nat × List Byte)) (hap : apart new fields)
    (hs : bytesStored s t .hostPrimary (realCells s fields)) (hf : frame t = frame s) : t.realBytes new 8 = s.realBytes new 8 := by
  obtain ⟨hd, hb, hnew⟩ := hap
  unfold State.realBytes
  refine List.map_congr_left fun i hi => ?_
  have hi8 : i < 8 := List.mem_range.mp hi
  unfold State.byteAt
  rw [frame_absolute _ _ hf]
  refine (hs .hostPrimary _).trans ?_
  rw [if_pos rfl]
  refine withCells_not_mem _ _ _ fun c hc => ?_
  rw [← realCells_eq] at hc
  obtain ⟨d, hdm, rfl⟩ := List.mem_map.mp hc
  obtain ⟨n, hn, hdn⟩ := mem_fieldCells _ d hdm
  intro he
  have he' := State.absolute_inj s hostPrimaryTarget _ _ he
  rw [hdn] at he'
  have h' := congrArg BitVec.toNat he'
  have hnb := hb n hn
  rw [BitVec.toNat_ofNat, BitVec.toNat_ofNat] at h'
  omega

theorem realBytes_tail (t : State) (a : Nat) (b0 b1 : Byte) (rest : List Byte) (h : t.realBytes a (rest.length + 2) = b0 :: b1 :: rest) :
    t.realBytes (a + 2) rest.length = rest := by
  have h2 := congrArg (List.drop 2) h
  rw [List.drop_succ_cons, List.drop_succ_cons, List.drop_zero] at h2
  rw [← h2]
  unfold State.realBytes
  apply List.ext_getElem
  · simp
  · intro i h3 h4
    rw [List.getElem_map, List.getElem_range, List.getElem_drop, List.getElem_map, List.getElem_range]
    congr 2
    omega

/-- A program interruption, its code and its new PSW read back. -/
theorem programInterruption_interruptsWith (s : State) (code : Half) (ilc : Nat) (extra : List (Nat × List Byte))
    (ha : s.prefixAreaAssigned = true)
    (hap : apart 104 ((40, bytes64 s.cpu.psw.toDWord) :: (140, [0, ilcByte ilc] ++ bytes16 code) :: extra)) :
    interruptsWith (s.programInterruption code ilc extra) code := by
  obtain ⟨t, ht, hp, -, hs, -, hf⟩ := interrupt_enters (s0 := s) (s := s) (e := { psw := s.cpu.psw }) 40 104
    ((140, [0, ilcByte ilc] ++ bytes16 code) :: extra) ha (Quiet.refl s) ⟨fun _ => rfl, fun _ => rfl, fun _ => rfl⟩ rfl hap
  refine ⟨t, ht, ?_, ?_⟩
  · have h := realBytes_stored s t _ hap.1 (fun n hn => Nat.lt_trans (hap.2.1 n hn).1 (by decide)) hs hf
      (140, [0, ilcByte ilc] ++ bytes16 code) (List.mem_cons_of_mem _ (List.mem_cons_self ..))
    exact realBytes_tail t 140 0 (ilcByte ilc) (bytes16 code) h
  · rw [hp, realBytes_kept s t 104 _ hap hs hf]

end Sys2Proof.Machine
end

