-- ==== Sys2Proof/Laws/PerInstr.lean ====
section
/-! SUPPORT. Statements made for every instruction: the length of its encoding is the length its first two bits give (spec/30_encoding.md R170). -/

namespace Sys2Proof.Laws.EncodedLength

open Sys2Proof

/-- The encoding of an instruction is as long as the first two bits of its first byte say. -/
def Statement (i : Instr) : Prop := (encode i).length = instrLength ((encode i).headD 0)

theorem spm (r1 : Reg) : Statement (.spm r1) := rfl
theorem balr (r1 : Reg) (r2 : Reg) : Statement (.balr r1 r2) := rfl
theorem bctr (r1 : Reg) (r2 : Reg) : Statement (.bctr r1 r2) := rfl
theorem bcr (m1 : Reg) (r2 : Reg) : Statement (.bcr m1 r2) := rfl
theorem svc (i : Byte) : Statement (.svc i) := rfl
theorem basr (r1 : Reg) (r2 : Reg) : Statement (.basr r1 r2) := rfl
theorem lpr (r1 : Reg) (r2 : Reg) : Statement (.lpr r1 r2) := rfl
theorem lnr (r1 : Reg) (r2 : Reg) : Statement (.lnr r1 r2) := rfl
theorem ltr (r1 : Reg) (r2 : Reg) : Statement (.ltr r1 r2) := rfl
theorem lcr (r1 : Reg) (r2 : Reg) : Statement (.lcr r1 r2) := rfl
theorem nr (r1 : Reg) (r2 : Reg) : Statement (.nr r1 r2) := rfl
theorem clr (r1 : Reg) (r2 : Reg) : Statement (.clr r1 r2) := rfl
theorem or (r1 : Reg) (r2 : Reg) : Statement (.or r1 r2) := rfl
theorem xr (r1 : Reg) (r2 : Reg) : Statement (.xr r1 r2) := rfl
theorem lr (r1 : Reg) (r2 : Reg) : Statement (.lr r1 r2) := rfl
theorem cr (r1 : Reg) (r2 : Reg) : Statement (.cr r1 r2) := rfl
theorem ar (r1 : Reg) (r2 : Reg) : Statement (.ar r1 r2) := rfl
theorem sr (r1 : Reg) (r2 : Reg) : Statement (.sr r1 r2) := rfl
theorem mr (r1 : Reg) (r2 : Reg) : Statement (.mr r1 r2) := rfl
theorem dr (r1 : Reg) (r2 : Reg) : Statement (.dr r1 r2) := rfl
theorem alr (r1 : Reg) (r2 : Reg) : Statement (.alr r1 r2) := rfl
theorem slr (r1 : Reg) (r2 : Reg) : Statement (.slr r1 r2) := rfl
theorem sth (r1 : Reg) (x2 : Reg) (b2 : Reg) (d2 : Disp) : Statement (.sth r1 x2 b2 d2) := rfl
theorem la (r1 : Reg) (x2 : Reg) (b2 : Reg) (d2 : Disp) : Statement (.la r1 x2 b2 d2) := rfl
theorem stc (r1 : Reg) (x2 : Reg) (b2 : Reg) (d2 : Disp) : Statement (.stc r1 x2 b2 d2) := rfl
theorem ic (r1 : Reg) (x2 : Reg) (b2 : Reg) (d2 : Disp) : Statement (.ic r1 x2 b2 d2) := rfl
theorem ex (r1 : Reg) (x2 : Reg) (b2 : Reg) (d2 : Disp) : Statement (.ex r1 x2 b2 d2) := rfl
theorem bal (r1 : Reg) (x2 : Reg) (b2 : Reg) (d2 : Disp) : Statement (.bal r1 x2 b2 d2) := rfl
theorem bct (r1 : Reg) (x2 : Reg) (b2 : Reg) (d2 : Disp) : Statement (.bct r1 x2 b2 d2) := rfl
theorem bc (m1 : Reg) (x2 : Reg) (b2 : Reg) (d2 : Disp) : Statement (.bc m1 x2 b2 d2) := rfl
theorem lh (r1 : Reg) (x2 : Reg) (b2 : Reg) (d2 : Disp) : Statement (.lh r1 x2 b2 d2) := rfl
theorem ch (r1 : Reg) (x2 : Reg) (b2 : Reg) (d2 : Disp) : Statement (.ch r1 x2 b2 d2) := rfl
theorem ah (r1 : Reg) (x2 : Reg) (b2 : Reg) (d2 : Disp) : Statement (.ah r1 x2 b2 d2) := rfl
theorem sh (r1 : Reg) (x2 : Reg) (b2 : Reg) (d2 : Disp) : Statement (.sh r1 x2 b2 d2) := rfl
theorem mh (r1 : Reg) (x2 : Reg) (b2 : Reg) (d2 : Disp) : Statement (.mh r1 x2 b2 d2) := rfl
theorem bas (r1 : Reg) (x2 : Reg) (b2 : Reg) (d2 : Disp) : Statement (.bas r1 x2 b2 d2) := rfl
theorem st (r1 : Reg) (x2 : Reg) (b2 : Reg) (d2 : Disp) : Statement (.st r1 x2 b2 d2) := rfl
theorem n (r1 : Reg) (x2 : Reg) (b2 : Reg) (d2 : Disp) : Statement (.n r1 x2 b2 d2) := rfl
theorem cl (r1 : Reg) (x2 : Reg) (b2 : Reg) (d2 : Disp) : Statement (.cl r1 x2 b2 d2) := rfl
theorem o (r1 : Reg) (x2 : Reg) (b2 : Reg) (d2 : Disp) : Statement (.o r1 x2 b2 d2) := rfl
theorem x (r1 : Reg) (x2 : Reg) (b2 : Reg) (d2 : Disp) : Statement (.x r1 x2 b2 d2) := rfl
theorem l (r1 : Reg) (x2 : Reg) (b2 : Reg) (d2 : Disp) : Statement (.l r1 x2 b2 d2) := rfl
theorem c (r1 : Reg) (x2 : Reg) (b2 : Reg) (d2 : Disp) : Statement (.c r1 x2 b2 d2) := rfl
theorem a (r1 : Reg) (x2 : Reg) (b2 : Reg) (d2 : Disp) : Statement (.a r1 x2 b2 d2) := rfl
theorem s (r1 : Reg) (x2 : Reg) (b2 : Reg) (d2 : Disp) : Statement (.s r1 x2 b2 d2) := rfl
theorem m (r1 : Reg) (x2 : Reg) (b2 : Reg) (d2 : Disp) : Statement (.m r1 x2 b2 d2) := rfl
theorem d (r1 : Reg) (x2 : Reg) (b2 : Reg) (d2 : Disp) : Statement (.d r1 x2 b2 d2) := rfl
theorem al (r1 : Reg) (x2 : Reg) (b2 : Reg) (d2 : Disp) : Statement (.al r1 x2 b2 d2) := rfl
theorem sl (r1 : Reg) (x2 : Reg) (b2 : Reg) (d2 : Disp) : Statement (.sl r1 x2 b2 d2) := rfl
theorem bxh (r1 : Reg) (r3 : Reg) (b2 : Reg) (d2 : Disp) : Statement (.bxh r1 r3 b2 d2) := rfl
theorem bxle (r1 : Reg) (r3 : Reg) (b2 : Reg) (d2 : Disp) : Statement (.bxle r1 r3 b2 d2) := rfl
theorem srl (r1 : Reg) (b2 : Reg) (d2 : Disp) : Statement (.srl r1 b2 d2) := rfl
theorem sll (r1 : Reg) (b2 : Reg) (d2 : Disp) : Statement (.sll r1 b2 d2) := rfl
theorem sra (r1 : Reg) (b2 : Reg) (d2 : Disp) : Statement (.sra r1 b2 d2) := rfl
theorem sla (r1 : Reg) (b2 : Reg) (d2 : Disp) : Statement (.sla r1 b2 d2) := rfl
theorem srdl (r1 : Reg) (b2 : Reg) (d2 : Disp) : Statement (.srdl r1 b2 d2) := rfl
theorem sldl (r1 : Reg) (b2 : Reg) (d2 : Disp) : Statement (.sldl r1 b2 d2) := rfl
theorem srda (r1 : Reg) (b2 : Reg) (d2 : Disp) : Statement (.srda r1 b2 d2) := rfl
theorem slda (r1 : Reg) (b2 : Reg) (d2 : Disp) : Statement (.slda r1 b2 d2) := rfl
theorem stm (r1 : Reg) (r3 : Reg) (b2 : Reg) (d2 : Disp) : Statement (.stm r1 r3 b2 d2) := rfl
theorem tm (i2 : Byte) (b1 : Reg) (d1 : Disp) : Statement (.tm i2 b1 d1) := rfl
theorem mvi (i2 : Byte) (b1 : Reg) (d1 : Disp) : Statement (.mvi i2 b1 d1) := rfl
theorem ni (i2 : Byte) (b1 : Reg) (d1 : Disp) : Statement (.ni i2 b1 d1) := rfl
theorem cli (i2 : Byte) (b1 : Reg) (d1 : Disp) : Statement (.cli i2 b1 d1) := rfl
theorem oi (i2 : Byte) (b1 : Reg) (d1 : Disp) : Statement (.oi i2 b1 d1) := rfl
theorem xi (i2 : Byte) (b1 : Reg) (d1 : Disp) : Statement (.xi i2 b1 d1) := rfl
theorem lm (r1 : Reg) (r3 : Reg) (b2 : Reg) (d2 : Disp) : Statement (.lm r1 r3 b2 d2) := rfl
theorem brc (m1 : Reg) (i2 : Half) : Statement (.brc m1 i2) := rfl
theorem bras (r1 : Reg) (i2 : Half) : Statement (.bras r1 i2) := rfl
theorem brct (r1 : Reg) (i2 : Half) : Statement (.brct r1 i2) := rfl
theorem lhi (r1 : Reg) (i2 : Half) : Statement (.lhi r1 i2) := rfl
theorem ahi (r1 : Reg) (i2 : Half) : Statement (.ahi r1 i2) := rfl
theorem mhi (r1 : Reg) (i2 : Half) : Statement (.mhi r1 i2) := rfl
theorem chi (r1 : Reg) (i2 : Half) : Statement (.chi r1 i2) := rfl
theorem stnsm (i2 : Byte) (b1 : Reg) (d1 : Disp) : Statement (.stnsm i2 b1 d1) := rfl
theorem stctl (r1 : Reg) (r3 : Reg) (b2 : Reg) (d2 : Disp) : Statement (.stctl r1 r3 b2 d2) := rfl
theorem lctl (r1 : Reg) (r3 : Reg) (b2 : Reg) (d2 : Disp) : Statement (.lctl r1 r3 b2 d2) := rfl
theorem spx (b2 : Reg) (d2 : Disp) : Statement (.spx b2 d2) := rfl
theorem stpx (b2 : Reg) (d2 : Disp) : Statement (.stpx b2 d2) := rfl
theorem stap (b2 : Reg) (d2 : Disp) : Statement (.stap b2 d2) := rfl
theorem ipm (r1 : Reg) : Statement (.ipm r1) := rfl
theorem cs (r1 : Reg) (r3 : Reg) (b2 : Reg) (d2 : Disp) : Statement (.cs r1 r3 b2 d2) := rfl
theorem cds (r1 : Reg) (r3 : Reg) (b2 : Reg) (d2 : Disp) : Statement (.cds r1 r3 b2 d2) := rfl
theorem clm (r1 : Reg) (m3 : Reg) (b2 : Reg) (d2 : Disp) : Statement (.clm r1 m3 b2 d2) := rfl
theorem stcm (r1 : Reg) (m3 : Reg) (b2 : Reg) (d2 : Disp) : Statement (.stcm r1 m3 b2 d2) := rfl
theorem icm (r1 : Reg) (m3 : Reg) (b2 : Reg) (d2 : Disp) : Statement (.icm r1 m3 b2 d2) := rfl
theorem mvc (len : Nat) (b1 : Reg) (d1 : Disp) (b2 : Reg) (d2 : Disp) : Statement (.mvc len b1 d1 b2 d2) := rfl
theorem nc (len : Nat) (b1 : Reg) (d1 : Disp) (b2 : Reg) (d2 : Disp) : Statement (.nc len b1 d1 b2 d2) := rfl
theorem clc (len : Nat) (b1 : Reg) (d1 : Disp) (b2 : Reg) (d2 : Disp) : Statement (.clc len b1 d1 b2 d2) := rfl
theorem oc (len : Nat) (b1 : Reg) (d1 : Disp) (b2 : Reg) (d2 : Disp) : Statement (.oc len b1 d1 b2 d2) := rfl
theorem xc (len : Nat) (b1 : Reg) (d1 : Disp) (b2 : Reg) (d2 : Disp) : Statement (.xc len b1 d1 b2 d2) := rfl
theorem sckpf : Statement (.sckpf) := rfl
theorem stck (b2 : Reg) (d2 : Disp) : Statement (.stck b2 d2) := rfl
theorem sckc (b2 : Reg) (d2 : Disp) : Statement (.sckc b2 d2) := rfl
theorem stckc (b2 : Reg) (d2 : Disp) : Statement (.stckc b2 d2) := rfl
theorem spt (b2 : Reg) (d2 : Disp) : Statement (.spt b2 d2) := rfl
theorem stpt (b2 : Reg) (d2 : Disp) : Statement (.stpt b2 d2) := rfl
theorem stcke (b2 : Reg) (d2 : Disp) : Statement (.stcke b2 d2) := rfl
theorem lae (r1 : Reg) (x2 : Reg) (b2 : Reg) (d2 : Disp) : Statement (.lae r1 x2 b2 d2) := rfl
theorem lam (r1 : Reg) (r3 : Reg) (b2 : Reg) (d2 : Disp) : Statement (.lam r1 r3 b2 d2) := rfl
theorem stam (r1 : Reg) (r3 : Reg) (b2 : Reg) (d2 : Disp) : Statement (.stam r1 r3 b2 d2) := rfl
theorem cpya (r1 : Reg) (r2 : Reg) : Statement (.cpya r1 r2) := rfl
theorem sar (r1 : Reg) (r2 : Reg) : Statement (.sar r1 r2) := rfl
theorem ear (r1 : Reg) (r2 : Reg) : Statement (.ear r1 r2) := rfl
theorem pr : Statement (.pr) := rfl
theorem trap2 : Statement (.trap2) := rfl
theorem lra (r1 : Reg) (x2 : Reg) (b2 : Reg) (d2 : Disp) : Statement (.lra r1 x2 b2 d2) := rfl
theorem sck (b2 : Reg) (d2 : Disp) : Statement (.sck b2 d2) := rfl
theorem sie (b2 : Reg) (d2 : Disp) : Statement (.sie b2 d2) := rfl
theorem pc (b2 : Reg) (d2 : Disp) : Statement (.pc b2 d2) := rfl
theorem ivsk (r1 : Reg) (r2 : Reg) : Statement (.ivsk r1 r2) := rfl
theorem ssar (r1 : Reg) (r2 : Reg) : Statement (.ssar r1 r2) := rfl
theorem epar (r1 : Reg) : Statement (.epar r1) := rfl
theorem esar (r1 : Reg) : Statement (.esar r1) := rfl
theorem pt (r1 : Reg) (r2 : Reg) : Statement (.pt r1 r2) := rfl
theorem bakr (r1 : Reg) (r2 : Reg) : Statement (.bakr r1 r2) := rfl
theorem msta (r1 : Reg) (r2 : Reg) : Statement (.msta r1 r2) := rfl
theorem ereg (r1 : Reg) (r2 : Reg) : Statement (.ereg r1 r2) := rfl
theorem esta (r1 : Reg) (r2 : Reg) : Statement (.esta r1 r2) := rfl
theorem bsg (r1 : Reg) (r2 : Reg) : Statement (.bsg r1 r2) := rfl
theorem trap4 (b2 : Reg) (d2 : Disp) : Statement (.trap4 b2 d2) := rfl
theorem mvcp (r1 : Reg) (r3 : Reg) (b1 : Reg) (d1 : Disp) (b2 : Reg) (d2 : Disp) : Statement (.mvcp r1 r3 b1 d1 b2 d2) := rfl
theorem mvcs (r1 : Reg) (r3 : Reg) (b1 : Reg) (d1 : Disp) (b2 : Reg) (d2 : Disp) : Statement (.mvcs r1 r3 b1 d1 b2 d2) := rfl
theorem lasp (b1 : Reg) (d1 : Disp) (b2 : Reg) (d2 : Disp) : Statement (.lasp b1 d1 b2 d2) := rfl
theorem ssm (b2 : Reg) (d2 : Disp) : Statement (.ssm b2 d2) := rfl
theorem lpsw (b2 : Reg) (d2 : Disp) : Statement (.lpsw b2 d2) := rfl
theorem diag (r1 : Reg) (r3 : Reg) (b2 : Reg) (d2 : Disp) : Statement (.diag r1 r3 b2 d2) := rfl
theorem trace (r1 : Reg) (r3 : Reg) (b2 : Reg) (d2 : Disp) : Statement (.trace r1 r3 b2 d2) := rfl
theorem stosm (i2 : Byte) (b1 : Reg) (d1 : Disp) : Statement (.stosm i2 b1 d1) := rfl
theorem sigp (r1 : Reg) (r3 : Reg) (b2 : Reg) (d2 : Disp) : Statement (.sigp r1 r3 b2 d2) := rfl
theorem ptlb : Statement (.ptlb) := rfl
theorem sac (b2 : Reg) (d2 : Disp) : Statement (.sac b2 d2) := rfl
theorem ipte (r1 : Reg) (r2 : Reg) : Statement (.ipte r1 r2) := rfl
theorem iac (r1 : Reg) : Statement (.iac r1) := rfl
theorem iske (r1 : Reg) (r2 : Reg) : Statement (.iske r1 r2) := rfl
theorem rrbe (r1 : Reg) (r2 : Reg) : Statement (.rrbe r1 r2) := rfl
theorem sske (r1 : Reg) (r2 : Reg) : Statement (.sske r1 r2) := rfl
theorem tb (r2 : Reg) : Statement (.tb r2) := rfl
theorem stura (r1 : Reg) (r2 : Reg) : Statement (.stura r1 r2) := rfl
theorem palb : Statement (.palb) := rfl
theorem lura (r1 : Reg) (r2 : Reg) : Statement (.lura r1 r2) := rfl
theorem tar (r1 : Reg) (r2 : Reg) : Statement (.tar r1 r2) := rfl
theorem bsa (r1 : Reg) (r2 : Reg) : Statement (.bsa r1 r2) := rfl
theorem rp (b2 : Reg) (d2 : Disp) : Statement (.rp b2 d2) := rfl
theorem sacf (b2 : Reg) (d2 : Disp) : Statement (.sacf b2 d2) := rfl
theorem tprot (b1 : Reg) (d1 : Disp) (b2 : Reg) (d2 : Disp) : Statement (.tprot b1 d1 b2 d2) := rfl

end Sys2Proof.Laws.EncodedLength
end

