-- ==== Sys2Proof/Laws/Strings.lean ====
section
/-! SUPPORT. The byte-by-byte operation on two strings, everything it can do: the bytes it leaves, told by the function `stringBytes` on the contents
of storage, the keys it records, and the OR of its result bytes. -/

namespace Sys2Proof.Machine

open Sys2Proof.Safety

/-- What a byte-by-byte operation leaves alone. -/
structure Serial (s u : State) : Prop where
  keys : keysKept s u
  rest : frame u = frame s
  psw : u.cpu.psw = s.cpu.psw
  gr : ∀ r, u.gr r = s.gr r
  ar : ∀ r, u.ar r = s.ar r
  cr : ∀ r, u.cr r = s.cr r

theorem Serial.refl (s : State) : Serial s s := ⟨keysKept_refl s, rfl, rfl, fun _ => rfl, fun _ => rfl, fun _ => rfl⟩

theorem Serial.trans {s t u : State} (a : Serial s t) (b : Serial t u) : Serial s u :=
  ⟨keysKept_trans a.keys b.keys, b.rest.trans a.rest, b.psw.trans a.psw, fun r => (b.gr r).trans (a.gr r), fun r => (b.ar r).trans (a.ar r),
    fun r => (b.cr r).trans (a.cr r)⟩

/-- One turn: a byte fetched, then a byte stored. -/
def oneByte (t1 t2 : Target) (f : Byte → Byte → Byte) (s : State) (c : Addr × Addr) : State :=
  (s.noteFetch t2 c.2).storeByte t1 c.1 (f (s.byteAt t1 c.1) (s.byteAt t2 c.2))

theorem oneByte_eq (t1 t2 : Target) (f : Byte → Byte → Byte) (s : State) (c : Addr × Addr) :
    oneByte t1 t2 f s c = (s.noteFetch t2 c.2).storeBytes t1 [(c.1, f (s.byteAt t1 c.1) (s.byteAt t2 c.2))] := rfl

theorem oneByte_serial (t1 t2 : Target) (f : Byte → Byte → Byte) (s : State) (c : Addr × Addr) : Serial s (oneByte t1 t2 f s c) := by
  have hcpu : (oneByte t1 t2 f s c).cpu = { s.cpu with staleBytes := (oneByte t1 t2 f s c).cpu.staleBytes } := by
    have h := State.storeBytes_cpu (s.noteFetch t2 c.2) t1 [(c.1, f (s.byteAt t1 c.1) (s.byteAt t2 c.2))]
    rw [← oneByte_eq] at h
    rw [h, show (s.noteFetch t2 c.2).cpu = s.cpu from State.record_cpu ..]
  refine ⟨?_, ?_, by rw [hcpu], fun r => ?_, fun r => ?_, fun r => ?_⟩
  · rw [oneByte_eq]
    exact keysKept_trans (State.record_keysKept s _ _ _) (State.storeBytes_keysKept _ _ _)
  · rw [oneByte_eq, State.storeBytes_frame]
    exact State.record_frame ..
  · have e : (oneByte t1 t2 f s c).cpu.gr = s.cpu.gr := by rw [hcpu]
    unfold State.gr
    simp only [e]
  · have e : (oneByte t1 t2 f s c).cpu.ar = s.cpu.ar := by rw [hcpu]
    unfold State.ar
    simp only [e]
  · have e : (oneByte t1 t2 f s c).cpu.cr = s.cpu.cr := by rw [hcpu]
    unfold State.cr
    simp only [e]

/-- The bytes after one turn. -/
theorem oneByte_bytes (t1 t2 : Target) (f : Byte → Byte → Byte) (s : State) (c : Addr × Addr) (hk : s.knows t1.space = true)
    (m : SpaceId → Addr → Byte) (hm : ∀ i a, (s.space i).byte a = m i a) (i : SpaceId) (a : Addr) :
    ((oneByte t1 t2 f s c).space i).byte a =
      if i = t1.space ∧ a = s.absolute t1 c.1 then f (m t1.space (s.absolute t1 c.1)) (m t2.space (s.absolute t2 c.2)) else m i a := by
  have hfn : frame (s.noteFetch t2 c.2) = frame s := State.record_frame ..
  have hst := State.storeBytes_stored (s.noteFetch t2 c.2) t1 [(c.1, f (s.byteAt t1 c.1) (s.byteAt t2 c.2))]
    (by rw [frame_knows _ _ hfn]; exact hk) (by simp) i a
  rw [← oneByte_eq] at hst
  rw [hst]
  have hbk : ((s.noteFetch t2 c.2).space i).byte a = (s.space i).byte a := State.record_bytesKept s t2.space _ false i a
  have hb : ∀ t e, s.byteAt t e = m t.space (s.absolute t e) := fun t e => hm _ _
  rw [hb, hb]
  simp only [List.map_cons, List.map_nil, withCells, frame_absolute _ _ hfn]
  rw [hbk, hm]
  by_cases hi : i = t1.space <;> by_cases ha : a = s.absolute t1 c.1 <;> simp [hi, ha]

theorem byteSerial_cons (t1 t2 : Target) (f : Byte → Byte → Byte) (c : Addr × Addr) (l : List (Addr × Addr)) (s : State) :
    State.byteSerial t1 t2 f (c :: l) s =
      ((State.byteSerial t1 t2 f l (oneByte t1 t2 f s c)).1,
        f (s.byteAt t1 c.1) (s.byteAt t2 c.2) ||| (State.byteSerial t1 t2 f l (oneByte t1 t2 f s c)).2) := rfl

theorem byteSerial_serial (t1 t2 : Target) (f : Byte → Byte → Byte) (l : List (Addr × Addr)) (s : State) :
    Serial s (State.byteSerial t1 t2 f l s).1 := by
  induction l generalizing s with
  | nil => exact Serial.refl s
  | cons c l ih =>
    rw [byteSerial_cons]
    exact (oneByte_serial t1 t2 f s c).trans (ih _)

/-- The absolute addresses of pairs of operand bytes. -/
def absolutePairs (s : State) (t1 t2 : Target) (l : List (Addr × Addr)) : List (Addr × Addr) :=
  l.map (fun c => (s.absolute t1 c.1, s.absolute t2 c.2))

theorem absolutePairs_frame (s u : State) (h : frame u = frame s) (t1 t2 : Target) (l : List (Addr × Addr)) :
    absolutePairs u t1 t2 l = absolutePairs s t1 t2 l := by
  unfold absolutePairs
  simp only [frame_absolute _ _ h]

/-- The bytes a byte-by-byte operation leaves. -/
theorem byteSerial_bytes (t1 t2 : Target) (f : Byte → Byte → Byte) (l : List (Addr × Addr)) (s : State) (hk : s.knows t1.space = true)
    (m : SpaceId → Addr → Byte) (hm : ∀ i a, (s.space i).byte a = m i a) (i : SpaceId) (a : Addr) :
    ((State.byteSerial t1 t2 f l s).1.space i).byte a = stringBytes f t1.space t2.space (absolutePairs s t1 t2 l) m i a := by
  induction l generalizing s m with
  | nil => exact hm i a
  | cons c l ih =>
    have hs := oneByte_serial t1 t2 f s c
    rw [byteSerial_cons]
    refine (ih _ (by rw [frame_knows _ _ hs.rest]; exact hk) _ (oneByte_bytes t1 t2 f s c hk m hm)).trans ?_
    rw [absolutePairs_frame _ _ hs.rest]
    rfl

/-- A byte that is not of the first operand is not changed. -/
theorem stringBytes_other (f : Byte → Byte → Byte) (i1 i2 : SpaceId) (l : List (Addr × Addr)) (m : SpaceId → Addr → Byte) (i : SpaceId)
    (a : Addr) (h : i ≠ i1 ∨ a ∉ l.map Prod.fst) : stringBytes f i1 i2 l m i a = m i a := by
  induction l generalizing m with
  | nil => rfl
  | cons c l ih =>
    simp only [List.map_cons, List.mem_cons, not_or] at h
    rw [stringBytes, ih _ (h.imp_right And.right)]
    refine if_neg fun e => ?_
    rcases h with h | h
    · exact h e.1
    · exact h.1 e.2

theorem or_eq_zero (x y : Byte) : x ||| y = 0 ↔ x = 0 ∧ y = 0 := by
  constructor
  · intro h
    have hb : ∀ k, (x.getLsbD k || y.getLsbD k) = false := fun k => by
      have e := congrArg (fun v => v.getLsbD k) h
      rw [show (x ||| y).getLsbD k = (x.getLsbD k || y.getLsbD k) from BitVec.getLsbD_or] at e
      exact e.trans BitVec.getLsbD_zero
    constructor <;> apply BitVec.eq_of_getLsbD_eq <;> intro k _ <;> have e := hb k <;> rw [Bool.or_eq_false_iff] at e
    · exact e.1.trans BitVec.getLsbD_zero.symm
    · exact e.2.trans BitVec.getLsbD_zero.symm
  · rintro ⟨rfl, rfl⟩
    rfl

/-- The OR of the result bytes is zero exactly where every byte of the first operand is then zero. -/
theorem byteSerial_or (t1 t2 : Target) (f : Byte → Byte → Byte) (l : List (Addr × Addr)) (s : State) (hk : s.knows t1.space = true)
    (m : SpaceId → Addr → Byte) (hm : ∀ i a, (s.space i).byte a = m i a) (hd : ((absolutePairs s t1 t2 l).map Prod.fst).Nodup) :
    (State.byteSerial t1 t2 f l s).2 = 0 ↔
      ∀ a, a ∈ (absolutePairs s t1 t2 l).map Prod.fst → stringBytes f t1.space t2.space (absolutePairs s t1 t2 l) m t1.space a = 0 := by
  induction l generalizing s m with
  | nil => simp [State.byteSerial, absolutePairs]
  | cons c l ih =>
    have hs := oneByte_serial t1 t2 f s c
    have ih' := ih (oneByte t1 t2 f s c) (by rw [frame_knows _ _ hs.rest]; exact hk) _ (oneByte_bytes t1 t2 f s c hk m hm)
    rw [absolutePairs_frame _ _ hs.rest] at ih'
    have hc : absolutePairs s t1 t2 (c :: l) = (s.absolute t1 c.1, s.absolute t2 c.2) :: absolutePairs s t1 t2 l := rfl
    rw [hc, List.map_cons, List.nodup_cons] at hd
    have e : f (s.byteAt t1 c.1) (s.byteAt t2 c.2) = f (m t1.space (s.absolute t1 c.1)) (m t2.space (s.absolute t2 c.2)) := by
      show f ((s.space _).byte _) ((s.space _).byte _) = _
      rw [hm, hm]
    rw [byteSerial_cons, or_eq_zero, ih' hd.2, hc, List.map_cons, e]
    simp only [stringBytes, List.mem_cons, forall_eq_or_imp]
    rw [stringBytes_other _ _ _ _ _ _ _ (Or.inr hd.1)]
    simp

/-- Every byte of the first operand has the reference and change bits of its block one. -/
theorem byteSerial_recorded (t1 t2 : Target) (f : Byte → Byte → Byte) (l : List (Addr × Addr)) (s : State) (hk : s.knows t1.space = true) :
    ∀ a, a ∈ (absolutePairs s t1 t2 l).map Prod.fst →
      keyReference (((State.byteSerial t1 t2 f l s).1.space t1.space).key (blockOf a)) = true ∧
        keyChange (((State.byteSerial t1 t2 f l s).1.space t1.space).key (blockOf a)) = true := by
  induction l generalizing s with
  | nil => intro a h; simp [absolutePairs] at h
  | cons c l ih =>
    have hs := oneByte_serial t1 t2 f s c
    have hfn : frame (s.noteFetch t2 c.2) = frame s := State.record_frame ..
    have hrest := byteSerial_serial t1 t2 f l (oneByte t1 t2 f s c)
    intro a ha
    rw [byteSerial_cons]
    have hc : (absolutePairs s t1 t2 (c :: l)).map Prod.fst = s.absolute t1 c.1 :: (absolutePairs s t1 t2 l).map Prod.fst := rfl
    rw [hc, List.mem_cons] at ha
    rcases ha with rfl | ha
    · have h := State.storeBytes_recorded (s.noteFetch t2 c.2) t1 [(c.1, f (s.byteAt t1 c.1) (s.byteAt t2 c.2))]
        (by rw [frame_knows _ _ hfn]; exact hk) _ (List.mem_cons_self ..)
      rw [← oneByte_eq, frame_absolute _ _ hfn] at h
      have hkk := hrest.keys t1.space (blockOf (s.absolute t1 c.1))
      exact ⟨hkk.2.1 h.1, hkk.2.2 h.2⟩
    · refine ih (oneByte t1 t2 f s c) (by rw [frame_knows _ _ hs.rest]; exact hk) a ?_
      rw [absolutePairs_frame _ _ hs.rest]
      exact ha

theorem absolutePairs_zip (s : State) (t1 t2 : Target) (x y : List Addr) :
    absolutePairs s t1 t2 (x.zip y) = (x.map (s.absolute t1)).zip (y.map (s.absolute t2)) := by
  unfold absolutePairs
  rw [List.zip_map]
  rfl

end Sys2Proof.Machine
end

