-- ==== Sys2Proof/Laws/Turn.lean ====
section
/-! SUPPORT. Everything one step can do, said once: a move of the environment, or a CPU's turn: an interruption, a stop, an instruction, or nothing. -/

namespace Sys2Proof.Machine

open Sys2Proof.Safety

/-- The CPU before an interruption is taken whose condition it no longer holds: storage, the host access list and the other CPUs as before. -/
structure Boundary (v u : State) : Prop where
  hp : u.hp = v.hp
  spaces : u.spaces = v.spaces
  hal : u.hal = v.hal
  others : u.others = v.others
  prefixReg : u.cpu.prefixReg = v.cpu.prefixReg
  exTarget : u.cpu.exTarget = v.cpu.exTarget

/-- An interruption taken at an instruction boundary. -/
def TakesInterruption (v : State) (o : Out) : Prop :=
  ∃ u old new ident, Boundary v u ∧ old ≤ 4000 ∧ (∀ f, f ∈ ident → f.1 + f.2.length ≤ 4096) ∧ o = u.interrupt old new ident

theorem Boundary.refl (v : State) : Boundary v v := ⟨rfl, rfl, rfl, rfl, rfl, rfl⟩

theorem takesInterruption_program (v u : State) (h : Boundary v u) (code : Half) (ilc : Nat) (extra : List (Nat × List Byte))
    (hb : ∀ f, f ∈ extra → f.1 + f.2.length ≤ 4096) : TakesInterruption v (u.programInterruption code ilc extra) := by
  refine ⟨u, 40, 104, _, h, by omega, fun f hf => ?_, rfl⟩
  rcases List.mem_cons.mp hf with rfl | hf
  · show 140 + 4 ≤ 4096
    omega
  · exact hb f hf

theorem takesInterruption_external (v : State) (e : External) : TakesInterruption v (v.takeExternal e) := by
  refine ⟨v.clearExternal e, 24, 88, _, ?_, by omega, fun f hf => ?_, rfl⟩
  · cases e <;> exact ⟨rfl, rfl, rfl, rfl, rfl, rfl⟩
  · unfold External.ident at hf
    rcases List.mem_append.mp hf with hf | hf
    · simp only [List.mem_cons, List.not_mem_nil, or_false] at hf
      rcases hf with rfl | rfl <;> simp [bytes16]
    · cases e <;> simp only [List.mem_cons, List.not_mem_nil, or_false] at hf <;> subst hf <;> simp [bytes32]

theorem takesInterruption_io (v : State) (i : IoInterruption) : TakesInterruption v (v.takeIo i) := by
  refine ⟨{ v with pendingIo := v.pendingIo.erase i }, 56, 120, _, ⟨rfl, rfl, rfl, rfl, rfl, rfl⟩, by omega, fun f hf => ?_, rfl⟩
  simp only [List.mem_cons, List.not_mem_nil, or_false] at hf
  rcases hf with rfl | rfl <;> simp [bytes32]

theorem takesInterruption_restart (v : State) : TakesInterruption v v.takeRestart :=
  ⟨{ v with cpu := { v.cpu with restartPending := false, status := .operating } }, 8, 0, [], ⟨rfl, rfl, rfl, rfl, rfl, rfl⟩, by omega,
    (fun _ hf => nomatch hf), rfl⟩

theorem takesInterruption_machineCheck (v : State) (m : MachineCheck) : TakesInterruption v (v.takeMachineCheck m) := by
  refine ⟨(v.clearMachineCheck m).lose m, 48, 112, _, ?_, by omega, fun f hf => ?_, rfl⟩
  · unfold State.clearMachineCheck
    split <;> exact ⟨rfl, rfl, rfl, rfl, rfl, rfl⟩
  · unfold State.machineCheckIdent at hf
    rcases List.mem_append.mp hf with hf | hf
    · rcases List.mem_append.mp hf with hf | hf
      · simp only [List.mem_cons, List.not_mem_nil, or_false] at hf
        rcases hf with rfl | rfl | rfl | rfl | rfl | rfl | rfl <;> simp [bytesOfWords_length, bytes64]
      · cases hd : m.damage with
        | none => rw [hd] at hf; cases hf
        | some d =>
          rw [hd] at hf
          simp only [List.mem_cons, List.not_mem_nil, or_false] at hf
          subst hf
          simp [bytes32]
    · cases hd : m.failing with
      | none => rw [hd] at hf; cases hf
      | some d =>
        rw [hd] at hf
        simp only [List.mem_cons, List.not_mem_nil, or_false] at hf
        rcases hf with rfl | rfl <;> simp [bytes32, bytes64]

theorem takesInterruption_fetch (v : State) (cc : Bool) (x : ProgExc) : TakesInterruption v (v.fetchException cc x) := by
  unfold State.fetchException
  dsimp only
  generalize wrapMode v.cpu.psw.amode _ = a
  refine takesInterruption_program v ((v.fetchSuppressed cc x).setIa a) ?_ _ _ _ (extraStores_low v x)
  unfold State.fetchSuppressed
  split
  · split <;> exact ⟨rfl, rfl, rfl, rfl, rfl, rfl⟩
  · exact ⟨rfl, rfl, rfl, rfl, rfl, rfl⟩

-- the exceptions of an instruction fetch

/-- What the fetch of a byte of an instruction can be reported for (R413): protection, or an addressing exception that suppresses. -/
theorem State.instructionFaults_cases (s : State) (a : Addr) (n : Nat) (x : ProgExc)
    (h : x ∈ s.accessFaults instructionTarget controlCheck false a n) : (∃ b, x = .protection b true .instruction) ∨ x = .addressing false := by
  obtain ⟨e, -, hx⟩ := List.mem_flatMap.mp h
  unfold State.byteFaults at hx
  simp only [Bool.false_and, Bool.false_eq_true, if_false, List.nil_append] at hx
  split at hx
  · exact .inr (List.mem_singleton.mp hx)
  · split at hx
    · exact .inl ⟨_, List.mem_singleton.mp hx⟩
    · cases hx

-- the floating-point registers at a machine check

theorem freeBank_kept {w : Nat} (v : Vector (BitVec w) 16) (places : List Nat) (f : Nat → BitVec w) (i : Nat) (hi : i < 16) (h : i ∉ places) :
    (freeBank v places f)[i] = v[i] := by
  unfold freeBank
  rw [Vector.getElem_ofFn, if_neg (by rwa [List.contains_iff_mem])]
  rfl

theorem State.lose_fpr (s : State) (m : MachineCheck) :
    (s.lose m).cpu.fpr = freeBank s.cpu.fpr (s.lostFloats m) (fun i => s.draw (.floatRegister i)) := rfl

/-- A register that is not lost keeps its value. -/
theorem State.lose_fpr_kept (s : State) (m : MachineCheck) (i : Nat) (hi : i < 16) (h : i ∉ s.lostFloats m) :
    (s.lose m).cpu.fpr[i] = s.cpu.fpr[i] := by
  simp only [State.lose_fpr]
  exact freeBank_kept _ _ _ i hi h

/-- The registers lost are those of a lost entity, where the CPU has them (R26, R465). -/
theorem State.mem_lostFloats (s : State) (m : MachineCheck) (i : Nat) :
    i ∈ s.lostFloats m ↔
      i ∈ s.fprNumbers ∧ (if i ∈ [0, 2, 4, 6] then SavedEntity.floatRegisters else .extendedFloatRegisters) ∈ m.lost := by
  unfold State.lostFloats
  simp only [List.mem_filter, List.contains_iff_mem]

/-- Everything one unit of an operating CPU can do. -/
inductive Turn (v : State) : Out → Prop
  | same : Turn v (.next v)
  | checkStop : Turn v (.next { v with cpu := { v.cpu with status := .checkStop } })
  | stopped : Turn v (.next v.performStop)
  | interruption (o : Out) (h : TakesInterruption v o) : Turn v o
  | exception (o : Out) (h : Leads false v o) : Turn v o
  | fault (f : Fault) : Turn v (.fault f)
  | refused (r : Refusal) (h : r ≠ .prefixAreaNotAssigned) : Turn v (.refused r)
  | instruction (i : Instr) (l : List Addr) (h : v.fetchCode false 0 v.cpu.psw.ia = .instruction i (v.noteFetches instructionTarget l)) :
      Turn v (exec i (v.noteFetches instructionTarget l))

theorem process_unit (v : State) : Turn v v.process := by
  unfold State.process
  split
  · exact .interruption _ (takesInterruption_program v v (.refl v) _ _ [] fun _ hf => nomatch hf)
  · split
    · exact .refused _ (by intro h; cases h)
    · split
      · exact .refused _ (by intro h; cases h)
      · split
        · dsimp only
          split
          · exact .interruption _ (takesInterruption_fetch v _ _)
          · exact .exception _ (Leads.takeException v _ _ _ (.inr plain_none))
        · exact .refused _ (by intro h; cases h)
        · rename_i j s1 hf
          obtain ⟨l, rfl⟩ := fetchCode_state v false 0 _ j s1 hf
          exact .instruction j l hf

theorem operate_unit (v : State) : Turn v v.operate := by
  unfold State.operate
  split
  · unfold State.earlyException
    split
    · exact .fault _
    · exact .interruption _ (takesInterruption_program v v (.refl v) _ _ [] fun _ hf => nomatch hf)
  · split
    · rename_i p _
      cases p with
      | checkStop => exact .checkStop
      | machineCheck m => exact .interruption _ (takesInterruption_machineCheck v m)
      | external e => exact .interruption _ (takesInterruption_external v e)
      | io i => exact .interruption _ (takesInterruption_io v i)
      | restart => exact .interruption _ (takesInterruption_restart v)
    · split
      · exact .stopped
      · split
        · exact .fault _
        · split
          · exact .same
          · exact process_unit v

/-- A CPU's turn: nothing, or one unit. -/
theorem cpuStep_cases (s : State) : s.cpuStep = .next s ∨ Turn s.nextDraw s.cpuStep := by
  unfold State.cpuStep
  cases s.cpu.status with
  | operating => exact .inr (operate_unit _)
  | stopped =>
    dsimp only
    split
    · exact .inr (.interruption _ (takesInterruption_restart _))
    · exact .inl rfl
  | load => exact .inl rfl
  | checkStop => exact .inl rfl

/-- A step: a move of the environment, or a CPU's turn. -/
theorem step_cases (s : State) :
    (∃ i rest, s.inputs = i :: rest ∧ step s = .next (applyInput i { s with inputs := rest })) ∨
      step s = State.cpuStep { s with inputs := s.inputs.tail } := by
  unfold step State.stepInputs
  cases hi : s.inputs with
  | nil =>
    refine .inr ?_
    show s.cpuStep = _
    rw [List.tail_nil, ← hi]
  | cons i rest => cases i <;> first | exact .inr rfl | exact .inl ⟨_, _, rfl, rfl⟩

end Sys2Proof.Machine
end

