-- ==== Sys2Proof/Tests/Slice0.lean ====
section
/-! SUPPORT. Tests. Expected results come from the worked examples and vectors of spec/95_test_vectors.md (the vector's number is in each
comment) or, where a comment says "by hand", from the rule by hand. Every test is one step, or one operation, on a small state. -/

set_option maxRecDepth 100000

namespace Sys2Proof.Tests

open Sys2Proof Sys2Proof.Machine

/-- A data space of 64K bytes. -/
def dataSpace (asit : DWord) : Space := Space.fresh asit .created 16 [] []

/-- A host access-list entry of the vectors. -/
def halEntry (state : EntryState) (alet : Word) (asit : DWord) (access : Access) : HalEntry :=
  { state := state, alet := alet, asit := asit, access := access, asynchronous := false }

/-- The start state of the vectors (spec/95_test_vectors.md, conventions): 1M bytes, supervisor state, 31-bit addressing, primary-space mode,
the instruction at 400 hex, and the host access list of the vectors. -/
def world : State :=
  { State.reset with
    cpu := { State.reset.cpu with status := .operating, psw := startPsw }
    hp := { Space.reset with ranges := [(0, 256)] }
    spaces := [dataSpace 0x101, dataSpace 0x102]
    hal := [halEntry .valid 0x01000002 0x101 .readWrite, halEntry .valid 0x01000003 0x102 .readOnly,
      halEntry .revoked 0x01000004 0 .readOnly, HalEntry.free, HalEntry.free, HalEntry.free]
    issued := [0x102, 0x101, 1] }

/-- Bytes put at absolute addresses of a space. -/
def put (id : SpaceId) (a : Nat) (bytes : List Byte) (s : State) : State :=
  s.updateSpace id (fun p => (List.range bytes.length).foldl (fun q i => q.setByte (BitVec.ofNat 31 (a + i)) (bytes.getD i 0)) p)

/-- Bytes read at absolute addresses of a space. -/
def peek (id : SpaceId) (a n : Nat) (s : State) : List Byte :=
  (List.range n).map (fun i => (s.space id).byte (BitVec.ofNat 31 (a + i)))

/-- Bytes of the host-primary space. -/
def hp (a n : Nat) (s : State) : List Byte := peek .hostPrimary a n s

/-- The state after one step that executes these bytes, `State.reset` where there is no next state. -/
def shot (code : List Byte) (f : State → State) : State :=
  match step (put .hostPrimary 0x400 code (f world)) with
  | .next s => s
  | _ => State.reset

/-- The step is refused. -/
def refuses (code : List Byte) (f : State → State) : Bool := Safety.refused (step (put .hostPrimary 0x400 code (f world)))

/-- The PSW loaded. -/
def psw (v : DWord) (s : State) : State := s.setPsw (Psw.ofDWord v)
/-- The access-register mode. -/
def arMode (s : State) : State := psw 0x0008400080000400 s
/-- The problem state. -/
def problem (s : State) : State := psw 0x0009000080000400 s
/-- A general register. -/
def gr (r : Reg) (v : Word) (s : State) : State := s.setGr r v
/-- An access register. -/
def ar (r : Reg) (v : Word) (s : State) : State := s.setAr r v
/-- A control register. -/
def cr (r : Reg) (v : Word) (s : State) : State := s.setCr r v
/-- A storage key. -/
def key (id : SpaceId) (b : Block) (k : BitVec 7) (s : State) : State := s.updateSpace id (fun p => p.setKey b k)
/-- Storage of the host-primary space. -/
def at_ (a : Nat) (bytes : List Byte) (s : State) : State := put .hostPrimary a bytes s
/-- A host service with one outcome, whatever the registers and the state. -/
def service (code : Half) (moves : List Input) (ending : ServiceEnding) : HostService :=
  { code := code, rx := none, ry := none, tests := [], outcomes := [{ moves := moves, ending := ending }] }
/-- The program-interruption identification. -/
def pic (s : State) : List Byte := hp 140 4 s
/-- The program old PSW. -/
def oldPsw (s : State) : DWord := be64 (hp 40 8 s)

-- well-formedness

/-- A true length outside 1 to 256 has no encoding (R173). -/
theorem test_wf_refuses_mvc : Instr.wf (.mvc 0 1 0 2 0) = false := by decide

/-- A true length outside 1 to 256 has no encoding (R173). -/
theorem test_wf_refuses_nc : Instr.wf (.nc 257 1 0 2 0) = false := by decide

/-- A true length outside 1 to 256 has no encoding (R173). -/
theorem test_wf_refuses_clc : Instr.wf (.clc 0 1 0 2 0) = false := by decide

/-- A true length outside 1 to 256 has no encoding (R173). -/
theorem test_wf_refuses_oc : Instr.wf (.oc 257 1 0 2 0) = false := by decide

/-- A true length outside 1 to 256 has no encoding (R173). -/
theorem test_wf_refuses_xc : Instr.wf (.xc 0 1 0 2 0) = false := by decide

/-- The longest true length is well-formed. -/
theorem test_wf_longest : Instr.wf (.mvc 256 1 0 2 0) = true := by decide

-- decoding: words assembled from the formats of R172 and the operation codes of R186, all operand fields different

theorem test_decode_spm : (decode [0x04, 0x10]).toOption = some (.spm 0x1) := by decide
theorem test_decode_balr : (decode [0x05, 0x12]).toOption = some (.balr 0x1 0x2) := by decide
theorem test_decode_bctr : (decode [0x06, 0x12]).toOption = some (.bctr 0x1 0x2) := by decide
theorem test_decode_bcr : (decode [0x07, 0x92]).toOption = some (.bcr 0x9 0x2) := by decide
theorem test_decode_svc : (decode [0x0A, 0xBC]).toOption = some (.svc 0xbc) := by decide
theorem test_decode_basr : (decode [0x0D, 0x12]).toOption = some (.basr 0x1 0x2) := by decide
theorem test_decode_lpr : (decode [0x10, 0x12]).toOption = some (.lpr 0x1 0x2) := by decide
theorem test_decode_lnr : (decode [0x11, 0x12]).toOption = some (.lnr 0x1 0x2) := by decide
theorem test_decode_ltr : (decode [0x12, 0x12]).toOption = some (.ltr 0x1 0x2) := by decide
theorem test_decode_lcr : (decode [0x13, 0x12]).toOption = some (.lcr 0x1 0x2) := by decide
theorem test_decode_nr : (decode [0x14, 0x12]).toOption = some (.nr 0x1 0x2) := by decide
theorem test_decode_clr : (decode [0x15, 0x12]).toOption = some (.clr 0x1 0x2) := by decide
theorem test_decode_or : (decode [0x16, 0x12]).toOption = some (.or 0x1 0x2) := by decide
theorem test_decode_xr : (decode [0x17, 0x12]).toOption = some (.xr 0x1 0x2) := by decide
theorem test_decode_lr : (decode [0x18, 0x12]).toOption = some (.lr 0x1 0x2) := by decide
theorem test_decode_cr : (decode [0x19, 0x12]).toOption = some (.cr 0x1 0x2) := by decide
theorem test_decode_ar : (decode [0x1A, 0x12]).toOption = some (.ar 0x1 0x2) := by decide
theorem test_decode_sr : (decode [0x1B, 0x12]).toOption = some (.sr 0x1 0x2) := by decide
theorem test_decode_mr : (decode [0x1C, 0x12]).toOption = some (.mr 0x1 0x2) := by decide
theorem test_decode_dr : (decode [0x1D, 0x12]).toOption = some (.dr 0x1 0x2) := by decide
theorem test_decode_alr : (decode [0x1E, 0x12]).toOption = some (.alr 0x1 0x2) := by decide
theorem test_decode_slr : (decode [0x1F, 0x12]).toOption = some (.slr 0x1 0x2) := by decide
theorem test_decode_sth : (decode [0x40, 0x12, 0x78, 0x9A]).toOption = some (.sth 0x1 0x2 0x7 0x89a) := by decide
theorem test_decode_la : (decode [0x41, 0x12, 0x78, 0x9A]).toOption = some (.la 0x1 0x2 0x7 0x89a) := by decide
theorem test_decode_stc : (decode [0x42, 0x12, 0x78, 0x9A]).toOption = some (.stc 0x1 0x2 0x7 0x89a) := by decide
theorem test_decode_ic : (decode [0x43, 0x12, 0x78, 0x9A]).toOption = some (.ic 0x1 0x2 0x7 0x89a) := by decide
theorem test_decode_ex : (decode [0x44, 0x12, 0x78, 0x9A]).toOption = some (.ex 0x1 0x2 0x7 0x89a) := by decide
theorem test_decode_bal : (decode [0x45, 0x12, 0x78, 0x9A]).toOption = some (.bal 0x1 0x2 0x7 0x89a) := by decide
theorem test_decode_bct : (decode [0x46, 0x12, 0x78, 0x9A]).toOption = some (.bct 0x1 0x2 0x7 0x89a) := by decide
theorem test_decode_bc : (decode [0x47, 0x92, 0x78, 0x9A]).toOption = some (.bc 0x9 0x2 0x7 0x89a) := by decide
theorem test_decode_lh : (decode [0x48, 0x12, 0x78, 0x9A]).toOption = some (.lh 0x1 0x2 0x7 0x89a) := by decide
theorem test_decode_ch : (decode [0x49, 0x12, 0x78, 0x9A]).toOption = some (.ch 0x1 0x2 0x7 0x89a) := by decide
theorem test_decode_ah : (decode [0x4A, 0x12, 0x78, 0x9A]).toOption = some (.ah 0x1 0x2 0x7 0x89a) := by decide
theorem test_decode_sh : (decode [0x4B, 0x12, 0x78, 0x9A]).toOption = some (.sh 0x1 0x2 0x7 0x89a) := by decide
theorem test_decode_mh : (decode [0x4C, 0x12, 0x78, 0x9A]).toOption = some (.mh 0x1 0x2 0x7 0x89a) := by decide
theorem test_decode_bas : (decode [0x4D, 0x12, 0x78, 0x9A]).toOption = some (.bas 0x1 0x2 0x7 0x89a) := by decide
theorem test_decode_st : (decode [0x50, 0x12, 0x78, 0x9A]).toOption = some (.st 0x1 0x2 0x7 0x89a) := by decide
theorem test_decode_n : (decode [0x54, 0x12, 0x78, 0x9A]).toOption = some (.n 0x1 0x2 0x7 0x89a) := by decide
theorem test_decode_cl : (decode [0x55, 0x12, 0x78, 0x9A]).toOption = some (.cl 0x1 0x2 0x7 0x89a) := by decide
theorem test_decode_o : (decode [0x56, 0x12, 0x78, 0x9A]).toOption = some (.o 0x1 0x2 0x7 0x89a) := by decide
theorem test_decode_x : (decode [0x57, 0x12, 0x78, 0x9A]).toOption = some (.x 0x1 0x2 0x7 0x89a) := by decide
theorem test_decode_l : (decode [0x58, 0x12, 0x78, 0x9A]).toOption = some (.l 0x1 0x2 0x7 0x89a) := by decide
theorem test_decode_c : (decode [0x59, 0x12, 0x78, 0x9A]).toOption = some (.c 0x1 0x2 0x7 0x89a) := by decide
theorem test_decode_a : (decode [0x5A, 0x12, 0x78, 0x9A]).toOption = some (.a 0x1 0x2 0x7 0x89a) := by decide
theorem test_decode_s : (decode [0x5B, 0x12, 0x78, 0x9A]).toOption = some (.s 0x1 0x2 0x7 0x89a) := by decide
theorem test_decode_m : (decode [0x5C, 0x12, 0x78, 0x9A]).toOption = some (.m 0x1 0x2 0x7 0x89a) := by decide
theorem test_decode_d : (decode [0x5D, 0x12, 0x78, 0x9A]).toOption = some (.d 0x1 0x2 0x7 0x89a) := by decide
theorem test_decode_al : (decode [0x5E, 0x12, 0x78, 0x9A]).toOption = some (.al 0x1 0x2 0x7 0x89a) := by decide
theorem test_decode_sl : (decode [0x5F, 0x12, 0x78, 0x9A]).toOption = some (.sl 0x1 0x2 0x7 0x89a) := by decide
theorem test_decode_bxh : (decode [0x86, 0x15, 0x78, 0x9A]).toOption = some (.bxh 0x1 0x5 0x7 0x89a) := by decide
theorem test_decode_bxle : (decode [0x87, 0x15, 0x78, 0x9A]).toOption = some (.bxle 0x1 0x5 0x7 0x89a) := by decide
theorem test_decode_srl : (decode [0x88, 0x10, 0x78, 0x9A]).toOption = some (.srl 0x1 0x7 0x89a) := by decide
theorem test_decode_sll : (decode [0x89, 0x10, 0x78, 0x9A]).toOption = some (.sll 0x1 0x7 0x89a) := by decide
theorem test_decode_sra : (decode [0x8A, 0x10, 0x78, 0x9A]).toOption = some (.sra 0x1 0x7 0x89a) := by decide
theorem test_decode_sla : (decode [0x8B, 0x10, 0x78, 0x9A]).toOption = some (.sla 0x1 0x7 0x89a) := by decide
theorem test_decode_srdl : (decode [0x8C, 0x10, 0x78, 0x9A]).toOption = some (.srdl 0x1 0x7 0x89a) := by decide
theorem test_decode_sldl : (decode [0x8D, 0x10, 0x78, 0x9A]).toOption = some (.sldl 0x1 0x7 0x89a) := by decide
theorem test_decode_srda : (decode [0x8E, 0x10, 0x78, 0x9A]).toOption = some (.srda 0x1 0x7 0x89a) := by decide
theorem test_decode_slda : (decode [0x8F, 0x10, 0x78, 0x9A]).toOption = some (.slda 0x1 0x7 0x89a) := by decide
theorem test_decode_stm : (decode [0x90, 0x15, 0x78, 0x9A]).toOption = some (.stm 0x1 0x5 0x7 0x89a) := by decide
theorem test_decode_tm : (decode [0x91, 0xDE, 0x34, 0x56]).toOption = some (.tm 0xde 0x3 0x456) := by decide
theorem test_decode_mvi : (decode [0x92, 0xDE, 0x34, 0x56]).toOption = some (.mvi 0xde 0x3 0x456) := by decide
theorem test_decode_ni : (decode [0x94, 0xDE, 0x34, 0x56]).toOption = some (.ni 0xde 0x3 0x456) := by decide
theorem test_decode_cli : (decode [0x95, 0xDE, 0x34, 0x56]).toOption = some (.cli 0xde 0x3 0x456) := by decide
theorem test_decode_oi : (decode [0x96, 0xDE, 0x34, 0x56]).toOption = some (.oi 0xde 0x3 0x456) := by decide
theorem test_decode_xi : (decode [0x97, 0xDE, 0x34, 0x56]).toOption = some (.xi 0xde 0x3 0x456) := by decide
theorem test_decode_lm : (decode [0x98, 0x15, 0x78, 0x9A]).toOption = some (.lm 0x1 0x5 0x7 0x89a) := by decide
theorem test_decode_brc : (decode [0xA7, 0x94, 0xFE, 0xDC]).toOption = some (.brc 0x9 0xfedc) := by decide
theorem test_decode_bras : (decode [0xA7, 0x15, 0xFE, 0xDC]).toOption = some (.bras 0x1 0xfedc) := by decide
theorem test_decode_brct : (decode [0xA7, 0x16, 0xFE, 0xDC]).toOption = some (.brct 0x1 0xfedc) := by decide
theorem test_decode_lhi : (decode [0xA7, 0x18, 0xFE, 0xDC]).toOption = some (.lhi 0x1 0xfedc) := by decide
theorem test_decode_ahi : (decode [0xA7, 0x1A, 0xFE, 0xDC]).toOption = some (.ahi 0x1 0xfedc) := by decide
theorem test_decode_mhi : (decode [0xA7, 0x1C, 0xFE, 0xDC]).toOption = some (.mhi 0x1 0xfedc) := by decide
theorem test_decode_chi : (decode [0xA7, 0x1E, 0xFE, 0xDC]).toOption = some (.chi 0x1 0xfedc) := by decide
theorem test_decode_stnsm : (decode [0xAC, 0xDE, 0x34, 0x56]).toOption = some (.stnsm 0xde 0x3 0x456) := by decide
theorem test_decode_stctl : (decode [0xB6, 0x15, 0x78, 0x9A]).toOption = some (.stctl 0x1 0x5 0x7 0x89a) := by decide
theorem test_decode_lctl : (decode [0xB7, 0x15, 0x78, 0x9A]).toOption = some (.lctl 0x1 0x5 0x7 0x89a) := by decide
theorem test_decode_spx : (decode [0xB2, 0x10, 0x78, 0x9A]).toOption = some (.spx 0x7 0x89a) := by decide
theorem test_decode_stpx : (decode [0xB2, 0x11, 0x78, 0x9A]).toOption = some (.stpx 0x7 0x89a) := by decide
theorem test_decode_stap : (decode [0xB2, 0x12, 0x78, 0x9A]).toOption = some (.stap 0x7 0x89a) := by decide
theorem test_decode_ipm : (decode [0xB2, 0x22, 0x00, 0x10]).toOption = some (.ipm 0x1) := by decide
theorem test_decode_cs : (decode [0xBA, 0x15, 0x78, 0x9A]).toOption = some (.cs 0x1 0x5 0x7 0x89a) := by decide
theorem test_decode_cds : (decode [0xBB, 0x15, 0x78, 0x9A]).toOption = some (.cds 0x1 0x5 0x7 0x89a) := by decide
theorem test_decode_clm : (decode [0xBD, 0x1A, 0x78, 0x9A]).toOption = some (.clm 0x1 0xa 0x7 0x89a) := by decide
theorem test_decode_stcm : (decode [0xBE, 0x1A, 0x78, 0x9A]).toOption = some (.stcm 0x1 0xa 0x7 0x89a) := by decide
theorem test_decode_icm : (decode [0xBF, 0x1A, 0x78, 0x9A]).toOption = some (.icm 0x1 0xa 0x7 0x89a) := by decide
theorem test_decode_mvc : (decode [0xD2, 0x07, 0x34, 0x56, 0x78, 0x9A]).toOption = some (.mvc 8 0x3 0x456 0x7 0x89a) := by decide
theorem test_decode_nc : (decode [0xD4, 0x07, 0x34, 0x56, 0x78, 0x9A]).toOption = some (.nc 8 0x3 0x456 0x7 0x89a) := by decide
theorem test_decode_clc : (decode [0xD5, 0x07, 0x34, 0x56, 0x78, 0x9A]).toOption = some (.clc 8 0x3 0x456 0x7 0x89a) := by decide
theorem test_decode_oc : (decode [0xD6, 0x07, 0x34, 0x56, 0x78, 0x9A]).toOption = some (.oc 8 0x3 0x456 0x7 0x89a) := by decide
theorem test_decode_xc : (decode [0xD7, 0x07, 0x34, 0x56, 0x78, 0x9A]).toOption = some (.xc 8 0x3 0x456 0x7 0x89a) := by decide
theorem test_decode_sckpf : (decode [0x01, 0x07]).toOption = some (.sckpf) := by decide
theorem test_decode_stck : (decode [0xB2, 0x05, 0x78, 0x9A]).toOption = some (.stck 0x7 0x89a) := by decide
theorem test_decode_sckc : (decode [0xB2, 0x06, 0x78, 0x9A]).toOption = some (.sckc 0x7 0x89a) := by decide
theorem test_decode_stckc : (decode [0xB2, 0x07, 0x78, 0x9A]).toOption = some (.stckc 0x7 0x89a) := by decide
theorem test_decode_spt : (decode [0xB2, 0x08, 0x78, 0x9A]).toOption = some (.spt 0x7 0x89a) := by decide
theorem test_decode_stpt : (decode [0xB2, 0x09, 0x78, 0x9A]).toOption = some (.stpt 0x7 0x89a) := by decide
theorem test_decode_stcke : (decode [0xB2, 0x78, 0x78, 0x9A]).toOption = some (.stcke 0x7 0x89a) := by decide
theorem test_decode_lae : (decode [0x51, 0x12, 0x78, 0x9A]).toOption = some (.lae 0x1 0x2 0x7 0x89a) := by decide
theorem test_decode_lam : (decode [0x9A, 0x15, 0x78, 0x9A]).toOption = some (.lam 0x1 0x5 0x7 0x89a) := by decide
theorem test_decode_stam : (decode [0x9B, 0x15, 0x78, 0x9A]).toOption = some (.stam 0x1 0x5 0x7 0x89a) := by decide
theorem test_decode_cpya : (decode [0xB2, 0x4D, 0x00, 0x12]).toOption = some (.cpya 0x1 0x2) := by decide
theorem test_decode_sar : (decode [0xB2, 0x4E, 0x00, 0x12]).toOption = some (.sar 0x1 0x2) := by decide
theorem test_decode_ear : (decode [0xB2, 0x4F, 0x00, 0x12]).toOption = some (.ear 0x1 0x2) := by decide
theorem test_decode_pr : (decode [0x01, 0x01]).toOption = some (.pr) := by decide
theorem test_decode_trap2 : (decode [0x01, 0xFF]).toOption = some (.trap2) := by decide
theorem test_decode_lra : (decode [0xB1, 0x12, 0x78, 0x9A]).toOption = some (.lra 0x1 0x2 0x7 0x89a) := by decide
theorem test_decode_sck : (decode [0xB2, 0x04, 0x78, 0x9A]).toOption = some (.sck 0x7 0x89a) := by decide
theorem test_decode_sie : (decode [0xB2, 0x14, 0x78, 0x9A]).toOption = some (.sie 0x7 0x89a) := by decide
theorem test_decode_pc : (decode [0xB2, 0x18, 0x78, 0x9A]).toOption = some (.pc 0x7 0x89a) := by decide
theorem test_decode_ivsk : (decode [0xB2, 0x23, 0x00, 0x12]).toOption = some (.ivsk 0x1 0x2) := by decide
theorem test_decode_ssar : (decode [0xB2, 0x25, 0x00, 0x12]).toOption = some (.ssar 0x1 0x2) := by decide
theorem test_decode_epar : (decode [0xB2, 0x26, 0x00, 0x10]).toOption = some (.epar 0x1) := by decide
theorem test_decode_esar : (decode [0xB2, 0x27, 0x00, 0x10]).toOption = some (.esar 0x1) := by decide
theorem test_decode_pt : (decode [0xB2, 0x28, 0x00, 0x12]).toOption = some (.pt 0x1 0x2) := by decide
theorem test_decode_bakr : (decode [0xB2, 0x40, 0x00, 0x12]).toOption = some (.bakr 0x1 0x2) := by decide
theorem test_decode_msta : (decode [0xB2, 0x47, 0x00, 0x12]).toOption = some (.msta 0x1 0x2) := by decide
theorem test_decode_ereg : (decode [0xB2, 0x49, 0x00, 0x12]).toOption = some (.ereg 0x1 0x2) := by decide
theorem test_decode_esta : (decode [0xB2, 0x4A, 0x00, 0x12]).toOption = some (.esta 0x1 0x2) := by decide
theorem test_decode_bsg : (decode [0xB2, 0x58, 0x00, 0x12]).toOption = some (.bsg 0x1 0x2) := by decide
theorem test_decode_trap4 : (decode [0xB2, 0xFF, 0x78, 0x9A]).toOption = some (.trap4 0x7 0x89a) := by decide
theorem test_decode_mvcp : (decode [0xDA, 0x15, 0x34, 0x56, 0x78, 0x9A]).toOption = some (.mvcp 0x1 0x5 0x3 0x456 0x7 0x89a) := by decide
theorem test_decode_mvcs : (decode [0xDB, 0x15, 0x34, 0x56, 0x78, 0x9A]).toOption = some (.mvcs 0x1 0x5 0x3 0x456 0x7 0x89a) := by decide
theorem test_decode_lasp : (decode [0xE5, 0x00, 0x34, 0x56, 0x78, 0x9A]).toOption = some (.lasp 0x3 0x456 0x7 0x89a) := by decide
theorem test_decode_ssm : (decode [0x80, 0x00, 0x78, 0x9A]).toOption = some (.ssm 0x7 0x89a) := by decide
theorem test_decode_lpsw : (decode [0x82, 0x00, 0x78, 0x9A]).toOption = some (.lpsw 0x7 0x89a) := by decide
theorem test_decode_diag : (decode [0x83, 0x15, 0x78, 0x9A]).toOption = some (.diag 0x1 0x5 0x7 0x89a) := by decide
theorem test_decode_trace : (decode [0x99, 0x15, 0x78, 0x9A]).toOption = some (.trace 0x1 0x5 0x7 0x89a) := by decide
theorem test_decode_stosm : (decode [0xAD, 0xDE, 0x34, 0x56]).toOption = some (.stosm 0xde 0x3 0x456) := by decide
theorem test_decode_sigp : (decode [0xAE, 0x15, 0x78, 0x9A]).toOption = some (.sigp 0x1 0x5 0x7 0x89a) := by decide
theorem test_decode_ptlb : (decode [0xB2, 0x0D, 0x00, 0x00]).toOption = some (.ptlb) := by decide
theorem test_decode_sac : (decode [0xB2, 0x19, 0x78, 0x9A]).toOption = some (.sac 0x7 0x89a) := by decide
theorem test_decode_ipte : (decode [0xB2, 0x21, 0x00, 0x12]).toOption = some (.ipte 0x1 0x2) := by decide
theorem test_decode_iac : (decode [0xB2, 0x24, 0x00, 0x10]).toOption = some (.iac 0x1) := by decide
theorem test_decode_iske : (decode [0xB2, 0x29, 0x00, 0x12]).toOption = some (.iske 0x1 0x2) := by decide
theorem test_decode_rrbe : (decode [0xB2, 0x2A, 0x00, 0x12]).toOption = some (.rrbe 0x1 0x2) := by decide
theorem test_decode_sske : (decode [0xB2, 0x2B, 0x00, 0x12]).toOption = some (.sske 0x1 0x2) := by decide
theorem test_decode_tb : (decode [0xB2, 0x2C, 0x00, 0x02]).toOption = some (.tb 0x2) := by decide
theorem test_decode_stura : (decode [0xB2, 0x46, 0x00, 0x12]).toOption = some (.stura 0x1 0x2) := by decide
theorem test_decode_palb : (decode [0xB2, 0x48, 0x00, 0x00]).toOption = some (.palb) := by decide
theorem test_decode_lura : (decode [0xB2, 0x4B, 0x00, 0x12]).toOption = some (.lura 0x1 0x2) := by decide
theorem test_decode_tar : (decode [0xB2, 0x4C, 0x00, 0x12]).toOption = some (.tar 0x1 0x2) := by decide
theorem test_decode_bsa : (decode [0xB2, 0x5A, 0x00, 0x12]).toOption = some (.bsa 0x1 0x2) := by decide
theorem test_decode_rp : (decode [0xB2, 0x77, 0x78, 0x9A]).toOption = some (.rp 0x7 0x89a) := by decide
theorem test_decode_sacf : (decode [0xB2, 0x79, 0x78, 0x9A]).toOption = some (.sacf 0x7 0x89a) := by decide
theorem test_decode_tprot : (decode [0xE5, 0x01, 0x34, 0x56, 0x78, 0x9A]).toOption = some (.tprot 0x3 0x456 0x7 0x89a) := by decide

-- one step each

/-- V20. -/
theorem test_iac_access_register_mode :
    (let t := shot [0xB2, 0x24, 0x00, 0x10] (fun s => gr 1 0xFFFFFFFF (arMode s))
     t.gr 1 = 0xFFFF02FF ∧ t.cpu.psw.cc = 2) := by decide

/-- V22. -/
theorem test_iac_ignored_bits_in_problem_state :
    (let t := shot [0xB2, 0x24, 0xFF, 0x1F] (fun s => gr 1 0xFFFFFFFF (psw 0x0009400080000400 s))
     t.gr 1 = 0xFFFF02FF ∧ t.cpu.psw.cc = 2) := by decide

/-- V30. -/
theorem test_sac_sets_access_register_mode :
    (let t := shot [0xB2, 0x19, 0x02, 0x00] (fun s => psw 0x0008100080000400 (cr 0 0x000100E0 s))
     t.cpu.psw.arMode = true ∧ t.cpu.psw.cc = 1 ∧ t.cpu.psw.ia = 0x404) := by decide

/-- V31. -/
theorem test_sac_without_asf :
    (let t := shot [0xB2, 0x19, 0x02, 0x00] id
     pic t = [0x00, 0x04, 0x00, 0x13] ∧ oldPsw t = 0x0008000080000404) := by decide

/-- V36 for SACF. -/
theorem test_sacf_code_from_register_address :
    (let t := shot [0xB2, 0x79, 0x70, 0x00] (fun s => gr 7 0xFFFFF2FF (cr 0 0x000100E0 s))
     t.cpu.psw.arMode = true) := by decide

/-- V37 for SACF. -/
theorem test_sacf_code_0110_is_specification :
    (let t := shot [0xB2, 0x79, 0x06, 0x00] id
     pic t = [0x00, 0x04, 0x00, 0x06]) := by decide

/-- G1. -/
theorem test_cpya :
    (let t := shot [0xB2, 0x4D, 0x00, 0x35] (fun s => ar 5 0x01000002 s)
     t.ar 3 = 0x01000002) := by decide

/-- G2. -/
theorem test_ear_reads_access_register_0 :
    (let t := shot [0xB2, 0x4F, 0x00, 0x20] (fun s => ar 0 0xDEADBEEF s)
     t.gr 2 = 0xDEADBEEF) := by decide

/-- G3. -/
theorem test_sar_writes_access_register_0 :
    (let t := shot [0xB2, 0x4E, 0x00, 0x07] (fun s => gr 7 0x12345678 s)
     t.ar 0 = 0x12345678) := by decide

/-- G4b. -/
theorem test_lae_access_register_mode :
    (let t := shot [0x51, 0x12, 0x30, 0x08] (fun s => ar 3 0x01000002 (ar 1 0x55555555 (gr 3 0x1000 (gr 2 0x10 (arMode s)))))
     t.gr 1 = 0x1018 ∧ t.ar 1 = 0x01000002) := by decide

/-- G4c. -/
theorem test_lae_base_zero :
    (let t := shot [0x51, 0x12, 0x00, 0x08] (fun s => gr 2 0x10 (ar 0 0xFFFFFFFF (arMode s)))
     t.gr 1 = 0x18 ∧ t.ar 1 = 0x0) := by decide

/-- G5. -/
theorem test_lam_wraps :
    (let t := shot [0x9A, 0xE1, 0x50, 0x00] (fun s => at_ 0x800 [0x00, 0x00, 0x00, 0x01, 0x00, 0x00, 0x00, 0x02, 0x00, 0x00, 0x00, 0x03, 0x00, 0x00, 0x00, 0x04] (gr 5 0x800 s))
     t.ar 14 = 0x1 ∧ t.ar 15 = 0x2 ∧ t.ar 0 = 0x3 ∧ t.ar 1 = 0x4) := by decide

/-- G7. -/
theorem test_lam_keeps_its_first_alet :
    (let t := shot [0x9A, 0x56, 0x50, 0x00] (fun s => put (.data 0x101) 0x100 [0x01, 0x00, 0x00, 0x03, 0x01, 0x00, 0x00, 0x09] (ar 5 0x01000002 (gr 5 0x100 (arMode s))))
     t.ar 5 = 0x01000003 ∧ t.ar 6 = 0x01000009) := by decide

/-- G6. -/
theorem test_stam :
    (let t := shot [0x9B, 0xF0, 0x08, 0x00] (fun s => ar 0 0xBBBBBBBB (ar 15 0xAAAAAAAA s))
     hp 0x800 8 t = [0xAA, 0xAA, 0xAA, 0xAA, 0xBB, 0xBB, 0xBB, 0xBB]) := by decide

/-- T2. -/
theorem test_tprot_key_mismatch_fetch_protected :
    (let t := shot [0xE5, 0x01, 0x10, 0x00, 0x00, 0x40] (fun s => gr 1 0x1000 (key .hostPrimary 2 0x18 (key .hostPrimary 1 0x1C s)))
     t.cpu.psw.cc = 2) := by decide

/-- T5, S2. -/
theorem test_tprot_low_address :
    (let t := shot [0xE5, 0x01, 0x01, 0x00, 0x00, 0x00] (fun s => cr 0 0x100000E0 s)
     t.cpu.psw.cc = 1) := by decide

/-- A3. -/
theorem test_tar_valid_entry :
    (let t := shot [0xB2, 0x4C, 0x00, 0x34] (fun s => ar 3 0x01000003 (gr 4 0x00010000 (cr 0 0x000100E0 s)))
     t.cpu.psw.cc = 2) := by decide

/-- A4. -/
theorem test_tar_revoked_entry :
    (let t := shot [0xB2, 0x4C, 0x00, 0x34] (fun s => ar 3 0x01000004 (gr 4 0x00010000 (cr 0 0x000100E0 s)))
     t.cpu.psw.cc = 3) := by decide

/-- Q1. -/
theorem test_iske :
    (let t := shot [0xB2, 0x29, 0x00, 0x34] (fun s => gr 3 0xFFFFFFFF (gr 4 0x2ABC (key .hostPrimary 2 0x1E s)))
     t.gr 3 = 0xFFFFFF3C) := by decide

/-- Q4. -/
theorem test_iske_through_access_register :
    (let t := shot [0xB2, 0x29, 0x00, 0x34] (fun s => key (.data 0x101) 3 0x28 (gr 4 0x3000 (ar 4 0x01000002 (arMode s))))
     t.gr 3 = 0x50) := by decide

/-- Q2. -/
theorem test_sske :
    (let t := shot [0xB2, 0x2B, 0x00, 0x34] (fun s => gr 4 0x2000 (gr 3 0xF7 s))
     t.hp.key 2 = 0x7B) := by decide

/-- Q3. -/
theorem test_rrbe :
    (let t := shot [0xB2, 0x2A, 0x00, 0x04] (fun s => gr 4 0x2000 (key .hostPrimary 2 0x1F s))
     t.cpu.psw.cc = 3 ∧ t.hp.key 2 = 0x1D) := by decide

/-- Q7. -/
theorem test_tb_clears_the_block :
    (let t := shot [0xB2, 0x2C, 0x00, 0x04] (fun s => at_ 0x3FFF [0xFF] (at_ 0x3000 [0xFF, 0xFF] (gr 0 0x55555555 (gr 4 0x3FFF s))))
     t.gr 0 = 0x0 ∧ t.cpu.psw.cc = 0 ∧ hp 0x3000 2 t = [0x00, 0x00] ∧ hp 0x3FFF 1 t = [0x00]) := by decide

/-- Q9. -/
theorem test_lura_ignores_access_register :
    (let t := shot [0xB2, 0x4B, 0x00, 0x12] (fun s => put (.data 0x101) 0x800 [0x99, 0x99, 0x99, 0x99] (at_ 0x800 [0x11, 0x22, 0x33, 0x44] (gr 2 0x800 (ar 2 0x01000002 (arMode s)))))
     t.gr 1 = 0x11223344) := by decide

/-- Q11. -/
theorem test_lura_misaligned :
    (let t := shot [0xB2, 0x4B, 0x00, 0x12] (fun s => gr 2 0x802 s)
     pic t = [0x00, 0x04, 0x00, 0x06]) := by decide

/-- Q10. -/
theorem test_stura :
    (let t := shot [0xB2, 0x46, 0x00, 0x12] (fun s => gr 1 0xCAFEF00D (gr 2 0x800 (ar 2 0x01000002 (arMode s))))
     hp 0x800 4 t = [0xCA, 0xFE, 0xF0, 0x0D] ∧ peek (.data 0x101) 0x800 4 t = [0, 0, 0, 0]) := by decide

/-- Q12. -/
theorem test_ipte :
    (let t := shot [0xB2, 0x21, 0x00, 0x12] (fun s => at_ 0x500C [0x00, 0x12, 0x30, 0x00] (gr 2 0x3000 (gr 1 0x5000 (cr 0 0x00B000E0 s))))
     hp 0x500C 4 t = [0x00, 0x12, 0x34, 0x00]) := by decide

/-- Q13. -/
theorem test_ipte_translation_format :
    (let t := shot [0xB2, 0x21, 0x00, 0x12] id
     pic t = [0x00, 0x04, 0x00, 0x12]) := by decide

/-- Q14. -/
theorem test_spx :
    (let t := shot [0xB2, 0x10, 0x08, 0x00] (fun s => at_ 0x800 [0x80, 0x01, 0x2F, 0xFF] s)
     t.cpu.prefixReg = 0x12) := by decide

/-- Q15. -/
theorem test_stpx :
    (let t := shot [0xB2, 0x11, 0x08, 0x04] (fun s => put .hostPrimary 0x12400 [0xB2, 0x11, 0x08, 0x04] (State.setPrefix (b := 0x12) s))
     hp 0x12804 4 t = [0x00, 0x01, 0x20, 0x00]) := by decide

/-- Q18. -/
theorem test_palb :
    (let t := shot [0xB2, 0x48, 0x00, 0x00] id
     t.cpu.psw.ia = 0x404) := by decide

/-- Q18. -/
theorem test_ptlb_problem_state :
    (let t := shot [0xB2, 0x0D, 0x00, 0x00] (fun s => problem s)
     pic t = [0x00, 0x04, 0x00, 0x02]) := by decide

/-- W1. -/
theorem test_lpsw_enters_access_register_mode :
    (let t := shot [0x82, 0x00, 0x08, 0x00] (fun s => at_ 0x800 [0x00, 0x08, 0x40, 0x00, 0x80, 0x00, 0x10, 0x00] s)
     t.cpu.psw.arMode = true ∧ t.cpu.psw.ia = 0x1000) := by decide

/-- W3. -/
theorem test_lpsw_bit_5 :
    (let t := shot [0x82, 0x00, 0x08, 0x00] (fun s => at_ 0x800 [0x04, 0x08, 0x00, 0x00, 0x80, 0x00, 0x10, 0x00] s)
     oldPsw t = 0x0408000080001000 ∧ pic t = [0x00, 0x00, 0x00, 0x06]) := by decide

/-- W9. -/
theorem test_ssm_bit_5 :
    (let t := shot [0x80, 0x00, 0x08, 0x00] (fun s => at_ 0x800 [0x04] s)
     oldPsw t = 0x0408000080000404 ∧ pic t = [0x00, 0x04, 0x00, 0x06]) := by decide

/-- W8. -/
theorem test_ssm :
    (let t := shot [0x80, 0x00, 0x08, 0x00] (fun s => at_ 0x800 [0x03] s)
     t.cpu.psw.sysMask = 3) := by decide

/-- W10. -/
theorem test_stosm_bit_5 :
    (let t := shot [0xAD, 0x04, 0x08, 0x00] id
     hp 0x800 1 t = [0x00] ∧ oldPsw t = 0x0408000080000404 ∧ pic t = [0x00, 0x04, 0x00, 0x06]) := by decide

/-- W11. -/
theorem test_stosm :
    (let t := shot [0xAD, 0x02, 0x08, 0x00] (fun s => psw 0x0108000080000400 (cr 0 0 s))
     hp 0x800 1 t = [0x01] ∧ t.cpu.psw.sysMask = 3) := by decide

/-- W12. -/
theorem test_stnsm :
    (let t := shot [0xAC, 0xFC, 0x08, 0x00] (fun s => psw 0x0308000080000400 (cr 0 0 s))
     hp 0x800 1 t = [0x03] ∧ t.cpu.psw.sysMask = 0) := by decide

/-- K1. -/
theorem test_stck_sets_condition_code_0 :
    (let t := shot [0xB2, 0x05, 0x08, 0x00] (fun s => psw 0x0008300080000400 s)
     t.cpu.psw.cc = 0 ∧ t.cpu.psw.ia = 0x404) := by decide

/-- K2. -/
theorem test_sck_in_problem_state :
    (let t := shot [0xB2, 0x04, 0x08, 0x00] (fun s => problem s)
     pic t = [0x00, 0x04, 0x00, 0x01]) := by decide

/-- K4. -/
theorem test_sckpf :
    (let t := shot [0x01, 0x07] (fun s => gr 0 0x0000ABCD s)
     t.cpu.todProg = 0xABCD) := by decide

/-- K4. -/
theorem test_sckpf_specification :
    (let t := shot [0x01, 0x07] (fun s => gr 0 0x0001ABCD s)
     pic t = [0x00, 0x02, 0x00, 0x06]) := by decide

/-- K5. -/
theorem test_sckc_misaligned :
    (let t := shot [0xB2, 0x06, 0x08, 0x04] id
     pic t = [0x00, 0x04, 0x00, 0x06]) := by decide

/-- by hand from R204. -/
theorem test_sckc :
    (let t := shot [0xB2, 0x06, 0x08, 0x00] (fun s => at_ 0x800 [0x01, 0x02, 0x03, 0x04, 0x05, 0x06, 0x07, 0x08] s)
     t.cpu.clockComparator = 0x0102030405060708) := by decide

/-- by hand from R205. -/
theorem test_stckc :
    (let t := shot [0xB2, 0x07, 0x08, 0x00] (fun s => State.setComparator (v := 0x0102030405060708) s)
     hp 0x800 8 t = [0x01, 0x02, 0x03, 0x04, 0x05, 0x06, 0x07, 0x08]) := by decide

/-- K6. -/
theorem test_spt :
    (let t := shot [0xB2, 0x08, 0x08, 0x00] (fun s => at_ 0x800 [0x00, 0x00, 0x00, 0x00, 0x00, 0x00, 0x10, 0x00] s)
     t.cpu.cpuTimer = 0x1000) := by decide

/-- by hand from R207. -/
theorem test_stpt :
    (let t := shot [0xB2, 0x09, 0x08, 0x08] (fun s => State.setTimer (v := 0x1000) s)
     hp 0x808 8 t = [0x00, 0x00, 0x00, 0x00, 0x00, 0x00, 0x10, 0x00]) := by decide

/-- K7. -/
theorem test_cpu_timer_interruption :
    (let t := shot [0x00, 0x00] (fun s => at_ 0x58 [0x00, 0x08, 0x00, 0x00, 0x80, 0x00, 0x07, 0x00] (State.setTimer (v := 0x8000000000000000) (cr 0 0x00000400 (psw 0x0108000080000400 s))))
     hp 0x86 2 t = [0x10, 0x05] ∧ hp 0x84 2 t = [0x00, 0x00] ∧ t.cpu.psw.ia = 0x700 ∧ be64 (hp 24 8 t) = 0x0108000080000400) := by decide

/-- K8. -/
theorem test_clock_comparator_interruption :
    (let t := shot [0x00, 0x00] (fun s => cr 0 0x00000800 (psw 0x0108000080000400 s))
     hp 0x86 2 t = [0x10, 0x04]) := by decide

/-- N1. -/
theorem test_pr_is_not_provided :
    (let t := shot [0x01, 0x01] id
     pic t = [0x00, 0x02, 0x00, 0x01]) := by decide

/-- N2. -/
theorem test_lra_is_not_provided :
    (let t := shot [0xB1, 0x10, 0x20, 0x00] id
     pic t = [0x00, 0x04, 0x00, 0x01]) := by decide

/-- N3. -/
theorem test_mvcp_is_not_provided :
    (let t := shot [0xDA, 0x14, 0x20, 0x00, 0x30, 0x00] id
     pic t = [0x00, 0x06, 0x00, 0x01]) := by decide

/-- N4. -/
theorem test_bakr_is_not_provided :
    (let t := shot [0xB2, 0x40, 0x00, 0x12] id
     pic t = [0x00, 0x04, 0x00, 0x01]) := by decide

/-- N4. -/
theorem test_epar_is_not_provided :
    (let t := shot [0xB2, 0x26, 0x00, 0x10] id
     pic t = [0x00, 0x04, 0x00, 0x01]) := by decide

/-- N4. -/
theorem test_esar_is_not_provided :
    (let t := shot [0xB2, 0x27, 0x00, 0x10] id
     pic t = [0x00, 0x04, 0x00, 0x01]) := by decide

/-- N4. -/
theorem test_ereg_is_not_provided :
    (let t := shot [0xB2, 0x49, 0x00, 0x12] id
     pic t = [0x00, 0x04, 0x00, 0x01]) := by decide

/-- N4. -/
theorem test_esta_is_not_provided :
    (let t := shot [0xB2, 0x4A, 0x00, 0x12] id
     pic t = [0x00, 0x04, 0x00, 0x01]) := by decide

/-- N4. -/
theorem test_ivsk_is_not_provided :
    (let t := shot [0xB2, 0x23, 0x00, 0x12] id
     pic t = [0x00, 0x04, 0x00, 0x01]) := by decide

/-- N4. -/
theorem test_lasp_is_not_provided :
    (let t := shot [0xE5, 0x00, 0x10, 0x00, 0x20, 0x00] id
     pic t = [0x00, 0x06, 0x00, 0x01]) := by decide

/-- N4. -/
theorem test_msta_is_not_provided :
    (let t := shot [0xB2, 0x47, 0x00, 0x10] id
     pic t = [0x00, 0x04, 0x00, 0x01]) := by decide

/-- N4. -/
theorem test_mvcs_is_not_provided :
    (let t := shot [0xDB, 0x14, 0x20, 0x00, 0x30, 0x00] id
     pic t = [0x00, 0x06, 0x00, 0x01]) := by decide

/-- N4. -/
theorem test_pc_is_not_provided :
    (let t := shot [0xB2, 0x18, 0x10, 0x00] (fun s => problem s)
     pic t = [0x00, 0x04, 0x00, 0x01]) := by decide

/-- N4. -/
theorem test_pt_is_not_provided :
    (let t := shot [0xB2, 0x28, 0x00, 0x12] id
     pic t = [0x00, 0x04, 0x00, 0x01]) := by decide

/-- N4. -/
theorem test_ssar_is_not_provided :
    (let t := shot [0xB2, 0x25, 0x00, 0x10] id
     pic t = [0x00, 0x04, 0x00, 0x01]) := by decide

/-- N4. -/
theorem test_sie_is_not_provided :
    (let t := shot [0xB2, 0x14, 0x10, 0x00] (fun s => problem s)
     pic t = [0x00, 0x04, 0x00, 0x01]) := by decide

/-- N4. -/
theorem test_bsg_is_not_provided :
    (let t := shot [0xB2, 0x58, 0x00, 0x12] id
     pic t = [0x00, 0x04, 0x00, 0x01]) := by decide

/-- B1. -/
theorem test_ar_overflow :
    (let t := shot [0x1A, 0x12] (fun s => gr 2 0x1 (gr 1 0x7FFFFFFF s))
     t.gr 1 = 0x80000000 ∧ t.cpu.psw.cc = 3) := by decide

/-- B5. -/
theorem test_ar_overflow_interruption :
    (let t := shot [0x1A, 0x12] (fun s => gr 2 0x1 (gr 1 0x7FFFFFFF (psw 0x0008080080000400 s)))
     t.gr 1 = 0x80000000 ∧ pic t = [0x00, 0x02, 0x00, 0x08] ∧ oldPsw t = 0x0008380080000402) := by decide

/-- by hand from R316. -/
theorem test_a :
    (let t := shot [0x5A, 0x10, 0x08, 0x00] (fun s => at_ 0x800 [0xFF, 0xFF, 0xFF, 0xFD] (gr 1 0x5 s))
     t.gr 1 = 0x2 ∧ t.cpu.psw.cc = 2) := by decide

/-- by hand from R317. -/
theorem test_ah :
    (let t := shot [0x4A, 0x10, 0x08, 0x00] (fun s => at_ 0x800 [0xFF, 0xFE] (gr 1 0x1 s))
     t.gr 1 = 0xFFFFFFFF ∧ t.cpu.psw.cc = 1) := by decide

/-- B6. -/
theorem test_sr_overflow :
    (let t := shot [0x1B, 0x12] (fun s => gr 2 0x1 (gr 1 0x80000000 s))
     t.gr 1 = 0x7FFFFFFF ∧ t.cpu.psw.cc = 3) := by decide

/-- by hand from R319. -/
theorem test_s :
    (let t := shot [0x5B, 0x10, 0x08, 0x00] (fun s => at_ 0x800 [0x00, 0x00, 0x00, 0x05] (gr 1 0x3 s))
     t.gr 1 = 0xFFFFFFFE ∧ t.cpu.psw.cc = 1) := by decide

/-- by hand from R320. -/
theorem test_sh :
    (let t := shot [0x4B, 0x10, 0x08, 0x00] (fun s => at_ 0x800 [0xFF, 0xFF] (gr 1 0x1 s))
     t.gr 1 = 0x2 ∧ t.cpu.psw.cc = 2) := by decide

/-- B8. -/
theorem test_lcr_overflow :
    (let t := shot [0x13, 0x12] (fun s => gr 2 0x80000000 s)
     t.gr 1 = 0x80000000 ∧ t.cpu.psw.cc = 3) := by decide

/-- B9. -/
theorem test_lpr :
    (let t := shot [0x10, 0x12] (fun s => gr 2 0xFFFFFFFB s)
     t.gr 1 = 0x5 ∧ t.cpu.psw.cc = 2) := by decide

/-- B10. -/
theorem test_lnr :
    (let t := shot [0x11, 0x12] (fun s => gr 2 0x5 s)
     t.gr 1 = 0xFFFFFFFB ∧ t.cpu.psw.cc = 1) := by decide

/-- by hand from R301. -/
theorem test_ltr :
    (let t := shot [0x12, 0x12] (fun s => gr 2 0x80000000 s)
     t.gr 1 = 0x80000000 ∧ t.cpu.psw.cc = 1) := by decide

/-- by hand from R300. -/
theorem test_lr :
    (let t := shot [0x18, 0x12] (fun s => gr 2 0x80000001 s)
     t.gr 1 = 0x80000001 ∧ t.cpu.psw.ia = 0x402) := by decide

/-- B12. -/
theorem test_alr_carry :
    (let t := shot [0x1E, 0x12] (fun s => gr 2 0x2 (gr 1 0xFFFFFFFF s))
     t.gr 1 = 0x1 ∧ t.cpu.psw.cc = 3) := by decide

/-- B11 for AL. -/
theorem test_al :
    (let t := shot [0x5E, 0x10, 0x08, 0x00] (fun s => at_ 0x800 [0x00, 0x00, 0x00, 0x01] (gr 1 0xFFFFFFFF s))
     t.gr 1 = 0x0 ∧ t.cpu.psw.cc = 2) := by decide

/-- B15. -/
theorem test_slr_borrow :
    (let t := shot [0x1F, 0x12] (fun s => gr 2 0x5 (gr 1 0x3 s))
     t.gr 1 = 0xFFFFFFFE ∧ t.cpu.psw.cc = 1) := by decide

/-- B14. -/
theorem test_slr_equal :
    (let t := shot [0x1F, 0x12] (fun s => gr 2 0x5 (gr 1 0x5 s))
     t.gr 1 = 0x0 ∧ t.cpu.psw.cc = 2) := by decide

/-- B16 for SL. -/
theorem test_sl :
    (let t := shot [0x5F, 0x10, 0x08, 0x00] (fun s => at_ 0x800 [0x00, 0x00, 0x00, 0x03] (gr 1 0x5 s))
     t.gr 1 = 0x2 ∧ t.cpu.psw.cc = 3) := by decide

/-- B18. -/
theorem test_mr :
    (let t := shot [0x1C, 0x24] (fun s => gr 4 0x80000000 (gr 3 0x80000000 s))
     t.gr 2 = 0x40000000 ∧ t.gr 3 = 0x0) := by decide

/-- B19. -/
theorem test_mr_odd_register :
    (let t := shot [0x1C, 0x34] id
     pic t = [0x00, 0x02, 0x00, 0x06]) := by decide

/-- B17 for M. -/
theorem test_m :
    (let t := shot [0x5C, 0x20, 0x08, 0x00] (fun s => at_ 0x800 [0x00, 0x00, 0x00, 0x02] (gr 3 0xFFFFFFFF s))
     t.gr 2 = 0xFFFFFFFF ∧ t.gr 3 = 0xFFFFFFFE) := by decide

/-- B21. -/
theorem test_dr :
    (let t := shot [0x1D, 0x24] (fun s => gr 4 0x2 (gr 3 0xFFFFFFF9 (gr 2 0xFFFFFFFF s)))
     t.gr 2 = 0xFFFFFFFF ∧ t.gr 3 = 0xFFFFFFFD) := by decide

/-- B23. -/
theorem test_dr_quotient_too_large :
    (let t := shot [0x1D, 0x24] (fun s => gr 4 0x1 (gr 3 0x80000000 s))
     pic t = [0x00, 0x02, 0x00, 0x09] ∧ t.gr 3 = 0x80000000) := by decide

/-- B24 for D. -/
theorem test_d :
    (let t := shot [0x5D, 0x20, 0x08, 0x00] (fun s => at_ 0x800 [0x00, 0x00, 0x00, 0x01] (gr 3 0x80000000 (gr 2 0xFFFFFFFF s)))
     t.gr 2 = 0x0 ∧ t.gr 3 = 0x80000000) := by decide

/-- B25. -/
theorem test_mh :
    (let t := shot [0x4C, 0x10, 0x08, 0x00] (fun s => at_ 0x800 [0x00, 0x04] (gr 1 0x40000000 s))
     t.gr 1 = 0x0) := by decide

/-- B26. -/
theorem test_mhi :
    (let t := shot [0xA7, 0x3C, 0xFF, 0xFE] (fun s => gr 3 0x5 s)
     t.gr 3 = 0xFFFFFFF6) := by decide

/-- B27. -/
theorem test_ahi :
    (let t := shot [0xA7, 0x1A, 0x00, 0x01] (fun s => gr 1 0x7FFFFFFF s)
     t.gr 1 = 0x80000000 ∧ t.cpu.psw.cc = 3) := by decide

/-- B28. -/
theorem test_lhi :
    (let t := shot [0xA7, 0x18, 0xFF, 0xFF] id
     t.gr 1 = 0xFFFFFFFF) := by decide

/-- B29. -/
theorem test_chi :
    (let t := shot [0xA7, 0x2E, 0x00, 0xFF] (fun s => gr 2 0xFFFFFFFF s)
     t.cpu.psw.cc = 1) := by decide

/-- B30. -/
theorem test_clr :
    (let t := shot [0x15, 0x12] (fun s => gr 2 0x1 (gr 1 0xFFFFFFFF s))
     t.cpu.psw.cc = 2) := by decide

/-- B30. -/
theorem test_cr :
    (let t := shot [0x19, 0x12] (fun s => gr 2 0x1 (gr 1 0xFFFFFFFF s))
     t.cpu.psw.cc = 1) := by decide

/-- B30 for C. -/
theorem test_c :
    (let t := shot [0x59, 0x10, 0x08, 0x00] (fun s => at_ 0x800 [0x00, 0x00, 0x00, 0x01] (gr 1 0xFFFFFFFF s))
     t.cpu.psw.cc = 1) := by decide

/-- B30 for CL. -/
theorem test_cl :
    (let t := shot [0x55, 0x10, 0x08, 0x00] (fun s => at_ 0x800 [0x00, 0x00, 0x00, 0x01] (gr 1 0xFFFFFFFF s))
     t.cpu.psw.cc = 2) := by decide

/-- by hand from R333. -/
theorem test_ch :
    (let t := shot [0x49, 0x10, 0x08, 0x00] (fun s => at_ 0x800 [0xFF, 0xFE] (gr 1 0xFFFFFFFF s))
     t.cpu.psw.cc = 2) := by decide

/-- by hand from R336. -/
theorem test_cli :
    (let t := shot [0x95, 0x10, 0x08, 0x00] (fun s => at_ 0x800 [0x0F] s)
     t.cpu.psw.cc = 1) := by decide

/-- H4. -/
theorem test_sla_no_overflow :
    (let t := shot [0x8B, 0x10, 0x00, 0x01] (fun s => gr 1 0xC0000000 s)
     t.gr 1 = 0x80000000 ∧ t.cpu.psw.cc = 1) := by decide

/-- H8. -/
theorem test_sla_by_32 :
    (let t := shot [0x8B, 0x10, 0x00, 0x20] (fun s => gr 1 0xFFFFFFFF s)
     t.gr 1 = 0x80000000 ∧ t.cpu.psw.cc = 3) := by decide

/-- H11. -/
theorem test_sra :
    (let t := shot [0x8A, 0x10, 0x00, 0x01] (fun s => gr 1 0xFFFFFFF9 s)
     t.gr 1 = 0xFFFFFFFC ∧ t.cpu.psw.cc = 1) := by decide

/-- H12. -/
theorem test_sll_count :
    (let t := shot [0x89, 0x10, 0x00, 0x41] (fun s => gr 1 0x80000001 s)
     t.gr 1 = 0x2) := by decide

/-- H20. -/
theorem test_sll_no_translation :
    (let t := shot [0x89, 0x10, 0x50, 0x00] (fun s => gr 1 0x1 (gr 5 0x1 (ar 5 0xFF000000 (arMode s))))
     t.gr 1 = 0x2) := by decide

/-- H14. -/
theorem test_srl :
    (let t := shot [0x88, 0x10, 0x00, 0x1F] (fun s => gr 1 0x80000000 s)
     t.gr 1 = 0x1) := by decide

/-- H15. -/
theorem test_sldl :
    (let t := shot [0x8D, 0x20, 0x00, 0x01] (fun s => gr 3 0x80000000 (gr 2 0x1 s))
     t.gr 2 = 0x3 ∧ t.gr 3 = 0x0) := by decide

/-- H16. -/
theorem test_srda :
    (let t := shot [0x8E, 0x20, 0x00, 0x10] (fun s => gr 2 0xFFFFFFFF s)
     t.gr 2 = 0xFFFFFFFF ∧ t.gr 3 = 0xFFFF0000 ∧ t.cpu.psw.cc = 1) := by decide

/-- H17. -/
theorem test_srdl :
    (let t := shot [0x8C, 0x20, 0x00, 0x04] (fun s => gr 3 0x80000000 (gr 2 0x1 s))
     t.gr 2 = 0x0 ∧ t.gr 3 = 0x18000000) := by decide

/-- H18. -/
theorem test_slda :
    (let t := shot [0x8F, 0x20, 0x00, 0x20] (fun s => gr 3 0x40000000 s)
     t.gr 2 = 0x40000000 ∧ t.gr 3 = 0x0 ∧ t.cpu.psw.cc = 2) := by decide

/-- D1. -/
theorem test_st_big_endian :
    (let t := shot [0x50, 0x10, 0x08, 0x00] (fun s => gr 1 0x11223344 s)
     hp 0x800 4 t = [0x11, 0x22, 0x33, 0x44]) := by decide

/-- by hand from R311. -/
theorem test_sth :
    (let t := shot [0x40, 0x10, 0x08, 0x00] (fun s => gr 1 0x11223344 s)
     hp 0x800 2 t = [0x33, 0x44]) := by decide

/-- by hand from R312. -/
theorem test_stc :
    (let t := shot [0x42, 0x10, 0x08, 0x00] (fun s => gr 1 0x11223344 s)
     hp 0x800 1 t = [0x44]) := by decide

/-- by hand from R305. -/
theorem test_l :
    (let t := shot [0x58, 0x10, 0x08, 0x00] (fun s => at_ 0x800 [0x11, 0x22, 0x33, 0x44] s)
     t.gr 1 = 0x11223344) := by decide

/-- D2. -/
theorem test_lh :
    (let t := shot [0x48, 0x10, 0x08, 0x00] (fun s => at_ 0x800 [0xFF, 0xFE] s)
     t.gr 1 = 0xFFFFFFFE) := by decide

/-- D3. -/
theorem test_la_24_bit_mode :
    (let t := shot [0x41, 0x12, 0x3F, 0xFF] (fun s => gr 3 0x1 (gr 2 0x00FFFFFF (psw 0x0008000000000400 s)))
     t.gr 1 = 0xFFF) := by decide

/-- D4. -/
theorem test_la_31_bit_mode :
    (let t := shot [0x41, 0x12, 0x30, 0x00] (fun s => gr 3 0x1 (gr 2 0x7FFFFFFF s))
     t.gr 1 = 0x0) := by decide

/-- D6. -/
theorem test_lm_wraps :
    (let t := shot [0x98, 0xE1, 0x50, 0x00] (fun s => at_ 0x800 [0x00, 0x00, 0x00, 0x0E, 0x00, 0x00, 0x00, 0x0F, 0x00, 0x00, 0x00, 0x00, 0x00, 0x00, 0x00, 0x01] (gr 5 0x800 s))
     t.gr 14 = 0xE ∧ t.gr 15 = 0xF ∧ t.gr 0 = 0x0 ∧ t.gr 1 = 0x1) := by decide

/-- by hand from R314. -/
theorem test_stm_wraps :
    (let t := shot [0x90, 0xF0, 0x08, 0x00] (fun s => gr 0 0xBBBBBBBB (gr 15 0xAAAAAAAA s))
     hp 0x800 8 t = [0xAA, 0xAA, 0xAA, 0xAA, 0xBB, 0xBB, 0xBB, 0xBB]) := by decide

/-- Q16. -/
theorem test_ic :
    (let t := shot [0x43, 0x10, 0x00, 0x28] (fun s => gr 1 0x11223344 (at_ 0x28 [0xAA] (put .hostPrimary 0x12028 [0xBB] (put .hostPrimary 0x12400 [0x43, 0x10, 0x00, 0x28] (State.setPrefix (b := 0x12) s)))))
     t.gr 1 = 0x112233BB) := by decide

/-- Q17. -/
theorem test_ic_type_a :
    (let t := shot [0x43, 0x10, 0x20, 0x28] (fun s => put (.data 0x101) 0x28 [0xCC] (ar 2 0x01000002 (arMode (put .hostPrimary 0x12400 [0x43, 0x10, 0x20, 0x28] (State.setPrefix (b := 0x12) s)))))
     t.gr 1 = 0xCC) := by decide

/-- D7. -/
theorem test_icm :
    (let t := shot [0xBF, 0x1A, 0x08, 0x00] (fun s => at_ 0x800 [0xAA, 0xBB] (gr 1 0x11223344 s))
     t.gr 1 = 0xAA22BB44 ∧ t.cpu.psw.cc = 1) := by decide

/-- D8. -/
theorem test_stcm :
    (let t := shot [0xBE, 0x16, 0x08, 0x00] (fun s => gr 1 0x11223344 s)
     hp 0x800 3 t = [0x22, 0x33, 0x00]) := by decide

/-- D9. -/
theorem test_clm :
    (let t := shot [0xBD, 0x18, 0x08, 0x00] (fun s => at_ 0x800 [0x7F] (gr 1 0x80000000 s))
     t.cpu.psw.cc = 2) := by decide

/-- D10. -/
theorem test_tm_mixed :
    (let t := shot [0x91, 0xF0, 0x08, 0x00] (fun s => at_ 0x800 [0xA5] s)
     t.cpu.psw.cc = 1) := by decide

/-- D10. -/
theorem test_tm_all_ones :
    (let t := shot [0x91, 0xA5, 0x08, 0x00] (fun s => at_ 0x800 [0xA5] s)
     t.cpu.psw.cc = 3) := by decide

/-- D11. -/
theorem test_oi :
    (let t := shot [0x96, 0xF0, 0x08, 0x00] (fun s => at_ 0x800 [0x0F] s)
     hp 0x800 1 t = [0xFF] ∧ t.cpu.psw.cc = 1) := by decide

/-- D11. -/
theorem test_ni :
    (let t := shot [0x94, 0xF0, 0x08, 0x00] (fun s => at_ 0x800 [0x0F] s)
     hp 0x800 1 t = [0x00] ∧ t.cpu.psw.cc = 0) := by decide

/-- D11. -/
theorem test_xi :
    (let t := shot [0x97, 0x0F, 0x08, 0x00] (fun s => at_ 0x800 [0x0F] s)
     hp 0x800 1 t = [0x00] ∧ t.cpu.psw.cc = 0) := by decide

/-- by hand from R374. -/
theorem test_mvi :
    (let t := shot [0x92, 0xA5, 0x08, 0x00] id
     hp 0x800 1 t = [0xA5]) := by decide

/-- S1. -/
theorem test_mvc_between_spaces :
    (let t := shot [0xD2, 0x07, 0x10, 0x00, 0x20, 0x00] (fun s => put (.data 0x102) 0x200 [0xC1, 0xC2, 0xC3, 0xC4, 0xC5, 0xC6, 0xC7, 0xC8] (ar 2 0x01000003 (ar 1 0x01000002 (gr 2 0x200 (gr 1 0x100 (arMode s))))))
     peek (.data 0x101) 0x100 8 t = [0xC1, 0xC2, 0xC3, 0xC4, 0xC5, 0xC6, 0xC7, 0xC8]) := by decide

/-- D12. -/
theorem test_mvc_overlap :
    (let t := shot [0xD2, 0x02, 0x08, 0x01, 0x08, 0x00] (fun s => at_ 0x800 [0x01, 0x02, 0x03, 0x04] s)
     hp 0x800 4 t = [0x01, 0x01, 0x01, 0x01]) := by decide

/-- D13. -/
theorem test_xc_clears :
    (let t := shot [0xD7, 0x03, 0x08, 0x00, 0x08, 0x00] (fun s => at_ 0x800 [0x12, 0x34, 0x56, 0x78] s)
     hp 0x800 4 t = [0x00, 0x00, 0x00, 0x00] ∧ t.cpu.psw.cc = 0) := by decide

/-- by hand from R376. -/
theorem test_nc :
    (let t := shot [0xD4, 0x01, 0x08, 0x00, 0x08, 0x10] (fun s => at_ 0x810 [0xF0, 0xF0] (at_ 0x800 [0xF0, 0x0F] s))
     hp 0x800 2 t = [0xF0, 0x00] ∧ t.cpu.psw.cc = 1) := by decide

/-- by hand from R377. -/
theorem test_oc :
    (let t := shot [0xD6, 0x01, 0x08, 0x00, 0x08, 0x10] (fun s => at_ 0x810 [0x0F, 0x00] (at_ 0x800 [0xF0, 0x0F] s))
     hp 0x800 2 t = [0xFF, 0x0F] ∧ t.cpu.psw.cc = 1) := by decide

/-- D14. -/
theorem test_clc :
    (let t := shot [0xD5, 0x02, 0x08, 0x00, 0x08, 0x10] (fun s => at_ 0x810 [0x01, 0x02, 0x04] (at_ 0x800 [0x01, 0x02, 0x03] s))
     t.cpu.psw.cc = 1) := by decide

/-- D15. -/
theorem test_cs_equal :
    (let t := shot [0xBA, 0x13, 0x50, 0x00] (fun s => at_ 0x800 [0x00, 0x00, 0x00, 0x05] (gr 5 0x800 (gr 3 0x9 (gr 1 0x5 s))))
     hp 0x800 4 t = [0x00, 0x00, 0x00, 0x09] ∧ t.cpu.psw.cc = 0) := by decide

/-- D16. -/
theorem test_cs_unequal :
    (let t := shot [0xBA, 0x13, 0x50, 0x00] (fun s => at_ 0x800 [0x00, 0x00, 0x00, 0x06] (gr 5 0x800 (gr 3 0x9 (gr 1 0x5 s))))
     hp 0x800 4 t = [0x00, 0x00, 0x00, 0x06] ∧ t.gr 1 = 0x6 ∧ t.cpu.psw.cc = 1) := by decide

/-- by hand from R381. -/
theorem test_cds_equal :
    (let t := shot [0xBB, 0x24, 0x08, 0x00] (fun s => at_ 0x800 [0x00, 0x00, 0x00, 0x01, 0x00, 0x00, 0x00, 0x02] (gr 5 0x4 (gr 4 0x3 (gr 3 0x2 (gr 2 0x1 s)))))
     hp 0x800 8 t = [0x00, 0x00, 0x00, 0x03, 0x00, 0x00, 0x00, 0x04] ∧ t.cpu.psw.cc = 0) := by decide

/-- by hand from R381. -/
theorem test_cds_unequal :
    (let t := shot [0xBB, 0x24, 0x08, 0x00] (fun s => at_ 0x800 [0x00, 0x00, 0x00, 0x01, 0x00, 0x00, 0x00, 0x03] (gr 3 0x2 (gr 2 0x1 s)))
     t.gr 2 = 0x1 ∧ t.gr 3 = 0x3 ∧ t.cpu.psw.cc = 1) := by decide

/-- D19. -/
theorem test_ipm :
    (let t := shot [0xB2, 0x22, 0x00, 0x10] (fun s => gr 1 0xFFFFFFFF (psw 0x00082C0080000400 s))
     t.gr 1 = 0x2CFFFFFF) := by decide

/-- D20. -/
theorem test_spm :
    (let t := shot [0x04, 0x10] (fun s => gr 1 0x3A000000 s)
     t.cpu.psw.cc = 3 ∧ t.cpu.psw.progMask = 0xA) := by decide

/-- by hand from R340. -/
theorem test_nr :
    (let t := shot [0x14, 0x12] (fun s => gr 2 0x0F (gr 1 0xF0 s))
     t.gr 1 = 0x0 ∧ t.cpu.psw.cc = 0) := by decide

/-- by hand from R341. -/
theorem test_n :
    (let t := shot [0x54, 0x10, 0x08, 0x00] (fun s => at_ 0x800 [0x00, 0x00, 0xFF, 0x00] (gr 1 0xF0F0 s))
     t.gr 1 = 0xF000 ∧ t.cpu.psw.cc = 1) := by decide

/-- by hand from R343. -/
theorem test_or :
    (let t := shot [0x16, 0x12] (fun s => gr 2 0x0F (gr 1 0xF0 s))
     t.gr 1 = 0xFF ∧ t.cpu.psw.cc = 1) := by decide

/-- by hand from R344. -/
theorem test_o :
    (let t := shot [0x56, 0x10, 0x08, 0x00] (fun s => at_ 0x800 [0x00, 0x00, 0x00, 0x0F] (gr 1 0xF0 s))
     t.gr 1 = 0xFF ∧ t.cpu.psw.cc = 1) := by decide

/-- by hand from R346. -/
theorem test_xr :
    (let t := shot [0x17, 0x11] (fun s => gr 1 0xF0 s)
     t.gr 1 = 0x0 ∧ t.cpu.psw.cc = 0) := by decide

/-- by hand from R347. -/
theorem test_x :
    (let t := shot [0x57, 0x10, 0x08, 0x00] (fun s => at_ 0x800 [0x00, 0x00, 0x00, 0x0F] (gr 1 0xFF s))
     t.gr 1 = 0xF0 ∧ t.cpu.psw.cc = 1) := by decide

/-- J1. -/
theorem test_bal_24_bit_mode :
    (let t := shot [0x45, 0xE0, 0x05, 0x00] (fun s => psw 0x00082C0000000400 s)
     t.gr 14 = 0xAC000404 ∧ t.cpu.psw.ia = 0x500) := by decide

/-- J2. -/
theorem test_balr_24_bit_mode :
    (let t := shot [0x05, 0xEF] (fun s => gr 15 0xFF000500 (psw 0x00082C0000000400 s))
     t.gr 14 = 0x6C000402 ∧ t.cpu.psw.ia = 0x500) := by decide

/-- J4. -/
theorem test_bas :
    (let t := shot [0x4D, 0xE0, 0x05, 0x00] (fun s => psw 0x0008000000000400 s)
     t.gr 14 = 0x404 ∧ t.cpu.psw.ia = 0x500) := by decide

/-- J5. -/
theorem test_basr_without_branch :
    (let t := shot [0x0D, 0xC0] id
     t.gr 12 = 0x80000402 ∧ t.cpu.psw.ia = 0x402) := by decide

/-- J6. -/
theorem test_bc :
    (let t := shot [0x47, 0x40, 0x05, 0x00] (fun s => psw 0x0008100080000400 s)
     t.cpu.psw.ia = 0x500) := by decide

/-- J6. -/
theorem test_bc_not_met :
    (let t := shot [0x47, 0x40, 0x05, 0x00] id
     t.cpu.psw.ia = 0x404) := by decide

/-- J8. -/
theorem test_bct :
    (let t := shot [0x46, 0x10, 0x05, 0x00] id
     t.gr 1 = 0xFFFFFFFF ∧ t.cpu.psw.ia = 0x500) := by decide

/-- J7. -/
theorem test_bct_ends :
    (let t := shot [0x46, 0x10, 0x05, 0x00] (fun s => gr 1 0x1 s)
     t.gr 1 = 0x0 ∧ t.cpu.psw.ia = 0x404) := by decide

/-- by hand from R366. -/
theorem test_bctr_without_branch :
    (let t := shot [0x06, 0x10] (fun s => gr 1 0x5 s)
     t.gr 1 = 0x4 ∧ t.cpu.psw.ia = 0x402) := by decide

/-- J9. -/
theorem test_bxle :
    (let t := shot [0x87, 0x14, 0x05, 0x00] (fun s => gr 5 0x8 (gr 4 0x4 s))
     t.gr 1 = 0x4 ∧ t.cpu.psw.ia = 0x500) := by decide

/-- J10. -/
theorem test_bxh :
    (let t := shot [0x86, 0x15, 0x05, 0x00] (fun s => gr 5 0x1 (gr 1 0x7FFFFFFF s))
     t.gr 1 = 0x80000000 ∧ t.cpu.psw.ia = 0x404) := by decide

/-- J11. -/
theorem test_brc :
    (let t := shot [0xA7, 0xF4, 0xFF, 0xFE] id
     t.cpu.psw.ia = 0x3FC) := by decide

/-- J12. -/
theorem test_bras :
    (let t := shot [0xA7, 0xE5, 0x00, 0x10] id
     t.gr 14 = 0x80000404 ∧ t.cpu.psw.ia = 0x420) := by decide

/-- J13. -/
theorem test_brct :
    (let t := shot [0xA7, 0x16, 0xFF, 0xFC] (fun s => gr 1 0x2 s)
     t.gr 1 = 0x1 ∧ t.cpu.psw.ia = 0x3F8) := by decide

/-- J14. -/
theorem test_bcr_odd_address :
    (let t := shot [0x07, 0xFF] (fun s => gr 15 0x501 s)
     t.cpu.psw.ia = 0x501) := by decide

/-- J15. -/
theorem test_ex_modifies_the_length :
    (let t := shot [0x44, 0x10, 0x05, 0x00] (fun s => at_ 0x900 [0x01, 0x02, 0x03, 0x04, 0x05, 0x06, 0x07, 0x08, 0x09] (at_ 0x500 [0xD2, 0x00, 0x20, 0x00, 0x30, 0x00] (gr 3 0x900 (gr 2 0x800 (gr 1 0x7 s)))))
     hp 0x800 9 t = [0x01, 0x02, 0x03, 0x04, 0x05, 0x06, 0x07, 0x08, 0x00] ∧ hp 0x500 2 t = [0xD2, 0x00] ∧ t.cpu.psw.ia = 0x404) := by decide

/-- J16. -/
theorem test_ex_of_ex :
    (let t := shot [0x44, 0x10, 0x05, 0x00] (fun s => at_ 0x500 [0x44, 0x00, 0x05, 0x00] s)
     pic t = [0x00, 0x04, 0x00, 0x03]) := by decide

/-- J19. -/
theorem test_svc :
    (let t := shot [0x0A, 0x05] (fun s => at_ 0x60 [0x00, 0x08, 0x00, 0x00, 0x80, 0x00, 0x06, 0x00] (problem s))
     be64 (hp 32 8 t) = 0x0009000080000402 ∧ hp 0x88 4 t = [0x00, 0x02, 0x00, 0x05] ∧ t.cpu.psw.toDWord = 0x0008000080000600) := by decide

/-- M1. -/
theorem test_stap_misaligned :
    (let t := shot [0xB2, 0x12, 0x08, 0x01] id
     pic t = [0x00, 0x04, 0x00, 0x06]) := by decide

/-- by hand from R382. -/
theorem test_stap :
    (let t := shot [0xB2, 0x12, 0x08, 0x00] (fun s => (fun s => { s with cpu := { s.cpu with address := 0x0102 } }) s)
     hp 0x800 2 t = [0x01, 0x02]) := by decide

/-- M3. -/
theorem test_lctl_wraps :
    (let t := shot [0xB7, 0xF0, 0x05, 0x00] (fun s => at_ 0x500 [0xFF, 0xFF, 0xFF, 0xFF, 0xFF, 0xFF, 0xFF, 0xFF] s)
     t.cr 15 = 0xFFFFFFFF ∧ t.cr 0 = 0xFFFFFFFF) := by decide

/-- M4. -/
theorem test_stctl :
    (let t := shot [0xB6, 0xEE, 0x08, 0x00] id
     hp 0x800 4 t = [0xC2, 0x00, 0x00, 0x00]) := by decide

/-- M5. -/
theorem test_sigp_no_such_cpu :
    (let t := shot [0xAE, 0x13, 0x00, 0x01] (fun s => gr 3 0x1 s)
     t.cpu.psw.cc = 3) := by decide

/-- M6. -/
theorem test_sigp_external_call_to_itself :
    (let t := shot [0xAE, 0x13, 0x00, 0x02] id
     t.cpu.psw.cc = 0 ∧ t.cpu.externalCall = some 0) := by decide

/-- M8. -/
theorem test_diag_problem_state :
    (let t := shot [0x83, 0x12, 0x00, 0x08] (fun s => problem s)
     pic t = [0x00, 0x04, 0x00, 0x02]) := by decide

/-- by hand from R154, R245. -/
theorem test_diag_host_service :
    (let t := shot [0x83, 0x12, 0x00, 0x08] (fun s => (fun s => { s with services := [service 8 [.alservAdd 0x101 .readOnly 0x01000005 false, .serviceRegister 1 0x01000005] .completes] }) s)
     t.translate 0x01000005 = .designated (.data 0x101) true ∧ t.gr 1 = 0x01000005) := by decide

/-- M10. -/
theorem test_trace_off :
    (let t := shot [0x99, 0x13, 0x08, 0x00] id
     t.cpu.psw.ia = 0x404) := by decide

/-- by hand from R290. -/
theorem test_trace_operand_says_no :
    (let t := shot [0x99, 0x13, 0x08, 0x00] (fun s => at_ 0x800 [0x80, 0x00, 0x00, 0x00] (cr 12 0x1 s))
     t.cpu.psw.ia = 0x404) := by decide

/-- M11. -/
theorem test_bsa_without_asf :
    (let t := shot [0xB2, 0x5A, 0x00, 0x12] id
     pic t = [0x00, 0x04, 0x00, 0x13]) := by decide

/-- X1. -/
theorem test_alet_specification :
    (let t := shot [0x58, 0x30, 0x50, 0x00] (fun s => at_ 0xA8 [0x77, 0x77, 0x77, 0x77] (at_ 0xA0 [0x77] (gr 5 0x300 (ar 5 0xFF000000 (arMode s)))))
     pic t = [0x00, 0x04, 0x00, 0x28] ∧ oldPsw t = 0x0008400080000404 ∧ hp 0xA0 1 t = [0x77] ∧ hp 0xA8 4 t = [0x77, 0x77, 0x77, 0x77]) := by decide

/-- X2. -/
theorem test_alen_translation :
    (let t := shot [0x58, 0x30, 0x50, 0x00] (fun s => gr 5 0x300 (ar 5 0x01000009 (arMode s)))
     pic t = [0x00, 0x04, 0x00, 0x29] ∧ oldPsw t = 0x0008400080000400 ∧ hp 0xA0 1 t = [0x05] ∧ hp 0xA8 4 t = [0x01, 0x00, 0x00, 0x09] ∧ t.gr 3 = 0x0) := by decide

/-- X3. -/
theorem test_addressing_capability :
    (let t := shot [0x58, 0x30, 0x50, 0x00] (fun s => gr 5 0x300 (ar 5 0x01000004 (arMode s)))
     pic t = [0x00, 0x04, 0x01, 0x36] ∧ oldPsw t = 0x0008400080000404 ∧ hp 0xA0 1 t = [0x05] ∧ hp 0xA8 4 t = [0x01, 0x00, 0x00, 0x04]) := by decide

/-- X8. -/
theorem test_addressing :
    (let t := shot [0x58, 0x30, 0x50, 0x00] (fun s => gr 5 0x100000 s)
     pic t = [0x00, 0x04, 0x00, 0x05]) := by decide

/-- Q5: protection. -/
theorem test_sske_read_only_entry :
    (let s := ar 4 0x01000003 (arMode world)
     s.blockFaults blockCheck true 4 0x3000 = [.protection 3 false (.register 4)]) := by decide

/-- Q8: protection. -/
theorem test_tb_low_address :
    (cr 0 0x100000E0 world).blockFaults testBlockCheck true 4 0 = [.protection 0 true .hostPrimary] := by decide

/-- X5: protection, not addressing, for the store; addressing for the fetch. -/
theorem test_read_only_entry_before_addressing :
    (let s := ar 5 0x01000003 (arMode world)
     s.operandFaults operandCheck true 5 0x10000 1 = [.protection 16 false (.register 5)] ∧
     s.operandFaults operandCheck false 5 0x10000 1 = [.addressing true]) := by decide

/-- X9: with F one the fetch is protected; with F zero only the store is. -/
theorem test_key_controlled_fetch :
    (let s := psw 0x0048000080000400 (key .hostPrimary 1 0x1C world)
     let u := psw 0x0048000080000400 (key .hostPrimary 1 0x18 world)
     s.operandFaults operandCheck false 5 0x1000 1 = [.protection 1 true .hostPrimary] ∧
     u.operandFaults operandCheck false 5 0x1000 1 = [] ∧
     u.operandFaults operandCheck true 5 0x1000 1 = [.protection 1 true .hostPrimary]) := by decide

/-- K3: the first byte is zero and the last two are the programmable field; the length is sixteen. -/
theorem test_stcke_layout :
    (let s := { world with cpu := { world.cpu with todProg := 0xABCD } }
     s.extendedClock.head? = some 0 ∧ s.extendedClock.drop 14 = [0xAB, 0xCD] ∧ s.extendedClock.length = 16) := by decide

/-- N5: either of the two exceptions D10 allows; the instruction address is that of the program new PSW. -/
theorem test_trap_is_an_interruption :
    ∀ b : Bool, (match world.takeException 2 {} (if b then .operation else .specialOperation) with
      | .next t => decide (t.cpu.psw.ia = 0) && (pic t == [0, 2, 0, 1] || pic t == [0, 2, 0, 0x13])
      | _ => false) = true := by decide

/-- N6: an opcode with no row is refused. -/
theorem test_unlisted_opcode_is_refused : refuses [0xB3, 0x00, 0x00, 0x00] id = true := by decide

/-- M12. -/
theorem test_rp_is_refused : refuses [0xB2, 0x77, 0x10, 0x00] id = true := by decide

/-- M9, with no host service defined. -/
theorem test_diag_without_service_is_refused : refuses [0x83, 0x12, 0x00, 0x08] id = true := by decide

/-- W14, as a fault of the early check: the program new PSW is invalid. -/
theorem test_program_interruption_loop :
    (match step (put .hostPrimary 104 [0x00, 0x08, 0x80, 0x00, 0x80, 0x00, 0x06, 0x00] (psw 0x0008800080000600 world)) with
     | .fault .programInterruptionLoop => true
     | _ => false) = true := by decide

/-- R495: the disabled wait of the programs of spec/95_test_vectors.md ends the run. -/
theorem test_disabled_wait_ends_the_run :
    (match step (psw 0x000A000000000DED world) with
     | .fault .disabledWait => true
     | _ => false) = true := by decide

-- witnesses: for each statement with hypotheses, a state and operands that meet them, with a boundary value for each clause of a split

open Sys2Proof.Safety

/-- The fixed-point-overflow mask one. -/
def overflowOn (s : State) : State := psw 0x0008080080000400 s

theorem wit_SignedArithmeticOfRegisters :
    world.cpu.psw.overflowMask = false ∧ ¬ fitsWord (2 ^ 31) ∧ ((0x7FFFFFFF : Word).toInt + (1 : Word).toInt = 2 ^ 31) ∧
    (overflowOn world).cpu.psw.overflowMask = true ∧ fitsWord (2 ^ 31 - 1) ∧ (0x7FFFFFFF : Word).toInt = 2 ^ 31 - 1 := by decide
theorem wit_SignedArithmeticWithStorage :
    fetchable world 0 (world.ea 0 0 0x800) 4 ∧ fetchable world 0 (world.ea 0 0 0x800) 2 ∧ world.cpu.psw.overflowMask = false := by decide
theorem wit_FixedPointOverflow :
    (let s := overflowOn (gr 1 0x80000000 (gr 2 0xFFFFFFFF (at_ 0x800 [0xFF, 0xFF] world)))
     s.cpu.psw.overflowMask = true ∧ s.prefixAreaAssigned = true ∧ fetchable s 0 (s.ea 0 0 0x800) 4 ∧ fetchable s 0 (s.ea 0 0 0x800) 2 ∧
     (s.gr 1).toInt + (s.gr 2).toInt = -(2 ^ 31) - 1 ∧ ¬ fitsWord (-(2 ^ 31) - 1) ∧ ¬ fitsWord (-(s.gr 1).toInt) ∧
     ¬ fitsWord ((s.gr 1).toInt + (be16 (operand s 0 (s.ea 0 0 0x800) 2)).toInt) ∧ (s.eaBD 0 1).toNat % 64 = 1 ∧
     ¬ fitsWord ((s.gr 1).toInt * 2 ^ 1) ∧ evenReg 2 = true ∧ ((gr 2 0x40000000 s).pair 2).toInt * 2 ^ 1 = 2 ^ 63) := by decide
theorem wit_FixedPointOverflow_subtraction :
    (let s := overflowOn (gr 1 0x7FFFFFFF (at_ 0x800 [0xFF, 0xFF, 0xFF, 0xFF] world))
     (s.gr 1).toInt - (be16 (operand s 0 (s.ea 0 0 0x800) 2)).toInt = 2 ^ 31 ∧
     (s.gr 1).toInt - (be32 (operand s 0 (s.ea 0 0 0x800) 4)).toInt = 2 ^ 31) := by decide
theorem wit_LogicalArithmetic : fetchable world 0 (world.ea 0 0 0x800) 4 := by decide
theorem wit_Multiplication : evenReg 14 = true ∧ fetchable world 0 (world.ea 0 0 0x800) 4 ∧ fetchable world 0 (world.ea 0 0 0x800) 2 := by decide
theorem wit_Division_largest_quotient :
    (let n := (gr 3 0x7FFFFFFF world).pair 2
     evenReg 2 = true ∧ n.toInt = (2 ^ 31 - 1) * (1 : Word).toInt + 0 ∧ (0 : Int).natAbs < (1 : Word).toInt.natAbs ∧ fitsWord (2 ^ 31 - 1)) := by
  decide
theorem wit_Division_smallest_quotient :
    ((gr 2 0xFFFFFFFF (gr 3 0x80000000 world)).pair 2).toInt = -(2 ^ 31) * (1 : Word).toInt + 0 ∧ fitsWord (-(2 ^ 31)) := by decide
theorem wit_Division_exception :
    (let s := gr 3 0x80000000 world
     s.gr 4 = 0 ∧ (s.pair 2).toInt = 2 ^ 31 * (1 : Word).toInt + 0 ∧ ¬ fitsWord (2 ^ 31) ∧ s.prefixAreaAssigned = true ∧
     fetchable s 0 (s.ea 0 0 0x800) 4 ∧ be32 (operand s 0 (s.ea 0 0 0x800) 4) = 0) := by decide
theorem wit_OddRegisterPair :
    evenReg 15 = false ∧ world.prefixAreaAssigned = true ∧ fetchable world 0 (world.ea 0 0 0x800) 4 ∧
    storable world 0 (world.eaBD 0 0x800) 8 := by decide
theorem wit_Comparison :
    fetchable world 0 (world.ea 0 0 0x800) 4 ∧ fetchable world 0 (world.ea 0 0 0x800) 2 ∧ fetchable world 0 (world.eaBD 0 0x800) 1 := by decide
theorem wit_ComparisonOfStrings :
    (let s := at_ 0x800 [1, 2, 3] (at_ 0x900 [1, 2, 4] world)
     fetchable s 0 (s.eaBD 0 0x800) 3 ∧ fetchable s 0 (s.eaBD 0 0x900) 3 ∧
     (operand s 0 (s.eaBD 0 0x800) 3).take 2 = (operand s 0 (s.eaBD 0 0x900) 3).take 2 ∧
     ((operand s 0 (s.eaBD 0 0x800) 3).getD 2 0).toNat < ((operand s 0 (s.eaBD 0 0x900) 3).getD 2 0).toNat) := by decide
theorem wit_ComparisonOfStrings_mask :
    (let s := gr 1 0x01000000 (at_ 0x800 [1] world)
     fetchable s 0 (s.eaBD 0 0x800) (maskBytes 8).length ∧ selectedBytes (s.gr 1) 8 = operand s 0 (s.eaBD 0 0x800) (maskBytes 8).length) := by
  decide
theorem wit_LogicIntoRegister : fetchable world 0 (world.ea 0 0 0x800) 4 := by decide
theorem wit_ImmediateToStorage : storable world 0 (world.eaBD 0 0xFFF) 1 := by decide
theorem wit_LoadsFromStorage :
    fetchable world 0 (world.ea 0 0 0x800) 4 ∧ fetchable world 0 (world.eaBD 0 0x800) (max 1 (maskBytes 15).length) ∧
    fetchable world 0 (world.eaBD 0 0x800) (max 1 (maskBytes 0).length) := by decide
theorem wit_LoadsOfSeveralRegisters :
    fetchable world 0 (world.eaBD 0 0x800) (4 * ((0 - 1 : Reg).toNat + 1)) ∧ aligned (world.eaBD 0 0x800) 4 = true ∧
    world.cpu.psw.problem = false := by decide
theorem wit_StoresOfOneRegister :
    storable world 0 (world.ea 0 0 0x800) 4 ∧ storable world 0 (world.eaBD 0 0x800) (maskBytes 15).length ∧
    storable world 0 (world.eaBD 0 0x800) (maskBytes 0).length ∧ storable world 0 (world.eaBD 0 0x800) 1 := by decide
theorem wit_StoresOfSeveralRegisters :
    storable world 0 (world.eaBD 0 0x800) (4 * ((0 - 1 : Reg).toNat + 1)) ∧ aligned (world.eaBD 0 0x800) 4 = true := by decide
theorem wit_StringInstructions :
    storable world 0 (world.eaBD 0 0x800) 256 ∧ fetchable world 0 (world.eaBD 0 0x900) 256 ∧ storable world 0 (world.eaBD 0 0x800) 1 := by
  decide +kernel
theorem wit_MoveOverlap :
    storable world 0 (world.eaBD 0 0x801) 2 ∧ fetchable world 0 (world.eaBD 0 0x800) 2 ∧
    world.eaBD 0 0x801 = wrapMode world.cpu.psw.amode (world.eaBD 0 0x800 + 1) ∧ fetchable world 0 (world.eaBD 0 0x803) 2 := by decide
theorem wit_MoveOverlap_apart :
    ∀ a, a ∈ operandCells world 0 (world.eaBD 0 0x801) 2 → a ∉ operandCells world 0 (world.eaBD 0 0x803) 2 := by
  rw [show operandCells world 0 (world.eaBD 0 0x801) 2 = [0x801, 0x802] by decide,
    show operandCells world 0 (world.eaBD 0 0x803) 2 = [0x803, 0x804] by decide]
  simp
theorem wit_CompareAndSwap :
    aligned (world.eaBD 0 0x800) 8 = true ∧ storable world 0 (world.eaBD 0 0x800) 8 ∧ storable world 0 (world.eaBD 0 0x800) 4 ∧
    be32 (operand world 0 (world.eaBD 0 0x800) 4) = world.gr 1 ∧ be32 (operand world 0 (world.eaBD 0 0x800) 4) ≠ (gr 1 1 world).gr 1 ∧
    be64 (operand world 0 (world.eaBD 0 0x800) 8) = world.gr 2 ++ world.gr 3 ∧
    be64 (operand world 0 (world.eaBD 0 0x800) 8) ≠ (gr 3 1 world).gr 2 ++ (gr 3 1 world).gr 3 := by decide
theorem wit_ArithmeticShifts :
    (let s := gr 1 0x40000000 (gr 2 0x40000000 world)
     s.cpu.psw.overflowMask = false ∧ evenReg 2 = true ∧ (s.eaBD 0 1).toNat % 64 = 1 ∧
     ¬ ((s.gr 1).toInt * 2 ^ 1 < 2 ^ 31) ∧ ((s.gr 1).toInt * 2 ^ 0 < 2 ^ 31) ∧
     ¬ ((s.pair 2).toInt * 2 ^ 1 < 2 ^ 63) ∧ (s.pair 2).toInt * 2 ^ 0 < 2 ^ 63) := by decide
theorem wit_SupervisorCall : world.prefixAreaAssigned = true := by decide
theorem wit_Execute :
    (let s := at_ 0x800 [0x18, 0x12] (gr 3 0x34 world)
     let code := (s.addrs (s.ea 0 0 0x800) 2).map (fun a => s.hp.byte (s.prefixed a))
     s.cpu.exTarget = none ∧ s.cpu.staleBytes = [] ∧ aligned (s.ea 0 0 0x800) 2 = true ∧ instrLength (code.headD 0) = 2 ∧
     s.accessFaults instructionTarget controlCheck false (s.ea 0 0 0x800) 2 = [] ∧
     (decode (code.set 1 (code.getD 1 0 ||| byteOf (s.gr 3) 3))).toOption = some (.lr 3 6)) := by decide
theorem wit_Execute_mvc :
    (let s := at_ 0x800 [0xD2, 0x00, 0x09, 0x00, 0x0A, 0x00] (gr 3 0xFF world)
     let code := (s.addrs (s.ea 0 0 0x800) 6).map (fun a => s.hp.byte (s.prefixed a))
     s.accessFaults instructionTarget controlCheck false (s.ea 0 0 0x800) 6 = [] ∧
     (decode (code.set 1 (code.getD 1 0 ||| byteOf (s.gr 3) 3))).toOption = some (.mvc 256 0 0x900 0 0xA00) ∧
     (decode (code.set 1 (code.getD 1 0 ||| 0))).toOption = some (.mvc 1 0 0x900 0 0xA00) ∧
     storable s 0 (s.eaBD 0 0x900) 1 ∧ fetchable s 0 (s.eaBD 0 0xA00) 1 ∧
     operandCells s 0 (s.eaBD 0 0x900) 1 = [0x900] ∧ operandCells s 0 (s.eaBD 0 0xA00) 1 = [0xA00]) := by decide
theorem wit_Execute_others :
    world.prefixAreaAssigned = true ∧ (decode [0x44, 0x00, 0x08, 0x00]).toOption = some (.ex 0 0 0 0x800) ∧
    (decode [0x07, 0xF0 ||| 0x02]).toOption = some (.bcr 15 2) ∧ (decode [0x0A, 0x01 ||| 0x10]).toOption = some (.svc 0x11) ∧
    (decode [0x00, 0x00]).toOption = none := by decide
theorem wit_AccessRegisterMoves :
    (let s := ar 5 0x01000002 (arMode world)
     s.cpu.psw.arMode = true ∧ s.aletWf (s.ar 5) = true ∧ s.ar 5 ≠ 0 ∧ s.ar 6 = 0) := by decide
theorem wit_SetAddressSpaceControl :
    (let s := cr 0 0x000100E0 world
     s.asf = true ∧ world.asf = false ∧ (s.eaBD 0 0x200).toNat / 256 % 16 = 2 ∧ (s.eaBD 0 0).toNat / 256 % 16 = 0 ∧
     (s.eaBD 0 0x300).toNat / 256 % 16 = 3 ∧ (s.eaBD 0 0xF00).toNat / 256 % 16 = 15 ∧ s.prefixAreaAssigned = true ∧ s.cfg.sacfInstalled = true) := by
  decide
theorem wit_facilities_not_installed :
    (let s := { world with cfg := { world.cfg with sacfInstalled := false, extTodInstalled := false, fpExtInstalled := false, sopInstalled := false } }
     s.cfg.sacfInstalled = false ∧ s.cfg.extTodInstalled = false ∧ s.cfg.fpExtInstalled = false ∧ s.prefixAreaAssigned = true) := by decide
theorem wit_TestAccess :
    (let s := cr 0 0x000100E0 (gr 2 0x00010000 (ar 3 0x01000002 (ar 4 0x01000004 (ar 5 0x01000009 world))))
     s.asf = true ∧ field (s.gr 2) 0 16 = 1 ∧ s.ar 1 = 0 ∧ s.aletWf (s.ar 3) = true ∧ halEntry .valid 0x01000002 0x101 .readWrite ∈ s.hal ∧
     halEntry .revoked 0x01000004 0 .readOnly ∈ s.hal ∧ (∀ e, e ∈ s.hal → ¬ (e.alet = s.ar 5 ∧ e.state ≠ .unused))) := by decide
theorem wit_accessListSound : accessListSound world := by unfold accessListSound; decide
theorem wit_StoreClock :
    (let s := { world with tod := 0xFFFFFFFFFFFFFFFE }
     s.tod.toNat + 1 < 2 ^ 64 ∧ storable s 0 (s.eaBD 0 0x800) 8 ∧ s.cfg.extTodInstalled = true ∧ storable s 0 (s.eaBD 0 0x800) 16) := by decide
theorem wit_TimerRegisters :
    world.cpu.psw.problem = false ∧ world.cfg.extTodInstalled = true ∧ field (world.gr 0) 0 16 = 0 ∧ field ((gr 0 0x10000 world).gr 0) 0 16 ≠ 0 ∧
    world.prefixAreaAssigned = true ∧ aligned (world.eaBD 0 0x800) 8 = true ∧
    fetchable world 0 (world.eaBD 0 0x800) 8 ∧ storable world 0 (world.eaBD 0 0x800) 8 := by decide
theorem wit_InstructionsWithoutARule : (cr 0 0x000100E0 world).asf = true ∧ world.asf = false := by decide
theorem wit_PrivilegedOperation :
    (problem world).cpu.psw.problem = true ∧ (problem world).prefixAreaAssigned = true ∧ isPrivileged .ptlb = true ∧
    isNotProvided .ptlb = false ∧ isPrivileged .sckpf = true ∧ (problem world).cfg.extTodInstalled = true := by decide
theorem wit_LoadPsw :
    (let s := at_ 0x800 (bytes64 startPsw.toDWord) (at_ 0x808 (bytes64 0) world)
     s.cpu.psw.problem = false ∧ aligned (s.eaBD 0 0x800) 8 = true ∧ s.operandFaults controlCheck false 0 (s.eaBD 0 0x800) 8 = [] ∧
     bytes64 startPsw.toDWord = operand s 0 (s.eaBD 0 0x800) 8 ∧ startPsw.valid = true ∧
     s.operandFaults controlCheck false 0 (s.eaBD 0 0x808) 8 = [] ∧ bytes64 Psw.zero.toDWord = operand s 0 (s.eaBD 0 0x808) 8 ∧
     Psw.zero.valid = false) := by decide
theorem wit_SystemMask :
    fetchable world 0 (world.eaBD 0 0x800) 1 ∧ storable world 0 (world.eaBD 0 0x800) 1 ∧ world.cpu.psw.problem = false ∧
    ({ pswNext world 4 with sysMask := 0x43 } : Psw).valid = true ∧ ({ pswNext world 4 with sysMask := 0x04 } : Psw).valid = false ∧
    world.prefixAreaAssigned = true := by decide
theorem wit_PrefixAndCpuAddress :
    (let s := at_ 0x800 (bytes32 0x000FF000) (at_ 0x804 (bytes32 0x00100000) world)
     s.cpu.psw.problem = false ∧ aligned (s.eaBD 0 0x800) 4 = true ∧ fetchable s 0 (s.eaBD 0 0x800) 4 ∧ fetchable s 0 (s.eaBD 0 0x804) 4 ∧
     s.hp.assigned (field (be32 (operand s 0 (s.eaBD 0 0x800) 4)) 1 19) = true ∧
     s.hp.assigned (field (be32 (operand s 0 (s.eaBD 0 0x804) 4)) 1 19) = false ∧ storable s 0 (s.eaBD 0 0x800) 4 ∧
     storable s 0 (s.eaBD 0 0x800) 2) := by decide
theorem wit_RealStorage :
    (let s := cr 0 0x00B000E0 (gr 2 0x800 world)
     s.cpu.psw.problem = false ∧ aligned (truncMode s.cpu.psw.amode (s.gr 2)) 4 = true ∧
     s.accessFaults hostPrimaryTarget controlCheck false (truncMode s.cpu.psw.amode (s.gr 2)) 4 = [] ∧
     s.accessFaults hostPrimaryTarget controlCheck true (truncMode s.cpu.psw.amode (s.gr 2)) 4 = [] ∧
     field (s.cr 0) 8 5 = 0b10110 ∧ field (world.cr 0) 8 5 ≠ 0b10110 ∧ world.prefixAreaAssigned = true ∧
     (wordAddrs (field (s.gr 2) 1 25 ++ 0#6 + BitVec.ofNat 31 (4 * (field (s.gr 3) 12 8).toNat))).flatMap
       (s.byteFaults hostPrimaryTarget blockCheck true) = []) := by decide
theorem wit_NoOperations :
    (let s := at_ 0x800 (bytes32 0x80000000) (cr 12 1 world)
     bitAt (world.cr 12) 31 = false ∧ bitAt (s.cr 12) 31 = true ∧ aligned (s.eaBD 0 0x800) 4 = true ∧ fetchable s 0 (s.eaBD 0 0x800) 4 ∧
     bitAt (be32 (operand s 0 (s.eaBD 0 0x800) 4)) 0 = true) := by decide
theorem wit_StorageKeys :
    (let ea := truncMode world.cpu.psw.amode (world.gr 2)
     world.operandFaults blockCheck false 2 ea 1 = [] ∧ world.operandFaults blockCheck true 2 ea 1 = []) := by decide
theorem wit_TestBlock :
    (let s := gr 2 0x1FFF world
     s.operandFaults testBlockCheck true 2 (blockOf (truncMode s.cpu.psw.amode (s.gr 2)) ++ 0#12) 1 = [] ∧ (s.space .hostPrimary).usable 1 = true ∧
     ((world.updateSpace .hostPrimary (fun p => p.setUnusable 1 true)).space .hostPrimary).usable 1 = false) := by decide
theorem wit_TestProtection :
    (let s := ar 5 0x01000009 (ar 6 0x01000003 (arMode world))
     (∃ x, s.resolve 5 = .error x) ∧ (∃ t, s.resolve 6 = .ok t ∧ t.readOnly = true ∧ (s.space t.space).assigned 15 = true ∧
       (s.space t.space).assigned 16 = false)) := ⟨⟨_, rfl⟩, _, rfl, by decide, by decide, by decide⟩
theorem wit_TestProtection_keys :
    (let s := key .hostPrimary 1 0x1C world
     s.resolve 0 = .ok hostPrimaryTarget ∧ (3 : BitVec 4) = field (s.hp.key 1) 0 4 ∧ (2 : BitVec 4) ≠ field (s.hp.key 1) 0 4 ∧
     bitAt (s.hp.key 1) 4 = true ∧ s.hp.assigned 1 = true) := by
  refine ⟨rfl, ?_⟩
  decide
theorem wit_Diagnose :
    (let v := service 0x268 [.serviceRegister 1 2, .serviceCondition 1] .completes
     let s := { world with services := [{ v with tests := [.general 7 0xFFFFFFFF 1, .psw 0x0000400000000000 0] }, { v with rx := some 3 }, v] }
     s.cpu.psw.problem = false ∧ s.services = [{ v with tests := [.general 7 0xFFFFFFFF 1, .psw 0x0000400000000000 0] }, { v with rx := some 3 }] ++ v :: [] ∧
     BitVec.ofNat 16 (s.eaBD 0 0x268).toNat = v.code ∧ s.gr 7 ≠ 1 ∧ (3 : Reg) ≠ 1 ∧ v.outcomes.length = 1 ∧
     BitVec.ofNat 16 (s.eaBD 0 0x008).toNat ≠ v.code) := by decide
theorem wit_Diagnose_endings :
    serviceException 6 false none ∧ ¬ serviceException 0x11 false none ∧ ¬ serviceException 0x86 false none ∧ serviceException 0x29 true (some 1) ∧
    world.prefixAreaAssigned = true ∧ startPsw.valid = true ∧ (world.space (world.spaceOf 0x101)).assigned (blockOf 0xFFFF) = true ∧
    world.spaceOf 1 = .hostPrimary ∧ world.cfg.fpExtInstalled = true ∧ world.hp.assigned 0xFF = true ∧
    (world.space (world.spaceOf 0x101)).assigned 0xF = true ∧ world.hp.assigned world.cpu.prefixReg = true ∧ (Cpu.reset 1).address ≠ world.cpu.address ∧ (Cpu.reset 0).address = world.cpu.address ∧
    world.hp.assigned (Cpu.reset 1).prefixReg = true := by
  unfold serviceException; decide

/-- by hand from R26, R56: a host service leaves no value in a register that the CPU does not have. -/
theorem test_diag_absent_registers :
    (let v := service 8 [.serviceTodProg 0xABCD, .serviceFloat 1 5, .serviceCpu { world.cpu with todProg := 7, fpr := Vector.replicate 16 9 }] .completes
     let t (on : Bool) := shot [0x83, 0x12, 0x00, 0x08] (fun s =>
       { s with services := [v], cfg := { s.cfg with extTodInstalled := on, fpExtInstalled := on } })
     (t false).cpu.todProg = 0 ∧ (t false).cpu.fpr[1] = 0 ∧ (t false).cpu.fpr[2] = 9 ∧ (t true).cpu.todProg = 7 ∧ (t true).cpu.fpr[1] = 9) := by
  decide

/-- by hand from R404, R416, R419: a code of Table 6, or one with bit 8 one, is no outcome of a host service. -/
theorem test_diag_codes_that_cannot_occur :
    (let f (e : ServiceEnding) := refuses [0x83, 0x12, 0x00, 0x08] (fun s => { s with services := [service 8 [] e] })
     f (.exception 0x0011 false none) = true ∧ f (.exception 0x0086 false none) = true ∧ f (.exception 0x01B6 false (some 1)) = true ∧
     f (.exception 0x0029 false (some 1)) = true ∧ f (.exception 0x0006 false none) = false) := by decide

/-- by hand from R139, D25: a service that looks at the translation mode, and answers in the key of a block and in the prefix. -/
theorem test_diag_state :
    (let v := service 8 [.serviceKey 0x101 2 0x5E, .servicePrefix 3] .completes
     let t := shot [0x83, 0x12, 0x00, 0x08] (fun s =>
       { s with services := [{ v with tests := [.psw 0x0000400000000000 0x0000400000000000] }, service 8 [.serviceCondition 3] .completes] })
     let u := shot [0x83, 0x12, 0x00, 0x08] (fun s => arMode
       { s with services := [{ v with tests := [.psw 0x0000400000000000 0x0000400000000000] }, service 8 [.serviceCondition 3] .completes] })
     t.cpu.psw.cc = 3 ∧ t.cpu.prefixReg = 0 ∧ u.cpu.psw.cc = 0 ∧ (u.space (.data 0x101)).key 2 = 0x5E ∧ u.cpu.prefixReg = 3) := by decide

/-- by hand from R245, D25: a case about registers and state comes first, and an outcome may be an exception that nullifies. -/
theorem test_diag_exception :
    (let v := { service 8 [] (.exception 0x0029 true (some 0x01000009)) with ry := some 2, tests := [.psw 0x0000400000000000 0, .access 4 0xFFFFFFFF 0x01000009] }
     let t := shot [0x83, 0x12, 0x00, 0x08] (fun s => ar 4 0x01000009 { s with services := [v, service 8 [.serviceCondition 3] .completes] })
     pic t = [0x00, 0x04, 0x00, 0x29] ∧ be64 (hp 40 8 t) = 0x0008000080000400 ∧ hp 168 4 t = [0x01, 0x00, 0x00, 0x09]) := by decide

/-- Another CPU, stopped, with address 1. -/
def twoCpus : State := { world with others := [{ Cpu.reset 1 with prefixReg := 2 }] }

theorem wit_SignalProcessor_addresses :
    twoCpus.cpu.address ≠ 9 ∧ (∀ c, c ∈ twoCpus.others → c.address ≠ 9) ∧
    twoCpus.cpuAt 1 = some { Cpu.reset 1 with prefixReg := 2 } ∧ twoCpus.cpuAt 0 = some twoCpus.cpu := by decide
theorem wit_SignalProcessor_conditions :
    (let c : Cpu := { Cpu.reset 1 with prefixReg := 2 }
     c.busy = false ∧ { c with busy := true }.busy = true ∧ c.environmentStatus = 0 ∧ c.status ≠ .checkStop ∧ c.externalCall = none ∧
     { c with externalCall := some 0 }.externalCall ≠ none ∧ c.status = .stopped ∧ twoCpus.cpu.status = .operating ∧
     twoCpus.cpu.status ≠ .stopped ∧ twoCpus.cpu.address ≠ 1 ∧ twoCpus.hp.assigned (field (0x000FF000 : Word) 1 19) = true ∧
     twoCpus.hp.assigned (field (0x00100000 : Word) 1 19) = false) := by decide
theorem wit_SignalProcessor_orders :
    (twoCpus.eaBD 0 0x002).toNat % 256 = 2 ∧ (twoCpus.eaBD 0 0x00D).toNat % 256 = 0x0d ∧ (twoCpus.eaBD 0 0x000).toNat % 256 = 0 ∧
    (twoCpus.eaBD 0 0x008).toNat % 256 = 8 ∧ (twoCpus.eaBD 0 0x10A).toNat % 256 = 0x0a ∧
    0x0f ≤ (twoCpus.eaBD 0 0x00F).toNat % 256 ∧ 0x0f ≤ (twoCpus.eaBD 0 0x0FF).toNat % 256 := by decide
theorem wit_SignalProcessor_status :
    (let area (w : Word) : Addr := field w 1 22 ++ 0#9
     (0 : Word) &&& 0x80000029 = 0 ∧ twoCpus.hp.assigned (blockOf 0) = true ∧ twoCpus.hp.readOnly (blockOf 0) = false ∧
     twoCpus.hp.assigned (blockOf (area 0x000FFE00)) = true ∧ twoCpus.hp.assigned (blockOf (area 0x00100000)) = false ∧
     twoCpus.cpuAt 0 = some twoCpus.cpu ∧ twoCpus.cpu.externalCall = none ∧ twoCpus.cpu.status = .operating) := by decide

/-- by hand from R277, R480: CPU reset of another CPU, which was operating with a pending restart. -/
theorem test_sigp_cpu_reset :
    (let other : Cpu := { Cpu.reset 1 with status := .operating, restartPending := true, prefixReg := 2 }
     let t := shot [0xAE, 0x13, 0x00, 0x0C] (fun s => gr 3 1 { s with others := [other] })
     t.cpu.psw.cc = 0 ∧ t.others = [{ Cpu.reset 1 with prefixReg := 2 }]) := by decide

/-- by hand from R277: a stop does not take back an earlier stop and store status. -/
theorem test_sigp_stop_after_store_status :
    (let other : Cpu := { Cpu.reset 1 with status := .operating, stopRequest := .stopAndStoreStatus }
     let t := shot [0xAE, 0x13, 0x00, 0x05] (fun s => gr 3 1 { s with others := [other] })
     t.cpu.psw.cc = 0 ∧ t.others = [other]) := by decide
theorem wit_MisalignedOperand :
    aligned (world.eaBD 0 0x802) 4 = false ∧ fetchable world 0 (world.eaBD 0 0x802) 64 ∧ storable world 0 (world.eaBD 0 0x802) 64 ∧
    aligned (world.eaBD 0 0x801) 2 = false ∧ storable world 0 (world.eaBD 0 0x801) 2 ∧ aligned (world.eaBD 0 0x804) 8 = false ∧
    fetchable world 0 (world.eaBD 0 0x804) 8 ∧ storable world 0 (world.eaBD 0 0x804) 8 ∧ aligned (world.ea 0 0 0x801) 2 = false ∧
    bitAt (world.cr 12) 31 = false ∧ fetchable world 0 (world.eaBD 0 0x802) 4 := by decide
theorem wit_MisalignedOperand_real :
    (let s := gr 3 0x802 world
     let real := truncMode s.cpu.psw.amode (s.gr 3)
     aligned real 4 = false ∧ s.accessFaults hostPrimaryTarget controlCheck false real 4 = [] ∧
     s.accessFaults hostPrimaryTarget controlCheck true real 4 = []) := by decide
theorem wit_AccessRegisterTranslation :
    (let s := arMode (ar 1 0x02000001 (ar 2 0x01000009 (ar 3 0x01000004 (ar 4 0x01000002 (ar 6 0x01000003 world)))))
     s.cpu.psw.arMode = true ∧ s.prefixAreaAssigned = true ∧ s.aletWf (s.ar 1) = false ∧ s.aletWf (s.ar 2) = true ∧
     (∀ e, e ∈ s.hal → ¬ (e.alet = s.ar 2 ∧ e.state ≠ .unused)) ∧ halEntry .revoked (s.ar 3) 0 .readOnly ∈ s.hal ∧
     halEntry .valid (s.ar 4) 0x101 .readWrite ∈ s.hal ∧ halEntry .valid (s.ar 6) 0x102 .readOnly ∈ s.hal ∧ s.ar 5 = 0) := by decide
theorem wit_ProtectionAndAddressing :
    (let s := cr 0 0x100000E0 world
     s.operandFaults operandCheck true 0 (s.ea 0 0 0x000) 4 ≠ [] ∧ (∀ x, x ∈ s.operandFaults operandCheck true 0 (s.ea 0 0 0x000) 4 → x.code = 4) ∧
     (gr 5 0x100000 s).operandFaults operandCheck true 5 ((gr 5 0x100000 s).ea 5 0 0) 4 ≠ [] ∧
     ∀ x, x ∈ (gr 5 0x100000 s).operandFaults operandCheck true 5 ((gr 5 0x100000 s).ea 5 0 0) 4 → x.code = 5) := by decide

/-- A machine check of each kind. -/
def repressed : MachineCheck :=
  { exigent := false, subclass := .channelReport, code := 0, damage := none, failing := none, lost := [] }

theorem wit_TurnOfACpu_machine_checks :
    (let s := { world with cpu := { world.cpu with machineChecks := [{ repressed with exigent := true }] } }
     let m := { world with channelReports := [repressed] }
     s.nextDraw.exigent = some { repressed with exigent := true } ∧ { repressed with exigent := true } ∈ s.cpu.machineChecks ∧ s.cpu.psw.machineCheck = false ∧
     (psw 0x000C000080000400 s).cpu.psw.machineCheck = true ∧ m.nextDraw.exigent = none ∧ m.nextDraw.repressible = none ∧
     (psw 0x000C000080000400 (cr 14 0xD2000000 m)).nextDraw.repressible = some repressed) := by decide
theorem wit_TurnOfACpu_interruptions :
    (let s := psw 0x0308000080000400 (cr 0 0x000000E0 (cr 6 0x80000000 world))
     let io : IoInterruption := { subclass := 0, subsystem := 1, parameter := 2 }
     ({ s with cpu := { s.cpu with interruptKey := true } } : State).nextDraw.externalEnabled = some .interruptKey ∧
     ({ s with cpu := { s.cpu with clockComparator := 1 }, pendingIo := [io] } : State).nextDraw.externalEnabled = none ∧
     ({ s with cpu := { s.cpu with clockComparator := 1 }, pendingIo := [io] } : State).nextDraw.ioEnabled = some io) := by decide
theorem wit_TurnOfACpu_rest :
    world.inputs = [] ∧ world.cpu.status = .operating ∧ world.cpu.psw.valid = true ∧ world.nextDraw.pending = none ∧
    world.cpu.restartPending = false ∧ world.cpu.stopRequest = .none ∧ (psw 0x000A000000000000 world).cpu.psw.disabledWait = true ∧
    (psw 0x030A000000000000 world).cpu.psw.disabledWait = false ∧ (psw 0x030A000000000000 world).cpu.psw.wait = true ∧
    State.reset.cpu.status = .stopped ∧ statusStorable world 0 ∧ ¬ statusStorable (world.updateSpace .hostPrimary (fun p => p.setReadOnly 0 true)) 0 ∧
    ({ world with cpu := { world.cpu with stopRequest := .stopAndStoreStatus } } : State).nextDraw.pending = none := by
  unfold statusStorable; decide
theorem wit_TurnOfACpu_invalid :
    (let s := psw 0x0008800080000400 world
     s.cpu.psw.valid = false ∧ s.prefixAreaAssigned = true ∧ (Psw.ofDWord (be64 (s.realBytes 104 8))).valid = false ∧
     (Psw.ofDWord (be64 ((at_ 104 (bytes64 startPsw.toDWord) s).realBytes 104 8))).valid = true) := by decide
theorem wit_TurnOfACpu_fetch :
    (let s := psw 0x0008000080100000 world
     let u (head : List Byte) := at_ 0xFFFFE head (psw 0x00080000800FFFFE world)
     let faults (s : State) (a : Addr) := s.accessFaults instructionTarget controlCheck false a 2
     aligned (psw 0x0008000080000401 world).cpu.psw.ia 2 = false ∧ (psw 0x4008000080000400 world).cpu.psw.per = true ∧
     bitAt ((cr 12 0x80000000 world).cr 12) 0 = true ∧ aligned s.cpu.psw.ia 2 = true ∧ s.cpu.psw.valid = true ∧ s.nextDraw.pending = none ∧
     faults s s.cpu.psw.ia ≠ [] ∧ faults (u [0x58, 0x31]) 0xFFFFE = [] ∧ faults (u [0x58, 0x31]) 0x100000 ≠ [] ∧ (u [0x58, 0x31]).cpu.staleBytes = [] ∧
     (decode (padded [0x58, 0x31])).toOption = some (.l 3 1 0 0) ∧ (decode (padded [0xB3, 0x00])).toOption = none ∧
     (u [0xB2, 0x04]).opcodeFaults false (.sck 0 0) = [.operation]) := by decide
theorem wit_Interruptions :
    (let h : HostSignal := { code := 0x4000, maskBit := .bit31, parameter := 5 }
     let s := psw 0x0308000080000400 (cr 0 0x0000F0E1 { world with serviceSignal := some 7, cpu := { world.cpu with
       malfunctionAlerts := [1, 2], emergencySignals := [3], externalCall := some 4, clockComparator := 0, cpuTimer := 0x8000000000000000,
       interruptKey := true, hostSignals := [h] } })
     s.prefixAreaAssigned = true ∧ externalPending s .interruptKey ∧ externalPending s (.malfunctionAlert 1) ∧ externalPending s (.emergencySignal 3) ∧
     externalPending s (.externalCall 4) ∧ externalPending s .clockComparator ∧ externalPending s .cpuTimer ∧
     externalPending s (.serviceSignal 7) ∧ externalPending s (.hostSignal h) ∧ bitAt s.cpu.psw.sysMask 7 = true ∧
     bitAt (s.cr 0) 25 = true ∧ bitAt (s.cr 0) 16 = true ∧ bitAt (s.cr 0) 20 = false ∧ bitAt (s.cr 0) 31 = true ∧
     s.externalEnabled = some .interruptKey) := by
  unfold externalPending; decide
theorem wit_Interruptions_machine_check :
    (let m : MachineCheck := { repressed with subclass := .warning, code := 0x80, failing := some (0x101, 0x1000), lost := [.generalRegisters] }
     let s := psw 0x000C000080000400 (cr 14 0xC3000000 { world with channelReports := [repressed], cpu := { world.cpu with machineChecks := [m] } })
     s.exigent = none ∧ s.repressible = some m ∧ m ∈ s.cpu.machineChecks ∧ repressed ∉ s.cpu.machineChecks ∧ repressed ∈ s.channelReports ∧
     bitAt (s.cr 14) (machineCheckMask .warning) = true ∧ bitAt (s.cr 14) (machineCheckMask .channelReport) = false ∧
     SavedEntity.accessRegisters ∉ m.lost ∧ m.failing ≠ none ∧ repressed.failing = none) := by decide

/-- by hand from R444, R466: a machine check of the host-primary space stores zeros for the ASIT; without a failing-storage address bit 24 is zero. -/
theorem test_machine_check :
    (let m : MachineCheck := { repressed with exigent := true, code := 0x0000008000000001, failing := some (1, 0x1234) }
     let f (m : MachineCheck) := shot [] (fun s => psw 0x000C000080000400 { s with cpu := { s.cpu with machineChecks := [m] } })
     hp 232 8 (f m) = [0, 0, 0, 0x80, 0, 0, 0, 1] ∧ hp 248 16 (f m) = [0, 0, 0x12, 0x34, 0, 0, 0, 0, 0, 0, 0, 0, 0, 0, 0, 0] ∧
     hp 232 8 (f { m with failing := none }) = [0, 0, 0, 0, 0, 0, 0, 1]) := by decide
theorem wit_StepRunsTheDecodedInstruction :
    (let s := at_ 0x400 [0x18, 0x12] world
     s.inputs = [] ∧ s.cpu.status = .operating ∧ s.cpu.psw.valid = true ∧ s.nextDraw.pending = none ∧ s.cpu.stopRequest = .none ∧
     s.cpu.psw.wait = false ∧ aligned s.cpu.psw.ia 2 = true ∧ s.cpu.psw.per = false ∧ bitAt (s.cr 12) 0 = false ∧ s.cpu.staleBytes = [] ∧
     s.accessFaults instructionTarget controlCheck false s.cpu.psw.ia 2 = [] ∧
     (decode ((s.addrs s.cpu.psw.ia 2).map (fun a => s.hp.byte (s.prefixed a)))).toOption = some (.lr 1 2) ∧
     (decode ((world.addrs world.cpu.psw.ia 2).map (fun a => world.hp.byte (world.prefixed a)))).toOption = none) := by decide
theorem wit_DecodeEncode : Instr.wf (.mvc 256 1 0 2 0) = true ∧ Instr.wf (.mvc 1 1 0 2 0) = true := by decide
theorem wit_invariants :
    storageCanonical world ∧ prefixAreasAssigned world ∧ betweenInstructions world ∧ ∃ t, step (at_ 0x400 [0x18, 0x12] world) = .next t := by
  refine ⟨?_, ?_, ?_, _, rfl⟩
  · unfold storageCanonical; decide
  · unfold prefixAreasAssigned; decide
  · unfold betweenInstructions; decide
theorem wit_CpusStaySound : ¬ Safety.setsPrefix { at_ 0x400 [0x18, 0x12] world with inputs := (at_ 0x400 [0x18, 0x12] world).inputs.tail }.nextDraw := by
  rintro ⟨i, u, h, (⟨b, d, rfl⟩ | ⟨r, x, b, d, rfl, _⟩)⟩
  · cases h
  · cases h
theorem wit_HostPageProtection :
    (let s := world.updateSpace (.data 0x101) (fun p => p.setReadOnly 3 true)
     s.services = [] ∧ (s.space (.data 0x101)).readOnly (blockOf 0x3000) = true ∧ ∃ t, exec (.lr 1 2) s = .next t) :=
  ⟨by decide, by decide, _, rfl⟩
theorem wit_HostPageProtection_host_primary :
    (let s := world.updateSpace .hostPrimary (fun p => p.setReadOnly 3 true)
     (s.space .hostPrimary).readOnly (blockOf 0x3FFF) = true ∧ ∃ t, exec (.lr 1 2) s = .next t ∧ blockOf 0x3FFF ≠ t.cpu.prefixReg) :=
  ⟨by decide, _, rfl, by decide⟩
theorem wit_ProblemState : (problem world).cpu.psw.problem = true ∧ ∃ t, exec (.lr 1 2) (problem world) = .next t := ⟨by decide, _, rfl⟩

end Sys2Proof.Tests
end

section
/-! DIAGNOSE (spec/43_modified_instructions_a.md R245): which case of the `HostService` parameter decides, what its moves and its ending leave of
the state, and the statement `Obligations.Diagnose`. -/

namespace Sys2Proof.Machine

open Sys2Proof.Safety

-- the case that decides

theorem regMatches_iff (asked : Option Reg) (r : Reg) : regMatches asked r = true ↔ asked = none ∨ asked = some r := by
  cases asked <;> simp [regMatches]

/-- The case is about the execution exactly where its code, its register numbers and all that it asks of the state agree. -/
theorem State.serviceApplies_iff (s : State) (code : Half) (rx ry : Reg) (v : HostService) :
    s.serviceApplies code rx ry v = true ↔
      v.code = code ∧ (v.rx = none ∨ v.rx = some rx) ∧ (v.ry = none ∨ v.ry = some ry) ∧ ∀ x, x ∈ v.tests → testHolds s x := by
  simp only [State.serviceApplies, Bool.and_eq_true, beq_iff_eq, regMatches_iff, List.all_eq_true, State.meets_iff, and_assoc]

theorem State.serviceFor_none (s : State) (code : Half) (rx ry : Reg) (h : ∀ v, v ∈ s.services → ¬ s.serviceApplies code rx ry v = true) :
    s.serviceFor code rx ry = none := by
  unfold State.serviceFor
  rw [List.find?_eq_none.mpr h]

/-- The first case that applies decides: its one outcome where that can occur, nothing otherwise. -/
theorem State.serviceFor_first (s : State) (code : Half) (rx ry : Reg) {before after : List HostService} {v : HostService} {o : ServiceOutcome}
    (hs : s.services = before ++ v :: after) (hb : ∀ x, x ∈ before → ¬ s.serviceApplies code rx ry x = true)
    (hv : s.serviceApplies code rx ry v = true) (ho : v.outcomes = [o]) :
    s.serviceFor code rx ry = if o.ending.possible = true then some o else none := by
  have hfirst : s.services.find? (s.serviceApplies code rx ry) = some v := by
    rw [hs, List.find?_append, List.find?_eq_none.mpr hb, List.find?_cons_of_pos hv]
    rfl
  unfold State.serviceFor
  rw [hfirst]
  by_cases hp : o.ending.possible = true <;> simp [ho, hp]

-- the instruction

theorem exec_diag_refused (s : State) (r1 r3 b2 : Reg) (d2 : Disp) (hsup : s.cpu.psw.problem = false)
    (hn : s.serviceFor (BitVec.ofNat 16 (s.eaBD b2 d2).toNat) r1 r3 = none) :
    exec (.diag r1 r3 b2 d2) s = .refused (.hostService (BitVec.ofNat 16 (s.eaBD b2 d2).toNat)) := by
  rw [BitVec.ofNat_toNat] at hn ⊢
  show execDiag r1 r3 b2 d2 s = _
  unfold execDiag
  rw [supervisorOnly_ok s 4 _ hsup, hn]

/-- DIAGNOSE with an outcome whose moves are all those of a service: the moves are made, and the ending follows. -/
theorem exec_diag_serves (s : State) (r1 r3 b2 : Reg) (d2 : Disp) (o : ServiceOutcome) (hsup : s.cpu.psw.problem = false)
    (ho : s.serviceFor (BitVec.ofNat 16 (s.eaBD b2 d2).toNat) r1 r3 = some o) (hm : o.moves.all Input.isService = true) :
    exec (.diag r1 r3 b2 d2) s = ((s.beginService o.ending).maySerialize.serve o.moves).endService (s.ilcOf 4) o.ending := by
  rw [BitVec.ofNat_toNat] at ho
  show execDiag r1 r3 b2 d2 s = _
  unfold execDiag
  rw [supervisorOnly_ok s 4 _ hsup, ho]
  dsimp only
  rw [List.filter_eq_self.mpr (List.all_eq_true.mp hm)]

-- the state in which a service begins

theorem State.maySerialize_cases (s : State) : s.maySerialize = s.serialize ∨ s.maySerialize = s := by
  unfold State.maySerialize
  split
  · exact .inl rfl
  · exact .inr rfl

theorem Advanced.maySerialize {s u : State} {n : Nat} (b : Advanced s u n) : Advanced s u.maySerialize n := by
  rcases u.maySerialize_cases with h | h
  · rw [h]; exact b.serialize
  · rw [h]; exact b

/-- The state in which a service that does not nullify DIAGNOSE makes its moves. -/
theorem Advanced.service (s : State) : Advanced s (s.advance 4).maySerialize 4 := (Advanced.start s 4).maySerialize

theorem Quiet.maySerialize (s : State) : Quiet s s.maySerialize := by
  rcases s.maySerialize_cases with h | h
  · rw [h]; exact (Quiet.refl s).serialize
  · rw [h]; exact Quiet.refl s

theorem Advanced.cfg {s u : State} {n : Nat} (b : Advanced s u n) : u.cfg = s.cfg := (congrArg State.cfg b.quiet.rest :)

theorem Advanced.others {s u : State} {n : Nat} (b : Advanced s u n) : u.others = s.others := (congrArg State.others b.quiet.rest :)

theorem Advanced.assigned {s u : State} {n : Nat} (b : Advanced s u n) (id : SpaceId) (k : Block) :
    (u.space id).assigned k = (s.space id).assigned k := frame_assigned s u b.quiet.rest id k

theorem Advanced.spaceOf {s u : State} {n : Nat} (b : Advanced s u n) (asit : DWord) : u.spaceOf asit = s.spaceOf asit := by
  unfold State.spaceOf
  rw [spaceFrame_asit _ _ (frame_hp s u b.quiet.rest)]

-- completion with a change outside the registers of an `Effect`

/-- Completion with the PSW, the registers of an `Effect` and storage as in the middle of the instruction, and a change elsewhere. -/
theorem Advanced.elsewhere {s u t : State} {n : Nat} {f : State → State} (b : Advanced s u n) (hp : t.cpu.psw = u.cpu.psw)
    (hg : t.cpu.gr = u.cpu.gr) (ha : t.cpu.ar = u.cpu.ar) (hc : t.cpu.cr = u.cpu.cr) (hs : ∀ id, t.space id = u.space id)
    (hf : frame t = f (frame u)) : completes (.next t) s { psw := pswNext s n } f := by
  refine ⟨t, rfl, hp.trans b.psw, registers_none (fun r => ?_) (fun r => ?_) (fun r => ?_), fun id a => ?_, fun id k => ?_, ?_⟩
  · rw [← b.gr r]; unfold State.gr; simp only [hg]
  · rw [← b.ar r]; unfold State.ar; simp only [ha]
  · rw [← b.cr r]; unfold State.cr; simp only [hc]
  · rw [hs]; exact b.quiet.bytes id a
  · rw [hs]; exact b.quiet.keys id k
  · rw [hf, b.quiet.rest]

theorem State.fprNumbers_contains_reg (s : State) (r : Reg) :
    s.fprNumbers.contains r.toNat = true ↔ s.cfg.fpExtInstalled = true ∨ r = 0 ∨ r = 2 ∨ r = 4 ∨ r = 6 := by
  rw [← BitVec.toFin_inj, ← BitVec.toFin_inj, ← BitVec.toFin_inj, ← BitVec.toFin_inj]
  exact s.fprNumbers_contains r.toFin

/-- A service that answers in a floating-point register which the CPU has (R26). -/
theorem Advanced.serviceFloat {s u : State} {n : Nat} (b : Advanced s u n) (r : Reg) (w : DWord)
    (hr : s.cfg.fpExtInstalled = true ∨ r = 0 ∨ r = 2 ∨ r = 4 ∨ r = 6) :
    completes (.next (u.setFpr r w)) s { psw := pswNext s n }
      (fun v => { v with cpu := { v.cpu with fpr := v.cpu.fpr.set r.toNat w r.isLt } }) := by
  refine b.elsewhere rfl rfl rfl rfl (State.setFpr_space u r w) ?_
  rw [← b.cfg, ← State.fprNumbers_contains_reg] at hr
  unfold State.setFpr
  rw [if_pos hr]
  rfl

/-- A service that sets `prefixReg`, to an assigned block (R82). -/
theorem Advanced.servicePrefix {s u : State} {n : Nat} (b : Advanced s u n) (k : Block) (hk : s.hp.assigned k = true) :
    completes (.next (u.servicePrefix k)) s { psw := pswNext s n } (fun v => { v with cpu := { v.cpu with prefixReg := k } }) := by
  have hu : u.hp.assigned k = true := (b.assigned .hostPrimary k).trans hk
  unfold State.servicePrefix
  rw [if_pos hu]
  exact b.elsewhere rfl rfl rfl rfl (State.setPrefix_space u k) rfl

theorem State.serviceTodProg_eq (s : State) (w : Half) :
    s.serviceTodProg w = { s with cpu := { s.cpu with todProg := if s.cfg.extTodInstalled = true then w else s.cpu.todProg } } := by
  unfold State.serviceTodProg
  split <;> rfl

/-- A service that sets the timers, the programmable field where the CPU has one (R56). -/
theorem Advanced.serviceTimers {s u : State} {n : Nat} (b : Advanced s u n) (c t : DWord) (w : Half) :
    completes (.next (((u.setComparator c).setTimer t).serviceTodProg w)) s { psw := pswNext s n }
      (fun v => { v with cpu := { v.cpu with clockComparator := c, cpuTimer := t,
                                             todProg := if s.cfg.extTodInstalled = true then w else v.cpu.todProg } }) := by
  rw [State.serviceTodProg_eq, ← b.cfg]
  exact b.elsewhere rfl rfl rfl rfl (fun id => by cases id <;> rfl) rfl

/-- A service that replaces the floating interruption conditions. -/
theorem Advanced.serviceFloating {s u : State} {n : Nat} (b : Advanced s u n) (io : List IoInterruption) (signal : Option Word)
    (reports : List MachineCheck) :
    completes (.next { u with pendingIo := io, serviceSignal := signal, channelReports := reports }) s { psw := pswNext s n }
      (fun v => { v with pendingIo := io, serviceSignal := signal, channelReports := reports }) :=
  b.elsewhere rfl rfl rfl rfl (fun id => by cases id <;> rfl) rfl

/-- A service that leaves another CPU as given. -/
theorem Advanced.serviceCpu_other {s u : State} {n : Nat} (b : Advanced s u n) (c : Cpu) (hk : s.hp.assigned c.prefixReg = true)
    (ha : c.address ≠ s.cpu.address) :
    completes (.next (u.serviceCpu c)) s { psw := pswNext s n } (fun v => { v with others := v.others.map (fun x =>
      if x.address = c.address then s.servedCpu c x else x) }) := by
  have haddr : u.cpu.address = s.cpu.address := (congrArg Cpu.address (frame_cpu s u b.quiet.rest) :)
  have hserved : ∀ x, u.servedCpu c x = s.servedCpu c x := fun x => by rw [State.servedCpu_eq, State.servedCpu_eq, b.cfg]
  rw [State.serviceCpu_other u c ((b.assigned .hostPrimary _).trans hk) (haddr ▸ ha)]
  refine b.elsewhere rfl rfl rfl rfl (fun id => by cases id <;> rfl) ?_
  simp only [hserved]
  rfl

/-- A service that leaves the executing CPU as given: all of it but what the model keeps for itself. -/
theorem Advanced.serviceCpu_executing {s u : State} {n : Nat} (b : Advanced s u n) (c : Cpu) (hk : s.hp.assigned c.prefixReg = true)
    (ha : c.address = s.cpu.address) :
    sameCpu (u.serviceCpu c).cpu (s.servedCpu c s.cpu) ∧ (u.serviceCpu c).cpu.exTarget = s.cpu.exTarget ∧ bytesKept s (u.serviceCpu c) ∧
      keysKept s (u.serviceCpu c) ∧ frame { u.serviceCpu c with cpu := s.cpu } = frame s := by
  have hcpu : cpuFrame u.cpu = cpuFrame s.cpu := frame_cpu s u b.quiet.rest
  have hfpr : u.cpu.fpr = s.cpu.fpr := (congrArg Cpu.fpr hcpu :)
  have htod : u.cpu.todProg = s.cpu.todProg := (congrArg Cpu.todProg hcpu :)
  have haddr : u.cpu.address = s.cpu.address := (congrArg Cpu.address hcpu :)
  rw [State.serviceCpu_executing u c ((b.assigned .hostPrimary _).trans hk) (ha.trans haddr.symm)]
  have hspace : ∀ id, ({ u with cpu := u.servedCpu c u.cpu } : State).space id = u.space id := fun id => by cases id <;> rfl
  refine ⟨?_, b.target, fun id a => ?_, fun id k => ?_, ?_⟩
  · unfold sameCpu
    simp only [State.servedCpu_eq, b.cfg, hfpr, htod]
  · rw [hspace]; exact b.quiet.bytes id a
  · rw [hspace]; exact b.quiet.keys id k
  · exact congrArg (fun v : State => { v with cpu := cpuFrame s.cpu }) b.quiet.rest

-- storage and storage keys

/-- A service that sets a storage key. -/
theorem Advanced.serviceKey {s u : State} {n : Nat} (b : Advanced s u n) (hs : ∀ id, u.space id = s.space id) (asit : DWord) (k : Block)
    (v : BitVec 7) (hk : (s.space (s.spaceOf asit)).assigned k = true) :
    ∃ t, Host.Outcome.next (u.onBlock asit k (fun p => p.setKey k v)) = (Host.Outcome.next t : Out) ∧ t.cpu.psw = pswNext s n ∧
      (Effect.mk s.cpu.psw [] [] []).onRegisters s t ∧ bytesKept s t ∧ frame t = frame s ∧
      ∀ i x, (t.space i).key x = if i = s.spaceOf asit ∧ x = k then v else (s.space i).key x := by
  have hu : (u.space (s.spaceOf asit)).assigned k = true := (b.assigned _ k).trans hk
  obtain ⟨hkey, hbytes, hframe⟩ := State.setKey_sets u (s.spaceOf asit) k v (State.knows_of_assigned u _ k hu)
  unfold State.onBlock
  simp only [b.spaceOf, if_pos hu]
  refine ⟨_, rfl, ?_, registers_none (fun r => ?_) (fun r => ?_) (fun r => ?_), bytesKept_trans b.quiet.bytes hbytes,
    hframe.trans b.quiet.rest, fun i x => by rw [hkey, hs]⟩
  · rw [State.updateSpace_cpu, b.psw]
  · rw [State.updateSpace_gr, b.gr]
  · rw [State.updateSpace_ar, b.ar]
  · rw [State.updateSpace_cr, b.cr]

/-- A service that stores a byte: in the host-primary space every other CPU may still fetch the old one (R166, log entry 18). -/
theorem Advanced.serviceStore {s u : State} {n : Nat} (b : Advanced s u n) (asit : DWord) (a : Addr) (w : Byte)
    (ha : (s.space (s.spaceOf asit)).assigned (blockOf a) = true) :
    completesStore (.next (u.serviceStore asit a w)) s { psw := pswNext s n } (s.spaceOf asit) [(a, w)] (fun v =>
      if s.spaceOf asit = .hostPrimary then
        { v with others := v.others.map (fun x => { x with staleBytes := (a.toNat, s.hp.byte a) :: x.staleBytes }) }
      else v) := by
  have hu : (u.space (s.spaceOf asit)).assigned (blockOf a) = true := (b.assigned _ _).trans ha
  have hknows := State.knows_of_assigned u _ _ hu
  obtain ⟨hbyte, hkeys, hrec, ⟨l, hcpu⟩, hframe⟩ := State.agentStore_stores u (s.spaceOf asit) a w
  have hstore : u.serviceStore asit a w = u.agentStore (s.spaceOf asit) a w := by
    unfold State.serviceStore
    simp only [b.spaceOf, if_pos hu]
  rw [hstore]
  refine ⟨_, rfl, ?_, registers_none (fun r => ?_) (fun r => ?_) (fun r => ?_), fun i x => ?_, keysKept_trans b.quiet.keys hkeys, ?_, ?_⟩
  · rw [hcpu]; exact b.psw
  · rw [← b.gr r]; unfold State.gr; simp only [hcpu]
  · rw [← b.ar r]; unfold State.ar; simp only [hcpu]
  · rw [← b.cr r]; unfold State.cr; simp only [hcpu]
  · rw [hbyte, b.quiet.bytes]
    by_cases hi : i = s.spaceOf asit <;> simp [hi, hknows, withCells]
  · rw [hframe]
    split
    · have hold : u.hp.byte a = s.hp.byte a := b.quiet.bytes .hostPrimary a
      rw [State.noteForeignStore_frame, b.quiet.rest, b.others, hold]
      rfl
    · exact b.quiet.rest
  · intro c hc
    rw [List.mem_singleton.mp hc]
    exact hrec hknows

-- the endings with an exception

theorem State.endService_exception (u : State) (ilc : Nat) (k : Half) (nullified : Bool) (alet : Option Word) :
    u.endService ilc (.exception k nullified alet) = u.programInterruption k ilc (u.serviceStores k alet) := rfl

/-- An exception of a service that stores no field of its own. -/
theorem Advanced.serviceException {s u : State} (b : Advanced s u 4) (k : Half) (hk : k ≠ 4) (ha : s.prefixAreaAssigned = true) :
    suppresses (u.endService (s.ilcOf 4) (.exception k false none)) s 4 k := by
  have hstores : u.serviceStores k none = [] := if_neg hk
  rw [State.endService_exception, hstores]
  exact programInterruption_enters k _ ha b.quiet ⟨b.gr, b.ar, b.cr⟩ b.psw

/-- A protection exception of a service, with the fields of R412. -/
theorem Advanced.serviceProtection {s u : State} (b : Advanced s u 4) (ha : s.prefixAreaAssigned = true) :
    ∃ w x, entersProgram (u.endService (s.ilcOf 4) (.exception 4 false none)) s { psw := pswNext s 4 } 4 (s.ilcOf 4)
      [(144, bytes32 w), (160, [x])] :=
  ⟨_, _, programInterruption_protection 4 _ _ _ ha b.quiet ⟨b.gr, b.ar, b.cr⟩ b.psw⟩

/-- An exception of a service that stores an ALET (R409, R410), the PSW being that of DIAGNOSE or of the next instruction. -/
theorem Quiet.serviceAlet {s u : State} {p : Psw} (hq : Quiet s u) (hr : (Effect.mk p [] [] []).onRegisters s u) (hp : u.cpu.psw = p) (k : Half)
    (nullified : Bool) (a : Word) (ha : s.prefixAreaAssigned = true) :
    entersProgram (u.endService (s.ilcOf 4) (.exception k nullified (some a))) s { psw := p } k (s.ilcOf 4)
      [(168, bytes32 a), (160, [0])] :=
  programInterruption_alet k _ _ _ ha hq hr hp

/-- A service that loads a valid PSW. -/
theorem Advanced.servicePsw {s u : State} {n : Nat} (b : Advanced s u n) (ilc : Nat) (p : Psw) (hp : p.valid = true) :
    completes (u.endService ilc (.loadsPsw p.toDWord)) s { psw := p } := by
  have hload : u.endService ilc (.loadsPsw p.toDWord) = .next (u.setPsw p) := by
    show u.enterPsw (Psw.ofDWord p.toDWord) 0 = _
    unfold State.enterPsw
    rw [psw_ofDWord_toDWord, if_pos hp]
  rw [hload]
  exact b.newPsw rfl

-- the statement

/-- Settles O43: the first case that is about the execution gives the outcome (`State.serviceFor_first`), its moves are made from the state of
`Advanced.service`, and each kind of outcome has its lemma above. -/
theorem diagnose : Obligations.Diagnose := by
  unfold Obligations.Diagnose
  intro s r1 r3 b2 d2 hsup code about leaves run
  have happly (v : HostService) : s.serviceApplies code r1 r3 v = true ↔ about v := s.serviceApplies_iff code r1 r3 v
  have hleaves (c old : Cpu) : leaves c old = s.servedCpu c old := (s.servedCpu_eq c old).symm
  refine ⟨fun before v after o hs hb hv ho => ?_, fun h => ?_⟩
  · have hfor := s.serviceFor_first code r1 r3 hs (fun x hx h => hb x hx ((happly x).mp h)) ((happly v).mpr hv) ho
    have hrun {moves : List Input} {e : ServiceEnding} (heq : o = { moves := moves, ending := e }) (hm : moves.all Input.isService = true)
        (he : e.possible = true) : run = ((s.beginService e).maySerialize.serve moves).endService (s.ilcOf 4) e := by
      subst heq
      exact exec_diag_serves s r1 r3 b2 d2 _ hsup (hfor.trans (if_pos he)) hm
    have hu := Advanced.service s
    have hspace (id : SpaceId) : (s.advance 4).maySerialize.space id = s.space id := by cases id <;> rfl
    refine ⟨fun r w c h => ?_, fun r w h => ?_, fun asit a w h ha => ?_, fun r w h hr => ?_, fun b h hb => ?_, fun a b w h => ?_,
      fun asit b k h hb => ?_, fun c h hc => ⟨fun hne => ?_, fun heq => ?_⟩, fun io signal reports h => ?_, fun k h hk h4 ha => ?_, fun h ha => ?_,
      fun a h ha => ?_, fun a h ha => ?_, fun k n al h hk => ?_, fun p h hp => ?_⟩
    · rw [hrun h rfl rfl]
      exact hu.oneCc rfl rfl
    · rw [hrun h rfl rfl]
      exact hu.severalArs [(r, w)] (List.nodup_cons.mpr ⟨List.not_mem_nil, List.nodup_nil⟩)
    · rw [hrun h rfl rfl]
      exact hu.serviceStore asit a w ha
    · rw [hrun h rfl rfl]
      exact hu.serviceFloat r w hr
    · rw [hrun h rfl rfl]
      exact hu.servicePrefix b hb
    · rw [hrun h rfl rfl]
      exact hu.serviceTimers a b w
    · rw [hrun h rfl rfl]
      exact hu.serviceKey hspace asit b k hb
    · rw [hrun h rfl rfl]
      simp only [hleaves]
      exact hu.serviceCpu_other c hc hne
    · rw [hrun h rfl rfl, hleaves]
      exact ⟨_, rfl, hu.serviceCpu_executing c hc heq⟩
    · rw [hrun h rfl rfl]
      exact hu.serviceFloating io signal reports
    · rw [hrun h rfl ((ServiceEnding.possible_exception k false none).mpr hk)]
      exact hu.serviceException k h4 ha
    · rw [hrun h rfl rfl]
      exact hu.serviceProtection ha
    · rw [hrun h rfl rfl]
      exact (Quiet.maySerialize s).serviceAlet ⟨fun _ => rfl, fun _ => rfl, fun _ => rfl⟩ rfl 0x29 true a ha
    · rw [hrun h rfl rfl]
      exact hu.quiet.serviceAlet ⟨hu.gr, hu.ar, hu.cr⟩ hu.psw 0x136 false a ha
    · refine exec_diag_refused s r1 r3 b2 d2 hsup (hfor.trans (if_neg ?_))
      rwa [h, ServiceEnding.possible_exception]
    · rw [hrun h rfl rfl]
      exact hu.servicePsw _ p hp
  · exact exec_diag_refused s r1 r3 b2 d2 hsup (s.serviceFor_none code r1 r3 fun v hv ha => h v hv ((happly v).mp ha))

end Sys2Proof.Machine
end

section
/-! Access registers (spec/41_access_register_instructions.md R210 to R213, spec/43_modified_instructions_a.md R246): completion with an access
register replaced, the ALET of a base register, and the statement `Obligations.AccessRegisterMoves`. -/

namespace Sys2Proof.Machine

open Sys2Proof.Safety

-- completion

/-- Completion with one access register replaced. -/
theorem Advanced.oneAr {s u : State} {n : Nat} (b : Advanced s u n) (r1 : Reg) (v : Word) :
    completes (.next (u.setAr r1 v)) s { psw := pswNext s n, ars := [(r1, v)] } :=
  b.severalArs [(r1, v)] (List.nodup_cons.mpr ⟨List.not_mem_nil, List.nodup_nil⟩)

/-- Completion with one general register and one access register replaced. -/
theorem Advanced.oneGrAr {s u : State} {n : Nat} (b : Advanced s u n) (r1 r2 : Reg) (v w : Word) :
    completes (.next ((u.setGr r1 v).setAr r2 w)) s { psw := pswNext s n, grs := [(r1, v)], ars := [(r2, w)] } := by
  refine completes_of b.psw ⟨fun r => ?_, fun r => ?_, fun r => ?_⟩ ((b.quiet.setGr r1 v).setAr r2 w)
  · rw [State.setAr_gr, State.gr_setGr, b.gr]; rfl
  · rw [State.ar_setAr, State.setGr_ar, b.ar]; rfl
  · rw [State.setAr_cr, State.setGr_cr, b.cr]; rfl

-- LOAD ADDRESS EXTENDED

/-- The table of R213: the ALET of the base register in the access-register mode, zero for B field zero or in the primary-space mode. -/
theorem State.aletFor_inMode (s : State) (b : Reg) :
    (if s.cpu.psw.arMode then s.aletFor b else 0) = if s.cpu.psw.arMode = true ∧ b ≠ 0 then s.ar b else 0 := by
  unfold State.aletFor
  cases s.cpu.psw.arMode with
  | false => simp
  | true => by_cases hb : b = 0 <;> simp [hb]

/-- Where the ALET to load is zero or correctly formed, D16 leaves no choice. -/
theorem execLae_table (r1 x2 b2 : Reg) (d2 : Disp) (s : State) {v : Word} (hv : (if s.cpu.psw.arMode then s.aletFor b2 else 0) = v)
    (h : v = 0 ∨ s.aletWf v = true) :
    execLae r1 x2 b2 d2 s = .next (((s.advance 4).setGr r1 ((s.ea b2 x2 d2).setWidth 32)).setAr r1 v) := by
  have hno : ¬ (v ≠ 0 ∧ s.aletWf v = false ∧ coin (s.draw .either) = true) := by
    rintro ⟨hne, hill, -⟩
    rcases h with h | h
    · exact hne h
    · simp [h] at hill
  unfold execLae
  rw [hv]
  exact if_neg hno

-- the statement

/-- Settles O27: CPYA, EAR, SAR and IAC have one outcome, which is one of the completions of `Advanced`; so has LAE where the ALET it loads is
zero or correctly formed (`execLae_table`). -/
theorem accessRegisterMoves : Obligations.AccessRegisterMoves := by
  unfold Obligations.AccessRegisterMoves
  intro s r1 r2 x2 b2 d2 v
  have hu : Advanced s (s.advance 4) 4 := Advanced.start s 4
  refine ⟨hu.oneAr r1 (s.ar r2), hu.one rfl, hu.oneAr r1 (s.gr r2), fun hv => ?_, hu.oneCc rfl rfl⟩
  show completes (execLae r1 x2 b2 d2 s) s _
  rw [execLae_table r1 x2 b2 d2 s (s.aletFor_inMode b2) hv]
  exact hu.oneGrAr r1 r1 _ v

end Sys2Proof.Machine
end

section
/-! Instructions that are not provided (spec/42_not_provided.md R220 to R240): the common behaviour R238, that of TRAP2 and TRAP4 (R239, R240),
and the statement `Obligations.NotProvided`. -/

namespace Sys2Proof.Machine

open Sys2Proof.Safety

/-- R238: the operation exception suppresses, with no condition on the state but an assigned prefix area. -/
theorem notProvided_suppresses (s : State) (ha : s.prefixAreaAssigned = true) (len : Nat) : suppresses (s.notProvided len) s len 1 :=
  takeException_suppresses s len {} .operation rfl ha

/-- R239 (D10): whichever of the two exceptions the environment picks, it suppresses. -/
theorem trapException_suppresses (s : State) (ha : s.prefixAreaAssigned = true) (len : Nat) :
    suppresses (s.trapException len) s len 1 ∨ suppresses (s.trapException len) s len 0x13 := by
  unfold State.trapException
  by_cases hpick : coin (s.draw .either) = true
  · rw [if_pos hpick]
    exact .inl (takeException_suppresses s len {} .operation rfl ha)
  · rw [if_neg hpick]
    exact .inr (takeException_suppresses s len {} .specialOperation rfl ha)

/-- Settles O32: the arm of each of the eighteen instructions is the common behaviour at the length of its format, and that of TRAP2 and of TRAP4
is the choice of D10; none of them looks at an operand or at the state. -/
theorem notProvided : Obligations.NotProvided := by
  unfold Obligations.NotProvided
  intro s r1 r2 r3 x2 b1 b2 d1 d2 ha
  have e : suppresses (s.notProvided 2) s 2 1 := notProvided_suppresses s ha 2
  have rre_s_rx : suppresses (s.notProvided 4) s 4 1 := notProvided_suppresses s ha 4
  have ss_sse : suppresses (s.notProvided 6) s 6 1 := notProvided_suppresses s ha 6
  exact ⟨rre_s_rx, rre_s_rx, rre_s_rx, rre_s_rx, rre_s_rx, rre_s_rx, rre_s_rx, ss_sse, rre_s_rx, rre_s_rx, ss_sse, rre_s_rx, ss_sse, e,
    rre_s_rx, rre_s_rx, rre_s_rx, rre_s_rx, trapException_suppresses s ha 2, trapException_suppresses s ha 4⟩

end Sys2Proof.Machine
end

section
/-! What the instructions of the base subset compute, as numbers (spec/45_base_subset.md R296, R304, R321 to R326, R350 to R357, R366), and the
addresses and links of branches (R178, R360). -/

namespace Sys2Proof.Machine

open Sys2Proof.Safety

-- signed and unsigned arithmetic

theorem word_eq_zero_iff (v : Word) : v = 0 ↔ v.toInt = 0 := BitVec.toInt_inj.symm

theorem word_sub_eq_zero_iff (a b : Word) : a - b = 0 ↔ a.toNat = b.toNat := by
  have ha := a.isLt
  have hb := b.isLt
  rw [← BitVec.toNat_inj, BitVec.toNat_sub]
  show _ = 0 ↔ _
  omega

/-- LOAD NEGATIVE (R304): the complement of the absolute value, which always fits. -/
theorem negative_eq_ofInt (v : Word) : (if v.msb then v else 0 - v) = BitVec.ofInt 32 (-(v.toInt.natAbs : Int)) := by
  rw [BitVec.msb_eq_toInt, sub_eq_ofInt, zero_toInt]
  by_cases h : v.toInt < 0
  · rw [if_pos (decide_eq_true h), Int.ofNat_natAbs_of_nonpos (Int.le_of_lt h), Int.neg_neg, BitVec.ofInt_toInt]
  · rw [if_neg (fun e => h (of_decide_eq_true e)), Int.natAbs_of_nonneg (Int.not_lt.mp h), Int.zero_sub]

theorem negative_eq_zero_iff (v : Word) : BitVec.ofInt 32 (-(v.toInt.natAbs : Int)) = 0 ↔ v = 0 := by
  have hv := word_toInt_bounds v
  rw [word_eq_zero_iff, word_eq_zero_iff, toInt_ofInt_word _ (by omega)]
  omega

/-- A difference of unsigned words, modulo 2^32 (R323). -/
theorem sub_eq_ofInt_toNat (a b : Word) : a - b = BitVec.ofInt 32 ((a.toNat : Int) - b.toNat) := by
  rw [Int.sub_eq_add_neg, BitVec.ofInt_add, BitVec.ofInt_neg, BitVec.ofInt_natCast, BitVec.ofInt_natCast, BitVec.ofNat_toNat,
    BitVec.ofNat_toNat, BitVec.setWidth_eq, BitVec.setWidth_eq, ← BitVec.sub_eq_add_neg]

/-- The condition code of logical addition (R296): whether the sum has a carry, and whether its last 32 bits are zero. -/
theorem ccCarry_add (a b : Word) : ccCarry (carryAdd a b) (a + b) =
    (if 2 ^ 32 ≤ a.toNat + b.toNat then 2 else 0) + (if (a.toNat + b.toNat) % 2 ^ 32 = 0 then 0 else 1) := by
  have hzero : a + b = 0 ↔ (a.toNat + b.toNat) % 2 ^ 32 = 0 := by
    rw [← BitVec.toNat_inj, BitVec.toNat_add]
    rfl
  simp only [ccCarry, carryAdd, decide_eq_true_eq, hzero]

/-- There is a carry, that is no borrow, exactly where the first operand is not the lower one (R323). -/
theorem carrySub_iff (a b : Word) : carrySub a b = true ↔ b.toNat ≤ a.toNat := by
  have hb := b.isLt
  rw [carrySub, decide_eq_true_eq, BitVec.toNat_not]
  omega

/-- The condition code of logical subtraction (R323), as the order of the operands. -/
theorem ccCarry_sub (a b : Word) : ccCarry (carrySub a b) (a - b) =
    if a.toNat < b.toNat then 1 else if a.toNat = b.toNat then 2 else 3 := by
  simp only [ccCarry, carrySub_iff, word_sub_eq_zero_iff]
  rcases Nat.lt_trichotomy a.toNat b.toNat with h | h | h
  · rw [if_neg (by omega), if_neg (by omega), if_pos h]; rfl
  · rw [if_pos (by omega), if_pos h, if_neg (by omega), if_pos h]; rfl
  · rw [if_pos (by omega), if_neg (by omega), if_neg (by omega), if_neg (by omega)]; rfl

/-- The product of two words fits a doubleword (R325). -/
theorem productS_toInt (a b : Word) : (productS a b).toInt = a.toInt * b.toInt := by
  have ha := word_toInt_bounds a
  have hb := word_toInt_bounds b
  have habs : (a.toInt * b.toInt).natAbs ≤ 2 ^ 31 * 2 ^ 31 := by
    rw [Int.natAbs_mul]
    exact Nat.mul_le_mul (by omega) (by omega)
  exact toInt_ofInt_dword _ (by omega)

theorem cmpS_eq (a b : Word) : cmpS a b = orderCc a.toInt b.toInt := rfl

theorem cmpL_eq (a b : Nat) : cmpL a b = orderCc a b := by
  unfold cmpL orderCc
  simp only [Int.natCast_inj, Int.ofNat_lt]

/-- A count reduced by one is zero exactly where it was one (R366). -/
theorem sub_one_ne_zero_iff (v : Word) : (v - 1 != 0) = true ↔ v.toNat ≠ 1 := by
  rw [bne_iff_ne, ne_eq, word_sub_eq_zero_iff]
  rfl

-- shifts

theorem two_pow_cast (k : Nat) : ((2 ^ k : Nat) : Int) = 2 ^ k := Int.natCast_pow 2 k

theorem shiftLeft_eq_ofNat {w : Nat} (v : BitVec w) (n : Nat) : v <<< n = BitVec.ofNat w (v.toNat * 2 ^ n) := by
  apply BitVec.eq_of_toNat_eq
  rw [BitVec.toNat_shiftLeft, BitVec.toNat_ofNat, Nat.shiftLeft_eq]

theorem ushiftRight_eq_ofNat {w : Nat} (v : BitVec w) (n : Nat) : v >>> n = BitVec.ofNat w (v.toNat / 2 ^ n) := by
  rw [← Nat.shiftRight_eq_div_pow, ← BitVec.toNat_ushiftRight, BitVec.ofNat_toNat, BitVec.setWidth_eq]

theorem sshiftRight_toInt {w : Nat} (v : BitVec w) (n : Nat) : (v.sshiftRight n).toInt = v.toInt / 2 ^ n := by
  rw [BitVec.toInt_sshiftRight, Int.shiftRight_eq_div_pow, two_pow_cast]

theorem sshiftRight_eq_ofInt {w : Nat} (v : BitVec w) (n : Nat) : v.sshiftRight n = BitVec.ofInt w (v.toInt / 2 ^ n) := by
  rw [← sshiftRight_toInt, BitVec.ofInt_toInt]

theorem ccSign_sshiftRight {w : Nat} (v : BitVec w) (n : Nat) : ccSign (v.sshiftRight n) = signCc (v.toInt / 2 ^ n) := by
  rw [ccSign_eq, sshiftRight_toInt]

/-- The numeric part of a signed operand: all its bits but the sign. -/
theorem toInt_eq_numeric (w : Nat) (v : BitVec (1 + w)) : v.toInt = (v.toNat % 2 ^ w : Nat) - (if v.msb then 2 ^ w else 0) := by
  have hlt := v.isLt
  rw [BitVec.toInt_eq_msb_cond, BitVec.msb_eq_decide, Nat.add_sub_cancel_left, ← two_pow_cast w]
  rw [Nat.pow_add, Nat.pow_one] at hlt ⊢
  by_cases h : 2 ^ w ≤ v.toNat
  · rw [if_pos (decide_eq_true h), if_pos (decide_eq_true h), Nat.mod_eq_sub_mod h, Nat.mod_eq_of_lt (by omega)]
    omega
  · rw [if_neg (fun e => h (of_decide_eq_true e)), if_neg (fun e => h (of_decide_eq_true e)), Nat.mod_eq_of_lt (by omega), Int.sub_zero]

theorem toInt_mul_pow_eq_numeric (w : Nat) (v : BitVec (1 + w)) (n : Nat) :
    v.toInt * 2 ^ n = (v.toNat % 2 ^ w * 2 ^ n : Nat) - 2 ^ w * (if v.msb then 2 ^ n else 0) := by
  rw [toInt_eq_numeric, Int.sub_mul, Int.natCast_mul, two_pow_cast]
  cases v.msb with
  | false => rw [if_neg Bool.false_ne_true, if_neg Bool.false_ne_true, Int.zero_mul, Int.mul_zero]
  | true => rw [if_pos rfl, if_pos rfl]

/-- SLA and SLDA (R352, R356): the sign bit stays, and the numeric part is that of the product. -/
theorem shiftLeftS_value (w : Nat) (v : BitVec (1 + w)) (n : Nat) :
    (shiftLeftS v n).1 = BitVec.ofBool v.msb ++ BitVec.ofInt w (v.toInt * 2 ^ n) := by
  have hnum : (BitVec.ofInt w (v.toInt * 2 ^ n)).toNat = v.toNat % 2 ^ w * 2 ^ n % 2 ^ w := by
    rw [BitVec.toNat_ofInt, toInt_mul_pow_eq_numeric w, ← two_pow_cast w, Int.sub_mul_emod_self_left, ← Int.natCast_emod, Int.toNat_natCast]
  have hlt := Nat.mod_lt (v.toNat % 2 ^ w * 2 ^ n) (Nat.two_pow_pos w)
  apply BitVec.eq_of_toNat_eq
  rw [BitVec.toNat_append, hnum, ← Nat.shiftLeft_add_eq_or_of_lt hlt, Nat.shiftLeft_eq, BitVec.toNat_ofBool]
  unfold shiftLeftS
  simp only [BitVec.toNat_ofNat, Nat.add_sub_cancel_left]
  have hpow : 2 ^ (1 + w) = 2 * 2 ^ w := by rw [Nat.pow_add, Nat.pow_one]
  cases v.msb with
  | false =>
    rw [if_neg Bool.false_ne_true, Nat.mod_eq_of_lt (by omega), Bool.toNat_false, Nat.zero_mul, Nat.zero_add, Nat.add_zero]
  | true =>
    rw [if_pos rfl, Nat.mod_eq_of_lt (by omega), Bool.toNat_true, Nat.one_mul, Nat.add_comm]

/-- A bit shifted out differs from the sign exactly where the product does not fit the operand (R352, R356). -/
theorem shiftLeftS_overflow (w : Nat) (v : BitVec (1 + w)) (n : Nat) :
    (shiftLeftS v n).2 = decide (¬ (-(2 ^ w) ≤ v.toInt * 2 ^ n ∧ v.toInt * 2 ^ n < 2 ^ w)) := by
  have hm := Nat.mod_lt v.toNat (Nat.two_pow_pos w)
  have hx : v.toNat % 2 ^ w * 2 ^ n < 2 ^ w * 2 ^ n := Nat.mul_lt_mul_of_pos_right hm (Nat.two_pow_pos n)
  rw [toInt_mul_pow_eq_numeric]
  unfold shiftLeftS
  simp only [Nat.add_sub_cancel_left]
  generalize v.toNat % 2 ^ w * 2 ^ n = x at hx
  rw [Bool.eq_iff_iff, bne_iff_ne, decide_eq_true_eq, ← two_pow_cast w, ← two_pow_cast n]
  refine not_congr ?_
  have hp := Nat.two_pow_pos w
  cases v.msb with
  | false =>
    rw [if_neg Bool.false_ne_true, if_neg Bool.false_ne_true, Nat.div_eq_zero_iff_lt hp]
    omega
  | true =>
    obtain ⟨k, hk⟩ := Nat.exists_eq_succ_of_ne_zero (Nat.ne_of_gt (Nat.two_pow_pos n))
    rw [hk, Nat.mul_succ] at hx
    rw [if_pos rfl, if_pos rfl, hk, Nat.succ_sub_one, Nat.div_eq_iff hp, Nat.mul_comm k, ← Int.natCast_mul, Nat.mul_succ]
    omega

theorem shiftLeftS_overflow_fits (w : Nat) (v : BitVec (1 + w)) (n : Nat) (h : -(2 ^ w) ≤ v.toInt * 2 ^ n ∧ v.toInt * 2 ^ n < 2 ^ w) :
    (shiftLeftS v n).2 = false := by
  rw [shiftLeftS_overflow, decide_eq_false (not_not_intro h)]

theorem toInt_ofInt_succ (w : Nat) (x : Int) (h : -(2 ^ w) ≤ x ∧ x < 2 ^ w) : (BitVec.ofInt (1 + w) x).toInt = x :=
  BitVec.toInt_ofInt_eq_self (by omega) (by rw [Nat.add_sub_cancel_left]; exact h.1) (by rw [Nat.add_sub_cancel_left]; exact h.2)

/-- A number that fits the operand consists of its sign and its numeric part. -/
theorem sign_append_numeric (w : Nat) (x : Int) (h : -(2 ^ w) ≤ x ∧ x < 2 ^ w) :
    BitVec.ofBool (decide (x < 0)) ++ BitVec.ofInt w x = BitVec.ofInt (1 + w) x := by
  have hp : (0 : Int) < 2 ^ w := Int.pow_pos (by decide)
  apply BitVec.eq_of_toInt_eq
  rw [toInt_ofInt_succ w x h, BitVec.toInt_append, BitVec.toNat_ofInt, two_pow_cast]
  rw [if_neg (by decide), Int.toNat_of_nonneg (Int.emod_nonneg _ (Int.ne_of_gt hp))]
  by_cases hx : x < 0
  · rw [decide_eq_true hx, ← Int.add_emod_right, Int.emod_eq_of_lt (by omega) (by omega), show (BitVec.ofBool true).toInt = -1 from rfl]
    omega
  · rw [decide_eq_false hx, Int.emod_eq_of_lt (by omega) h.2, show (BitVec.ofBool false).toInt = 0 from rfl, Int.mul_zero, Int.zero_add]

/-- Where the product fits the operand, the arithmetic left shift is the product. -/
theorem shiftLeftS_value_fits (w : Nat) (v : BitVec (1 + w)) (n : Nat) (h : -(2 ^ w) ≤ v.toInt * 2 ^ n ∧ v.toInt * 2 ^ n < 2 ^ w) :
    (shiftLeftS v n).1 = BitVec.ofInt (1 + w) (v.toInt * 2 ^ n) := by
  have hsign : v.msb = decide (v.toInt * 2 ^ n < 0) := by
    rw [BitVec.msb_eq_toInt, decide_eq_decide, ← Int.not_le, ← Int.not_le, Int.mul_nonneg_iff_of_pos_right (Int.pow_pos (by decide))]
  rw [shiftLeftS_value, hsign, sign_append_numeric w _ h]

/-- The condition code of the arithmetic left shift: 3 exactly where the product does not fit (R352, R356). -/
theorem shiftLeftS_cc (w : Nat) (v : BitVec (1 + w)) (n : Nat) :
    (if (shiftLeftS v n).2 = true then (3 : BitVec 2) else ccSign (shiftLeftS v n).1) =
      if -(2 ^ w) ≤ v.toInt * 2 ^ n ∧ v.toInt * 2 ^ n < 2 ^ w then signCc (v.toInt * 2 ^ n) else 3 := by
  simp only [shiftLeftS_overflow, decide_eq_true_eq, ite_not]
  split
  · next h =>
    rw [shiftLeftS_value_fits w v n h, ccSign_eq, toInt_ofInt_succ w _ h]
  · rfl

theorem sumCc_eq (x : Int) : sumCc x = if fitsWord x then signCc x else 3 := by
  unfold sumCc
  by_cases h : fitsWord x
  · rw [if_pos h, if_neg (by omega)]
  · rw [if_neg h, if_pos (by omega)]

-- addresses and links

/-- A relative branch counts halfwords from the instruction (R178). -/
theorem State.relativeAddress_eq (s : State) (i2 : Half) :
    s.relativeAddress i2 = truncMode s.cpu.psw.amode (BitVec.ofInt 32 (s.instructionAddress.toNat + 2 * i2.toInt)) := by
  unfold State.relativeAddress
  rw [sext32_eq_ofInt, BitVec.ofInt_add, BitVec.ofInt_mul, BitVec.ofInt_natCast, BitVec.ofNat_toNat]
  rfl

theorem State.link_eq (s : State) (len : Nat) :
    s.link len = if s.cpu.psw.amode = true then 1#1 ++ s.nextIa len
      else BitVec.ofNat 2 (s.ilcOf len) ++ s.cpu.psw.cc ++ s.cpu.psw.progMask ++ (s.nextIa len).setWidth 24 := by
  unfold State.link State.saveLink
  split
  · next h => rw [h]; rfl
  · rw [BitVec.setWidth_eq_extractLsb' (by decide)]

end Sys2Proof.Machine
end

section
/-! The base instruction subset on registers and fetched operands (spec/45_base_subset.md R300 to R369, R388 to R394): completion after a branch,
without an overflow and after a fetch, and the ten statements. -/

namespace Sys2Proof.Machine

open Sys2Proof.Safety

-- completion after a branch, without an overflow, and after a fetch

/-- An instruction that completes may branch too: the instruction address is the only difference. -/
theorem completes_branch {s u : State} {n : Nat} {grs : List (Reg × Word)} (h : completes (.next u) s { psw := pswNext s n, grs := grs })
    {taken : Bool} {t a : Addr} (ha : (if taken = true then t else s.nextIa n) = a) :
    completes (u.branchIf taken t) s { psw := pswAt s a, grs := grs } := by
  subst ha
  obtain ⟨v, hv, hpsw, ⟨hgr, har, hcr⟩, hbytes, hkeys, hframe⟩ := h
  cases hv
  cases taken with
  | false => exact ⟨_, rfl, hpsw, ⟨hgr, har, hcr⟩, hbytes, hkeys, hframe⟩
  | true =>
    have hq : Quiet s (u.setIa t) := Quiet.setIa ⟨hbytes, hkeys, hframe⟩ t
    refine ⟨_, rfl, ?_, ⟨hgr, har, hcr⟩, hq.bytes, hq.keys, hq.rest⟩
    show ({ u.cpu.psw with ia := t } : Psw) = _
    rw [hpsw]
    rfl

/-- A count reduced by one, with a branch while it is not zero (R366): the operands are those before the count is replaced. -/
theorem Advanced.countDown {s u : State} {n : Nat} (b : Advanced s u n) (r1 : Reg) (branches : Bool) (t a : Addr)
    (ha : (if (s.gr r1).toNat ≠ 1 ∧ branches = true then t else s.nextIa n) = a) :
    completes (u.countDown r1 branches t) s { psw := pswAt s a, grs := [(r1, BitVec.ofInt 32 ((s.gr r1).toNat - 1))] } := by
  unfold State.countDown
  rw [b.gr, Bool.and_comm branches]
  refine completes_branch (b.one (sub_eq_ofInt_toNat _ 1)) ?_
  simp only [Bool.and_eq_true, sub_one_ne_zero_iff]
  exact ha

/-- Overflow that does not occur or is masked off changes nothing (R296). -/
theorem State.overflow_next (s : State) (len : Nat) (ovf : Bool) (h : s.cpu.psw.overflowMask = false ∨ ovf = false) :
    s.overflow len ovf = .next s := by
  have hno : (ovf && s.cpu.psw.overflowMask) = false := by
    rcases h with h | h
    · rw [h, Bool.and_false]
    · rw [h, Bool.false_and]
  unfold State.overflow
  rw [hno]
  rfl

/-- An instruction whose fetch meets no exception completes as it goes on from the state in the middle of it. -/
theorem withFetch_completes {s : State} {len : Nat} {r : Results} {c : Check} {spec : List ProgExc} {b : Reg} {ea : Addr} {n : Nat}
    {k : State → List Byte → Out} {e : Effect} (hs : spec = []) (h : s.operandFaults c false b ea n = [])
    (hk : ∀ u, Advanced s u len → completes (k u (operand s b ea n)) s e) : completes (s.withFetch len r c spec b ea n k) s e := by
  rw [withFetch_ok s len r c spec b ea n k hs h]
  exact hk _ (Advanced.fetched s len _ _)

/-- A comparison with a fetched operand sets the condition code alone. -/
theorem testStorage_completes {s : State} {b : Reg} {ea : Addr} {n : Nat} {f : List Byte → BitVec 2} {c : BitVec 2} (h : fetchable s b ea n)
    (hc : f (operand s b ea n) = c) : completes (s.testStorage b ea n f) s { psw := pswCc s 4 c } :=
  withFetch_completes rfl h fun _ hu => hu.cc hc

/-- A double shift of an even-odd pair: what the shift makes of the pair. -/
theorem shiftPair_completes {s : State} {r1 : Reg} {k : State → DWord → Out} {e : Effect} (he : evenReg r1 = true)
    (hk : completes (k (s.advance 4) (s.pair r1)) s e) : completes (s.shiftPair r1 k) s e := by
  unfold State.shiftPair
  rw [guarded_ok _ _ _ _ _ (specUnless_true _ he)]
  exact hk

theorem Advanced.overflowMask {s u : State} {n : Nat} (b : Advanced s u n) : u.cpu.psw.overflowMask = s.cpu.psw.overflowMask := by
  rw [b.psw]
  rfl

/-- Completion of signed arithmetic without an overflow interruption, whatever the value on overflow. -/
theorem Advanced.signedResult {s u : State} {n : Nat} (b : Advanced s u n) {r1 : Reg} {r : Signed} {w : Word} {c : BitVec 2}
    (ho : s.cpu.psw.overflowMask = false ∨ r.overflow = false) (hv : r.value = w) (hc : r.cc = c) :
    completes (u.signedResult n r1 r) s { psw := pswCc s n c, grs := [(r1, w)] } := by
  unfold State.signedResult
  rw [State.overflow_next ((u.setGr r1 r.value).setCc r.cc) n _ (ho.imp_left fun h => b.overflowMask.trans h)]
  exact b.oneCc hv hc

/-- The same of an even-odd pair (R356). -/
theorem Advanced.pairOverflow {s u : State} {n : Nat} (b : Advanced s u n) {r1 : Reg} {v w : DWord} {c d : BitVec 2} {ovf : Bool}
    (he : evenReg r1 = true) (ho : s.cpu.psw.overflowMask = false ∨ ovf = false) (hv : v = w) (hc : c = d) :
    completes (((u.setPair r1 v).setCc c).overflow n ovf) s
      { psw := pswCc s n d, grs := [(r1, field w 0 32), (oddOf r1, field w 32 32)] } := by
  rw [State.overflow_next ((u.setPair r1 v).setCc c) n ovf (ho.imp_left fun h => b.overflowMask.trans h)]
  exact b.pairCc he hv hc

-- loads, arithmetic, comparison and logic

/-- Settles O1: each instruction is one completion of `Advanced` from the state with the next instruction address. -/
theorem loadsWithoutStorage : Obligations.LoadsWithoutStorage := by
  unfold Obligations.LoadsWithoutStorage
  intro s r1 r2 x2 b2 d2 i2
  have h2 : Advanced s (s.advance 2) 2 := Advanced.start s 2
  have h4 : Advanced s (s.advance 4) 4 := Advanced.start s 4
  refine ⟨h2.one rfl, h2.oneCc rfl (ccSign_eq _), h2.oneCc (negative_eq_ofInt _) ?_, h4.one rfl, h4.one (sext32_eq_ofInt i2), h4.one rfl,
    h2.newPsw rfl⟩
  rw [ccZero, negative_eq_ofInt]
  simp only [negative_eq_zero_iff]

/-- Settles O5: the sum and the difference are those of unsigned numbers modulo 2^32, with the condition codes of `ccCarry_add` and `ccCarry_sub`. -/
theorem logicalArithmetic : Obligations.LogicalArithmetic := by
  unfold Obligations.LogicalArithmetic
  intro s r1 r2 x2 b2 d2 ea a addition subtraction
  have sum {u : State} {len : Nat} (hu : Advanced s u len) (v : Word) :
      completes (.next (u.logicalResult r1 (s.gr r1 + v) (carryAdd (s.gr r1) v))) s (addition len v.toNat) :=
    hu.oneCc (BitVec.add_def _ v) (ccCarry_add _ v)
  have difference {u : State} {len : Nat} (hu : Advanced s u len) (v : Word) :
      completes (.next (u.logicalResult r1 (s.gr r1 - v) (carrySub (s.gr r1) v))) s (subtraction len v.toNat) :=
    hu.oneCc (sub_eq_ofInt_toNat _ v) (ccCarry_sub _ v)
  have al (h : fetchable s b2 ea 4) : completes (execAl r1 x2 b2 d2 s) s _ := withFetch_completes rfl h fun _ hu => sum hu _
  have sl (h : fetchable s b2 ea 4) : completes (execSl r1 x2 b2 d2 s) s _ := withFetch_completes rfl h fun _ hu => difference hu _
  exact ⟨sum (Advanced.start s 2) _, difference (Advanced.start s 2) _, fun h => ⟨al h, sl h⟩⟩

/-- Settles O6: the product of MR and M is `productS`, which is exact; that of MH and MHI is the product of words modulo 2^32. -/
theorem multiplication : Obligations.Multiplication := by
  unfold Obligations.Multiplication
  intro s r1 r2 x2 b2 d2 i2 ea
  have halfword (h : Half) : s.gr r1 * sext32 h = BitVec.ofInt 32 ((s.gr r1).toInt * h.toInt) := by rw [mul_eq_ofInt, sext32_toInt]
  refine ⟨fun he => ⟨_, productS_toInt _ _, ?_⟩, fun he h => ⟨_, productS_toInt _ _, ?_⟩, fun h => ?_, ?_⟩
  · show completes (execMr r1 r2 s) s _
    unfold execMr
    rw [guarded_ok _ _ _ _ _ (specUnless_true _ he)]
    exact (Advanced.start s 2).pair he rfl
  · show completes (execM r1 x2 b2 d2 s) s _
    exact withFetch_completes (specUnless_true _ he) h fun _ hu => hu.pair he rfl
  · show completes (execMh r1 x2 b2 d2 s) s _
    exact withFetch_completes rfl h fun _ hu => hu.one (halfword _)
  · exact (Advanced.start s 4).one (halfword i2)

/-- Settles O9: each instruction sets the condition code alone, `cmpS` and `cmpL` being the order of the operands as numbers. -/
theorem comparison : Obligations.Comparison := by
  unfold Obligations.Comparison
  intro s r1 r2 x2 b2 d2 i2 i ea a
  have signedHalf (h : Half) : cmpS a (sext32 h) = orderCc a.toInt h.toInt := by rw [cmpS_eq, sext32_toInt]
  refine ⟨(Advanced.start s 2).cc (cmpS_eq _ _), (Advanced.start s 2).cc (cmpL_eq _ _), (Advanced.start s 4).cc (signedHalf i2),
    fun h => ⟨?_, ?_⟩, fun h => ?_, fun h => ?_⟩
  · show completes (execC r1 x2 b2 d2 s) s _
    exact testStorage_completes h (cmpS_eq _ _)
  · show completes (execCl r1 x2 b2 d2 s) s _
    exact testStorage_completes h (cmpL_eq _ _)
  · show completes (execCh r1 x2 b2 d2 s) s _
    exact testStorage_completes h (signedHalf _)
  · show completes (execCli i b2 d2 s) s _
    exact testStorage_completes h (cmpL_eq _ _)

/-- Settles O11: the result is put in R1 with the condition code `ccZero` of the same word. -/
theorem logicIntoRegister : Obligations.LogicIntoRegister := by
  unfold Obligations.LogicIntoRegister
  intro s r1 r2 x2 b2 d2 ea e a w
  have result {u : State} {len : Nat} (hu : Advanced s u len) (v : Word) : completes (.next (u.bitsResult r1 v)) s (e len v) :=
    hu.oneCc rfl rfl
  have fetched (f : Word → Word → Word) (h : fetchable s b2 ea 4) : completes (s.bitsStorage r1 x2 b2 d2 f) s (e 4 (f a w)) :=
    withFetch_completes rfl h fun _ hu => result hu _
  have h2 : Advanced s (s.advance 2) 2 := Advanced.start s 2
  exact ⟨result h2 _, result h2 _, result h2 _, fun h => ⟨fetched _ h, fetched _ h, fetched _ h⟩⟩

-- shifts

/-- Settles O20: shifting a word or a pair is multiplying it, or dividing it, by a power of two. -/
theorem logicalShifts : Obligations.LogicalShifts := by
  unfold Obligations.LogicalShifts
  intro s r1 b2 d2 n v p pairEffect
  have h4 : Advanced s (s.advance 4) 4 := Advanced.start s 4
  refine ⟨h4.one (shiftLeft_eq_ofNat _ n), h4.one (ushiftRight_eq_ofNat _ n), fun he => ⟨?_, ?_⟩⟩
  · show completes (execSldl r1 b2 d2 s) s _
    exact shiftPair_completes he (h4.pair he (shiftLeft_eq_ofNat _ n))
  · show completes (execSrdl r1 b2 d2 s) s _
    exact shiftPair_completes he (h4.pair he (ushiftRight_eq_ofNat _ n))

/-- Settles O21: a right shift is a floor division; a left shift keeps the sign (`shiftLeftS_value`), has condition code 3
exactly where the product does not fit (`shiftLeftS_cc`), and is the product where it fits (`shiftLeftS_value_fits`). -/
theorem arithmeticShifts : Obligations.ArithmeticShifts := by
  unfold Obligations.ArithmeticShifts
  intro s r1 b2 d2 n v p fits pairEffect
  have h4 : Advanced s (s.advance 4) 4 := Advanced.start s 4
  have slda (he : evenReg r1 = true) (ho : s.cpu.psw.overflowMask = false ∨ fits 64 (p * 2 ^ n)) :
      completes (execSlda r1 b2 d2 s) s
        (pairEffect (if fits 64 (p * 2 ^ n) then signCc (p * 2 ^ n) else 3) (BitVec.ofBool (s.pair r1).msb ++ BitVec.ofInt 63 (p * 2 ^ n))) :=
    shiftPair_completes he (h4.pairOverflow he (ho.imp_right (shiftLeftS_overflow_fits 63 (s.pair r1) n))
      (shiftLeftS_value 63 (s.pair r1) n) (shiftLeftS_cc 63 (s.pair r1) n))
  refine ⟨fun ho => h4.signedResult (ho.imp_right (shiftLeftS_overflow_fits 31 (s.gr r1) n)) (shiftLeftS_value 31 (s.gr r1) n) ?_,
    h4.oneCc (sshiftRight_eq_ofInt _ n) (ccSign_sshiftRight _ n), fun he => ⟨fun hfits => ?_, fun hover hmask => ?_, ?_⟩⟩
  · rw [sumCc_eq]
    exact shiftLeftS_cc 31 (s.gr r1) n
  · have h := slda he (.inr hfits)
    rwa [if_pos hfits, ← shiftLeftS_value 63 (s.pair r1) n, shiftLeftS_value_fits 63 (s.pair r1) n hfits] at h
  · have h := slda he (.inl hmask)
    rwa [if_neg hover] at h
  · show completes (execSrda r1 b2 d2 s) s _
    exact shiftPair_completes he (h4.pairCc he (sshiftRight_eq_ofInt _ n) (ccSign_sshiftRight _ n))

-- branches

/-- Settles O22: R1 holds the link and the instruction address is the branch address, both formed from the state before. -/
theorem linkingBranches : Obligations.LinkingBranches := by
  unfold Obligations.LinkingBranches
  intro s r1 r2 x2 b2 d2 i2 ea save link to2
  have h2 : Advanced s (s.advance 2) 2 := Advanced.start s 2
  have h4 : Advanced s (s.advance 4) 4 := Advanced.start s 4
  have toRegister : (if (r2 != 0) = true then s.registerAddress r2 else s.nextIa 2) = to2 := by
    simp only [bne_iff_ne, ne_eq, ite_not]
    rfl
  exact ⟨completes_branch (h2.one (s.link_eq 2)) toRegister, completes_branch (h4.one (s.link_eq 4)) rfl,
    completes_branch (h2.one rfl) toRegister, completes_branch (h4.one rfl) rfl,
    completes_branch (h4.one rfl) (s.relativeAddress_eq i2)⟩

/-- Settles O23: nothing but the instruction address depends on the condition; `BCR 15,0` serializes too, which is not seen. -/
theorem conditionalBranches : Obligations.ConditionalBranches := by
  unfold Obligations.ConditionalBranches
  intro s m1 r2 x2 b2 d2 i2 met relative
  have h4 : completes (.next (s.advance 4)) s { psw := pswNext s 4 } := (Advanced.start s 4).nothing
  have h2 : Advanced s (if m1 = 15 ∧ r2 = 0 then (s.advance 2).serialize else s.advance 2) 2 := by
    split
    · exact (Advanced.start s 2).serialize
    · exact Advanced.start s 2
  refine ⟨completes_branch h2.nothing ?_, completes_branch h4 rfl, completes_branch h4 ?_⟩
  · simp only [Bool.and_eq_true, bne_iff_ne]
    rfl
  · rw [s.relativeAddress_eq i2]
    rfl

/-- Settles O24: `Advanced.countDown` for the counts; the sum and the comparand of BXH and BXLE are read before R1 is replaced. -/
theorem countingBranches : Obligations.CountingBranches := by
  unfold Obligations.CountingBranches
  intro s r1 r2 r3 x2 b2 d2 i2 count more relative sum high
  have h4 : Advanced s (s.advance 4) 4 := Advanced.start s 4
  have hsum : s.gr r1 + s.gr r3 = sum := add_eq_ofInt _ _
  have hhigh : (s.indexSum r1 r3).2 = decide high := by
    unfold State.indexSum
    rw [hsum]
  refine ⟨(Advanced.start s 2).countDown r1 _ _ _ ?_, h4.countDown r1 _ _ _ ?_, h4.countDown r1 _ _ _ ?_,
    completes_branch (h4.one hsum) ?_, completes_branch (h4.one hsum) ?_⟩
  · simp only [bne_iff_ne]
    rfl
  · simp only [and_true]
    rfl
  · simp only [and_true, s.relativeAddress_eq i2]
    rfl
  · simp only [hhigh, decide_eq_true_eq]
  · simp only [hhigh, Bool.not_eq_true', decide_eq_false_iff_not, ite_not]

end Sys2Proof.Machine
end

section
/-! Decoding and encoding (spec/30_encoding.md R170 to R173, R185, R186): the fields of each format read back, and the statement
`Obligations.DecodeEncode`. -/

namespace Sys2Proof

-- the fields of each format, read back into whatever instruction has them

theorem fields_rr (f : Reg → Reg → Instr) (a b : Reg) : f (hiNibble (a ++ b)) (loNibble (a ++ b)) = f a b := by
  rw [hiNibble_append, loNibble_append]

theorem fields_hi (f : Reg → Instr) (a b : Reg) : f (hiNibble (a ++ b)) = f a := by rw [hiNibble_append]

theorem fields_bd (f : Reg → Disp → Instr) (b : Reg) (d : Disp) :
    f (hiNibble (b ++ dispHi d)) (disp (b ++ dispHi d) (dispLo d)) = f b d := by
  rw [hiNibble_append, disp_append]

theorem fields_rx (f : Reg → Reg → Reg → Disp → Instr) (r x b : Reg) (d : Disp) :
    f (hiNibble (r ++ x)) (loNibble (r ++ x)) (hiNibble (b ++ dispHi d)) (disp (b ++ dispHi d) (dispLo d)) = f r x b d := by
  rw [hiNibble_append, loNibble_append, hiNibble_append, disp_append]

theorem fields_shift (f : Reg → Reg → Disp → Instr) (r x b : Reg) (d : Disp) :
    f (hiNibble (r ++ x)) (hiNibble (b ++ dispHi d)) (disp (b ++ dispHi d) (dispLo d)) = f r b d := by
  rw [hiNibble_append, hiNibble_append, disp_append]

theorem fields_ri (f : Reg → Half → Instr) (r x : Reg) (i : Half) : f (hiNibble (r ++ x)) (imm (immHi i) (immLo i)) = f r i := by
  rw [hiNibble_append, imm_append]

theorem fields_ss (f : Reg → Disp → Reg → Disp → Instr) (b1 : Reg) (d1 : Disp) (b2 : Reg) (d2 : Disp) :
    f (hiNibble (b1 ++ dispHi d1)) (disp (b1 ++ dispHi d1) (dispLo d1)) (hiNibble (b2 ++ dispHi d2)) (disp (b2 ++ dispHi d2) (dispLo d2)) =
      f b1 d1 b2 d2 := by
  rw [hiNibble_append, disp_append, hiNibble_append, disp_append]

theorem fields_ssKeys (f : Reg → Reg → Reg → Disp → Reg → Disp → Instr) (r1 r3 b1 : Reg) (d1 : Disp) (b2 : Reg) (d2 : Disp) :
    f (hiNibble (r1 ++ r3)) (loNibble (r1 ++ r3)) (hiNibble (b1 ++ dispHi d1)) (disp (b1 ++ dispHi d1) (dispLo d1))
      (hiNibble (b2 ++ dispHi d2)) (disp (b2 ++ dispHi d2) (dispLo d2)) = f r1 r3 b1 d1 b2 d2 := by
  rw [fields_ss (f _ _), hiNibble_append, loNibble_append]

theorem wfLength_iff (len : Nat) : wfLength len = true ↔ 1 ≤ len ∧ len ≤ 256 := by
  rw [wfLength, Bool.and_eq_true, decide_eq_true_iff, decide_eq_true_iff]

/-- Decoding the encoding of a well-formed instruction gives it back: the operation code selects the row, and the fields of its format
(R172) are read back. -/
theorem decode_encode (i : Instr) (h : i.wf = true) : decode (encode i) = .ok i := by
  cases i with
  | sckpf | pr | trap2 | ptlb | palb | svc => rfl
  | balr a b | bctr a b | bcr a b | basr a b | lpr a b | lnr a b | ltr a b | lcr a b | nr a b | clr a b | or a b | xr a b | lr a b | cr a b
  | ar a b | sr a b | mr a b | dr a b | alr a b | slr a b | cpya a b | sar a b | ear a b | ivsk a b | ssar a b | pt a b | bakr a b | msta a b
  | ereg a b | esta a b | bsg a b | ipte a b | iske a b | rrbe a b | sske a b | stura a b | lura a b | tar a b | bsa a b =>
    exact congrArg Except.ok (fields_rr _ a b)
  | spm a | ipm a | epar a | esar a | iac a => exact congrArg Except.ok (fields_hi _ a 0)
  | tb a => exact congrArg (fun r => Except.ok (Instr.tb r)) (loNibble_append 0 a)
  | sth a x b d | la a x b d | stc a x b d | ic a x b d | ex a x b d | bal a x b d | bct a x b d | bc a x b d | lh a x b d | ch a x b d
  | ah a x b d | sh a x b d | mh a x b d | bas a x b d | st a x b d | n a x b d | cl a x b d | o a x b d | x a x b d | l a x b d | c a x b d
  | a a x b d | s a x b d | m a x b d | d a x b d | al a x b d | sl a x b d | lae a x b d | lra a x b d | bxh a x b d | bxle a x b d
  | stm a x b d | lm a x b d | stctl a x b d | lctl a x b d | cs a x b d | cds a x b d | lam a x b d | stam a x b d | diag a x b d
  | trace a x b d | sigp a x b d | clm a x b d | stcm a x b d | icm a x b d =>
    exact congrArg Except.ok (fields_rx _ a x b d)
  | srl a b d | sll a b d | sra a b d | sla a b d | srdl a b d | sldl a b d | srda a b d | slda a b d =>
    exact congrArg Except.ok (fields_shift _ a 0 b d)
  | tm i b d | mvi i b d | ni i b d | cli i b d | oi i b d | xi i b d | stnsm i b d | stosm i b d =>
    exact congrArg Except.ok (fields_bd _ b d)
  | brc a i | bras a i | brct a i | lhi a i | ahi a i | mhi a i | chi a i =>
    show decodeA7 (a ++ _) (immHi i) (immLo i) = _
    rw [decodeA7, loNibble_append]
    exact congrArg Except.ok (fields_ri _ a _ i)
  | spx b d | stpx b d | stap b d | stck b d | sckc b d | stckc b d | spt b d | stpt b d | stcke b d | sck b d | sie b d | pc b d | trap4 b d
  | ssm b d | lpsw b d | sac b d | rp b d | sacf b d =>
    exact congrArg Except.ok (fields_bd _ b d)
  | mvc len b1 d1 b2 d2 | nc len b1 d1 b2 d2 | clc len b1 d1 b2 d2 | oc len b1 d1 b2 d2 | xc len b1 d1 b2 d2 =>
    have hl : trueLength (lengthCode len) = len := trueLength_lengthCode len ((wfLength_iff len).mp h)
    conv =>
      rhs
      rw [← hl]
    exact congrArg Except.ok (fields_ss _ b1 d1 b2 d2)
  | mvcp r1 r3 b1 d1 b2 d2 | mvcs r1 r3 b1 d1 b2 d2 =>
    exact congrArg Except.ok (fields_ssKeys _ r1 r3 b1 d1 b2 d2)
  | lasp b1 d1 b2 d2 | tprot b1 d1 b2 d2 => exact congrArg Except.ok (fields_ss _ b1 d1 b2 d2)

/-- The first two bits of an encoding give its length (R170). -/
theorem encode_length (i : Instr) : (encode i).length = instrLength ((encode i).headD 0) := by
  cases i <;> rfl

/-- Settles O53: `decode_encode` and `encode_length`. -/
theorem decodeEncode : Obligations.DecodeEncode := by
  unfold Obligations.DecodeEncode
  intro i hi
  exact ⟨by rw [decode_encode i hi]; rfl, encode_length i⟩

/-- Settles O52: each of the ten words is evaluated. -/
theorem decodedWords : Obligations.DecodedWords := by
  unfold Obligations.DecodedWords
  decide

end Sys2Proof
end

section
/-! Everything a step can do to storage, the host access list and the prefixes, said once as a chain of moves; and the invariants that every move
keeps (spec/10_state.md R27, spec/20_memory.md R81, R105, R131, R151). -/

namespace Sys2Proof.Machine

open Sys2Proof.Safety

/-- A CPU changed: it is not put into EXECUTE, and a new prefix designates an assigned block or block 0. -/
def CpuKept (s : State) (c d : Cpu) : Prop :=
  (d.exTarget = c.exTarget ∨ d.exTarget = none) ∧ (d.prefixReg = c.prefixReg ∨ d.prefixReg = 0 ∨ s.hp.assigned d.prefixReg = true)

/-- One move: everything but a dispatch and the beginning of EXECUTE that can happen to storage, the host access list and the CPUs. -/
inductive Move (s : State) : State → Prop
  | boundary {t : State} (h : Boundary s t) : Move s t
  | cpus (f g : Cpu → Cpu) (hf : CpuKept s s.cpu (f s.cpu)) (hg : ∀ c, CpuKept s c (g c)) :
      Move s { s with cpu := f s.cpu, others := s.others.map g }
  | space (id : SpaceId) (f : Space → Space) (hf : ∀ p, (f p).asit = p.asit ∧ (f p).ranges = p.ranges ∧ (p.wf = true → (f p).wf = true)) :
      Move s (s.updateSpace id f)
  | create (p : Space) (l : List DWord) (hp : p.wf = true) : Move s { s with spaces := s.spaces ++ [p], issued := l }
  | drop (asit : DWord) : Move s ({ s with spaces := s.spaces.filter (fun p => p.asit != asit) }.revoke asit)
  | revoke (asit : DWord) : Move s (s.revoke asit)
  | fill (e : HalEntry) (hn : s.entryOf e.alet = none) (ha : e.asit = s.hp.asit ∨ ∃ p, p ∈ s.spaces ∧ p.asit = e.asit) :
      Move s { s with hal := fillUnused e s.hal }
  | free (alet : Word) : Move s (s.alservRemove alet)
  | reset : Move s s.subsystemReset

/-- Moves one after the other. -/
inductive Moves (s : State) : State → Prop
  | none : Moves s s
  | after {u t : State} (h : Moves s u) (hu : Move u t) : Moves s t

variable {s u t : State}

theorem Moves.trans (h1 : Moves s u) (h2 : Moves u t) : Moves s t := by
  induction h2 with
  | none => exact h1
  | after _ hu ih => exact ih.after hu

/-- What every move keeps, any number of moves keeps. -/
theorem Moves.keep {P : State → Prop} (hk : ∀ u t, Move u t → P u → P t) (h : Moves s t) (hs : P s) : P t := by
  induction h with
  | none => exact hs
  | after _ hu ih => exact hk _ _ hu ih

theorem Moves.boundary (h : Moves s u) (hb : Boundary u t) : Moves s t := h.after (.boundary hb)

theorem cpuKept_refl (s : State) (c : Cpu) : CpuKept s c c := ⟨.inl rfl, .inl rfl⟩

-- the moves of storage

theorem Moves.space (h : Moves s u) (id : SpaceId) (f : Space → Space)
    (hf : ∀ p, (f p).asit = p.asit ∧ (f p).ranges = p.ranges ∧ (p.wf = true → (f p).wf = true)) : Moves s (u.updateSpace id f) :=
  h.after (.space id f hf)

theorem Moves.setKey (h : Moves s u) (id : SpaceId) (b : Block) (k : Space → BitVec 7) : Moves s (u.updateSpace id (fun p => p.setKey b (k p))) :=
  h.space id _ fun p => ⟨rfl, rfl, p.wf_setKey b (k p)⟩

theorem Moves.record (h : Moves s u) (id : SpaceId) (b : Block) (c : Bool) : Moves s (u.record id b c) := h.setKey id b _

theorem Moves.poke (h : Moves s u) (id : SpaceId) (a : Addr) (v : Byte) : Moves s (u.poke id a v) :=
  h.space id _ fun p => ⟨rfl, rfl, p.wf_setByte a v⟩

theorem Moves.noteFetches (h : Moves s u) (tg : Target) (l : List Addr) : Moves s (u.noteFetches tg l) := by
  induction l generalizing u with
  | nil => exact h
  | cons e rest ih => exact ih (h.record _ _ _)

theorem Moves.storeBytes (h : Moves s u) (tg : Target) (l : List (Addr × Byte)) : Moves s (u.storeBytes tg l) := by
  induction l generalizing u with
  | nil => exact h
  | cons c rest ih =>
    obtain ⟨bytes, hb⟩ := u.noteStale_record tg c.1
    have hn : Moves s (u.noteStale tg c.1) := h.boundary (hb ▸ ⟨rfl, rfl, rfl, rfl, rfl, rfl⟩)
    exact ih ((hn.poke _ _ _).record _ _ _)

theorem Moves.storeAbsolute (h : Moves s u) (l : List (Addr × Byte)) : Moves s (u.storeAbsolute l) := by
  induction l generalizing u with
  | nil => exact h
  | cons c rest ih => exact ih ((h.poke _ _ _).record _ _ _)

theorem Moves.loadBytes (h : Moves s u) (l : List (Addr × Byte)) : Moves s (u.loadBytes l) := by
  induction l generalizing u with
  | nil => exact h
  | cons c rest ih => exact ih (h.poke _ _ _)

theorem Moves.storeStatusOf (h : Moves s u) (base : Addr) (c : Cpu) : Moves s (u.storeStatusOf base c) := by
  unfold State.storeStatusOf
  split
  · exact h.storeAbsolute _
  · exact h

theorem Moves.interrupt {old new : Nat} {ident : List (Nat × List Byte)} (h : Moves s u) (hi : u.interrupt old new ident = .next t) : Moves s t := by
  unfold State.interrupt at hi
  split at hi
  · rw [← Host.Outcome.next.inj hi, storeReals_eq]
    exact ((((h.boundary (t := u.serialize) ⟨rfl, rfl, rfl, rfl, rfl, rfl⟩).storeBytes _ _).storeBytes _ _).noteFetches _ _).boundary
      ⟨rfl, rfl, rfl, rfl, rfl, rfl⟩
  · cases hi

-- the moves of the CPUs

theorem Moves.cpus (h : Moves s u) (f g : Cpu → Cpu) (hf : CpuKept u u.cpu (f u.cpu)) (hg : ∀ c, CpuKept u c (g c)) :
    Moves s { u with cpu := f u.cpu, others := u.others.map g } := h.after (.cpus f g hf hg)

theorem Moves.onAllCpus (h : Moves s u) (f : Cpu → Cpu) (hf : ∀ c, CpuKept u c (f c)) : Moves s (u.onAllCpus f) := h.cpus f f (hf _) hf

theorem Moves.onCpu (h : Moves s u) (address : Half) (f : Cpu → Cpu) (hf : ∀ c, CpuKept u c (f c)) : Moves s (u.onCpu address f) := by
  unfold State.onCpu
  split
  · have := h.cpus f id (hf _) (cpuKept_refl u)
    rwa [List.map_id] at this
  · refine h.cpus id _ (cpuKept_refl u _) fun c => ?_
    split
    · exact hf c
    · exact cpuKept_refl u c

theorem cpuKept_passTime (s : State) (d : DWord) (c : Cpu) : CpuKept s c (c.passTime d) := by
  unfold Cpu.passTime
  split <;> exact cpuKept_refl s _

theorem Moves.passTime (h : Moves s u) (d : DWord) : Moves s (u.passTime d) :=
  (h.cpus (Cpu.passTime d) (Cpu.passTime d) (cpuKept_passTime u d _) (cpuKept_passTime u d)).boundary ⟨rfl, rfl, rfl, rfl, rfl, rfl⟩

theorem Moves.agentStore (h : Moves s u) (id : SpaceId) (a : Addr) (v : Byte) : Moves s (u.agentStore id a v) := by
  unfold State.agentStore
  have hn : Moves s (if id = .hostPrimary then u.noteForeignStore a else u) := by
    split
    · exact h.onAllCpus _ fun c => ⟨.inl rfl, .inl rfl⟩
    · exact h
  exact (hn.poke _ _ _).record _ _ _

theorem cpuKept_start (s : State) (c : Cpu) : CpuKept s c c.start := by
  unfold Cpu.start
  split <;> exact cpuKept_refl s _

theorem cpuKept_stop (s : State) (how : StopRequest) (c : Cpu) : CpuKept s c (c.stop how) := by
  unfold Cpu.stop
  split <;> exact cpuKept_refl s _

theorem Moves.serviceCpu (h : Moves s u) (c : Cpu) : Moves s (u.serviceCpu c) := by
  unfold State.serviceCpu
  split
  · exact h.onCpu _ _ fun o => ⟨.inl rfl, .inr (.inr ‹_›)⟩
  · exact h

-- the resets

theorem Moves.reset (h : Moves s u) : Moves s u.subsystemReset := h.after .reset

theorem Moves.systemResetClear (h : Moves s u) : Moves s u.systemResetClear :=
  ((h.onAllCpus Cpu.clearReset fun c => ⟨.inr rfl, .inr (.inl rfl)⟩).reset).space .hostPrimary (fun p => { p with mem := [], keys := [] }) fun p =>
    ⟨rfl, rfl, fun hp => by
      obtain ⟨-, -, hr, hu⟩ := p.wf_iff.mp hp
      exact Space.wf_iff _ |>.mpr ⟨rfl, rfl, hr, hu⟩⟩

theorem wf_withContents (p : Space) (contents : List Host.Cell) (keys : List (Nat × BitVec 7)) (hp : p.wf = true) :
    (p.withContents contents keys).wf = true := by
  obtain ⟨-, -, hr, hu⟩ := p.wf_iff.mp hp
  exact (Space.wf_iff _).mpr ⟨sparseWf_of _ _, sparseWf_of _ _, hr, hu⟩

theorem wf_fresh (asit : DWord) (origin : SpaceOrigin) (blocks : Nat) (contents : List Host.Cell) (keys : List (Nat × BitVec 7)) :
    (Space.fresh asit origin blocks contents keys).wf = true :=
  (Space.wf_iff _).mpr ⟨sparseWf_of _ _, sparseWf_of _ _, rfl, rfl⟩

theorem Moves.loadNormal (h : Moves s u) (contents : List Host.Cell) (keys : List (Nat × BitVec 7)) : Moves s (u.loadNormal contents keys) :=
  (((h.boundary (t := u.nextDraw) ⟨rfl, rfl, rfl, rfl, rfl, rfl⟩).cpus (fun c => u.nextDraw.freeRegisters c.initialReset) Cpu.cpuReset
      ⟨.inr rfl, .inr (.inl rfl)⟩ fun _ => ⟨.inr rfl, .inl rfl⟩).reset).space .hostPrimary (fun p => p.withContents contents keys) fun p =>
    ⟨rfl, rfl, wf_withContents p contents keys⟩

theorem Moves.loadStart (h : Moves s u) (clear : Bool) (contents : List Host.Cell) (keys : List (Nat × BitVec 7)) :
    Moves s (u.loadStart clear contents keys) := by
  unfold State.loadStart
  refine Moves.boundary (u := if clear then u.systemResetClear else u.loadNormal contents keys) ?_ ⟨rfl, rfl, rfl, rfl, rfl, rfl⟩
  split
  · exact h.systemResetClear
  · exact h.loadNormal contents keys

theorem Moves.loadComplete (h : Moves s u) (image : List Host.Cell) (subsystem : Word) : Moves s (u.loadComplete image subsystem) := by
  unfold State.loadComplete
  split
  · dsimp only
    generalize Psw.ofDWord _ = p
    exact (((h.loadBytes _).loadBytes _).boundary (t := ((u.loadBytes _).loadBytes _).setPsw p) ⟨rfl, rfl, rfl, rfl, rfl, rfl⟩).boundary
      ⟨rfl, rfl, rfl, rfl, rfl, rfl⟩
  · exact h

-- the host's services on address spaces and the access list

theorem Moves.updateOwned (h : Moves s u) (asit : DWord) (f : Space → Space)
    (hf : ∀ p, (f p).asit = p.asit ∧ (f p).ranges = p.ranges ∧ (p.wf = true → (f p).wf = true)) : Moves s (u.updateOwned asit f) := by
  unfold State.updateOwned
  split
  · exact h.space .hostPrimary f hf
  · split
    · exact h.space _ f hf
    · exact h

theorem Moves.onBlock (h : Moves s u) (asit : DWord) (b : Block) (f : Space → Space)
    (hf : ∀ p, (f p).asit = p.asit ∧ (f p).ranges = p.ranges ∧ (p.wf = true → (f p).wf = true)) : Moves s (u.onBlock asit b f) := by
  unfold State.onBlock
  dsimp only
  split
  · exact h.space _ f hf
  · exact h

/-- A space that the configuration may be given access to is its own, or one it knows. -/
theorem known_of_authorized {asit : DWord} {access : Access} (h : s.authorized asit access = true) :
    asit = s.hp.asit ∨ ∃ p, p ∈ s.spaces ∧ p.asit = asit := by
  unfold State.authorized at h
  split at h
  · exact .inl ‹_›
  · split at h
    · cases h
    · rename_i p hp
      exact .inr ⟨p, List.mem_of_find?_eq_some hp, beq_iff_eq.mp (List.find?_some hp :)⟩

theorem moves_alservAdd (s : State) (asit : DWord) (access : Access) (alet : Word) (asynchronous : Bool) :
    Moves s (s.alservAdd asit access alet asynchronous) := by
  unfold State.alservAdd
  split
  · obtain ⟨-, -, hn, ha⟩ := ‹_ ∧ _›
    exact Moves.none.after (.fill _ hn (known_of_authorized ha))
  · exact .none

theorem moves_adrspaceCreate (s : State) (asit : DWord) (blocks : Nat) (contents : List Host.Cell) (keys : List (Nat × BitVec 7)) :
    Moves s (s.adrspaceCreate asit blocks contents keys) := by
  unfold State.adrspaceCreate
  split
  · exact Moves.none.after (.create _ _ (wf_fresh ..))
  · exact .none

theorem moves_foreignPermit (s : State) (asit : DWord) (blocks : Nat) (contents : List Host.Cell) (keys : List (Nat × BitVec 7)) (access : Access) :
    Moves s (s.foreignPermit asit blocks contents keys access) := by
  unfold State.foreignPermit
  split
  · exact Moves.none.space _ _ fun p => ⟨rfl, rfl, id⟩
  · split
    · exact Moves.none.after (.create _ _ (wf_fresh asit (.foreign (some access)) blocks contents keys))
    · exact .none

/-- Every move of the environment but a dispatch. -/
theorem moves_input (i : Input) (s : State) (hi : ∀ address, i ≠ .dispatch address) : Moves s (applyInput i s) := by
  have h : Moves s s := .none
  cases i with
  | dispatch address => exact absurd rfl (hi address)
  | cpu => exact h
  | timePasses d =>
    unfold applyInput
    dsimp only
    split
    · exact h.passTime d
    · exact h
  | adrspaceCreate asit blocks contents keys => exact moves_adrspaceCreate s asit blocks contents keys
  | adrspaceDestroy asit =>
    unfold applyInput State.adrspaceDestroy
    dsimp only
    split
    · exact h.after (.drop asit)
    · exact h
  | adrspacePermit asit machine access =>
    unfold applyInput State.adrspacePermit
    dsimp only
    split
    · exact h.updateOwned asit _ fun p => ⟨rfl, rfl, id⟩
    · exact h
  | adrspaceIsolate asit => exact h.updateOwned asit _ fun p => ⟨rfl, rfl, id⟩
  | alservAdd asit access alet asynchronous => exact moves_alservAdd s asit access alet asynchronous
  | alservRemove alet => exact h.after (.free alet)
  | foreignPermit asit blocks contents keys access => exact moves_foreignPermit s asit blocks contents keys access
  | foreignIsolate asit =>
    unfold applyInput State.foreignIsolate
    dsimp only
    split
    · exact (h.space (.data asit) (fun p => { p with origin := .foreign none, shareable := false }) fun p => ⟨rfl, rfl, id⟩).after (.revoke asit)
    · exact h
  | foreignDestroy asit =>
    unfold applyInput State.foreignDestroy
    dsimp only
    split
    · exact h.after (.drop asit)
    · exact h
  | foreignStore asit a v =>
    unfold applyInput State.foreignStore
    dsimp only
    split
    · exact h.agentStore _ a v
    · exact h
  | foreignKey asit b k =>
    unfold applyInput State.foreignKey
    dsimp only
    split
    · exact h.setKey _ b _
    · exact h
  | setPageProtection asit b on => exact h.onBlock asit b _ fun p => ⟨rfl, rfl, p.wf_setReadOnly b on⟩
  | setUnusable asit b on => exact h.onBlock asit b _ fun p => ⟨rfl, rfl, p.wf_setUnusable b on⟩
  | recordKey asit b r c => exact h.onBlock asit b _ fun p => ⟨rfl, rfl, p.wf_setKey b _⟩
  | channelStore key a v =>
    unfold applyInput State.channelStore
    dsimp only
    split
    · exact h.agentStore _ a v
    · exact h
  | storeStatus address =>
    unfold applyInput
    dsimp only
    split
    · split
      · exact h.storeStatusOf 0 _
      · exact h
    · exact h
  | systemResetNormal => exact (h.onAllCpus Cpu.cpuReset fun c => ⟨.inr rfl, .inl rfl⟩).reset
  | systemResetClear => exact h.systemResetClear
  | loadStart clear contents keys => exact h.loadStart clear contents keys
  | loadComplete image subsystem => exact h.loadComplete image subsystem
  | servicePrefix b =>
    unfold applyInput State.servicePrefix
    dsimp only
    split
    · have := h.cpus (fun c => { c with prefixReg := b }) id ⟨.inl rfl, .inr (.inr ‹_›)⟩ (cpuKept_refl s)
      rwa [List.map_id] at this
    · exact h
  | serviceTodProg v =>
    unfold applyInput State.serviceTodProg
    dsimp only
    split
    · exact h.boundary ⟨rfl, rfl, rfl, rfl, rfl, rfl⟩
    · exact h
  | serviceStore asit a v =>
    unfold applyInput State.serviceStore
    dsimp only
    split
    · exact h.agentStore _ a v
    · exact h
  | serviceKey asit b k => exact h.onBlock asit b _ fun p => ⟨rfl, rfl, p.wf_setKey b k⟩
  | serviceCpu c => exact h.serviceCpu c
  | operatorStart address => exact h.onCpu address _ (cpuKept_start s)
  | operatorStop address => exact h.onCpu address _ (cpuKept_stop s .stop)
  | hostSignal address _ | machineCheck address _ | interruptKey address | malfunctionAlert address _ | setBusy address _
  | setOperatorStatus address _ | operatorRestart address => exact h.onCpu address _ fun c => ⟨.inl rfl, .inl rfl⟩
  | ioInterruption _ | serviceSignal _ | channelReport _ | serviceRegister _ _ | serviceAccessRegister _ _ | serviceControlRegister _ _
  | serviceFloat _ _ | serviceCondition _ | serviceComparator _ | serviceTimer _ | serviceFloating _ _ _ =>
    exact h.boundary ⟨rfl, rfl, rfl, rfl, rfl, rfl⟩

-- instructions, turns and steps

/-- Every single update of an instruction. -/
theorem Update.moves {sup : Bool} (hu : Update sup u t) : Moves u t := by
  have h : Moves u u := .none
  cases hu with
  | record id b c => exact h.record id b c
  | poke id a v => exact h.poke id a v
  | time d => exact h.passTime d
  | prefixTo _ b hb =>
    have := h.cpus (fun c => { c with prefixReg := b }) id ⟨.inl rfl, hb.imp_right .inr⟩ (cpuKept_refl u)
    rwa [List.map_id] at this
  | key _ id b k => exact h.setKey id b _
  | clear _ id b r c => exact h.space id _ fun p => ⟨rfl, rfl, fun hp => (Space.wf_setKey _ b _ (p.wf_clearMem b hp))⟩
  | cpu _ address f hf => exact h.onCpu address f hf
  | service _ _ i hi => exact moves_input i u fun address he => by subst he; cases hi
  | gr | ar | psw | stale | control | newPsw | comparator | timer | todProg => exact h.boundary ⟨rfl, rfl, rfl, rfl, rfl, rfl⟩

theorem Updates.moves {sup : Bool} (h : Updates sup s t) : Moves s t := by
  induction h with
  | none => exact .none
  | after _ hu ih => exact ih.trans hu.moves

theorem Ended.moves {sup : Bool} (h : Ended sup s t) : Moves s t := by
  rcases h with h | ⟨u, old, new, ident, hu, -, -, hi⟩
  · exact h.moves
  · exact hu.moves.interrupt hi

/-- What can come of an instruction: moves, or moves before and in a target of EXECUTE. -/
inductive Ran (s t : State) : Prop
  | moves (h : Moves s t)
  | target (u v : State) (a : Addr) (hu : Moves s u) (hv : Moves (u.beginExecute a) v) (ht : t = v.endExecute)

theorem Ran.after_moves (h : Moves s u) (hr : Ran u t) : Ran s t := by
  cases hr with
  | moves hm => exact .moves (h.trans hm)
  | target v w a hv hw ht => exact .target v w a (h.trans hv) hw ht

theorem exec_ran {i : Instr} (h : exec i s = .next t) : Ran s t := by
  rcases exec_ended i s t h with h | ⟨u, a, v, hu, hv, rfl⟩
  · exact .moves h.moves
  · exact .target u v a hu.moves hv.moves rfl

theorem moves_performStop (s : State) : Moves s s.performStop := by
  have h : Moves s { s with cpu := { s.cpu with status := .stopped, stopRequest := .none } } :=
    Moves.none.boundary ⟨rfl, rfl, rfl, rfl, rfl, rfl⟩
  unfold State.performStop
  dsimp only
  split
  · exact h.storeStatusOf 0 _
  · exact h

theorem turn_ran {o : Out} (h : Turn s o) (ht : o = .next t) : Ran s t := by
  cases h with
  | same => exact Host.Outcome.next.inj ht ▸ .moves .none
  | checkStop => exact Host.Outcome.next.inj ht ▸ .moves (Moves.none.boundary ⟨rfl, rfl, rfl, rfl, rfl, rfl⟩)
  | stopped => exact Host.Outcome.next.inj ht ▸ .moves (moves_performStop s)
  | interruption _ h =>
    obtain ⟨u, old, new, ident, hb, -, -, ho⟩ := h
    exact .moves ((Moves.none.boundary hb).interrupt (ho.symm.trans ht))
  | exception _ h => exact .moves (Ended.moves (h.1 t ht))
  | fault f => cases ht
  | refused r => cases ht
  | instruction i l hf => exact (exec_ran ht).after_moves (Moves.none.noteFetches _ l)

/-- What can come of a step: what can come of an instruction, or a dispatch. -/
theorem step_ran (h : step s = .next t) : Ran s t ∨ ∃ u address, Boundary s u ∧ t = u.dispatch address := by
  have next (l : List Input) : Boundary s { s with inputs := l } := ⟨rfl, rfl, rfl, rfl, rfl, rfl⟩
  rcases step_cases s with ⟨i, rest, -, hs⟩ | hs
  · rw [hs] at h
    by_cases hi : ∃ address, i = .dispatch address
    · obtain ⟨address, rfl⟩ := hi
      exact .inr ⟨_, address, next rest, (Host.Outcome.next.inj h).symm⟩
    · rw [← Host.Outcome.next.inj h]
      exact .inl (.moves ((Moves.none.boundary (next rest)).trans (moves_input i _ fun address he => hi ⟨address, he⟩)))
  · rw [hs] at h
    refine .inl (Ran.after_moves (Moves.none.boundary (next s.inputs.tail)) ?_)
    rcases cpuStep_cases { s with inputs := s.inputs.tail } with hc | hc
    · exact .moves (Host.Outcome.next.inj (hc.symm.trans h) ▸ .none)
    · refine Ran.after_moves ?_ (turn_ran hc h)
      exact Moves.none.boundary ⟨rfl, rfl, rfl, rfl, rfl, rfl⟩

/-- What every move keeps, and does not depend on which CPU executes or on its being inside EXECUTE, every step keeps. -/
theorem step_keeps {P : State → Prop} (hm : ∀ u t, Move u t → P u → P t)
    (hc : ∀ (u : State) (c : Cpu) (l : List Cpu), P u → P { u with cpu := c, others := l }) (h : step s = .next t) (hs : P s) : P t := by
  rcases step_ran h with h | ⟨u, address, hb, rfl⟩
  · cases h with
    | moves h => exact h.keep hm hs
    | target u v a hu hv ht => exact ht ▸ hc v { v.cpu with exTarget := none } v.others (hv.keep hm (hc u { u.cpu with exTarget := some a } u.others (hu.keep hm hs)))
  · have hu : P u := hm _ _ (.boundary hb) hs
    unfold State.dispatch
    split
    · exact hu
    · exact hc u _ _ hu

end Sys2Proof.Machine
end

section
/-! The invariants that every step keeps (spec/10_state.md R27, spec/20_memory.md R81, R105, R131, R132, R151). -/

namespace Sys2Proof.Machine

open Sys2Proof.Safety

variable {u t : State}

-- storage in canonical form

theorem storageCanonical_updateSpace {s : State} {id : SpaceId} {f : Space → Space} (hf : ∀ p, p.wf = true → (f p).wf = true)
    (h : storageCanonical s) : storageCanonical (s.updateSpace id f) := by
  obtain ⟨hhp, hsp⟩ := h
  cases id with
  | hostPrimary => exact ⟨hf _ hhp, hsp⟩
  | data asit =>
    refine ⟨hhp, fun p hp => ?_⟩
    obtain ⟨q, hq, rfl⟩ := List.mem_map.mp hp
    split
    · exact hf q (hsp q hq)
    · exact hsp q hq

theorem move_canonical (hm : Move u t) (h : storageCanonical u) : storageCanonical t := by
  obtain ⟨hhp, hsp⟩ := h
  cases hm with
  | boundary hb =>
    unfold storageCanonical
    rw [hb.hp, hb.spaces]
    exact ⟨hhp, hsp⟩
  | space id f hf => exact storageCanonical_updateSpace (fun p => (hf p).2.2) ⟨hhp, hsp⟩
  | create p l hp =>
    refine ⟨hhp, fun q hq => ?_⟩
    rcases List.mem_append.mp hq with hq | hq
    · exact hsp q hq
    · exact List.mem_singleton.mp hq ▸ hp
  | drop asit => exact ⟨hhp, fun q hq => hsp q (List.mem_filter.mp hq).1⟩
  | reset => exact ⟨hhp, fun q hq => hsp q (List.mem_filter.mp hq).1⟩
  | cpus | revoke | fill | free => exact ⟨hhp, hsp⟩

/-- Settles O56: every move keeps each space canonical, and no other part of a step touches storage. -/
theorem storageStaysCanonical : Obligations.StorageStaysCanonical := by
  unfold Obligations.StorageStaysCanonical
  intro s t h hs
  exact step_keeps (fun _ _ => move_canonical) (fun _ _ _ hu => hu) hs h

-- the host access list

/-- No two used entries of a list have one ALET. -/
def aletsApart (l : List HalEntry) : Prop := l.Pairwise fun e f => e.state ≠ .unused → f.state ≠ .unused → e.alet ≠ f.alet

theorem accessListSound_iff (s : State) :
    accessListSound s ↔ (∀ e, e ∈ s.hal → e.state = .valid → e.asit = s.hp.asit ∨ ∃ p, p ∈ s.spaces ∧ p.asit = e.asit) ∧ aletsApart s.hal := by
  unfold accessListSound aletsApart
  simp only [List.pairwise_filter, bne_iff_ne]

/-- Entries that are changed but keep their ALET, or become unused, stay apart. -/
theorem aletsApart_map {l : List HalEntry} (f : HalEntry → HalEntry)
    (hf : ∀ e, (f e).state ≠ .unused → e.state ≠ .unused ∧ (f e).alet = e.alet) (h : aletsApart l) : aletsApart (l.map f) := by
  unfold aletsApart
  rw [List.pairwise_map]
  refine h.imp fun hab ha hb => ?_
  obtain ⟨ha, hea⟩ := hf _ ha
  obtain ⟨hb, heb⟩ := hf _ hb
  rw [hea, heb]
  exact hab ha hb

theorem mem_fillUnused {n e : HalEntry} {l : List HalEntry} (h : e ∈ fillUnused n l) : e = n ∨ e ∈ l := by
  induction l with
  | nil => cases h
  | cons a rest ih =>
    unfold fillUnused at h
    split at h
    · exact (List.mem_cons.mp h).imp_right (List.mem_cons_of_mem a)
    · rcases List.mem_cons.mp h with rfl | h
      · exact .inr (List.mem_cons_self ..)
      · exact (ih h).imp_right (List.mem_cons_of_mem a)

theorem aletsApart_fillUnused {n : HalEntry} {l : List HalEntry} (hn : ∀ e, e ∈ l → e.state ≠ .unused → e.alet ≠ n.alet) (h : aletsApart l) :
    aletsApart (fillUnused n l) := by
  induction l with
  | nil => exact h
  | cons a rest ih =>
    obtain ⟨ha, hr⟩ := List.pairwise_cons.mp h
    unfold fillUnused
    split
    · exact List.pairwise_cons.mpr ⟨fun b hb _ hu => (hn b (List.mem_cons_of_mem a hb) hu).symm, hr⟩
    · refine List.pairwise_cons.mpr ⟨fun b hb hu hv => ?_, ih (fun e he => hn e (List.mem_cons_of_mem a he)) hr⟩
      rcases mem_fillUnused hb with rfl | hb
      · exact hn a (List.mem_cons_self ..) hu
      · exact ha b hb hu hv

/-- An ALET that selects no entry is that of no used one. -/
theorem ne_of_entryOf_none {s : State} {alet : Word} (h : s.entryOf alet = none) (e : HalEntry) (he : e ∈ s.hal) (hu : e.state ≠ .unused) :
    e.alet ≠ alet := by
  intro ha
  have := List.find?_eq_none.mp h e he
  simp [hu, ha] at this

/-- Revoking the entries of a space leaves valid only those of other spaces. -/
theorem revoke_sound {s v : State} {asit : DWord} (hv : v = s.revoke asit)
    (hk : ∀ e, e ∈ s.hal → e.state = .valid → e.asit ≠ asit → e.asit = s.hp.asit ∨ ∃ p, p ∈ s.spaces ∧ p.asit = e.asit)
    (ha : aletsApart s.hal) : accessListSound v := by
  subst hv
  refine (accessListSound_iff _).mpr ⟨fun e he hv => ?_, aletsApart_map _ (fun e he => ?_) ha⟩
  · obtain ⟨a, hm, rfl⟩ := List.mem_map.mp he
    split at hv
    · cases hv
    · rw [if_neg ‹_›]
      exact hk a hm hv fun hasit => ‹¬ _› (by simp [hv, hasit])
  · split at he
    · rename_i hc
      rw [if_pos hc]
      simp only [Bool.and_eq_true, beq_iff_eq] at hc
      exact ⟨by simp [hc.1], rfl⟩
    · rw [if_neg ‹_›]
      exact ⟨he, rfl⟩

theorem move_sound (hm : Move u t) (h : accessListSound u) : accessListSound t := by
  obtain ⟨hk, ha⟩ := (accessListSound_iff u).mp h
  cases hm with
  | boundary hb =>
    unfold accessListSound at *
    rwa [hb.hp, hb.spaces, hb.hal]
  | cpus => exact h
  | space id f hf =>
    refine (accessListSound_iff _).mpr ?_
    cases id with
    | hostPrimary =>
      refine ⟨fun e he hv => ?_, ha⟩
      show e.asit = (f u.hp).asit ∨ _
      rw [(hf u.hp).1]
      exact hk e he hv
    | data asit =>
      refine ⟨fun e he hv => (hk e he hv).imp_right fun ⟨p, hp, hpa⟩ => ⟨_, List.mem_map_of_mem hp, ?_⟩, ha⟩
      split
      · rw [(hf p).1, hpa]
      · exact hpa
  | create p l hp =>
    exact (accessListSound_iff _).mpr
      ⟨fun e he hv => (hk e he hv).imp_right fun ⟨q, hq, hqa⟩ => ⟨q, List.mem_append_left _ hq, hqa⟩, ha⟩
  | drop asit =>
    refine revoke_sound rfl (fun e he hv hne => (hk e he hv).imp_right fun ⟨q, hq, hqa⟩ => ⟨q, List.mem_filter.mpr ⟨hq, ?_⟩, hqa⟩) ha
    simpa [hqa] using hne
  | revoke asit => exact revoke_sound rfl (fun e he hv _ => hk e he hv) ha
  | fill n hn hz =>
    refine (accessListSound_iff _).mpr ⟨fun e he hv => ?_, aletsApart_fillUnused (ne_of_entryOf_none hn) ha⟩
    rcases mem_fillUnused he with rfl | he
    · exact hz.imp_right fun ⟨p, hp, hpa⟩ => ⟨p, hp, hpa⟩
    · exact hk e he hv
  | free alet =>
    refine (accessListSound_iff _).mpr ⟨fun e he hv => ?_, aletsApart_map _ (fun e he => ?_) ha⟩
    · obtain ⟨a, hm, rfl⟩ := List.mem_map.mp he
      split at hv
      · cases hv
      · rw [if_neg ‹_›]
        exact hk a hm hv
    · split at he
      · exact absurd rfl he
      · rw [if_neg ‹_›]
        exact ⟨he, rfl⟩
  | reset =>
    refine (accessListSound_iff _).mpr ⟨fun e he hv => ?_, aletsApart_map _ (fun e he => absurd rfl he) ha⟩
    obtain ⟨a, -, rfl⟩ := List.mem_map.mp he
    cases hv

/-- Settles O58: entries are added only for known spaces and unused ALETs, and revoked when their space is destroyed. -/
theorem accessListStaysSound : Obligations.AccessListStaysSound := by
  unfold Obligations.AccessListStaysSound
  intro s t h hs
  exact step_keeps (fun _ _ => move_sound) (fun _ _ _ hu => hu) hs h

-- prefix areas and EXECUTE

/-- Every prefix area is assigned, and no waiting CPU is in the middle of EXECUTE. -/
def cpusSound (s : State) : Prop := prefixAreasAssigned s ∧ ∀ c, c ∈ s.others → c.exTarget = none

/-- No move assigns a block of the host-primary space or takes one away. -/
theorem move_assigned (hm : Move u t) (b : Block) : t.hp.assigned b = u.hp.assigned b := by
  cases hm with
  | boundary hb => rw [hb.hp]
  | space id f hf =>
    cases id with
    | hostPrimary =>
      show (f u.hp).ranges.any _ = u.hp.ranges.any _
      rw [(hf u.hp).2.1]
    | data asit => rfl
  | cpus | create | drop | revoke | fill | free | reset => rfl

theorem CpuKept.assigned {c d : Cpu} (h : CpuKept u c d) (h0 : u.hp.assigned 0 = true) (hc : u.hp.assigned c.prefixReg = true) :
    u.hp.assigned d.prefixReg = true := by
  rcases h.2 with h | h | h
  · rw [h]; exact hc
  · rw [h]; exact h0
  · exact h

theorem CpuKept.noTarget {c d : Cpu} (h : CpuKept u c d) (hc : c.exTarget = none) : d.exTarget = none := h.1.elim (fun h => h.trans hc) id

/-- What a move does to the CPUs. -/
theorem move_cpus (hm : Move u t) : CpuKept u u.cpu t.cpu ∧ ∀ d, d ∈ t.others → ∃ c, c ∈ u.others ∧ CpuKept u c d := by
  have same (d : Cpu) (hd : d ∈ u.others) : ∃ c, c ∈ u.others ∧ CpuKept u c d := ⟨d, hd, cpuKept_refl u d⟩
  cases hm with
  | boundary hb => exact ⟨⟨.inl hb.exTarget, .inl hb.prefixReg⟩, hb.others ▸ same⟩
  | cpus f g hf hg =>
    refine ⟨hf, fun d hd => ?_⟩
    obtain ⟨c, hc, rfl⟩ := List.mem_map.mp hd
    exact ⟨c, hc, hg c⟩
  | space id f hf => cases id <;> exact ⟨cpuKept_refl u _, same⟩
  | create | drop | revoke | fill | free | reset => exact ⟨cpuKept_refl u _, same⟩

theorem move_cpusSound (hm : Move u t) (h : cpusSound u) : cpusSound t := by
  obtain ⟨⟨h0, hc, ho⟩, hx⟩ := h
  obtain ⟨kc, ko⟩ := move_cpus hm
  refine ⟨⟨?_, ?_, fun d hd => ?_⟩, fun d hd => ?_⟩
  · rw [move_assigned hm]; exact h0
  · rw [move_assigned hm]; exact kc.assigned h0 hc
  · obtain ⟨c, hc, hk⟩ := ko d hd
    rw [move_assigned hm]; exact hk.assigned h0 (ho c hc)
  · obtain ⟨c, hc, hk⟩ := ko d hd
    exact hk.noTarget (hx c hc)

/-- The executing CPU stays out of the middle of EXECUTE. -/
theorem moves_noTarget {s : State} (h : Moves s t) (hs : s.cpu.exTarget = none) : t.cpu.exTarget = none :=
  h.keep (P := fun u => u.cpu.exTarget = none) (fun _ _ hm hu => (move_cpus hm).1.noTarget hu) hs

theorem moves_cpusSound {s : State} (h : Moves s t) (hs : cpusSound s) : cpusSound t := h.keep (fun _ _ => move_cpusSound) hs

theorem cpusSound_of {s : State} (ha : prefixAreasAssigned s) (hb : betweenInstructions s) : cpusSound s := ⟨ha, hb.2⟩

/-- The CPU to which the turn goes is out of EXECUTE, and so is the one that gave it away. -/
theorem dispatch_sound {s : State} (address : Half) (ha : prefixAreasAssigned s) (hb : betweenInstructions s) :
    prefixAreasAssigned (s.dispatch address) ∧ betweenInstructions (s.dispatch address) := by
  obtain ⟨h0, hc, ho⟩ := ha
  obtain ⟨hx, hxo⟩ := hb
  unfold State.dispatch
  split
  · exact ⟨⟨h0, hc, ho⟩, hx, hxo⟩
  · rename_i c hf
    have hm := List.mem_of_find?_eq_some hf
    refine ⟨⟨h0, ho c hm, fun d hd => ?_⟩, hxo c hm, fun d hd => ?_⟩
    · rcases List.mem_cons.mp hd with rfl | hd
      · exact hc
      · exact ho d (List.mem_filter.mp hd).1
    · rcases List.mem_cons.mp hd with rfl | hd
      · exact hx
      · exact hxo d (List.mem_filter.mp hd).1

theorem step_cpusSound {s : State} (ha : prefixAreasAssigned s) (hb : betweenInstructions s) (h : step s = .next t) :
    prefixAreasAssigned t ∧ betweenInstructions t := by
  have hs := cpusSound_of ha hb
  rcases step_ran h with hr | ⟨u, address, hu, rfl⟩
  · cases hr with
    | moves hm => exact ⟨(moves_cpusSound hm hs).1, moves_noTarget hm hb.1, (moves_cpusSound hm hs).2⟩
    | target u v a hu hv ht =>
      have hu' : cpusSound u := moves_cpusSound hu hs
      have hv' : cpusSound v := moves_cpusSound hv hu'
      exact ht ▸ ⟨hv'.1, rfl, hv'.2⟩
  · have hm : Moves s u := Moves.none.boundary hu
    exact dispatch_sound address (moves_cpusSound hm hs).1 ⟨moves_noTarget hm hb.1, (moves_cpusSound hm hs).2⟩

/-- Where all prefix areas are assigned no interruption is refused after updates. -/
theorem not_unassigned {sup : Bool} {s : State} (hs : cpusSound s) (h : Updates sup s u) : u.prefixAreaAssigned ≠ false := by
  obtain ⟨⟨-, hc, -⟩, -⟩ := moves_cpusSound h.moves hs
  show u.hp.assigned u.cpu.prefixReg ≠ false
  rw [hc]
  exact Bool.noConfusion

/-- A turn is refused for want of a prefix area only where the next instruction is SET PREFIX. -/
theorem turn_refused {s : State} {o : Out} (hs : cpusSound s) (h : Turn s o) (ho : o = .refused .prefixAreaNotAssigned) : setsPrefix s := by
  cases h with
  | interruption _ h =>
    obtain ⟨u, old, new, ident, hb, -, -, hi⟩ := h
    obtain ⟨⟨-, hc, -⟩, -⟩ := moves_cpusSound (Moves.none.boundary hb) hs
    rw [hi, interrupt_eq u _ _ _ hc] at ho
    cases ho
  | exception _ h =>
    obtain ⟨u, hu, hn⟩ := h.2 ho
    exact absurd hn (not_unassigned hs hu)
  | refused r h => exact absurd (Host.Outcome.refused.inj ho) h
  | instruction i l hf =>
    have hl : cpusSound (s.noteFetches instructionTarget l) := moves_cpusSound (Moves.none.noteFetches _ l) hs
    rcases exec_refused _ _ ho with ⟨u, hu, hn⟩ | ⟨u, a, v, hu, hv, hn⟩ | hspx | hex
    · exact absurd hn (not_unassigned hl hu)
    · have hu' : cpusSound u := moves_cpusSound hu.moves hl
      exact absurd hn (not_unassigned (s := u.beginExecute a) hu' hv)
    · exact ⟨i, _, hf, .inl hspx⟩
    · exact ⟨i, _, hf, .inr hex⟩
  | same | checkStop | stopped | fault => cases ho

/-- Settles O57: prefixes change only to assigned blocks, block 0 among them, and EXECUTE ends with its target. -/
theorem cpusStaySound : Obligations.CpusStaySound := by
  unfold Obligations.CpusStaySound
  intro s ha hb
  refine ⟨fun t h => step_cpusSound ha hb h, fun hn h => ?_⟩
  rcases step_cases s with ⟨i, rest, -, hs⟩ | hs
  · rw [hs] at h
    cases h
  · rw [hs] at h
    rcases cpuStep_cases { s with inputs := s.inputs.tail } with hc | hc
    · rw [hc] at h
      cases h
    · exact hn (turn_refused (s := State.nextDraw { s with inputs := s.inputs.tail }) ⟨ha, hb.2⟩ hc h)

end Sys2Proof.Machine
end

section
/-! What no instruction changes: blocks that are read-only under host page protection (spec/20_memory.md R112), and, in the problem state, what only
privileged instructions change (spec/60_exceptions.md R450). -/

namespace Sys2Proof.Machine

open Sys2Proof.Safety

variable {u t : State} {sup : Bool}

/-- What updates keep, an instruction keeps but for the interruption at its end; a target of EXECUTE begins and ends without changing it. -/
theorem exec_keeps {P : State → Prop} {i : Instr} {s : State} (hk : ∀ u t, Update (!s.cpu.psw.problem) u t → P u → P t)
    (hx : ∀ u a, P u → P { u with cpu := { u.cpu with exTarget := a } }) (ht : exec i s = .next t) (hs : P s) :
    P t ∨ ∃ u v old new ident a, P u ∧ ((old = 32 ∧ new = 96) ∨ (old = 40 ∧ new = 104)) ∧ (∀ f, f ∈ ident → f.1 + f.2.length ≤ 4096) ∧
      u.interrupt old new ident = .next v ∧ t = { v with cpu := { v.cpu with exTarget := a } } := by
  have updates {u v : State} (h : Updates (!s.cpu.psw.problem) u v) (hu : P u) : P v := by
    induction h with
    | none => exact hu
    | after _ hv ih => exact hk _ _ hv ih
  rcases exec_ended i s t ht with (h | ⟨u, old, new, ident, hu, hn, hb, hi⟩) | ⟨w, a, v, hw, (h | ⟨u, old, new, ident, hu, hn, hb, hi⟩), rfl⟩
  · exact .inl (updates h hs)
  · exact .inr ⟨u, t, old, new, ident, t.cpu.exTarget, updates hu hs, hn, hb, hi, rfl⟩
  · exact .inl (hx v none (updates h (hx w (some a) (updates hw hs))))
  · exact .inr ⟨u, v, old, new, ident, none, updates hu (hx w (some a) (updates hw hs)), hn, hb, hi, rfl⟩

-- host page protection

/-- The block of the byte is read-only for the host, the byte has this value, and there are no host services. -/
def protectedByte (id : SpaceId) (a : Addr) (v : Byte) (u : State) : Prop :=
  u.services = [] ∧ (u.space id).readOnly (blockOf a) = true ∧ (u.space id).byte a = v

theorem onCpu_space (s : State) (address : Half) (f : Cpu → Cpu) (id : SpaceId) : (s.onCpu address f).space id = s.space id := by
  unfold State.onCpu
  split <;> cases id <;> rfl

theorem passTime_space (s : State) (d : DWord) (id : SpaceId) : (s.passTime d).space id = s.space id := by cases id <;> rfl

theorem protectedByte_of_space {id : SpaceId} {a : Addr} {v : Byte} (h : protectedByte id a v u) (hs : t.services = u.services)
    (he : t.space id = u.space id) : protectedByte id a v t := by
  unfold protectedByte at *
  rwa [hs, he]

/-- A space changed without its flags, and without the bytes of its read-only blocks. -/
theorem protectedByte_updateSpace {id j : SpaceId} {a : Addr} {v : Byte} {f : Space → Space} (hf : ∀ p, (f p).asit = p.asit)
    (hro : ∀ p, (f p).readOnly (blockOf a) = p.readOnly (blockOf a))
    (hb : id = j → (u.space j).readOnly (blockOf a) = true → (f (u.space j)).byte a = (u.space j).byte a)
    (h : protectedByte id a v u) : protectedByte id a v (u.updateSpace j f) := by
  obtain ⟨hs, hr, hv⟩ := h
  refine ⟨(updateSpace_services u j f).trans hs, ?_⟩
  rw [State.space_updateSpace u j f hf]
  split
  · obtain ⟨rfl, -⟩ := ‹_ ∧ _›
    exact ⟨(hro _).trans hr, (hb rfl hr).trans hv⟩
  · exact ⟨hr, hv⟩

theorem update_protected {id : SpaceId} {a : Addr} {v : Byte} (hu : Update sup u t) (h : protectedByte id a v u) : protectedByte id a v t := by
  cases hu with
  | record j b c => exact protectedByte_updateSpace (fun _ => rfl) (fun _ => rfl) (fun _ _ => rfl) h
  | key _ j b k => exact protectedByte_updateSpace (fun _ => rfl) (fun _ => rfl) (fun _ _ => rfl) h
  | poke j e w hw =>
    refine protectedByte_updateSpace (fun _ => rfl) (fun _ => rfl) (fun _ hr => ?_) h
    rw [Space.byte_setByte, if_neg]
    rintro rfl
    exact Bool.noConfusion (hr.symm.trans hw)
  | clear _ j b r c hb =>
    refine protectedByte_updateSpace (fun _ => rfl) (fun _ => rfl) (fun _ hr => ?_) h
    rw [Space.setKey_byte]
    refine (Memory.read_clearBlock _ _ _).trans (if_neg fun he => ?_)
    have : blockOf a = b := BitVec.eq_of_toNat_eq ((toNat_blockOf a).trans he)
    exact Bool.noConfusion (hr.symm.trans (this ▸ hb))
  | cpu _ address f => exact protectedByte_of_space h (onCpu_services u address f) (onCpu_space u address f id)
  | service _ hv => exact absurd h.1 hv
  | time d => exact protectedByte_of_space h rfl (passTime_space u d id)
  | gr | ar | psw | stale | control | newPsw | comparator | timer | todProg | prefixTo =>
    exact protectedByte_of_space h rfl (by cases id <;> rfl)

/-- Settles O59: the stores of an instruction ask for a writable block, and those of its interruption lie in the prefix area. -/
theorem hostPageProtection : Obligations.HostPageProtection := by
  unfold Obligations.HostPageProtection
  intro s t i id a hs ht hr ha
  have space (u : State) (x : Option Addr) : State.space { u with cpu := { u.cpu with exTarget := x } } id = u.space id := by cases id <;> rfl
  have hx (u : State) (x : Option Addr) (h : protectedByte id a ((s.space id).byte a) u) :
      protectedByte id a ((s.space id).byte a) { u with cpu := { u.cpu with exTarget := x } } := protectedByte_of_space h rfl (space u x)
  rcases exec_keeps (fun _ _ => update_protected) hx ht ⟨hs, hr, rfl⟩ with ⟨-, hr, hv⟩ | ⟨u, v, old, new, ident, x, ⟨-, hr, hv⟩, hn, hb, hi, rfl⟩
  · exact ⟨hv, hr⟩
  · have hw := interrupt_interrupted old new ident (by omega) hb hi
    rw [space]
    refine ⟨(hw.bytes id a fun hid => ?_).trans hv, (frame_readOnly _ _ hw.rest id _).trans hr⟩
    rw [← frame_prefixReg _ _ hw.rest]
    exact ha hid

-- the problem state

/-- What only a privileged instruction changes, the PSW apart. -/
structure SameControls (s u : State) : Prop where
  cr : ∀ r, u.cr r = s.cr r
  prefixReg : u.cpu.prefixReg = s.cpu.prefixReg
  comparator : u.cpu.clockComparator = s.cpu.clockComparator
  todProg : u.cpu.todProg = s.cpu.todProg
  hal : u.hal = s.hal
  keys : ∀ id b, field ((u.space id).key b) 0 5 = field ((s.space id).key b) 0 5

theorem SameControls.trans {s : State} (h : SameControls s u) (hu : SameControls u t) : SameControls s t :=
  ⟨fun r => (hu.cr r).trans (h.cr r), hu.prefixReg.trans h.prefixReg, hu.comparator.trans h.comparator, hu.todProg.trans h.todProg,
    hu.hal.trans h.hal, fun id b => (hu.keys id b).trans (h.keys id b)⟩

theorem passTime_cpu (d : DWord) (c : Cpu) : c.passTime d = { c with cpuTimer := (c.passTime d).cpuTimer } := by
  unfold Cpu.passTime
  split <;> rfl

/-- An update that needs no privilege. -/
theorem update_sameControls (hu : Update false u t) : SameControls u t ∧ t.cpu.psw.sameControl u.cpu.psw := by
  cases hu with
  | psw p h => exact ⟨⟨fun _ => rfl, rfl, rfl, rfl, rfl, fun id _ => by cases id <;> rfl⟩, h⟩
  | record id b c =>
    refine ⟨⟨fun r => State.record_cr u id b c r, ?_, ?_, ?_, State.record_hal u id b c, fun i e => (State.record_keysKept u id b c i e).1⟩, ?_⟩
    all_goals rw [State.record_cpu]
    exact ⟨rfl, rfl, rfl, rfl⟩
  | poke id a v =>
    refine ⟨⟨fun _ => ?_, ?_, ?_, ?_, ?_, fun i b => congrArg (field · 0 5) (State.poke_keys u id a v i b)⟩, ?_⟩
    all_goals cases id <;> first | rfl | exact ⟨rfl, rfl, rfl, rfl⟩
  | time d =>
    have hc : (u.passTime d).cpu = { u.cpu with cpuTimer := (u.cpu.passTime d).cpuTimer } := passTime_cpu d u.cpu
    refine ⟨⟨fun r => ?_, ?_, ?_, ?_, rfl, fun i b => by rw [passTime_space]⟩, ?_⟩
    · exact (congrArg (fun c : Cpu => c.cr[r.toNat]) hc :)
    all_goals rw [hc]
    exact ⟨rfl, rfl, rfl, rfl⟩
  | gr | ar | stale => exact ⟨⟨fun _ => rfl, rfl, rfl, rfl, rfl, fun id _ => by cases id <;> rfl⟩, rfl, rfl, rfl, rfl⟩
  | control h | newPsw h | comparator h | timer h | todProg h | prefixTo h | key h | clear h | cpu h | service h => cases h

theorem Psw.sameControl_trans {p q r : Psw} (h1 : p.sameControl q) (h2 : q.sameControl r) : p.sameControl r :=
  ⟨h1.1.trans h2.1, h1.2.1.trans h2.2.1, h1.2.2.1.trans h2.2.2.1, h1.2.2.2.trans h2.2.2.2⟩

/-- The interruption at the end of an instruction. -/
theorem Interrupted.sameControls {new : Nat} (h : Interrupted u t new) : SameControls u t := by
  refine ⟨fun r => ?_, ?_, ?_, ?_, show (frame t).hal = _ from h.rest ▸ rfl, fun id b => (h.keys id b).1⟩
  · exact (congrArg (fun c : Cpu => c.cr[r.toNat]) h.cpu :)
  all_goals rw [h.cpu]

/-- Settles O60: the updates of an instruction in the problem state need no privilege, and its interruption loads a new PSW. -/
theorem problemState : Obligations.ProblemState := by
  unfold Obligations.ProblemState
  intro s t i hp ht
  have space (u : State) (x : Option Addr) (id : SpaceId) : State.space { u with cpu := { u.cpu with exTarget := x } } id = u.space id := by
    cases id <;> rfl
  have sameTarget (u : State) (x : Option Addr) : SameControls u { u with cpu := { u.cpu with exTarget := x } } :=
    ⟨fun _ => rfl, rfl, rfl, rfl, rfl, fun id b => by rw [space]⟩
  have hk (u t : State) (h : Update (!s.cpu.psw.problem) u t) (hu : SameControls s u ∧ u.cpu.psw.sameControl s.cpu.psw) :
      SameControls s t ∧ t.cpu.psw.sameControl s.cpu.psw := by
    rw [hp] at h
    obtain ⟨hc, hw⟩ := update_sameControls h
    exact ⟨hu.1.trans hc, Psw.sameControl_trans hw hu.2⟩
  have hx (u : State) (x : Option Addr) (hu : SameControls s u ∧ u.cpu.psw.sameControl s.cpu.psw) :
      SameControls s { u with cpu := { u.cpu with exTarget := x } } ∧ u.cpu.psw.sameControl s.cpu.psw := ⟨hu.1.trans (sameTarget u x), hu.2⟩
  rcases exec_keeps hk hx ht ⟨⟨fun _ => rfl, rfl, rfl, rfl, rfl, fun _ _ => rfl⟩, rfl, rfl, rfl, rfl⟩ with
    ⟨h, hpr, hsm, hkey, hmc⟩ | ⟨u, v, old, new, ident, x, ⟨hu, -⟩, hn, hb, hi, rfl⟩
  · exact ⟨h.cr, h.prefixReg, h.comparator, h.todProg, h.hal, h.keys, .inl ⟨hpr.trans hp, hsm, hkey, hmc⟩⟩
  · have hw := interrupt_interrupted old new ident (by omega) hb hi
    obtain ⟨hcr, hpx, hcc, htp, hhal, hkeys⟩ := (hu.trans hw.sameControls).trans (sameTarget v x)
    refine ⟨hcr, hpx, hcc, htp, hhal, hkeys, .inr ?_⟩
    rcases hn with ⟨-, rfl⟩ | ⟨-, rfl⟩
    · exact .inl hw.psw
    · exact .inr hw.psw

end Sys2Proof.Machine
end

section
/-! Signed arithmetic, its overflow, and division (spec/45_base_subset.md R296, R302 to R329, R352, R356, R389): the completions of
`Obligations.SignedArithmeticOfRegisters`, `Obligations.SignedArithmeticWithStorage` and `Obligations.Division`, and their interruptions. -/

namespace Sys2Proof.Machine

open Sys2Proof.Safety

theorem Advanced.ilcOf {s u : State} {n : Nat} (b : Advanced s u n) (len : Nat) : u.ilcOf len = s.ilcOf len := by
  unfold State.ilcOf
  rw [b.target]

/-- What holds from the state in the middle of an instruction holds of an instruction whose fetch meets no exception. -/
theorem withFetch_of {P : Out → Prop} {s : State} {len : Nat} {r : Results} {c : Check} {spec : List ProgExc} {b : Reg} {ea : Addr} {n : Nat}
    {k : State → List Byte → Out} (hs : spec = []) (h : s.operandFaults c false b ea n = [])
    (hk : ∀ u, Advanced s u len → P (k u (operand s b ea n))) : P (s.withFetch len r c spec b ea n k) := by
  rw [withFetch_ok s len r c spec b ea n k hs h]
  exact hk _ (Advanced.fetched s len _ _)

-- signed sums

/-- LOAD COMPLEMENT (R302): the difference from zero. -/
theorem complement_eq (v : Word) : subS 0 v = ⟨BitVec.ofInt 32 (-v.toInt), decide (¬ fitsWord (-v.toInt))⟩ := by
  rw [subS_eq, zero_toInt, Int.zero_sub]

/-- AHI, AH (R317, R389): the halfword is extended with its sign. -/
theorem addHalf_eq (v : Word) (h : Half) :
    addS v (sext32 h) = ⟨BitVec.ofInt 32 (v.toInt + h.toInt), decide (¬ fitsWord (v.toInt + h.toInt))⟩ := by
  rw [addS_eq, sext32_toInt]

theorem subHalf_eq (v : Word) (h : Half) :
    subS v (sext32 h) = ⟨BitVec.ofInt 32 (v.toInt - h.toInt), decide (¬ fitsWord (v.toInt - h.toInt))⟩ := by
  rw [subS_eq, sext32_toInt]

/-- Settles O2: each instruction ends in `signedResult` with the exact sum, difference or absolute value. -/
theorem signedArithmeticOfRegisters : Obligations.SignedArithmeticOfRegisters := by
  unfold Obligations.SignedArithmeticOfRegisters
  intro s r1 r2 i2 x hx
  have h2 : Advanced s (s.advance 2) 2 := Advanced.start s 2
  have h4 : Advanced s (s.advance 4) 4 := Advanced.start s 4
  refine ⟨?_, ?_, ?_, ?_, ?_⟩ <;> rintro rfl
  · exact h2.signed (complement_eq _) hx
  · exact h2.signed (absS_eq _) hx
  · exact h2.signed (addS_eq _ _) hx
  · exact h2.signed (subS_eq _ _) hx
  · exact h4.signed (addHalf_eq _ _) hx

/-- Settles O3: the same results, from an operand fetched without an exception. -/
theorem signedArithmeticWithStorage : Obligations.SignedArithmeticWithStorage := by
  unfold Obligations.SignedArithmeticWithStorage
  intro s r1 x2 b2 d2 x hx ea word half e
  have storage {n : Nat} {f : List Byte → Signed} (h : fetchable s b2 ea n)
      (hf : f (operand s b2 ea n) = ⟨BitVec.ofInt 32 x, decide (¬ fitsWord x)⟩) : completes (s.signedStorage r1 x2 b2 d2 n f) s e :=
    withFetch_completes rfl h fun _ hu => hu.signed hf hx
  refine ⟨fun h => ⟨?_, ?_⟩, fun h => ⟨?_, ?_⟩⟩ <;> rintro rfl
  · exact storage (f := fun bs => addS (s.gr r1) (be32 bs)) h (addS_eq _ _)
  · exact storage (f := fun bs => subS (s.gr r1) (be32 bs)) h (subS_eq _ _)
  · exact storage (f := fun bs => addS (s.gr r1) (sext32 (be16 bs))) h (addHalf_eq _ _)
  · exact storage (f := fun bs => subS (s.gr r1) (sext32 (be16 bs))) h (subHalf_eq _ _)

-- overflow that is not masked

/-- The registers and the PSW of a completion, in place when the overflow interruption is taken. -/
theorem entersOverflow_of_completes {s u : State} {n : Nat} {e : Effect} (h : completes (.next u) s e) (hm : e.psw.overflowMask = true)
    (hi : u.ilcOf n = s.ilcOf n) (ha : s.prefixAreaAssigned = true) : entersProgram (u.overflow n true) s e 8 (s.ilcOf n) [] := by
  obtain ⟨t, ht, hp, hr, hb, hk, hf⟩ := h
  cases ht
  exact overflow_enters ⟨hb, hk, hf⟩ hr hp hm hi ha

/-- Settles O4: the result that `Obligations.SignedArithmeticOfRegisters` and the shifts have on overflow is in place when the interruption is taken. -/
theorem fixedPointOverflow : Obligations.FixedPointOverflow := by
  unfold Obligations.FixedPointOverflow
  intro s r1 r2 x2 b2 d2 i2 hm ha ea a b word half n p wide overflows sum
  have h2 : Advanced s (s.advance 2) 2 := Advanced.start s 2
  have h4 : Advanced s (s.advance 4) 4 := Advanced.start s 4
  have storage {k : Nat} {f : List Byte → Signed} {x : Int} (h : fetchable s b2 ea k)
      (hf : f (operand s b2 ea k) = ⟨BitVec.ofInt 32 x, decide (¬ fitsWord x)⟩) (hx : ¬ fitsWord x) :
      entersProgram (s.signedStorage r1 x2 b2 d2 k f) s { psw := pswCc s 4 3, grs := [(r1, BitVec.ofInt 32 x)] } 8 (s.ilcOf 4) [] :=
    withFetch_of (P := fun o => entersProgram o s _ 8 (s.ilcOf 4) []) rfl h fun _ hu => hu.overflows hf hm hx ha
  refine ⟨fun hx => h2.overflows (complement_eq _) hm hx ha, fun hx => h2.overflows (absS_eq _) hm hx ha,
    fun hx => h2.overflows (addS_eq _ _) hm hx ha, fun hx => h2.overflows (subS_eq _ _) hm hx ha,
    fun hx => h4.overflows (addHalf_eq _ _) hm hx ha,
    fun h => ⟨storage (f := fun bs => addS (s.gr r1) (be32 bs)) h (addS_eq _ _),
      storage (f := fun bs => subS (s.gr r1) (be32 bs)) h (subS_eq _ _)⟩,
    fun h => ⟨storage (f := fun bs => addS (s.gr r1) (sext32 (be16 bs))) h (addHalf_eq _ _),
      storage (f := fun bs => subS (s.gr r1) (sext32 (be16 bs))) h (subHalf_eq _ _)⟩, fun hx => ?_, fun he hx => ?_⟩
  · have hover : (shiftLeftS (s.gr r1) n).2 = true := (shiftLeftS_overflow 31 (s.gr r1) n).trans (decide_eq_true hx)
    show entersProgram (((s.advance 4).setGr r1 (shiftLeftS (s.gr r1) n).1 |>.setCc
      (if (shiftLeftS (s.gr r1) n).2 = true then 3 else ccSign (shiftLeftS (s.gr r1) n).1)).overflow 4 (shiftLeftS (s.gr r1) n).2) s _ _ _ _
    rw [hover]
    exact entersOverflow_of_completes (h4.oneCc (shiftLeftS_value 31 (s.gr r1) n) rfl) hm rfl ha
  · have hover : (shiftLeftS (s.pair r1) n).2 = true := (shiftLeftS_overflow 63 (s.pair r1) n).trans (decide_eq_true hx)
    show entersProgram (execSlda r1 b2 d2 s) s _ _ _ _
    unfold execSlda State.shiftPair
    rw [guarded_ok _ _ _ _ _ (specUnless_true _ he)]
    show entersProgram ((((s.advance 4).setPair r1 (shiftLeftS (s.pair r1) n).1).setCc
      (if (shiftLeftS (s.pair r1) n).2 = true then 3 else ccSign (shiftLeftS (s.pair r1) n).1)).overflow 4 (shiftLeftS (s.pair r1) n).2) s _ _ _ _
    rw [hover]
    exact entersOverflow_of_completes (h4.pairCc he (shiftLeftS_value 63 (s.pair r1) n) rfl) hm rfl ha

-- division

/-- The quotient and the remainder of a division that truncates toward zero are the only ones of this kind (R328). -/
theorem truncated_division {n d q m : Int} (h : n = q * d + m) (hm : m.natAbs < d.natAbs) (hs : m = 0 ∨ (m < 0 ↔ n < 0)) :
    n.tdiv d = q ∧ n.tmod d = m := by
  have hd : d ≠ 0 := by omega
  have he : m + d * q = n := by rw [h, Int.mul_comm, Int.add_comm]
  rcases Int.lt_or_le n 0 with hn | hn
  · exact (Int.tdiv_tmod_unique' (Int.le_of_lt hn) hd).mpr ⟨he, by omega, by omega⟩
  · exact (Int.tdiv_tmod_unique hn hd).mpr ⟨he, by omega, by omega⟩

/-- DIVIDE (R328) by a divisor that is zero gives no quotient, nor does it where the quotient does not fit. -/
theorem divideS_eq {n : DWord} {d : Word} {q m : Int} (h : n.toInt = q * d.toInt + m) (hm : m.natAbs < d.toInt.natAbs)
    (hs : m = 0 ∨ (m < 0 ↔ n.toInt < 0)) : divideS n d = if fitsWord q then some (BitVec.ofInt 32 q, BitVec.ofInt 32 m) else none := by
  have hd : d ≠ 0 := by
    rintro rfl
    rw [zero_toInt] at hm
    omega
  obtain ⟨hq, hr⟩ := truncated_division h hm hs
  unfold divideS
  rw [if_neg hd]
  simp only [hq, hr]
  by_cases hf : fitsWord q
  · rw [if_pos hf, if_neg (by omega)]
  · rw [if_neg hf, if_pos (by omega)]

theorem Advanced.pair_eq {s u : State} {n : Nat} (b : Advanced s u n) (r : Reg) : u.pair r = s.pair r := by
  unfold State.pair
  rw [b.gr, b.gr]

/-- An exception reported when the instruction address is updated and no register replaced. -/
theorem Advanced.reports {s u : State} {n : Nat} (b : Advanced s u n) (x : ProgExc) (ha : s.prefixAreaAssigned = true) :
    suppresses (u.report n x) s n x.code := by
  unfold State.report
  rw [b.ilcOf]
  exact programInterruption_enters _ _ ha b.quiet (registers_none b.gr b.ar b.cr) b.psw

theorem Advanced.divides {s u : State} {len : Nat} (b : Advanced s u len) {r1 : Reg} {d : Word} {q m : Word} (he : evenReg r1 = true)
    (h : divideS (s.pair r1) d = some (q, m)) :
    completes (u.divideInto len r1 d) s { psw := pswNext s len, grs := [(r1, m), (oddOf r1, q)] } := by
  unfold State.divideInto
  rw [b.pair_eq, h]
  have hp := b.pair (w := m ++ q) he rfl
  rwa [field_append_high, field_append_low] at hp

theorem Advanced.cannotDivide {s u : State} {len : Nat} (b : Advanced s u len) {r1 : Reg} {d : Word} (h : divideS (s.pair r1) d = none)
    (ha : s.prefixAreaAssigned = true) : suppresses (u.divideInto len r1 d) s len 9 := by
  unfold State.divideInto
  rw [b.pair_eq, h]
  exact b.reports .fixedPointDivide ha

/-- Settles O7: `divideS` is the truncating division. -/
theorem division : Obligations.Division := by
  unfold Obligations.Division
  intro s r1 r2 x2 b2 d2 q m he ea n e divides
  have quotient {d : Word} (h : divides d.toInt) (hq : fitsWord q) :
      divideS (s.pair r1) d = some (BitVec.ofInt 32 q, BitVec.ofInt 32 m) := (divideS_eq h.1 h.2.1 h.2.2).trans (if_pos hq)
  have noQuotient {d : Word} (h : d = 0 ∨ divides d.toInt ∧ ¬ fitsWord q) : divideS (s.pair r1) d = none := by
    rcases h with h | ⟨h, hq⟩
    · exact if_pos h
    · exact (divideS_eq h.1 h.2.1 h.2.2).trans (if_neg hq)
  have dr : execDr r1 r2 s = (s.advance 2).divideInto 2 r1 (s.gr r2) := guarded_ok _ _ _ _ _ (specUnless_true _ he)
  rw [show exec (.dr r1 r2) s = execDr r1 r2 s from rfl, dr]
  refine ⟨fun h hq => (Advanced.start s 2).divides he (quotient h hq), fun hf h hq => ?_,
    fun ha => ⟨fun h => (Advanced.start s 2).cannotDivide (noQuotient h) ha, fun hf h => ?_⟩⟩
  · show completes (execD r1 x2 b2 d2 s) s _
    exact withFetch_completes (specUnless_true _ he) hf fun _ hu => hu.divides he (quotient h hq)
  · show suppresses (execD r1 x2 b2 d2 s) s 4 9
    exact withFetch_of (P := fun o => suppresses o s 4 9) (specUnless_true _ he) hf fun _ hu => hu.cannotDivide (noQuotient h) ha

-- odd registers

/-- A specification exception of the operands, where no access exception competes. -/
theorem specification_suppresses {s : State} {len : Nat} {r : Results} {faults : List ProgExc} {k : State → Out} (ok : Bool) (hs : ok = false)
    (h : faults = []) (ha : s.prefixAreaAssigned = true) : suppresses (s.guarded len r (specUnless ok ++ faults) k) s len 6 :=
  guarded_suppresses s len r _ k .specification (by rw [specUnless_false _ hs, h]; rfl) rfl ha

theorem shiftPair_suppresses {s : State} {r1 : Reg} {k : State → DWord → Out} (he : evenReg r1 = false) (ha : s.prefixAreaAssigned = true) :
    suppresses (s.shiftPair r1 k) s 4 6 := by
  unfold State.shiftPair
  exact guarded_suppresses s 4 _ _ _ .specification (specUnless_false _ he) rfl ha

theorem interlocked_suppresses {s : State} {r : Results} (ok : Bool) {b2 : Reg} {ea : Addr} {n : Nat} {equal : List Byte → Bool}
    {new : List Byte} {loaded : State → List Byte → State} (hs : ok = false) (h : storable s b2 ea n) (ha : s.prefixAreaAssigned = true) :
    suppresses (s.interlocked r (specUnless ok) b2 ea n equal new loaded) s 4 6 := by
  unfold State.interlocked
  exact specification_suppresses ok hs h ha

/-- Settles O8: the specification exception of an odd register is the only exception of the instruction. -/
theorem oddRegisterPair : Obligations.OddRegisterPair := by
  unfold Obligations.OddRegisterPair
  intro s r1 r2 r3 x2 b2 d2 he ha
  have spec (k : State → Out) : suppresses (s.guarded 2 {} (specUnless (evenReg r1)) k) s 2 6 :=
    guarded_suppresses s 2 _ _ k .specification (specUnless_false _ he) rfl ha
  have cds (p q : Reg) (hp : (evenReg p && evenReg q) = false) (h : storable s b2 (s.eaBD b2 d2) 8) :
      suppresses (execCds p q b2 d2 s) s 4 6 := by
    unfold execCds
    exact interlocked_suppresses _ (by rw [hp, Bool.false_and]) h ha
  have mr : suppresses (execMr r1 r2 s) s 2 6 := spec _
  have dr : suppresses (execDr r1 r2 s) s 2 6 := spec _
  have sldl : suppresses (execSldl r1 b2 d2 s) s 4 6 := shiftPair_suppresses he ha
  have srdl : suppresses (execSrdl r1 b2 d2 s) s 4 6 := shiftPair_suppresses he ha
  have slda : suppresses (execSlda r1 b2 d2 s) s 4 6 := shiftPair_suppresses he ha
  have srda : suppresses (execSrda r1 b2 d2 s) s 4 6 := shiftPair_suppresses he ha
  have m (h : fetchable s b2 (s.ea b2 x2 d2) 4) : suppresses (execM r1 x2 b2 d2 s) s 4 6 := withFetch_suppresses s 4 _ _ _ b2 _ 4 _ he h ha
  have d (h : fetchable s b2 (s.ea b2 x2 d2) 4) : suppresses (execD r1 x2 b2 d2 s) s 4 6 := withFetch_suppresses s 4 _ _ _ b2 _ 4 _ he h ha
  exact ⟨mr, dr, sldl, srdl, slda, srda, fun h => ⟨m h, d h⟩,
    fun h => ⟨cds r1 r3 (by rw [he, Bool.false_and]) h, cds r3 r1 (by rw [he, Bool.and_false]) h⟩⟩

end Sys2Proof.Machine
end

section
/-! Byte strings, and the loads of registers from storage (spec/45_base_subset.md R305 to R309, R337 to R339, R349, spec/41_access_register_instructions.md
R214, R384): the comparison of byte strings as numbers, the bytes of a word, and the words of an operand. -/

namespace Sys2Proof.Machine

open Sys2Proof.Safety

-- byte strings as numbers

theorem bytesNat_lt (l : List Byte) : bytesNat l < 256 ^ l.length := by
  induction l with
  | nil => exact Nat.one_pos
  | cons b l ih =>
    have hb : b.toNat < 256 := b.isLt
    have hm := Nat.mul_le_mul_right (256 ^ l.length) (Nat.lt_succ_iff.mp hb)
    rw [bytesNat, List.length_cons, Nat.pow_succ]
    omega

theorem bytesNat_cons_lt {a b : Byte} {x y : List Byte} (h : a.toNat < b.toNat) (hl : x.length = y.length) :
    bytesNat (a :: x) < bytesNat (b :: y) := by
  have hx := bytesNat_lt x
  have hm := Nat.mul_le_mul_right (256 ^ x.length) h
  rw [Nat.succ_mul] at hm
  rw [bytesNat, bytesNat, ← hl]
  omega

theorem cmpL_add (k m n : Nat) : cmpL (k + m) (k + n) = cmpL m n := by
  simp only [cmpL, Nat.add_left_cancel_iff, Nat.add_lt_add_iff_left]

theorem cmpL_of_lt {m n : Nat} (h : m < n) : cmpL m n = 1 := by
  rw [cmpL, if_neg (Nat.ne_of_lt h), if_pos h]

theorem cmpL_of_gt {m n : Nat} (h : n < m) : cmpL m n = 2 := by
  rw [cmpL, if_neg (Nat.ne_of_gt h), if_neg (Nat.lt_asymm h)]

/-- Byte strings of one length are in the order of their first unequal bytes (R337). -/
theorem cmpL_bytesNat {x y : List Byte} {c : BitVec 2} (hl : x.length = y.length) (h : stringOrder x y c) : cmpL (bytesNat x) (bytesNat y) = c := by
  rcases h with ⟨rfl, rfl⟩ | ⟨k, hk, hp, h⟩
  · exact if_pos rfl
  · induction x generalizing y k with
    | nil => cases hk
    | cons a x ih =>
      cases y with
      | nil => cases hl
      | cons b y =>
        have hlen : x.length = y.length := Nat.succ.inj hl
        cases k with
        | zero =>
          rcases h with ⟨h, rfl⟩ | ⟨h, rfl⟩
          · exact cmpL_of_lt (bytesNat_cons_lt h hlen)
          · exact cmpL_of_gt (bytesNat_cons_lt h hlen.symm)
        | succ k =>
          obtain ⟨rfl, hq⟩ := List.cons.inj hp
          rw [bytesNat, bytesNat, ← hlen, cmpL_add]
          exact ih hlen k (Nat.lt_of_succ_lt_succ hk) hq h

theorem bytesNat_eq_zero_iff (l : List Byte) : bytesNat l = 0 ↔ ∀ b, b ∈ l → b = 0 := by
  induction l with
  | nil => simp [bytesNat]
  | cons a l ih =>
    have hp : 256 ^ l.length ≠ 0 := Nat.ne_of_gt (Nat.pow_pos (by decide))
    rw [bytesNat, Nat.add_eq_zero_iff, Nat.mul_eq_zero, or_iff_left hp, ih, List.forall_mem_cons, ← BitVec.toNat_inj]
    rfl

-- bits under a mask (R349)

theorem byte_eq_iff (x y : Byte) : x = y ↔ ∀ k, k < 8 → bitAt x k = bitAt y k := by
  refine ⟨fun h _ _ => h ▸ rfl, fun h => BitVec.eq_of_getMsbD_eq fun k hk => h k hk⟩

theorem selected_zero_iff (v i : Byte) : v &&& i = 0 ↔ (List.range 8).all (fun k => !(bitAt i k && bitAt v k)) = true := by
  rw [byte_eq_iff, List.all_eq_true]
  simp only [List.mem_range, bitAt, BitVec.getMsbD_and, BitVec.ofNat_eq_ofNat, BitVec.getMsbD_zero, Bool.not_eq_true', Bool.and_comm (v.getMsbD _)]

theorem selected_ones_iff (v i : Byte) : v &&& i = i ↔ (List.range 8).all (fun k => !bitAt i k || bitAt v k) = true := by
  rw [byte_eq_iff, List.all_eq_true]
  simp only [List.mem_range, bitAt, BitVec.getMsbD_and]
  refine forall_congr' fun k => imp_congr_right fun _ => ?_
  cases v.getMsbD k <;> cases i.getMsbD k <;> decide

/-- An instruction whose exceptions do not occur completes as it goes on. -/
theorem guarded_completes {s : State} {len : Nat} {r : Results} {faults : List ProgExc} {k : State → Out} {e : Effect} (h : faults = [])
    (hk : completes (k (s.advance len)) s e) : completes (s.guarded len r faults k) s e := by
  rw [guarded_ok s len r faults k h]
  exact hk

/-- Settles O10: strings of one length compare as numbers; with a zero mask CLM fetches nothing, and CLC nothing beyond the first unequal byte. -/
theorem comparisonOfStrings : Obligations.ComparisonOfStrings := by
  unfold Obligations.ComparisonOfStrings
  intro s len r1 m3 b1 b2 d1 d2 i c e1 e2
  have clc (h1 : fetchable s b1 e1 len) (h2 : fetchable s b2 e2 len) (h : stringOrder (operand s b1 e1 len) (operand s b2 e2 len) c) :
      completes (execClc len b1 d1 b2 d2 s) s { psw := pswCc s 6 c } := by
    unfold execClc
    dsimp only
    generalize min len _ = m
    rw [show s.operandFaults operandCheck false b1 (s.eaBD b1 d1) len = [] from h1,
      show s.operandFaults operandCheck false b2 (s.eaBD b2 d2) len = [] from h2]
    refine guarded_completes (by split <;> rfl) ?_
    exact (((Advanced.start s 6).fetch _ _).fetch _ _).cc (cmpL_bytesNat ((operand_length ..).trans (operand_length ..).symm) h)
  have clm (hm : m3 ≠ 0) (hf : fetchable s b2 e2 (maskBytes m3).length)
      (h : stringOrder (selectedBytes (s.gr r1) m3) (operand s b2 e2 (maskBytes m3).length) c) :
      completes (execClm r1 m3 b2 d2 s) s { psw := pswCc s 4 c } := by
    unfold execClm
    rw [if_neg hm]
    refine testStorage_completes hf (cmpL_bytesNat ?_ h)
    rw [operand_length]
    exact List.length_map _
  have clmZero (hf : fetchable s b2 e2 1) : completes (execClm r1 0 b2 d2 s) s { psw := pswCc s 4 0 } := by
    unfold execClm
    rw [if_pos rfl, show s.operandFaults operandCheck false b2 (s.eaBD b2 d2) 1 = [] from hf]
    exact guarded_completes rfl ((Advanced.start s 4).cc rfl)
  refine ⟨clc, clm, clmZero, fun hf => ?_⟩
  show completes (execTm i b1 d1 s) s _
  refine testStorage_completes hf ?_
  have hzero (v : Byte) : (i = 0 ∨ v &&& i = 0) ↔ v &&& i = 0 := or_iff_right_of_imp fun h => h.symm ▸ BitVec.and_zero
  simp only [hzero]
  simp only [selected_zero_iff, selected_ones_iff]
  rfl

-- the bytes of a word

theorem lt_four {k : Nat} (hk : k < 4) : k = 0 ∨ k = 1 ∨ k = 2 ∨ k = 3 := by omega

theorem byteOf_eq_getD (v : Word) {k : Nat} (hk : k < 4) : byteOf v k = (bytes32 v).getD k 0 := by
  obtain rfl | rfl | rfl | rfl := lt_four hk
  all_goals rfl

/-- One byte of a word replaced (R338). -/
theorem byteOf_setByteOf (v : Word) (i : Nat) (b : Byte) {k : Nat} (hk : k < 4) :
    byteOf (setByteOf v i b) k = if k = i then b else byteOf v k := by
  rw [byteOf_eq_getD _ hk]
  unfold setByteOf
  rw [show (List.range 4).map (fun j => if j = i then b else byteOf v j) =
    [if 0 = i then b else byteOf v 0, if 1 = i then b else byteOf v 1, if 2 = i then b else byteOf v 2, if 3 = i then b else byteOf v 3] from rfl,
    bytes32_be32]
  obtain rfl | rfl | rfl | rfl := lt_four hk
  all_goals rfl

/-- The bytes that a mask selects are replaced in order, and the others are unchanged (R338). -/
theorem byteOf_insertBytes (ks : List Nat) (bs : List Byte) (v : Word) (hd : ks.Nodup) (hl : bs.length = ks.length) {k : Nat} (hk : k < 4) :
    byteOf (insertBytes v ks bs) k = if k ∈ ks then bs.getD (ks.idxOf k) 0 else byteOf v k := by
  induction ks generalizing bs v with
  | nil =>
    rw [List.eq_nil_of_length_eq_zero hl]
    rfl
  | cons j ks ih =>
    cases bs with
    | nil => cases hl
    | cons b bs =>
      obtain ⟨hj, hd⟩ := List.nodup_cons.mp hd
      rw [insertBytes, ih bs _ hd (Nat.succ.inj hl), byteOf_setByteOf _ _ _ hk]
      by_cases hkj : k = j
      · subst hkj
        rw [if_neg hj, if_pos rfl, if_pos (List.mem_cons_self ..), List.idxOf_cons_self]
        rfl
      · rw [if_neg hkj, List.idxOf_cons, beq_false_of_ne (Ne.symm hkj), cond_false]
        simp only [List.mem_cons, hkj, false_or, List.getD_cons_succ]

theorem mem_maskBytes (m : BitVec 4) {k : Nat} (hk : k < 4) : k ∈ maskBytes m ↔ bitAt m k = true := by
  unfold maskBytes
  rw [List.mem_filter, List.mem_range]
  exact and_iff_right hk

theorem maskBytes_nodup (m : BitVec 4) : (maskBytes m).Nodup := List.nodup_range.filter _

theorem maskBytes_ne_nil (m : BitVec 4) (h : m ≠ 0) : 1 ≤ (maskBytes m).length := by
  revert h
  revert m
  decide

/-- The bytes of a word below the one replaced by INSERT CHARACTER (R306). -/
theorem setByteOf_last (v : Word) (b : Byte) : setByteOf v 3 b = field v 0 24 ++ b := by
  have h : setByteOf v 3 b = byteOf v 0 ++ byteOf v 1 ++ byteOf v 2 ++ b := rfl
  rw [h]
  unfold byteOf field
  apply BitVec.eq_of_getLsbD_eq
  intro k hk
  simp only [BitVec.getLsbD_append, BitVec.getLsbD_extractLsb']
  grind

/-- Settles O13: each instruction is one completion of `Advanced` from the bytes fetched. -/
theorem loadsFromStorage : Obligations.LoadsFromStorage := by
  unfold Obligations.LoadsFromStorage
  intro s r1 m3 x2 b2 d2 ea em bytes
  have l (h : fetchable s b2 ea 4) : completes (execL r1 x2 b2 d2 s) s _ := withFetch_completes rfl h fun _ hu => hu.one rfl
  have lh (h : fetchable s b2 ea 2) : completes (execLh r1 x2 b2 d2 s) s _ := withFetch_completes rfl h fun _ hu => hu.one (sext32_eq_ofInt _)
  have ic (h : fetchable s b2 ea 1) : completes (execIc r1 x2 b2 d2 s) s _ := withFetch_completes rfl h fun _ hu => hu.one (setByteOf_last _ _)
  refine ⟨l, lh, ic, fun h => ?_⟩
  have icm {v : Word} {c : BitVec 2} (hv : insertBytes (s.gr r1) (maskBytes m3) (operand s b2 em (max 1 (maskBytes m3).length)) = v)
      (hc : (if m3 = 0 then 0 else ccInserted (operand s b2 em (max 1 (maskBytes m3).length))) = c) :
      completes (execIcm r1 m3 b2 d2 s) s { psw := pswCc s 4 c, grs := [(r1, v)] } := withFetch_completes rfl h fun _ hu => hu.oneCc hv hc
  by_cases hm : m3 = 0
  · subst hm
    refine ⟨s.gr r1, fun k hk => ?_, icm rfl rfl⟩
    rw [if_neg (by simp [bitAt])]
  · have hmax : max 1 (maskBytes m3).length = (maskBytes m3).length := Nat.max_eq_right (maskBytes_ne_nil m3 hm)
    rw [hmax] at icm
    refine ⟨insertBytes (s.gr r1) (maskBytes m3) bytes, fun k hk => ?_, icm rfl ?_⟩
    · rw [byteOf_insertBytes _ _ _ (maskBytes_nodup m3) (operand_length ..) hk]
      simp only [mem_maskBytes m3 hk]
      rfl
    · rw [if_neg hm, ccInserted]
      simp only [bytesNat_eq_zero_iff]
      rfl

-- the words of an operand

theorem operandBytes_add (s : State) (t : Target) (ea : Addr) (m n : Nat) :
    s.operandBytes t ea (m + n) = s.operandBytes t ea m ++ s.operandBytes t (ea + BitVec.ofNat 31 m) n := by
  unfold State.operandBytes State.addrs operandAddrs
  simp only [List.range_add, List.map_append, List.map_map]
  refine congrArg _ (List.map_congr_left fun i _ => ?_)
  simp only [Function.comp_apply, BitVec.ofNat_add, BitVec.add_assoc]

theorem wordsOf_append {x : List Byte} (y : List Byte) (h : x.length = 4) : wordsOf (x ++ y) = be32 x :: wordsOf y := by
  match x, h with
  | [_, _, _, _], _ => rfl

theorem wordsOf_operandBytes (s : State) (t : Target) (ea : Addr) (n : Nat) :
    wordsOf (s.operandBytes t ea (4 * n)) = (List.range n).map (fun i => be32 (s.operandBytes t (ea + BitVec.ofNat 31 (4 * i)) 4)) := by
  induction n generalizing ea with
  | zero => rfl
  | succ n ih =>
    rw [Nat.mul_succ, Nat.add_comm, operandBytes_add, List.range_succ_eq_map, List.map_cons, List.map_map]
    rw [wordsOf_append _ rfl, ih]
    refine List.cons_eq_cons.mpr ⟨?_, List.map_congr_left fun i _ => ?_⟩
    · exact congrArg (fun a => be32 (s.operandBytes t a 4)) (BitVec.add_zero ea).symm
    · simp only [Function.comp_apply, BitVec.add_assoc, ← BitVec.ofNat_add, Nat.mul_succ, Nat.add_comm]

/-- The registers R1 to R3 with the words of an operand (R309). -/
theorem regRange_zip_words (s : State) (t : Target) (ea : Addr) (r1 r3 : Reg) :
    (regRange r1 r3).zip (wordsOf (s.operandBytes t ea (4 * (regRange r1 r3).length))) =
      (List.range ((r3 - r1).toNat + 1)).map
        (fun i => (r1 + BitVec.ofNat 4 i, be32 (s.operandBytes t (ea + BitVec.ofNat 31 (4 * i)) 4))) := by
  rw [show (regRange r1 r3).length = (r3 - r1).toNat + 1 by simp [regRange], wordsOf_operandBytes]
  exact List.zip_map'

theorem regRange_length (r1 r3 : Reg) : (regRange r1 r3).length = (r3 - r1).toNat + 1 := by
  unfold regRange
  rw [List.length_map, List.length_range]

/-- Settles O14: the registers are distinct, and the words those of the operand as it was resolved before the instruction. -/
theorem loadsOfSeveralRegisters : Obligations.LoadsOfSeveralRegisters := by
  unfold Obligations.LoadsOfSeveralRegisters
  intro s r1 r3 b2 d2 ea n words h
  have hwords : (regRange r1 r3).zip (wordsOf (operand s b2 ea (4 * (regRange r1 r3).length))) = words := regRange_zip_words s _ ea r1 r3
  have hd : (words.map Prod.fst).Nodup := by
    rw [List.map_map]
    exact regRange_nodup r1 r3
  have hn : s.operandFaults operandCheck false b2 ea (4 * (regRange r1 r3).length) = [] := by
    rw [regRange_length]
    exact h
  have lm : completes (execLm r1 r3 b2 d2 s) s { psw := pswNext s 4, grs := words } := by
    unfold execLm
    refine withFetch_completes rfl hn fun u hu => ?_
    rw [hwords]
    exact hu.several words hd
  refine ⟨lm, fun ha => ?_, fun ha hp => ?_⟩
  · show completes (execLam r1 r3 b2 d2 s) s _
    unfold execLam
    refine withFetch_completes (specUnless_true _ ha) hn fun u hu => ?_
    rw [hwords]
    exact hu.severalArs words hd
  · show completes (execLctl r1 r3 b2 d2 s) s _
    unfold execLctl
    rw [supervisorOnly_ok _ _ _ hp]
    refine withFetch_completes (specUnless_true _ ha) hn fun u hu => ?_
    rw [hwords]
    exact hu.severalCrs words hd

end Sys2Proof.Machine
end

section
/-! The stores of registers and of immediate bytes, and the interlocked updates (spec/45_base_subset.md R310 to R314, R342 to R348, R374, R380, R381,
spec/41_access_register_instructions.md R215, R385). -/

namespace Sys2Proof.Machine

open Sys2Proof.Safety

-- one byte

theorem addrs_one_eaBD (s : State) (b : Reg) (d : Disp) : s.addrs (s.eaBD b d) 1 = [s.eaBD b d] := addrs_one s b 0 d

theorem operand_one (s : State) (b : Reg) (d : Disp) : operand s b (s.eaBD b d) 1 = [s.byteAt (s.target b) (s.eaBD b d)] := by
  unfold operand State.operandBytes
  rw [addrs_one_eaBD]
  rfl

theorem storeOperand_one (s : State) (len : Nat) (t : Target) (b : Reg) (d : Disp) (v : Byte) :
    (s.advance len).storeByte t (s.eaBD b d) v = (s.advance len).storeOperand t (s.eaBD b d) [v] := by
  unfold State.storeOperand
  rw [show (s.advance len).addrs (s.eaBD b d) [v].length = [s.eaBD b d] from addrs_one_eaBD s b d]
  rfl

/-- NI, OI and XI (R342): the byte is fetched, combined and stored, and the condition code says whether it is zero. -/
theorem bitsImmediate_completes {s : State} {i : Byte} {b1 : Reg} {d1 : Disp} {f : Byte → Byte → Byte} (h : storable s b1 (s.eaBD b1 d1) 1) :
    let w := f ((operand s b1 (s.eaBD b1 d1) 1).headD 0) i
    completesStore (s.bitsImmediate i b1 d1 f) s { psw := pswCc s 4 (if w = 0 then 0 else 1) } (operandSpace s b1)
      (storedCells s b1 (s.eaBD b1 d1) [w]) := by
  unfold State.bitsImmediate
  rw [withUpdate_ok s 4 _ _ _ _ _ h, storeOperand_one, operand_one]
  exact stored_cc_completes s 4 b1 _ _ _ h (show 1 ≤ 2 ^ 24 by decide)

/-- Settles O12: MVI is a store, and the others an update of one byte. -/
theorem immediateToStorage : Obligations.ImmediateToStorage := by
  unfold Obligations.ImmediateToStorage
  intro s i b1 d1 ea v e h
  have mvi : completesStore (execMvi i b1 d1 s) s { psw := pswNext s 4 } (operandSpace s b1) (storedCells s b1 ea [i]) :=
    withStore_completes s 4 {} [] b1 ea [i] rfl h (show 1 ≤ 2 ^ 24 by decide)
  have ni : completesStore (execNi i b1 d1 s) s (e (v &&& i)) (operandSpace s b1) (storedCells s b1 ea [v &&& i]) :=
    bitsImmediate_completes (f := fun a b => a &&& b) h
  have oi : completesStore (execOi i b1 d1 s) s (e (v ||| i)) (operandSpace s b1) (storedCells s b1 ea [v ||| i]) :=
    bitsImmediate_completes (f := fun a b => a ||| b) h
  have xi : completesStore (execXi i b1 d1 s) s (e (v ^^^ i)) (operandSpace s b1) (storedCells s b1 ea [v ^^^ i]) :=
    bitsImmediate_completes (f := fun a b => a ^^^ b) h
  exact ⟨mvi, ni, oi, xi⟩

-- registers

theorem bytes16_low (v : Word) : bytes16 (field v 16 16) = [byteOf v 2, byteOf v 3] := by
  unfold bytes16 byteOf field
  congr 1
  · rw [BitVec.extractLsb'_extractLsb'_of_le (by decide)]
  · rw [BitVec.extractLsb'_extractLsb'_of_le (by decide)]

theorem maybe_nil (s : State) : s.maybe [] = [] := rfl

/-- Settles O15: each instruction is one store of the bytes it selects. -/
theorem storesOfOneRegister : Obligations.StoresOfOneRegister := by
  unfold Obligations.StoresOfOneRegister
  intro s r1 m3 x2 b2 d2 ea em v e
  have st (h : storable s b2 ea 4) : completesStore (execSt r1 x2 b2 d2 s) s e (operandSpace s b2) (storedCells s b2 ea (bytes32 v)) :=
    withStore_completes s 4 {} [] b2 ea (bytes32 v) rfl h (show 4 ≤ 2 ^ 24 by decide)
  have sth (h : storable s b2 ea 2) :
      completesStore (execSth r1 x2 b2 d2 s) s e (operandSpace s b2) (storedCells s b2 ea [byteOf v 2, byteOf v 3]) := by
    rw [← bytes16_low]
    exact withStore_completes s 4 {} [] b2 ea (bytes16 (field v 16 16)) rfl h (show 2 ≤ 2 ^ 24 by decide)
  have stc (h : storable s b2 ea 1) : completesStore (execStc r1 x2 b2 d2 s) s e (operandSpace s b2) (storedCells s b2 ea [byteOf v 3]) :=
    withStore_completes s 4 {} [] b2 ea [byteOf v 3] rfl h (show 1 ≤ 2 ^ 24 by decide)
  refine ⟨st, sth, stc, fun h h0 => ?_⟩
  show completesStore (execStcm r1 m3 b2 d2 s) s e _ _
  have hlen : (selectedBytes v m3).length = (maskBytes m3).length := List.length_map _
  have hfour : (maskBytes m3).length ≤ 4 := List.length_filter_le _ _
  unfold execStcm
  rw [guarded_ok]
  · exact stored_completes s 4 b2 em (selectedBytes v m3) (hlen ▸ h) (by omega)
  · split
    · rw [show s.operandFaults operandCheck true b2 _ 1 = [] from h0 ‹_›, maybe_nil]
    · exact h

theorem bytesOfWords_regRange (f : Reg → Word) (r1 r3 : Reg) :
    bytesOfWords ((regRange r1 r3).map f) = (List.range ((r3 - r1).toNat + 1)).flatMap (fun i => bytes32 (f (r1 + BitVec.ofNat 4 i))) := by
  unfold bytesOfWords regRange
  rw [List.map_map, List.flatMap_map]
  rfl

/-- Settles O16: each instruction is one store of the words of the registers. -/
theorem storesOfSeveralRegisters : Obligations.StoresOfSeveralRegisters := by
  unfold Obligations.StoresOfSeveralRegisters
  intro s r1 r3 b2 d2 ea n cells h
  have hreg (f : Reg → Word) : (bytesOfWords ((regRange r1 r3).map f)).length = 4 * n := by
    rw [bytesOfWords_length, List.length_map, regRange_length]
  have hn : n ≤ 16 := (r3 - r1).isLt
  have store (f : Reg → Word) (ok : Bool) (hok : ok = true) :
      completesStore (s.withStore 4 {} (specUnless ok) b2 ea (bytesOfWords ((regRange r1 r3).map f)) .next) s { psw := pswNext s 4 }
        (operandSpace s b2) (cells f) := by
    have := withStore_completes s 4 {} (specUnless ok) b2 ea (bytesOfWords ((regRange r1 r3).map f)) (specUnless_true _ hok)
      (by rw [hreg]; exact h) (by rw [hreg]; omega)
    rwa [bytesOfWords_regRange] at this ⊢
  refine ⟨store s.gr true rfl, fun ha => store s.ar _ ha, fun ha hp => ?_⟩
  show completesStore (execStctl r1 r3 b2 d2 s) s _ _ _
  unfold execStctl
  rw [supervisorOnly_ok _ _ _ hp]
  exact store s.cr _ ha

-- interlocked updates

theorem interlocked_equal {s : State} {r : Results} {spec : List ProgExc} {b2 : Reg} {ea : Addr} {n : Nat} {equal : List Byte → Bool}
    {new : List Byte} {loaded : State → List Byte → State} (hs : spec = []) (h : storable s b2 ea n) (hn : new.length = n) (hn' : n ≤ 8)
    (he : equal (operand s b2 ea n) = true) :
    completesStore (s.interlocked r spec b2 ea n equal new loaded) s { psw := pswCc s 4 0 } (operandSpace s b2) (storedCells s b2 ea new) := by
  subst hs hn
  unfold State.interlocked
  rw [List.nil_append, guarded_ok _ _ _ _ _ h]
  dsimp only
  rw [if_pos (show equal (s.operandBytes (s.target b2) ea new.length) = true from he)]
  exact completesStore_serialize (stored_cc_completes s 4 b2 ea new 0 h (by omega))

theorem interlocked_unequal {s : State} {r : Results} {spec : List ProgExc} {b2 : Reg} {ea : Addr} {n : Nat} {equal : List Byte → Bool}
    {new : List Byte} {loaded : State → List Byte → State} {e : Effect} (hs : spec = []) (h : storable s b2 ea n)
    (he : equal (operand s b2 ea n) = false)
    (hk : ∀ u, Advanced s u 4 → completes (.next ((loaded u (operand s b2 ea n)).setCc 1)) s e) :
    completes (s.interlocked r spec b2 ea n equal new loaded) s e := by
  subst hs
  unfold State.interlocked
  refine guarded_completes h ?_
  dsimp only
  rw [if_neg (show ¬ equal (s.operandBytes (s.target b2) ea n) = true from fun h => Bool.noConfusion (he.symm.trans h))]
  exact completes_serialize (hk _ ((Advanced.start s 4).record _ _ _))

theorem bytes64_append (x y : Word) : bytes64 (x ++ y) = bytes32 x ++ bytes32 y := by
  have h (k : Nat) (hk : k + 8 ≤ 32) : field (x ++ y) k 8 = field x k 8 := by
    unfold field
    rw [BitVec.extractLsb'_append_eq_of_le (by omega)]
    congr 1
    omega
  have l (k : Nat) (hk : k + 8 ≤ 32) : field (x ++ y) (32 + k) 8 = field y k 8 := by
    unfold field
    rw [BitVec.extractLsb'_append_eq_of_add_le (by omega)]
    congr 1
    omega
  exact list_eight (h 0 (by decide)) (h 8 (by decide)) (h 16 (by decide)) (h 24 (by decide)) (l 0 (by decide)) (l 8 (by decide))
    (l 16 (by decide)) (l 24 (by decide))

/-- Settles O19: an equal comparison is a store with condition code 0, an unequal one a load with condition code 1. -/
theorem compareAndSwap : Obligations.CompareAndSwap := by
  unfold Obligations.CompareAndSwap
  intro s r1 r3 b2 d2 ea w d
  refine ⟨fun ha h => ⟨fun he => ?_, fun hne => ?_⟩, fun h1 h3 ha h => ?_⟩
  · show completesStore (execCs r1 r3 b2 d2 s) s _ _ _
    unfold execCs
    exact interlocked_equal (specUnless_true _ ha) h rfl (by decide) (beq_iff_eq.mpr he)
  · show completes (execCs r1 r3 b2 d2 s) s _
    unfold execCs
    exact interlocked_unequal (specUnless_true _ ha) h (beq_eq_false_iff_ne.mpr hne) fun _ hu => hu.oneCc rfl rfl
  · have hok : (evenReg r1 && evenReg r3 && aligned ea 8) = true := by rw [h1, h3, ha]; rfl
    refine ⟨fun he => ?_, fun hne => ?_⟩
    · show completesStore (execCds r1 r3 b2 d2 s) s _ _ _
      unfold execCds State.pair
      rw [bytes64_append]
      exact interlocked_equal (specUnless_true _ hok) h rfl (by decide) (beq_iff_eq.mpr he)
    · show completes (execCds r1 r3 b2 d2 s) s _
      unfold execCds
      exact interlocked_unequal (specUnless_true _ hok) h (beq_eq_false_iff_ne.mpr hne) fun _ hu => hu.pairCc h1 rfl rfl

end Sys2Proof.Machine
end

section
/-! The string instructions (spec/45_base_subset.md R375 to R378): the byte-by-byte operation of two operands, and what it is where they share no byte
and where they overlap by all but one byte. -/

namespace Sys2Proof.Machine

open Sys2Proof.Safety

variable {s : State} {len : Nat} {b1 b2 : Reg} {d1 d2 : Disp}

/-- The absolute addresses of the bytes of two operands, in pairs. -/
def operandPairs (s : State) (len : Nat) (b1 b2 : Reg) (e1 e2 : Addr) : List (Addr × Addr) :=
  (operandCells s b1 e1 len).zip (operandCells s b2 e2 len)

theorem operandCells_length (s : State) (b : Reg) (ea : Addr) (n : Nat) : (operandCells s b ea n).length = n := by
  simp [operandCells, State.addrs, operandAddrs]

theorem operandPairs_fst (s : State) (len : Nat) (b1 b2 : Reg) (e1 e2 : Addr) :
    (operandPairs s len b1 b2 e1 e2).map Prod.fst = operandCells s b1 e1 len :=
  List.map_fst_zip (Nat.le_of_eq (by rw [operandCells_length, operandCells_length]))

theorem operandCells_nodup (s : State) (b : Reg) (ea : Addr) (n : Nat) (h : n ≤ 2 ^ 24) : (operandCells s b ea n).Nodup :=
  absolute_nodup s _ _ (operandAddrs_nodup _ _ _ h)

/-- The bytes of storage, by space and absolute address. -/
def contents (s : State) (i : SpaceId) (a : Addr) : Byte := (s.space i).byte a

/-- Everything a string instruction does before its condition code (R375). -/
structure StringDone (s u : State) (v : Byte) (len : Nat) (b1 b2 : Reg) (e1 e2 : Addr) (f : Byte → Byte → Byte) : Prop where
  serial : Serial (s.advance 6) u
  bytes : ∀ i a, (u.space i).byte a = stringBytes f (operandSpace s b1) (operandSpace s b2) (operandPairs s len b1 b2 e1 e2) (contents s) i a
  zero : v = 0 ↔ ∀ a, a ∈ operandCells s b1 e1 len →
    stringBytes f (operandSpace s b1) (operandSpace s b2) (operandPairs s len b1 b2 e1 e2) (contents s) (operandSpace s b1) a = 0
  recorded : ∀ a, a ∈ operandCells s b1 e1 len →
    keyReference ((u.space (operandSpace s b1)).key (blockOf a)) = true ∧ keyChange ((u.space (operandSpace s b1)).key (blockOf a)) = true

theorem stringOp_done {r : Results} {f : Byte → Byte → Byte} {k : State → Byte → Out} (hlen : len ≤ 256) (h1 : storable s b1 (s.eaBD b1 d1) len)
    (h2 : fetchable s b2 (s.eaBD b2 d2) len) :
    ∃ u v, s.stringOp r len b1 d1 b2 d2 f k = k u v ∧ StringDone s u v len b1 b2 (s.eaBD b1 d1) (s.eaBD b2 d2) f := by
  have hop : s.stringOp r len b1 d1 b2 d2 f k =
      (fun o : State × Byte => k o.1 o.2) (State.byteSerial (s.target b1) (s.target b2) f
        ((s.addrs (s.eaBD b1 d1) len).zip (s.addrs (s.eaBD b2 d2) len)) (s.advance 6)) := by
    unfold State.stringOp
    rw [guarded_ok]
    rw [show s.operandFaults operandCheck true b1 (s.eaBD b1 d1) len = [] from h1,
      show s.operandFaults operandCheck false b2 (s.eaBD b2 d2) len = [] from h2]
    rfl
  refine ⟨_, _, hop, ?_⟩
  have hpairs : absolutePairs (s.advance 6) (s.target b1) (s.target b2) ((s.addrs (s.eaBD b1 d1) len).zip (s.addrs (s.eaBD b2 d2) len)) =
      operandPairs s len b1 b2 (s.eaBD b1 d1) (s.eaBD b2 d2) := absolutePairs_zip (s.advance 6) _ _ _ _
  have hm (i : SpaceId) (a : Addr) : ((s.advance 6).space i).byte a = contents s i a := by rw [State.advance_space]; rfl
  rcases Nat.eq_zero_or_pos len with rfl | hpos
  · exact ⟨Serial.refl _, hm, ⟨fun _ a ha => absurd ha List.not_mem_nil, fun _ => rfl⟩, fun a ha => absurd ha List.not_mem_nil⟩
  · have hk : (s.advance 6).knows (s.target b1).space = true := knows_of_operand s _ _ b1 _ len hpos h1
    have hfst := operandPairs_fst s len b1 b2 (s.eaBD b1 d1) (s.eaBD b2 d2)
    refine ⟨byteSerial_serial _ _ _ _ _, fun i a => ?_, ?_, ?_⟩
    · rw [byteSerial_bytes _ _ _ _ _ hk _ hm, hpairs]
      rfl
    · have hd := operandCells_nodup s b1 (s.eaBD b1 d1) len (by omega)
      have := byteSerial_or (s.target b1) (s.target b2) f ((s.addrs (s.eaBD b1 d1) len).zip (s.addrs (s.eaBD b2 d2) len)) (s.advance 6) hk _ hm
        (by rw [hpairs, hfst]; exact hd)
      rwa [hpairs, hfst] at this
    · have := byteSerial_recorded (s.target b1) (s.target b2) f ((s.addrs (s.eaBD b1 d1) len).zip (s.addrs (s.eaBD b2 d2) len)) (s.advance 6) hk
      rwa [hpairs, hfst] at this

theorem StringDone.psw {u : State} {v : Byte} {e1 e2 : Addr} {f : Byte → Byte → Byte} (h : StringDone s u v len b1 b2 e1 e2 f) :
    u.cpu.psw = pswNext s 6 := h.serial.psw

theorem StringDone.registers {u : State} {v : Byte} {e1 e2 : Addr} {f : Byte → Byte → Byte} (h : StringDone s u v len b1 b2 e1 e2 f) (p : Psw) :
    (Effect.mk p [] [] []).onRegisters s u := ⟨h.serial.gr, h.serial.ar, h.serial.cr⟩

theorem StringDone.keys {u : State} {v : Byte} {e1 e2 : Addr} {f : Byte → Byte → Byte} (h : StringDone s u v len b1 b2 e1 e2 f) : keysKept s u :=
  keysKept_trans ((Quiet.refl s).advance 6).keys h.serial.keys

/-- Settles O17: the bytes are those of `byteSerial`, whose OR of the result bytes is zero exactly where they all are. -/
theorem stringInstructions : Obligations.StringInstructions := by
  unfold Obligations.StringInstructions
  intro s len b1 b2 d1 d2 hlen e1 e2 pairs result done cc h1 h2
  have withCc (f : Byte → Byte → Byte) :
      done (s.stringOp setsCc len b1 d1 b2 d2 f (fun s1 v => .next (s1.setCc (ccZero v)))) f (pswCc s 6 (cc f)) := by
    obtain ⟨u, v, hop, h⟩ := stringOp_done (r := setsCc) (f := f) (k := fun s1 v => .next (s1.setCc (ccZero v))) hlen h1 h2
    have hcc : ccZero v = cc f := by
      unfold ccZero
      simp only [h.zero]
      rfl
    refine ⟨_, hop, ?_, ⟨h.serial.gr, h.serial.ar, h.serial.cr⟩, fun i a => ?_, fun i k => ?_, ?_⟩
    · rw [State.setCc_cpu_psw, h.psw, hcc]
      rfl
    · rw [State.setCc_space]
      exact h.bytes i a
    · rw [State.setCc_space]
      exact h.keys i k
    · exact h.serial.rest
  have mvc : done (execMvc len b1 d1 b2 d2 s) (fun _ y => y) (pswNext s 6) := by
    obtain ⟨u, v, hop, h⟩ := stringOp_done (r := {}) (f := fun _ y => y) (k := fun s1 _ => .next s1) hlen h1 h2
    exact ⟨u, hop, h.psw, h.registers _, h.bytes, h.keys, h.serial.rest⟩
  exact ⟨mvc, withCc _, withCc _, withCc _⟩

-- what MVC leaves

/-- Cells replaced one by one, with the first of them replaced beforehand. -/
theorem withCells_after_first {m : Addr → Byte} {x a : Addr} {v : Byte} {l : List (Addr × Byte)} (hx : ∀ c, c ∈ l → c.1 ≠ x) :
    withCells (fun b => if b = x then v else m b) l a = withCells m ((x, v) :: l) a := by
  show _ = if a = x then v else withCells m l a
  by_cases ha : a = x
  · subst ha
    rw [if_pos rfl, withCells_not_mem _ l a hx]
    exact if_pos rfl
  · rw [if_neg ha]
    exact withCells_congr (fun b => if b = x then v else m b) m l a (if_neg ha)

/-- The bytes of storage with one replaced. -/
def oneReplaced (m : SpaceId → Addr → Byte) (j : SpaceId) (x : Addr) (v : Byte) (i : SpaceId) (a : Addr) : Byte :=
  if i = j ∧ a = x then v else m i a

theorem oneReplaced_same (m : SpaceId → Addr → Byte) (j : SpaceId) (x : Addr) (v : Byte) :
    oneReplaced m j x v j = fun a => if a = x then v else m j a := by
  funext a
  simp only [oneReplaced, true_and]

theorem stringBytes_cons (f : Byte → Byte → Byte) (i1 i2 : SpaceId) (x y : Addr) (l : List (Addr × Addr)) (m : SpaceId → Addr → Byte) :
    stringBytes f i1 i2 ((x, y) :: l) m = stringBytes f i1 i2 l (oneReplaced m i1 x (f (m i1 x) (m i2 y))) := rfl

/-- Operands that share no byte: the second is copied as it was (R375). -/
theorem stringBytes_disjoint (i1 i2 : SpaceId) (xs ys : List Addr) (m : SpaceId → Addr → Byte) (hd : xs.Nodup)
    (h : i1 ≠ i2 ∨ ∀ a, a ∈ xs → a ∉ ys) (i : SpaceId) (a : Addr) :
    stringBytes (fun _ y => y) i1 i2 (xs.zip ys) m i a = if i = i1 then withCells (m i1) (xs.zip (ys.map (m i2))) a else m i a := by
  induction xs generalizing ys m with
  | nil =>
    show m i a = if i = i1 then m i1 a else m i a
    split
    · rw [‹i = i1›]
    · rfl
  | cons x xs ih =>
    cases ys with
    | nil =>
      show m i a = if i = i1 then m i1 a else m i a
      split
      · rw [‹i = i1›]
      · rfl
    | cons y ys =>
      obtain ⟨hx, hd⟩ := List.nodup_cons.mp hd
      have hrest : i1 ≠ i2 ∨ ∀ a, a ∈ xs → a ∉ ys :=
        h.imp_right fun h a ha hy => h a (List.mem_cons_of_mem x ha) (List.mem_cons_of_mem y hy)
      have hkept : ys.map (oneReplaced m i1 x (m i2 y) i2) = ys.map (m i2) := by
        refine List.map_congr_left fun b hb => if_neg ?_
        rintro ⟨rfl, rfl⟩
        rcases h with h | h
        · exact h rfl
        · exact h b (List.mem_cons_self ..) (List.mem_cons_of_mem y hb)
      rw [List.zip_cons_cons, stringBytes_cons, ih ys _ hd hrest, hkept, List.map_cons, List.zip_cons_cons, oneReplaced_same]
      split
      · exact withCells_after_first fun c hc he => hx (he ▸ (List.of_mem_zip hc).1)
      · exact if_neg fun e => ‹¬ i = i1› e.1

/-- A first operand one byte to the right of the second: each byte fetched is the one stored before, so that the first byte of the second operand
goes to all (R375). -/
theorem stringBytes_propagates (j : SpaceId) (y : Addr) (xs : List Addr) (m : SpaceId → Addr → Byte) (hd : xs.Nodup) (i : SpaceId) (a : Addr) :
    stringBytes (fun _ y => y) j j (xs.zip (y :: xs)) m i a =
      if i = j then withCells (m j) (xs.zip (List.replicate xs.length (m j y))) a else m i a := by
  induction xs generalizing y m with
  | nil =>
    show m i a = if i = j then m j a else m i a
    split
    · rw [‹i = j›]
    · rfl
  | cons x xs ih =>
    obtain ⟨hx, hd⟩ := List.nodup_cons.mp hd
    have hfirst : oneReplaced m j x (m j y) j x = m j y := if_pos ⟨rfl, rfl⟩
    rw [List.zip_cons_cons, stringBytes_cons, ih x _ hd, hfirst, List.length_cons, List.replicate_succ, List.zip_cons_cons, oneReplaced_same]
    split
    · exact withCells_after_first fun c hc he => hx (he ▸ (List.of_mem_zip hc).1)
    · exact if_neg fun e => ‹¬ i = j› e.1

theorem wrapMode_add (amode : Bool) (a b : Addr) : wrapMode amode (wrapMode amode a + b) = wrapMode amode (a + b) := by
  apply BitVec.eq_of_toNat_eq
  rw [wrapMode_toNat, wrapMode_toNat, BitVec.toNat_add, BitVec.toNat_add, wrapMode_toNat]
  cases amode <;> simp only [if_true, Bool.false_eq_true, if_false] <;> omega

/-- The bytes of an operand one byte further right. -/
theorem addrs_succ (s : State) (ea : Addr) (n : Nat) :
    s.addrs ea (n + 1) = wrapMode s.cpu.psw.amode ea :: s.addrs (wrapMode s.cpu.psw.amode (ea + 1)) n := by
  unfold State.addrs operandAddrs
  rw [List.range_succ_eq_map, List.map_cons, List.map_map]
  refine List.cons_eq_cons.mpr ⟨congrArg _ (BitVec.add_zero ea), List.map_congr_left fun i _ => ?_⟩
  rw [wrapMode_add, BitVec.add_assoc, Function.comp_apply, Nat.succ_eq_one_add, BitVec.ofNat_add]
  rfl

theorem addrs_take (s : State) (ea : Addr) (n : Nat) : (s.addrs ea (n + 1)).take n = s.addrs ea n := by
  unfold State.addrs operandAddrs
  rw [← List.map_take, List.take_range, Nat.min_eq_left (Nat.le_succ n)]

/-- MVC as one store of the bytes that the byte-by-byte operation leaves. -/
theorem mvc_completes {bytes : List Byte} (hlen : len ≤ 256) (h1 : storable s b1 (s.eaBD b1 d1) len) (h2 : fetchable s b2 (s.eaBD b2 d2) len)
    (hb : bytes.length = len)
    (hs : ∀ i a, stringBytes (fun _ y => y) (operandSpace s b1) (operandSpace s b2) (operandPairs s len b1 b2 (s.eaBD b1 d1) (s.eaBD b2 d2))
      (contents s) i a =
      if i = operandSpace s b1 then withCells ((s.space i).byte) (storedCells s b1 (s.eaBD b1 d1) bytes) a else (s.space i).byte a) :
    completesStore (exec (.mvc len b1 d1 b2 d2) s) s { psw := pswNext s 6 } (operandSpace s b1) (storedCells s b1 (s.eaBD b1 d1) bytes) := by
  obtain ⟨u, v, hop, h⟩ := stringOp_done (r := {}) (f := fun _ y => y) (k := fun s1 _ => .next s1) hlen h1 h2
  refine ⟨u, hop, h.psw, h.registers _, fun i a => (h.bytes i a).trans (hs i a), h.keys, h.serial.rest, fun c hc => h.recorded c.1 ?_⟩
  have := (List.of_mem_zip hc).1
  rwa [hb] at this

theorem operand_eq_map (s : State) (b : Reg) (ea : Addr) (n : Nat) :
    operand s b ea n = (operandCells s b ea n).map (contents s (operandSpace s b)) := by
  unfold operandCells
  rw [List.map_map]
  rfl

/-- Where the first operand begins one byte after the second, each of its bytes is paired with the byte before it. -/
theorem operandPairs_overlap {e1 e2 : Addr} (ht : s.target b1 = s.target b2) (he : e1 = wrapMode s.cpu.psw.amode (e2 + 1)) :
    operandPairs s len b1 b2 e1 e2 =
      (operandCells s b1 e1 len).zip (s.absolute (s.target b2) (wrapMode s.cpu.psw.amode e2) :: operandCells s b1 e1 len) := by
  have hcells : operandCells s b2 e2 len =
      (s.absolute (s.target b2) (wrapMode s.cpu.psw.amode e2) :: operandCells s b1 e1 len).take len := by
    unfold operandCells
    rw [← addrs_take, addrs_succ, ← he, List.map_take, List.map_cons, ht]
  unfold operandPairs
  rw [hcells, List.zip_eq_zip_take_min, List.zip_eq_zip_take_min (l₂ := _ :: operandCells s b1 e1 len)]
  simp only [List.length_take, List.length_cons, operandCells_length, List.take_take, Nat.min_self, Nat.min_eq_left (Nat.le_succ len)]

/-- Settles O18: `stringBytes_disjoint` and `stringBytes_propagates` on the operands of MVC. -/
theorem moveOverlap : Obligations.MoveOverlap := by
  unfold Obligations.MoveOverlap
  intro s len b1 b2 d1 d2 hlen e1 e2 h1 h2
  have hd := operandCells_nodup s b1 e1 len (by omega)
  refine ⟨fun hdis => mvc_completes hlen h1 h2 (operand_length ..) fun i a => ?_, fun ht he => ?_⟩
  · refine (stringBytes_disjoint _ _ _ _ _ hd hdis i a).trans ?_
    split
    · rename_i hi
      subst hi
      unfold storedCells
      rw [operand_length, operand_eq_map]
      rfl
    · rfl
  · refine mvc_completes hlen h1 h2 (List.length_replicate ..) fun i a => ?_
    have hspace : operandSpace s b1 = operandSpace s b2 := congrArg Target.space ht
    have hfirst : contents s (operandSpace s b1) (s.absolute (s.target b2) (wrapMode s.cpu.psw.amode e2)) = (operand s b2 e2 1).headD 0 := by
      rw [hspace, operand_eq_map]
      exact congrArg (fun a => contents s (operandSpace s b2) (s.absolute (s.target b2) (wrapMode s.cpu.psw.amode a))) (BitVec.add_zero e2).symm
    rw [show s.eaBD b1 d1 = e1 from rfl, show s.eaBD b2 d2 = e2 from rfl, operandPairs_overlap ht he, ← hspace]
    refine (stringBytes_propagates _ _ _ _ hd i a).trans ?_
    rw [hfirst, operandCells_length]
    split
    · rename_i hi
      subst hi
      unfold storedCells
      rw [List.length_replicate]
      rfl
    · rfl

end Sys2Proof.Machine
end

section
/-! Instruction fetch and EXECUTE (spec/30_encoding.md R180, R181, spec/45_base_subset.md R370), and SUPERVISOR CALL (spec/60_exceptions.md R441). -/

namespace Sys2Proof.Machine

open Sys2Proof.Safety

variable {s : State}

-- the bytes of an instruction

/-- The bytes storage holds where an instruction is fetched. -/
def codeAt (s : State) (a : Addr) (n : Nat) : List Byte := (s.addrs a n).map (fun e => s.hp.byte (s.prefixed e))

theorem codeAt_eq (s : State) (a : Addr) (n : Nat) : codeAt s a n = s.operandBytes instructionTarget a n := rfl

theorem codeAt_length (s : State) (a : Addr) (n : Nat) : (codeAt s a n).length = n := by
  simp [codeAt, State.addrs, operandAddrs]

/-- Without stale bytes the CPU fetches what storage holds (R166). -/
theorem codeBytes_eq (h : s.cpu.staleBytes = []) (first : Nat) (a : Addr) (n : Nat) : s.codeBytes first a n = codeAt s a n := by
  unfold State.codeBytes codeAt State.addrs operandAddrs
  rw [List.map_map]
  refine List.map_congr_left fun i _ => ?_
  unfold State.codeByte
  rw [h]
  rfl

theorem codeAt_add (s : State) (a : Addr) (m n : Nat) : codeAt s a (m + n) = codeAt s a m ++ codeAt s (a + BitVec.ofNat 31 m) n :=
  operandBytes_add s instructionTarget a m n

theorem codeAt_two (s : State) (a : Addr) : ∃ c0 c1, codeAt s a 2 = [c0, c1] := ⟨_, _, rfl⟩

theorem instrLength_eq (c : Byte) : ∃ k, instrLength c = 2 + k := by
  unfold instrLength
  split
  · exact ⟨0, rfl⟩
  · split
    · exact ⟨2, rfl⟩
    · exact ⟨4, rfl⟩

/-- The second byte of an instruction combined with the mask of EXECUTE, or with zero (R370). -/
theorem orSecond_cons (m c0 c1 : Byte) (l : List Byte) : orSecond m (c0 :: c1 :: l) = c0 :: (c1 ||| m) :: l := rfl

theorem orSecond_zero (l : List Byte) : orSecond 0 l = l := by
  match l with
  | [] => rfl
  | [_] => rfl
  | c0 :: c1 :: l => exact congrArg (c0 :: · :: l) BitVec.or_zero

theorem accessFaults_add (s : State) (t : Target) (c : Check) (store : Bool) (a : Addr) (m n : Nat) :
    s.accessFaults t c store a (m + n) = s.accessFaults t c store a m ++ s.accessFaults t c store (a + BitVec.ofNat 31 m) n := by
  unfold State.accessFaults State.addrs operandAddrs
  rw [List.range_add, List.map_append, List.flatMap_append, List.map_map]
  refine congrArg _ (congrArg (List.flatMap _) (List.map_congr_left fun i _ => ?_))
  rw [Function.comp_apply, BitVec.ofNat_add, BitVec.add_assoc]

/-- A fetch that meets no exception. -/
theorem fetchCode_of_noFaults {target : Bool} {m : Byte} {a : Addr} {c0 c1 : Byte} (hs : s.cpu.staleBytes = []) (hc : codeAt s a 2 = [c0, c1])
    (hf : s.accessFaults instructionTarget controlCheck false a (instrLength c0) = []) :
    (∀ i, decode (orSecond m (codeAt s a (instrLength c0))) = .ok i →
      s.fetchCode target m a = .instruction i (s.noteFetches instructionTarget (s.addrs a (instrLength c0)))) ∧
    (∀ x, decode (orSecond m (codeAt s a (instrLength c0))) = .error x → s.fetchCode target m a = .undecoded c0 (c1 ||| m)) := by
  obtain ⟨k, hk⟩ := instrLength_eq c0
  have h2 : s.accessFaults instructionTarget controlCheck false a 2 = [] := by
    rw [hk, accessFaults_add] at hf
    exact (List.append_eq_nil_iff.mp hf).1
  have hrest : s.accessFaults instructionTarget controlCheck false (a + 2) (instrLength c0 - 2) = [] := by
    rw [hk, accessFaults_add] at hf
    rw [hk, Nat.add_sub_cancel_left]
    exact (List.append_eq_nil_iff.mp hf).2
  constructor <;> intro i hi <;> unfold State.fetchCode
  all_goals simp only [codeBytes_eq hs, hc, orSecond_cons, h2, List.headD_cons, hrest, hi]
  rfl

-- SUPERVISOR CALL

/-- Settles O25: the interruption is taken with the updated instruction address. -/
theorem supervisorCall : Obligations.SupervisorCall := by
  unfold Obligations.SupervisorCall
  intro s i ha
  have h := Advanced.start s 2
  exact interrupt_enters 32 96 _ ha h.quiet (registers_none h.gr h.ar h.cr) h.psw (apart_supervisor _ _ _ _ _)

-- a state with fetches recorded

/-- `u` is `s` with fetches recorded and nothing else changed. -/
structure Recorded (s u : State) : Prop where
  quiet : Quiet s u
  cpu : u.cpu = s.cpu

theorem recorded_noteFetches (s : State) (t : Target) (l : List Addr) : Recorded s (s.noteFetches t l) :=
  ⟨(Quiet.refl s).noteFetches t l, State.noteFetches_cpu s t l⟩

variable {u : State}

theorem Recorded.cfg (h : Recorded s u) : u.cfg = s.cfg := (congrArg State.cfg h.quiet.rest :)

theorem Recorded.hal (h : Recorded s u) : u.hal = s.hal := (congrArg State.hal h.quiet.rest :)

theorem Recorded.asit (h : Recorded s u) : u.hp.asit = s.hp.asit := spaceFrame_asit _ _ (frame_hp _ _ h.quiet.rest)

theorem Recorded.absolute (h : Recorded s u) (t : Target) (e : Addr) : u.absolute t e = s.absolute t e := frame_absolute s u h.quiet.rest t e

theorem Recorded.resolve (h : Recorded s u) (b : Reg) : u.resolve b = s.resolve b := by
  have halet : u.aletFor b = s.aletFor b := by
    unfold State.aletFor State.ar
    simp only [h.cpu]
  have htr (alet : Word) : u.translate alet = s.translate alet := by
    unfold State.translate State.aletWf State.entryOf State.spaceOf
    rw [h.cfg, h.hal, h.asit]
  unfold State.resolve
  rw [halet, htr, h.cpu]

theorem Recorded.target (h : Recorded s u) (b : Reg) : u.target b = s.target b := by
  unfold State.target
  rw [h.resolve]

theorem keyAcc_kept {k k' : BitVec 7} (h : keyKept k k') : keyAcc k' = keyAcc k ∧ keyFetch k' = keyFetch k := by
  have key : ∀ k k' : BitVec 7, field k' 0 5 = field k 0 5 → keyAcc k' = keyAcc k ∧ keyFetch k' = keyFetch k := by decide
  exact key k k' h.1

theorem Recorded.byteFaults (h : Recorded s u) (t : Target) (c : Check) (store : Bool) (e : Addr) :
    u.byteFaults t c store e = s.byteFaults t c store e := by
  obtain ⟨hacc, hfetch⟩ := keyAcc_kept (h.quiet.keys t.space (blockOf (s.absolute t e)))
  unfold State.byteFaults State.keyPermits State.keyMatch State.fetchOverride State.lowAddressProtected State.cr
  simp only [h.absolute, frame_assigned s u h.quiet.rest, frame_readOnly s u h.quiet.rest, h.cpu, h.cfg, hacc, hfetch]

theorem Recorded.operandFaults (h : Recorded s u) (c : Check) (store : Bool) (b : Reg) (ea : Addr) (n : Nat) :
    u.operandFaults c store b ea n = s.operandFaults c store b ea n := by
  have hb : u.byteFaults = s.byteFaults := by
    funext t c store e
    exact h.byteFaults t c store e
  unfold State.operandFaults State.accessFaults State.addrs
  rw [h.resolve, h.cpu, hb]

theorem Recorded.operandCells (h : Recorded s u) (b : Reg) (ea : Addr) (n : Nat) : operandCells u b ea n = operandCells s b ea n := by
  unfold Safety.operandCells State.addrs
  rw [h.target, h.cpu]
  exact List.map_congr_left fun e _ => h.absolute _ e

theorem Recorded.operand (h : Recorded s u) (b : Reg) (ea : Addr) (n : Nat) : operand u b ea n = operand s b ea n := by
  rw [operand_eq_map, operand_eq_map, h.operandCells]
  refine List.map_congr_left fun a _ => ?_
  unfold operandSpace
  rw [h.target]
  exact h.quiet.bytes _ a

theorem Recorded.eaBD {v : State} (h : Recorded s v) (b : Reg) (d : Disp) : v.eaBD b d = s.eaBD b d := by
  unfold State.eaBD State.ea State.addressPart State.gr
  simp only [h.cpu]

-- the target of EXECUTE

/-- What EXECUTE makes of the outcome of its target. -/
def endOut : Out → Out
  | .next t => .next t.endExecute
  | .fault f => .fault f
  | .refused r => .refused r

theorem endExecute_self (h : s.cpu.exTarget = none) : s.endExecute = s := by
  unfold State.endExecute
  rw [← h]

/-- What the target leaves, its end apart, is what EXECUTE leaves. -/
theorem frame_endExecute {v t : State} {a : Addr} (h : Recorded s v) (hx : s.cpu.exTarget = none) (hf : frame t = frame (v.beginExecute a)) :
    frame t.endExecute = frame s := by
  have hv : v.endExecute = v := endExecute_self (by rw [h.cpu]; exact hx)
  calc frame t.endExecute = (frame t).endExecute := rfl
    _ = (frame (v.beginExecute a)).endExecute := by rw [hf]
    _ = frame v.endExecute := rfl
    _ = frame s := by rw [hv]; exact h.quiet.rest

theorem beginExecute_space (t : State) (a : Addr) (id : SpaceId) : (t.beginExecute a).space id = t.space id := by cases id <;> rfl

theorem endExecute_space (t : State) (id : SpaceId) : t.endExecute.space id = t.space id := by cases id <;> rfl

section
variable {v : State} {a : Addr} (h : Recorded s v) (hx : s.cpu.exTarget = none)
include h

theorem target_gr (r : Reg) : (v.beginExecute a).gr r = s.gr r := by
  show v.cpu.gr[r.toNat] = s.cpu.gr[r.toNat]
  simp only [h.cpu]

theorem target_ar (r : Reg) : (v.beginExecute a).ar r = s.ar r := by
  show v.cpu.ar[r.toNat] = s.cpu.ar[r.toNat]
  simp only [h.cpu]

theorem target_cr (r : Reg) : (v.beginExecute a).cr r = s.cr r := by
  show v.cpu.cr[r.toNat] = s.cpu.cr[r.toNat]
  simp only [h.cpu]

theorem target_registers {t : State} {p q : Psw} {grs ars crs : List (Reg × Word)} (hr : (Effect.mk p grs ars crs).onRegisters (v.beginExecute a) t) :
    (Effect.mk q grs ars crs).onRegisters s t.endExecute := by
  obtain ⟨hg, ha, hc⟩ := hr
  exact ⟨fun r => (hg r).trans (withRegs_congr _ _ _ _ (target_gr h r)), fun r => (ha r).trans (withRegs_congr _ _ _ _ (target_ar h r)),
    fun r => (hc r).trans (withRegs_congr _ _ _ _ (target_cr h r))⟩

theorem target_eaBD (b : Reg) (d : Disp) : (v.beginExecute a).eaBD b d = s.eaBD b d := h.eaBD b d

theorem target_operandFaults (c : Check) (store : Bool) (b : Reg) (ea : Addr) (n : Nat) :
    (v.beginExecute a).operandFaults c store b ea n = s.operandFaults c store b ea n := h.operandFaults c store b ea n

theorem target_operandSpace (b : Reg) : operandSpace (v.beginExecute a) b = operandSpace s b := congrArg Target.space (h.target b)

theorem target_operandCells (b : Reg) (ea : Addr) (n : Nat) : operandCells (v.beginExecute a) b ea n = operandCells s b ea n :=
  h.operandCells b ea n

theorem target_operand (b : Reg) (ea : Addr) (n : Nat) : operand (v.beginExecute a) b ea n = operand s b ea n := by
  rw [operand_eq_map, operand_eq_map, target_operandCells h, target_operandSpace h]
  refine List.map_congr_left fun e _ => ?_
  unfold contents
  rw [beginExecute_space]
  exact h.quiet.bytes _ e

theorem target_storedCells (b : Reg) (ea : Addr) (l : List Byte) : storedCells (v.beginExecute a) b ea l = storedCells s b ea l := by
  unfold storedCells
  rw [target_operandCells h]

theorem target_prefixAreaAssigned : (v.beginExecute a).prefixAreaAssigned = s.prefixAreaAssigned :=
  (show _ = v.prefixAreaAssigned from rfl).trans (frame_prefixAreaAssigned _ _ h.quiet.rest)

theorem target_psw : (v.beginExecute a).cpu.psw = s.cpu.psw := (congrArg Cpu.psw h.cpu :)

theorem target_bytes (i : SpaceId) (e : Addr) : ((v.beginExecute a).space i).byte e = (s.space i).byte e := by
  rw [beginExecute_space]
  exact h.quiet.bytes i e

theorem target_keys {t : State} (hk : keysKept (v.beginExecute a) t) : keysKept s t.endExecute := by
  intro i b
  have hb := hk i b
  rw [beginExecute_space] at hb
  rw [endExecute_space]
  exact keyKept_trans (h.quiet.keys i b) hb

theorem target_stored {t : State} {id : SpaceId} {cells : List (Addr × Byte)} (hb : bytesStored (v.beginExecute a) t id cells) :
    bytesStored s t.endExecute id cells := by
  intro i e
  rw [endExecute_space, hb, target_bytes h]
  split
  · exact withCells_congr _ _ _ _ (target_bytes h i e)
  · rfl

include hx

/-- The next sequential instruction address is that of EXECUTE (R370). -/
theorem target_nextIa (n : Nat) : (v.beginExecute a).nextIa n = s.nextIa 4 := by
  unfold State.nextIa State.ilcOf
  rw [hx]
  show wrapMode v.cpu.psw.amode (v.cpu.psw.ia + BitVec.ofNat 31 (2 * 2)) = _
  rw [h.cpu]
  rfl

theorem target_pswNext (n : Nat) : pswNext (v.beginExecute a) n = pswNext s 4 := by
  unfold pswNext
  rw [target_nextIa h hx, target_psw h]

/-- EXECUTE of a target that completes. -/
theorem completes_target {o : Out} {p : Psw} {grs ars crs : List (Reg × Word)} (ho : completes o (v.beginExecute a) ⟨p, grs, ars, crs⟩) :
    completes (endOut o) s ⟨p, grs, ars, crs⟩ := by
  obtain ⟨t, rfl, hp, hr, hb, hk, hf⟩ := ho
  refine ⟨_, rfl, hp, target_registers h hr, fun i e => ?_, target_keys h hk, frame_endExecute h hx hf⟩
  rw [endExecute_space, hb, target_bytes h]

/-- EXECUTE of a target that stores. -/
theorem completesStore_target {o : Out} {p : Psw} {grs ars crs : List (Reg × Word)} {id : SpaceId} {cells : List (Addr × Byte)}
    (ho : completesStore o (v.beginExecute a) ⟨p, grs, ars, crs⟩ id cells) : completesStore (endOut o) s ⟨p, grs, ars, crs⟩ id cells := by
  obtain ⟨t, rfl, hp, hr, hb, hk, hf, hc⟩ := ho
  refine ⟨_, rfl, hp, target_registers h hr, target_stored h hb, target_keys h hk, frame_endExecute h hx hf, fun c hm => ?_⟩
  rw [endExecute_space]
  exact hc c hm

/-- EXECUTE of a target that is interrupted. -/
theorem enters_target {o : Out} {p : Psw} {grs ars crs : List (Reg × Word)} {old new : Nat} {fields : List (Nat × List Byte)}
    (ho : enters o (v.beginExecute a) ⟨p, grs, ars, crs⟩ old new fields) : enters (endOut o) s ⟨p, grs, ars, crs⟩ old new fields := by
  obtain ⟨t, rfl, hp, hr, hb, hk, hf⟩ := ho
  have hprefixed (e : Addr) : (v.beginExecute a).prefixed e = s.prefixed e := by
    show v.prefixed e = _
    exact frame_prefixed s v h.quiet.rest e
  have hreal : (v.beginExecute a).realBytes new 8 = s.realBytes new 8 := by
    unfold State.realBytes
    refine List.map_congr_left fun i _ => ?_
    show ((v.beginExecute a).space .hostPrimary).byte ((v.beginExecute a).prefixed _) = (s.space .hostPrimary).byte (s.prefixed _)
    rw [hprefixed, target_bytes h]
  have hcells (l : List (Nat × List Byte)) : realCells (v.beginExecute a) l = realCells s l := by
    unfold realCells
    simp only [hprefixed]
  rw [hreal] at hp
  rw [hcells] at hb
  exact ⟨_, rfl, hp, target_registers h hr, target_stored h hb, target_keys h hk, frame_endExecute h hx hf⟩

end

/-- EXECUTE with a target that is fetched without an exception. -/
theorem exec_ex_target {r1 x2 b2 : Reg} {d2 : Disp} {c0 c1 m : Byte} (hs : s.cpu.staleBytes = []) (ha : aligned (s.ea b2 x2 d2) 2 = true)
    (hc : codeAt s (s.ea b2 x2 d2) 2 = [c0, c1])
    (hf : s.accessFaults instructionTarget controlCheck false (s.ea b2 x2 d2) (instrLength c0) = [])
    (hm : (if r1 = 0 then 0 else byteOf (s.gr r1) 3) = m) :
    (∀ i, decode (orSecond m (codeAt s (s.ea b2 x2 d2) (instrLength c0))) = .ok i → exec (.ex r1 x2 b2 d2) s =
      endOut (execTarget i ((s.noteFetches instructionTarget (s.addrs (s.ea b2 x2 d2) (instrLength c0))).beginExecute (s.ea b2 x2 d2)))) ∧
    (∀ x, decode (orSecond m (codeAt s (s.ea b2 x2 d2) (instrLength c0))) = .error x →
      exec (.ex r1 x2 b2 d2) s = .refused (.noRowForOpcode c0 (c1 ||| m))) := by
  obtain ⟨hok, herr⟩ := fetchCode_of_noFaults (target := true) (m := m) hs hc hf
  rw [show exec (.ex r1 x2 b2 d2) s = execEx r1 x2 b2 d2 s from rfl]
  constructor
  · intro i hi
    unfold execEx
    simp only [ha, Bool.not_true, Bool.false_eq_true, if_false, hm, hok i hi]
    cases execTarget i _ <;> rfl
  · intro x hx
    unfold execEx
    simp only [ha, Bool.not_true, Bool.false_eq_true, if_false, hm, herr x hx]

/-- Settles O26: the target is executed in a state that differs by the fetch and by being inside EXECUTE alone. -/
theorem execute : Obligations.Execute := by
  unfold Obligations.Execute
  intro s r1 x2 b2 d2 hx hs ea code len mask second target run ha hf
  obtain ⟨c0, c1, hc⟩ := codeAt_two s ea
  have hc' : code 2 = [c0, c1] := hc
  have hlen : len = instrLength c0 := by show instrLength ((code 2).headD 0) = _; rw [hc']; rfl
  have hsecond : second = c1 ||| mask := by show (code 2).getD 1 0 ||| mask = _; rw [hc']; rfl
  have htarget : target = orSecond mask (codeAt s ea (instrLength c0)) := by
    obtain ⟨k, hk⟩ := instrLength_eq c0
    show (codeAt s ea len).set 1 second = _
    rw [hlen, hk, codeAt_add, hc, hsecond]
    rfl
  rw [hlen] at hf
  obtain ⟨hok, herr⟩ := exec_ex_target (r1 := r1) hs ha hc hf rfl
  rw [hlen, htarget, hc', hsecond]
  have h : Recorded s (s.noteFetches instructionTarget (s.addrs ea (instrLength c0))) := recorded_noteFetches s _ _
  have hrun (i : Instr) (hd : decode (orSecond mask (codeAt s ea (instrLength c0))) = .ok i) (hi : ∀ a x b d, i ≠ .ex a x b d) :
      run = endOut (exec i ((s.noteFetches instructionTarget (s.addrs ea (instrLength c0))).beginExecute ea)) :=
    (hok i hd).trans (congrArg endOut (execTarget_eq i _ hi))
  have hnext (n : Nat) := target_pswNext (a := ea) h hx n
  have hassigned := target_prefixAreaAssigned (a := ea) h
  generalize (s.noteFetches instructionTarget (s.addrs ea (instrLength c0))) = v at *
  refine ⟨fun a b hd => ?_, fun n b1 d1 b3 d3 hd hn h1 h3 hdis => ?_, fun m r hd => ?_, fun n hd hp => ?_, fun a x b d hd hp => ?_,
    fun i hd hi => (hrun i hd hi).trans ?_, fun x hd => herr x hd⟩
  · rw [hrun _ hd (fun _ _ _ _ h => nomatch h)]
    have hlr := (loadsWithoutStorage (v.beginExecute ea) a b 0 0 0 0).1
    rw [hnext, target_gr h] at hlr
    exact completes_target h hx hlr
  · rw [hrun _ hd (fun _ _ _ _ h => nomatch h)]
    have hmvc := moveOverlap (v.beginExecute ea) n b1 b3 d1 d3 hn
    unfold storable fetchable at hmvc
    simp only [target_eaBD h, target_operandFaults h, target_operandSpace h, target_operandCells h, target_operand h,
      target_storedCells h, hnext] at hmvc
    exact completesStore_target h hx ((hmvc h1 h3).1 hdis)
  · rw [hrun _ hd (fun _ _ _ _ h => nomatch h)]
    have hbcr := (conditionalBranches (v.beginExecute ea) m r 0 0 0 0).1
    unfold pswAt at hbcr
    rw [target_nextIa h hx, target_gr h, target_psw h] at hbcr
    exact completes_target h hx hbcr
  · rw [hrun _ hd (fun _ _ _ _ h => nomatch h)]
    have hsvc := supervisorCall _ n (hassigned.trans hp)
    rw [hnext] at hsvc
    exact enters_target h hx hsvc
  · show suppresses (exec (.ex r1 x2 b2 d2) s) s 4 3
    rw [hok _ hd]
    have hex := takeException_suppresses _ 4 {} .execute rfl (hassigned.trans hp)
    unfold suppresses entersProgram at hex ⊢
    rw [hnext] at hex
    rw [show s.ilcOf 4 = 2 by unfold State.ilcOf; rw [hx]; rfl]
    exact enters_target h hx hex
  · cases exec i _ <;> rfl

end Sys2Proof.Machine
end

section
/-! The states of a reset, and the instructions of control that refer to no storage or replace the PSW (spec/10_state.md R71 to R77,
spec/43_modified_instructions_a.md R254 to R262, spec/44_modified_instructions_b.md R270 to R290, spec/45_base_subset.md R383). -/

namespace Sys2Proof.Machine

open Sys2Proof.Safety

variable {s u : State}

-- reset

theorem reset_unused (e : HalEntry) (he : e ∈ State.reset.hal) : e.state = .unused := by rw [List.eq_of_mem_replicate he]; rfl

/-- Settles O54: the registers are finitely many, and no byte and no key is listed. -/
theorem resetState : Obligations.ResetState := by
  unfold Obligations.ResetState
  exact ⟨rfl, rfl, by decide, by decide, by decide, rfl, rfl, rfl, rfl, fun _ => rfl, fun _ => rfl, rfl, reset_unused⟩

/-- Settles O55: there is one CPU and one address space, and no access-list entry is in use. -/
theorem resetKeepsInvariants : Obligations.ResetKeepsInvariants := by
  unfold Obligations.ResetKeepsInvariants
  have hused : State.reset.hal.filter (fun e => e.state != .unused) = [] := rfl
  have block0 : State.reset.hp.assigned 0 = true := by simp [State.reset, Space.reset, Space.assigned]
  refine ⟨⟨rfl, List.forall_mem_nil _⟩, ⟨block0, block0, List.forall_mem_nil _⟩, ⟨rfl, List.forall_mem_nil _⟩, fun e he hv => ?_, ?_⟩
  · rw [reset_unused e he] at hv
    cases hv
  · rw [hused]
    exact .nil

-- the instructions without a rule

/-- Settles O33: the check of BSA comes before its refusal. -/
theorem instructionsWithoutARule : Obligations.InstructionsWithoutARule := by
  unfold Obligations.InstructionsWithoutARule
  intro s r1 r2 b2 d2
  have hbsa : exec (.bsa r1 r2) s = if s.asf then .refused .branchAndSetAuthority else s.takeException 4 {} .specialOperation := rfl
  refine ⟨rfl, fun h => by rw [hbsa, if_pos h], fun h ha => ?_⟩
  rw [hbsa, h]
  exact takeException_suppresses s 4 {} .specialOperation rfl ha

-- the address-space control

theorem extract_eq_iff (a : Addr) (k : BitVec 4) : a.extractLsb' 8 4 = k ↔ a.toNat / 256 % 16 = k.toNat := by
  rw [← BitVec.toNat_inj, BitVec.extractLsb'_toNat, Nat.shiftRight_eq_div_pow]

/-- SAC and SACF, `k` being what the instruction does besides (R270). -/
theorem setAsc_outcomes (s : State) (b2 : Reg) (d2 : Disp) (k : State → State)
    (hk : ∀ u e, completes (.next u) s e → completes (.next (k u)) s e) :
    let code := (s.eaBD b2 d2).toNat / 256 % 16
    (code = 0 → completes (s.setAsc b2 d2 k) s { psw := { pswNext s 4 with arMode := false } }) ∧
    (code = 2 → s.asf = true → completes (s.setAsc b2 d2 k) s { psw := { pswNext s 4 with arMode := true } }) ∧
    (code = 2 → s.asf = false → s.prefixAreaAssigned = true → suppresses (s.setAsc b2 d2 k) s 4 0x13) ∧
    (code ≠ 0 → code ≠ 2 → s.prefixAreaAssigned = true →
      suppresses (s.setAsc b2 d2 k) s 4 6 ∨ (s.cpu.psw.problem = true ∧ code ≠ 3 ∧ suppresses (s.setAsc b2 d2 k) s 4 2)) := by
  intro code
  have h0 : (s.eaBD b2 d2).extractLsb' 8 4 = 0 ↔ code = 0 := extract_eq_iff _ 0
  have h2 : (s.eaBD b2 d2).extractLsb' 8 4 = 2 ↔ code = 2 := extract_eq_iff _ 2
  have h3 : (s.eaBD b2 d2).extractLsb' 8 4 = 3 ↔ code = 3 := extract_eq_iff _ 3
  unfold State.setAsc
  dsimp only
  generalize (s.eaBD b2 d2).extractLsb' 8 4 = c at h0 h2 h3
  have hset (ar : Bool) (har : (c == 2) = ar) (hf : s.ascFaults c = []) :
      completes (s.guarded 4 {} (s.ascFaults c) (fun s1 => .next (k (s1.setPsw { s1.cpu.psw with arMode := c == 2 })))) s
        { psw := { pswNext s 4 with arMode := ar } } := by
    rw [guarded_ok _ _ _ _ _ hf, har]
    exact hk _ _ ((Advanced.start s 4).newPsw rfl)
  refine ⟨fun h => ?_, fun h ha => ?_, fun h ha hp => ?_, fun hn0 hn2 hp => ?_⟩
  · obtain rfl := h0.mpr h
    exact hset false rfl rfl
  · obtain rfl := h2.mpr h
    exact hset true rfl (by unfold State.ascFaults; rw [if_pos rfl, if_pos ha])
  · obtain rfl := h2.mpr h
    exact guarded_suppresses s 4 {} _ _ .specialOperation (by unfold State.ascFaults; rw [if_pos rfl, ha]; rfl) rfl hp
  · have hrest : s.ascFaults c = if c = 3 then [.specification]
        else if (s.cpu.psw.problem && coin (s.draw .either)) = true then [.privilegedOperation] else [.specification] := by
      unfold State.ascFaults
      rw [if_neg (mt h2.mp hn2), if_neg (mt h0.mp hn0)]
    rw [hrest]
    by_cases hc : c = 3
    · rw [if_pos hc]
      exact .inl (guarded_suppresses s 4 {} _ _ .specification rfl rfl hp)
    · rw [if_neg hc]
      by_cases hd : (s.cpu.psw.problem && coin (s.draw .either)) = true
      · rw [if_pos hd]
        exact .inr ⟨(Bool.and_eq_true_iff.mp hd).1, mt h3.mpr hc, guarded_suppresses s 4 {} _ _ .privilegedOperation rfl rfl hp⟩
      · rw [if_neg hd]
        exact .inl (guarded_suppresses s 4 {} _ _ .specification rfl rfl hp)

/-- Settles O28: SAC serializes besides, which is not seen. -/
theorem setAddressSpaceControl : Obligations.SetAddressSpaceControl := by
  unfold Obligations.SetAddressSpaceControl
  intro s b2 d2
  have hsacf : exec (.sacf b2 d2) s = if s.cfg.sacfInstalled then s.setAsc b2 d2 id else s.takeException 4 {} .operation := rfl
  refine ⟨setAsc_outcomes s b2 d2 State.serialize fun _ _ => completes_serialize, fun h => ?_, fun h ha => ?_⟩
  · rw [if_pos h] at hsacf
    simp only [hsacf]
    exact setAsc_outcomes s b2 d2 id fun _ _ => id
  · rw [hsacf, h]
    exact takeException_suppresses s 4 {} .operation rfl ha

-- access-register translation

theorem eq_of_pairwise_ne {α β : Type} {f : α → β} {l : List α} (h : l.Pairwise (fun a b => f a ≠ f b)) {x y : α} (hx : x ∈ l) (hy : y ∈ l)
    (he : f x = f y) : x = y := by
  induction h with
  | nil => cases hx
  | cons ha _ ih =>
    rcases List.mem_cons.mp hx with rfl | hxl
    · rcases List.mem_cons.mp hy with rfl | hyl
      · rfl
      · exact absurd he (ha y hyl)
    · rcases List.mem_cons.mp hy with rfl | hyl
      · exact absurd he.symm (ha x hxl)
      · exact ih hxl hyl

/-- Where no two entries in use have one ALET, an entry in use is the one its ALET selects (R132). -/
theorem entryOf_of_used (h : accessListSound s) {e : HalEntry} (he : e ∈ s.hal) (hu : e.state ≠ .unused) : s.entryOf e.alet = some e := by
  have mem {f : HalEntry} (hf : f ∈ s.hal) (hu : f.state ≠ .unused) : f ∈ s.hal.filter (fun e => e.state != .unused) :=
    List.mem_filter.mpr ⟨hf, bne_iff_ne.mpr hu⟩
  unfold State.entryOf
  cases hf : s.hal.find? (fun f => f.state != .unused && f.alet == e.alet) with
  | none => exact absurd (Bool.and_eq_true_iff.mpr ⟨bne_iff_ne.mpr hu, beq_self_eq_true e.alet⟩) (List.find?_eq_none.mp hf e he)
  | some f =>
    obtain ⟨hfu, hfa⟩ := Bool.and_eq_true_iff.mp (List.find?_some (p := fun f : HalEntry => f.state != .unused && f.alet == e.alet) hf)
    rw [eq_of_pairwise_ne h.2 (mem (List.mem_of_find?_eq_some hf) (bne_iff_ne.mp hfu)) (mem he hu) (beq_iff_eq.mp hfa)]

theorem translate_wf {alet : Word} (h0 : alet ≠ 0) (hw : s.aletWf alet = true) : s.translate alet = match s.entryOf alet with
    | none => .unassigned
    | some e => if e.state = .revoked then .revoked else .designated (s.spaceOf e.asit) (e.access == .readOnly) := by
  unfold State.translate
  rw [if_neg h0, hw]
  rfl

/-- Settles O29: the condition code is that of the translation of the ALET. -/
theorem testAccess : Obligations.TestAccess := by
  unfold Obligations.TestAccess
  intro s r1 r2 hasf hfield alet used
  have htar (c : BitVec 2) (hc : (s.translate alet).testCc = c) : completes (exec (.tar r1 r2) s) s { psw := pswCc s 4 c } := by
    have hexec : exec (.tar r1 r2) s = .next ((s.advance 4).setCc (s.translate alet).testCc) := by
      show execTar r1 r2 s = _
      unfold execTar
      rw [if_pos hasf, if_pos hfield]
      rfl
    rw [hexec]
    exact (Advanced.start s 4).cc hc
  refine ⟨fun h => htar 0 (by rw [h]; rfl), fun h0 h => htar 3 ?_, fun hsound h0 hw e ⟨hmem, ha, hu⟩ => htar _ ?_⟩
  · by_cases hw : s.aletWf alet = true
    · have hnone : s.entryOf alet = none := by
        refine List.find?_eq_none.mpr fun e he hused => ?_
        obtain ⟨hu, ha⟩ := Bool.and_eq_true_iff.mp hused
        exact h.elim (fun h => by rw [hw] at h; cases h) fun h => h e ⟨he, by simpa using ha, by simpa using hu⟩
      rw [translate_wf h0 hw, hnone]
      rfl
    · unfold State.translate
      rw [if_neg h0, (Bool.not_eq_true _).mp hw]
      rfl
  · rw [translate_wf h0 hw, ← ha, entryOf_of_used hsound hmem hu]
    by_cases hr : e.state = .revoked
    · rw [if_pos hr]; simp only [if_pos hr]; rfl
    · rw [if_neg hr]; simp only [if_neg hr]; rfl

-- purges and tracing

/-- Settles O39: a serialization is not seen. -/
theorem noOperations : Obligations.NoOperations := by
  unfold Obligations.NoOperations
  intro s r1 r3 b2 d2 hsup ea
  have hpurge : completes (s.supervisorOnly 4 (.next ((s.advance 4).serialize))) s { psw := pswNext s 4 } := by
    rw [supervisorOnly_ok s 4 _ hsup]
    exact (Advanced.start s 4).serialize.nothing
  have htrace (h : completes (if bitAt (s.cr 12) 31 then
      s.withFetch 4 {} operandCheck (specUnless (aligned ea 4)) b2 ea 4 (fun s1 bs =>
        if bitAt (be32 bs) 0 then .next s1.serialize else .refused .traceEntryFormat)
     else s.guarded 4 {} (specUnless (aligned ea 4)) (fun s1 => .next s1.serialize)) s { psw := pswNext s 4 }) :
      completes (exec (.trace r1 r3 b2 d2) s) s { psw := pswNext s 4 } := by
    show completes (s.supervisorOnly 4 _) s _
    rw [supervisorOnly_ok s 4 _ hsup]
    exact h
  have hoff (ha : aligned ea 4 = true) : completes (s.guarded 4 {} (specUnless (aligned ea 4)) (fun s1 => .next s1.serialize)) s
      { psw := pswNext s 4 } := by
    rw [guarded_ok _ _ _ _ _ (specUnless_true _ ha)]
    exact (Advanced.start s 4).serialize.nothing
  refine ⟨hpurge, hpurge, fun ha h => htrace ?_, fun ha hf h => htrace ?_⟩
  · rw [h]
    exact hoff ha
  · split
    · refine withFetch_completes (specUnless_true _ ha) hf fun u hu => ?_
      rw [if_pos h]
      exact hu.serialize.nothing
    · exact hoff ha

-- the PSW replaced

theorem enterPsw_valid {p : Psw} (h : p.valid = true) (ilc : Nat) : u.enterPsw p ilc = .next (u.setPsw p) := if_pos h

/-- A PSW that is not valid is the old PSW of an early exception (R421). -/
theorem enterPsw_invalid {p : Psw} {ilc : Nat} (hq : Quiet s (u.setPsw p)) (hr : (Effect.mk p [] [] []).onRegisters s (u.setPsw p))
    (h : p.valid = false) (ha : s.prefixAreaAssigned = true) : entersProgram (u.enterPsw p ilc) s { psw := p } 6 ilc [] := by
  unfold State.enterPsw
  rw [h]
  exact programInterruption_enters 6 ilc ha hq hr rfl

theorem Advanced.invalidPsw {n : Nat} (b : Advanced s u n) {p : Psw} {ilc : Nat} (h : p.valid = false) (ha : s.prefixAreaAssigned = true) :
    entersProgram (u.enterPsw p ilc) s { psw := p } 6 ilc [] :=
  enterPsw_invalid (b.quiet.setPsw p) (registers_none b.gr b.ar b.cr) h ha

/-- Settles O35: the eight bytes are those of one PSW only, since `Psw.ofDWord` gives it back. -/
theorem loadPsw : Obligations.LoadPsw := by
  unfold Obligations.LoadPsw
  intro s b2 d2 p hsup ea ha hf hbytes
  have hexec : exec (.lpsw b2 d2) s =
      s.withFetch 4 setsCc controlCheck (specUnless (aligned ea 8)) b2 ea 8 (fun s1 bs => s1.returnTo (be64 bs)) :=
    supervisorOnly_ok s 4 _ hsup
  have hreturn (u : State) : u.returnTo (be64 (operand s b2 ea 8)) = u.serialize.enterPsw p 0 := by
    unfold State.returnTo
    rw [← hbytes, be64_bytes64, psw_ofDWord_toDWord]
  rw [hexec]
  refine ⟨fun hv => withFetch_completes (specUnless_true _ ha) hf fun u hu => ?_, fun hv hp => ?_⟩
  · rw [hreturn, enterPsw_valid hv]
    exact hu.serialize.newPsw rfl
  · refine withFetch_of (P := fun o => entersProgram o s { psw := p } 6 0 []) (specUnless_true _ ha) hf fun u hu => ?_
    rw [hreturn]
    exact hu.serialize.invalidPsw hv hp

/-- Settles O36: the mask byte of STNSM and STOSM is stored before the PSW is replaced. -/
theorem systemMask : Obligations.SystemMask := by
  unfold Obligations.SystemMask
  intro s i2 b1 d1 hsup ea old withMask stores
  refine ⟨fun hf => ?_, fun hst => ?_⟩
  · intro p
    have hexec : exec (.ssm b1 d1) s = s.withFetch 4 {} operandCheck [] b1 ea 1 (fun s1 bs =>
        s1.enterPsw { s1.cpu.psw with sysMask := bs.headD 0 } 2) := supervisorOnly_ok s 4 _ hsup
    have hpsw {u : State} (hu : Advanced s u 4) : ({ u.cpu.psw with sysMask := (operand s b1 ea 1).headD 0 } : Psw) = p := by
      rw [hu.psw]
    rw [hexec]
    refine ⟨fun hv => withFetch_completes rfl hf fun u hu => ?_, fun hv hp => ?_⟩
    · rw [hpsw hu, enterPsw_valid hv]
      exact hu.newPsw rfl
    · refine withFetch_of (P := fun o => entersProgram o s { psw := p } 6 2 []) rfl hf fun u hu => ?_
      rw [hpsw hu]
      exact hu.invalidPsw hv hp
  · have hstored (m : Byte) : stores (.next (((s.advance 4).storeOperand (s.target b1) ea [old]).setPsw (withMask m))) m :=
      completesStore_of b1 ea [old] 4 hst (show 1 ≤ 2 ^ 24 by decide) rfl ((Quiet.refl _).setPsw _) rfl (stored_registers s 4 _ ea [old] _)
    have hpsw (f : Byte → Byte) : ({ ((s.advance 4).storeOperand (s.target b1) ea [old]).cpu.psw with
        sysMask := f ((s.advance 4).storeOperand (s.target b1) ea [old]).cpu.psw.sysMask } : Psw) = withMask (f old) := by
      rw [stored_psw]
      rfl
    have hstnsm : exec (.stnsm i2 b1 d1) s = .next (((s.advance 4).storeOperand (s.target b1) ea [old]).setPsw (withMask (old &&& i2))) := by
      rw [← hpsw (· &&& i2)]
      exact (supervisorOnly_ok s 4 _ hsup).trans (withStore_ok s 4 {} [] b1 ea [old] _ rfl hst)
    have hstosm : exec (.stosm i2 b1 d1) s = ((s.advance 4).storeOperand (s.target b1) ea [old]).enterPsw (withMask (old ||| i2)) 2 := by
      rw [← hpsw (· ||| i2)]
      exact (supervisorOnly_ok s 4 _ hsup).trans (withStore_ok s 4 {} [] b1 ea [old] _ rfl hst)
    refine ⟨hstnsm ▸ hstored _, fun hv => ?_, fun hv hp => ⟨_, hstored _, ?_⟩⟩
    · rw [hstosm, enterPsw_valid hv]
      exact hstored _
    · rw [hstosm]
      refine enterPsw_invalid (Quiet.refl _) (registers_none (fun _ => rfl) (fun _ => rfl) fun _ => rfl) hv ?_
      exact (frame_prefixAreaAssigned s _ (storeOperand_frame (s.advance 4) (s.target b1) ea [old])).trans hp

end Sys2Proof.Machine
end

section
/-! Privileged instructions: the timing registers, the prefix, and host-primary real storage (spec/40_timing_instructions.md R200 to R207,
spec/43_modified_instructions_a.md R252, R256, spec/44_modified_instructions_b.md R280, spec/45_base_subset.md R382, R386, R387,
spec/60_exceptions.md R450). -/

namespace Sys2Proof.Machine

open Sys2Proof.Safety

variable {s u : State} {n : Nat}

-- the privilege

/-- Every privileged instruction that is provided begins with the check of the problem state, SCKPF after that of its facility. -/
theorem exec_privileged {i : Instr} (s : State) (h : (isPrivileged i && !isNotProvided i) = true) (hi : i = .sckpf → s.cfg.extTodInstalled = true) :
    ∃ k, exec i s = s.supervisorOnly (encode i).length k := by
  cases i
  case stnsm | stctl | lctl | spx | stpx | stap | sckc | stckc | spt | stpt | ssm | lpsw | diag | trace | stosm | sigp | ptlb | ipte | iske | rrbe
      | sske | tb | stura | palb | lura | tprot => exact ⟨_, rfl⟩
  case sckpf => exact ⟨_, if_pos (hi rfl)⟩
  all_goals cases h

/-- Settles O34: the check comes before anything else. -/
theorem privilegedOperation : Obligations.PrivilegedOperation := by
  unfold Obligations.PrivilegedOperation
  intro s i hproblem ha hpriv hprov hi
  obtain ⟨k, hk⟩ := exec_privileged s (by rw [hpriv, hprov]; rfl) hi
  rw [hk, supervisorOnly_problem s _ k hproblem]
  exact takeException_suppresses s _ {} .privilegedOperation rfl ha

-- the clock

theorem cpuFrame_passTime (d : DWord) (c : Cpu) : cpuFrame (c.passTime d) = (cpuFrame c).passTime d := by
  unfold Cpu.passTime
  by_cases h : c.status = .operating
  · rw [if_pos h, if_pos (show (cpuFrame c).status = .operating from h)]
    rfl
  · rw [if_neg h, if_neg (show (cpuFrame c).status ≠ .operating from h)]

theorem frame_passTime (s : State) (d : DWord) : frame (s.passTime d) = (frame s).passTime d := by
  unfold frame State.passTime
  simp only [cpuFrame_passTime]

/-- A store after which time passes. -/
theorem completesStore_passTime {e : Effect} {id : SpaceId} {cells : List (Addr × Byte)} (d : DWord) (h : completesStore (.next u) s e id cells) :
    completesStore (.next (u.passTime d)) s e id cells (fun v => v.passTime d) := by
  obtain ⟨t, ht, hp, ⟨hg, ha, hc⟩, hb, hk, hf, hr⟩ := h
  cases ht
  have hcpu : (u.passTime d).cpu = { u.cpu with cpuTimer := (u.cpu.passTime d).cpuTimer } := passTime_cpu d u.cpu
  refine ⟨_, rfl, by rw [hcpu]; exact hp, ⟨fun r => ?_, fun r => ?_, fun r => ?_⟩, fun i a => ?_, fun i b => ?_, ?_, fun c hm => ?_⟩
  · rw [← hg r]; unfold State.gr; simp only [hcpu]
  · rw [← ha r]; unfold State.ar; simp only [hcpu]
  · rw [← hc r]; unfold State.cr; simp only [hcpu]
  · rw [passTime_space]; exact hb i a
  · rw [passTime_space]; exact hk i b
  · rw [frame_passTime, hf]
  · rw [passTime_space]; exact hr c hm

/-- A store after which the condition code is set. -/
theorem completesStore_setCc {id : SpaceId} {cells : List (Addr × Byte)} {other : State → State} (c : BitVec 2)
    (h : completesStore (.next u) s { psw := pswNext s n } id cells other) :
    completesStore (.next (u.setCc c)) s { psw := pswCc s n c } id cells other := by
  obtain ⟨t, ht, hp, ⟨hg, ha, hc⟩, hb, hk, hf, hr⟩ := h
  cases ht
  refine ⟨_, rfl, ?_, ⟨hg, ha, hc⟩, fun i a => ?_, fun i b => ?_, hf, fun c hm => ?_⟩
  · rw [State.setCc_cpu_psw, hp]; rfl
  · rw [State.setCc_space]; exact hb i a
  · rw [State.setCc_space]; exact hk i b
  · rw [State.setCc_space]; exact hr c hm

/-- The clock is advanced by at least one unit and does not start over (R208). -/
theorem clockAdvance_bounds (h : s.tod.toNat + 1 < 2 ^ 64) : 1 ≤ s.clockAdvance.toNat ∧ s.tod.toNat + s.clockAdvance.toNat < 2 ^ 64 := by
  unfold State.clockAdvance
  rw [BitVec.toNat_ofNat]
  have hmod := Nat.mod_lt (s.draw .clock).toNat (show 0 < 2 ^ 64 - 1 - s.tod.toNat by omega)
  rw [Nat.mod_eq_of_lt (by omega)]
  omega

theorem storesClock {b2 : Reg} {ea : Addr} {bytes : List Byte} (hst : storable s b2 ea bytes.length) (hl : bytes.length ≤ 2 ^ 24) :
    completesStore (s.withStore 4 setsCc [] b2 ea bytes (fun s1 => .next (((s1.passTime s.clockAdvance).setCc 0).serialize))) s
      { psw := pswCc s 4 0 } (operandSpace s b2) (storedCells s b2 ea bytes) (fun u => u.passTime s.clockAdvance) := by
  rw [withStore_ok s 4 setsCc [] b2 ea bytes _ rfl hst]
  exact completesStore_serialize (completesStore_setCc 0 (completesStore_passTime _ (stored_completes s 4 b2 ea bytes hst hl)))

/-- Settles O30: the sampled value is the clock advanced by `clockAdvance`. -/
theorem storeClock : Obligations.StoreClock := by
  unfold Obligations.StoreClock
  intro s b2 d2 ea
  have hstcke : exec (.stcke b2 d2) s = if s.cfg.extTodInstalled then
      s.withStore 4 setsCc [] b2 ea s.extendedClock (fun s1 => .next (((s1.passTime s.clockAdvance).setCc 0).serialize))
    else s.takeException 4 {} .operation := rfl
  refine ⟨fun htod hst => ?_, fun hi ha => ?_, fun hi htod hst => ?_⟩
  · obtain ⟨h1, h2⟩ := clockAdvance_bounds htod
    exact ⟨s.clockAdvance, h1, h2, storesClock (bytes := bytes64 (s.tod + s.clockAdvance)) hst (show 8 ≤ 2 ^ 24 by decide)⟩
  · rw [hstcke, hi]
    exact takeException_suppresses s 4 {} .operation rfl ha
  · obtain ⟨h1, h2⟩ := clockAdvance_bounds htod
    rw [hstcke, if_pos hi]
    exact ⟨s.clockAdvance, (bytes64 (s.draw .clockFraction)).take 5, h1, h2, rfl,
      storesClock (bytes := s.extendedClock) hst (show 16 ≤ 2 ^ 24 by decide)⟩

-- the registers of the timing facilities, the prefix and the CPU address

/-- Settles O31: each instruction replaces or stores one register. -/
theorem timerRegisters : Obligations.TimerRegisters := by
  unfold Obligations.TimerRegisters
  intro s b2 d2 ea v
  have hsckpf : exec .sckpf s = if s.cfg.extTodInstalled then s.supervisorOnly 2 (s.guarded 2 {} (specUnless (field (s.gr 0) 0 16 == 0)) (fun s1 =>
      .next { s1 with cpu := { s1.cpu with todProg := field (s.gr 0) 16 16 } })) else s.takeException 2 {} .operation := rfl
  refine ⟨fun hi ha => ?_, fun hsup => ⟨fun hi hz ha => ?_, fun hi hz => ?_, fun ha hf => ⟨?_, ?_⟩, fun ha hst => ⟨?_, ?_⟩⟩⟩
  · rw [hsckpf, hi]
    exact takeException_suppresses s 2 {} .operation rfl ha
  · rw [hsckpf, if_pos hi, supervisorOnly_ok s 2 _ hsup]
    exact guarded_suppresses s 2 {} _ _ .specification (specUnless_false _ (beq_eq_false_iff_ne.mpr hz)) rfl ha
  · rw [hsckpf, if_pos hi, supervisorOnly_ok s 2 _ hsup, guarded_ok _ _ _ _ _ (specUnless_true _ (beq_iff_eq.mpr hz))]
    exact (Advanced.start s 2).elsewhere rfl rfl rfl rfl (fun id => by cases id <;> rfl) rfl
  · show completes (s.supervisorOnly 4 _) s _ _
    rw [supervisorOnly_ok s 4 _ hsup]
    refine withFetch_of (P := fun o => completes o s _ _) (specUnless_true _ ha) hf fun u hu => ?_
    exact hu.elsewhere rfl rfl rfl rfl (State.setComparator_space u v) rfl
  · show completes (s.supervisorOnly 4 _) s _ _
    rw [supervisorOnly_ok s 4 _ hsup]
    refine withFetch_of (P := fun o => completes o s _ _) (specUnless_true _ ha) hf fun u hu => ?_
    exact hu.elsewhere rfl rfl rfl rfl (State.setTimer_space u v) rfl
  · show completesStore (s.supervisorOnly 4 _) s _ _ _
    rw [supervisorOnly_ok s 4 _ hsup]
    exact withStore_completes s 4 {} _ b2 ea (bytes64 s.cpu.clockComparator) (specUnless_true _ ha) hst (show 8 ≤ 2 ^ 24 by decide)
  · show completesStore (s.supervisorOnly 4 _) s _ _ _
    rw [supervisorOnly_ok s 4 _ hsup]
    exact withStore_completes s 4 {} _ b2 ea (bytes64 s.cpu.cpuTimer) (specUnless_true _ ha) hst (show 8 ≤ 2 ^ 24 by decide)

/-- Settles O37: whether the new block is assigned is checked after the fetch. -/
theorem prefixAndCpuAddress : Obligations.PrefixAndCpuAddress := by
  unfold Obligations.PrefixAndCpuAddress
  intro s b2 d2 hsup ea block
  refine ⟨fun ha hf => ?_, fun ha hst => ?_, fun ha hst => ?_⟩
  · have hspx : exec (.spx b2 d2) s = s.withFetch 4 { prefixRegister := true } operandCheck (specUnless (aligned ea 4)) b2 ea 4 (fun s1 bs =>
        let block : Block := field (be32 bs) 1 19
        if s1.hp.assigned block then .next ((s1.setPrefix block).serialize) else s1.report 4 (.addressing false)) :=
      supervisorOnly_ok s 4 _ hsup
    rw [hspx]
    refine ⟨fun h => withFetch_of (P := fun o => completes o s _ _) (specUnless_true _ ha) hf fun u hu => ?_,
      fun h hp => withFetch_of (P := fun o => suppresses o s 4 5) (specUnless_true _ ha) hf fun u hu => ?_⟩
    · have hb : u.hp.assigned block = true := (hu.assigned .hostPrimary block).trans h
      show completes (if u.hp.assigned block = true then _ else _) s _ _
      rw [if_pos hb]
      exact completes_serialize (hu.elsewhere rfl rfl rfl rfl (State.setPrefix_space u block) rfl)
    · have hb : u.hp.assigned block = false := (hu.assigned .hostPrimary block).trans h
      show suppresses (if u.hp.assigned block = true then _ else _) s _ _
      rw [if_neg (Bool.not_eq_true _ ▸ hb)]
      exact hu.reports (.addressing false) hp
  · show completesStore (s.supervisorOnly 4 _) s _ _ _
    rw [supervisorOnly_ok s 4 _ hsup]
    exact withStore_completes s 4 {} _ b2 ea (bytes32 (prefixWord s.cpu.prefixReg)) (specUnless_true _ ha) hst (show 4 ≤ 2 ^ 24 by decide)
  · show completesStore (s.supervisorOnly 4 _) s _ _ _
    rw [supervisorOnly_ok s 4 _ hsup]
    exact withStore_completes s 4 {} _ b2 ea (bytes16 s.cpu.address) (specUnless_true _ ha) hst (show 2 ≤ 2 ^ 24 by decide)

-- real storage

/-- An instruction that does nothing but store at host-primary real addresses. -/
theorem storesReal (len : Nat) (l : List Addr) (bytes : List Byte) (hd : l.Nodup) :
    completesStore (.next ((s.advance len).storeBytes hostPrimaryTarget (l.zip bytes))) s { psw := pswNext s len } .hostPrimary
      ((l.map s.prefixed).zip bytes) := by
  have hnodup := (zip_fst_sublist (s.advance len) hostPrimaryTarget l bytes).nodup (absolute_nodup (s.advance len) hostPrimaryTarget l hd)
  have hcells : (l.zip bytes).map (fun c => (s.prefixed c.1, c.2)) = (l.map s.prefixed).zip bytes := zip_absolute s hostPrimaryTarget l bytes
  rw [← hcells]
  refine ⟨_, rfl, State.storeBytes_psw _ _ _, ⟨State.storeBytes_gr _ _ _, State.storeBytes_ar _ _ _, State.storeBytes_cr _ _ _⟩, fun i a => ?_,
    fun i b => ?_, State.storeBytes_frame _ _ _, fun c hc => ?_⟩
  · have h := State.storeBytes_stored (s.advance len) hostPrimaryTarget (l.zip bytes) rfl hnodup i a
    rw [State.advance_space] at h
    exact h
  · have h := State.storeBytes_keysKept (s.advance len) hostPrimaryTarget (l.zip bytes) i b
    rwa [State.advance_space] at h
  · obtain ⟨d, hd, rfl⟩ := List.mem_map.mp hc
    exact State.storeBytes_recorded (s.advance len) hostPrimaryTarget (l.zip bytes) rfl d hd

theorem pageTableEntry_eq (s : State) (r1 r2 : Reg) :
    s.pageTableEntry r1 r2 = (field (s.gr r1) 1 25 ++ 0#6) + BitVec.ofNat 31 (4 * (field (s.gr r2) 12 8).toNat) := by
  refine congrArg (_ + ·) (BitVec.eq_of_toNat_eq ?_)
  rw [BitVec.toNat_mul, BitVec.toNat_setWidth, BitVec.toNat_ofNat]
  exact Nat.mul_mod_mod ..

/-- Settles O38: the real addresses of the word of STURA wrap with the addressing mode, those of the page-table entry at 2^31. -/
theorem realStorage : Obligations.RealStorage := by
  unfold Obligations.RealStorage
  intro s r1 r2 hsup ea cells entry entryCells
  have hipte : exec (.ipte r1 r2) s = s.guarded 4 { store := some (hostPrimaryTarget, blockCheck, wordAddrs entry) }
      (if field (s.cr 0) 8 5 = 0b10110 then (wordAddrs entry).flatMap (s.byteFaults hostPrimaryTarget blockCheck true)
       else [.translationSpecification])
      (fun s1 => .next ((s1.storeBytes hostPrimaryTarget ((wordAddrs entry).zip
        (bytes32 (be32 (entryCells.map s.hp.byte) ||| 0x00000400)))).serialize)) := by
    rw [show entry = s.pageTableEntry r1 r2 from (pageTableEntry_eq s r1 r2).symm]
    exact supervisorOnly_ok s 4 _ hsup
  refine ⟨fun ha hf => ?_, fun ha hst => ?_, fun hfmt hst => ?_, fun hfmt hp => ?_⟩
  · have hlura : exec (.lura r1 r2) s = s.withRealFetch 4 (loads r1) (specUnless (aligned ea 4)) ea 4 (fun s1 bs => .next (s1.setGr r1 (be32 bs))) :=
      supervisorOnly_ok s 4 _ hsup
    rw [hlura, withRealFetch_ok _ _ _ _ _ _ _ (specUnless_true _ ha) hf]
    exact (Advanced.fetched s 4 _ _).one rfl
  · have hstura : exec (.stura r1 r2) s = s.guarded 4 { store := some (hostPrimaryTarget, controlCheck, s.addrs ea 4) }
        (specUnless (aligned ea 4) ++ s.accessFaults hostPrimaryTarget controlCheck true ea 4)
        (fun s1 => .next (s1.storeOperand hostPrimaryTarget ea (bytes32 (s.gr r1)))) := supervisorOnly_ok s 4 _ hsup
    have hcells : cells ea (bytes32 (s.gr r1)) = ((s.addrs ea 4).map s.prefixed).zip (bytes32 (s.gr r1)) := by
      unfold State.addrs operandAddrs
      rw [List.map_map]
      rfl
    rw [hstura, guarded_ok _ _ _ _ _ (by rw [specUnless_true _ ha]; exact hst), hcells]
    exact storesReal 4 (s.addrs ea 4) (bytes32 (s.gr r1)) (operandAddrs_nodup _ ea 4 (show 4 ≤ 2 ^ 24 by decide))
  · have hcells : entryCells = (wordAddrs entry).map s.prefixed := by
      unfold wordAddrs operandAddrs
      rw [List.map_map]
      rfl
    rw [hipte, guarded_ok _ _ _ _ _ (by rw [if_pos hfmt]; exact hst), hcells]
    exact completesStore_serialize (storesReal 4 (wordAddrs entry) _ (operandAddrs_nodup true entry 4 (show 4 ≤ 2 ^ 24 by decide)))
  · rw [hipte]
    exact guarded_suppresses s 4 _ _ _ .translationSpecification (if_neg hfmt) rfl hp

end Sys2Proof.Machine
end

section
/-! Storage protection and storage keys (spec/20_memory.md R105 to R113, spec/43_modified_instructions_a.md R250, R259,
spec/44_modified_instructions_b.md R274, R283, R285). -/

namespace Sys2Proof.Machine

open Sys2Proof.Safety

variable {s u : State}

-- the protection mechanisms

theorem keyMatch_iff (s : State) (key : BitVec 4) (k : BitVec 7) : s.keyMatch key k = true ↔
    key = field k 0 4 ∨ key = 0 ∨ (s.cfg.spoInstalled = true ∧ bitAt (s.cr 0) 7 = true ∧ field k 0 4 = 9) := by
  unfold State.keyMatch keyAcc
  rw [Bool.or_eq_true, Bool.or_eq_true, Bool.and_eq_true, Bool.and_eq_true, beq_iff_eq, beq_iff_eq, beq_iff_eq, or_assoc, and_assoc]

theorem fetchOverride_iff (s : State) (typeR : Bool) (e : Addr) :
    s.fetchOverride typeR e = true ↔ bitAt (s.cr 0) 6 = true ∧ typeR = true ∧ e.toNat ≤ 2047 := by
  unfold State.fetchOverride
  rw [Bool.and_eq_true, Bool.and_eq_true, decide_eq_true_iff, and_assoc]

theorem lowAddressProtected_iff (s : State) (typeR : Bool) (e : Addr) :
    s.lowAddressProtected typeR e = true ↔ typeR = true ∧ bitAt (s.cr 0) 3 = true ∧ e.toNat ≤ 511 := by
  unfold State.lowAddressProtected
  rw [Bool.and_eq_true, Bool.and_eq_true, decide_eq_true_iff, and_assoc]

theorem keyPermits_fetch_iff (s : State) (key : BitVec 4) (k : BitVec 7) (typeR : Bool) (e : Addr) :
    s.keyPermits key k typeR false e = true ↔ s.keyMatch key k = true ∨ keyFetch k = false ∨ s.fetchOverride typeR e = true := by
  unfold State.keyPermits
  rw [Bool.or_eq_true, Bool.not_false, Bool.true_and, Bool.or_eq_true, Bool.not_eq_true']

theorem keyPermits_store (s : State) (key : BitVec 4) (k : BitVec 7) (typeR : Bool) (e : Addr) :
    s.keyPermits key k typeR true e = s.keyMatch key k := Bool.or_false _

theorem ite_cons_eq_nil_iff {α : Type} {c : Prop} [Decidable c] {x : α} {l : List α} : (if c then [x] else l) = [] ↔ ¬ c ∧ l = [] := by
  split
  · exact ⟨nofun, fun h => absurd ‹_› h.1⟩
  · exact ⟨fun h => ⟨‹_›, h⟩, And.right⟩

/-- A byte access meets no exception exactly where no mechanism has one. -/
theorem byteFaults_eq_nil_iff (t : Target) (c : Check) (store : Bool) (e : Addr) : s.byteFaults t c store e = [] ↔
    ¬ (store && c.lowAddress && s.lowAddressProtected t.typeR e) = true ∧ ¬ (store && t.readOnly) = true ∧
    ¬ (!(s.space t.space).assigned (blockOf (s.absolute t e))) = true ∧
    ¬ (store && (s.space t.space).readOnly (blockOf (s.absolute t e))) = true ∧
    ¬ (c.key && !s.keyPermits s.cpu.psw.key ((s.space t.space).key (blockOf (s.absolute t e))) t.typeR store e) = true := by
  unfold State.byteFaults
  simp only [List.append_eq_nil_iff, ite_cons_eq_nil_iff, and_true]

/-- Settles O47: the mechanisms of `byteFaults_eq_nil_iff` in the terms of the spec, of a fetch and of a store. -/
theorem storageAccessPermitted : Obligations.StorageAccessPermitted := by
  unfold Obligations.StorageAccessPermitted
  intro s t store e a p k keyed fetchOk
  have hkeyed : s.keyMatch s.cpu.psw.key k = true ↔ keyed := keyMatch_iff s _ k
  have hfetch : s.keyPermits s.cpu.psw.key k t.typeR false e = true ↔ fetchOk := by
    rw [keyPermits_fetch_iff, hkeyed, fetchOverride_iff]
    rfl
  have hlow := lowAddressProtected_iff s t.typeR e
  rw [byteFaults_eq_nil_iff]
  show _ ∧ _ ∧ ¬ (!p.assigned (blockOf a)) = true ∧ ¬ (store && p.readOnly (blockOf a)) = true ∧
    ¬ (true && !s.keyPermits s.cpu.psw.key k t.typeR store e) = true ↔ _
  cases store with
  | false => simp [hfetch]
  | true =>
    rw [keyPermits_store, ← hkeyed, ← hlow]
    simp only [operandCheck, Bool.and_self, Bool.true_and, Bool.not_eq_true, Bool.not_eq_eq_eq_not, Bool.not_true, Bool.not_eq_false,
      Bool.true_eq_false, false_implies, true_implies, true_and]
    exact ⟨fun ⟨hlow, hlist, hblock, hpage, hkey⟩ => ⟨hblock, hkey, hlow, hlist, hpage⟩,
      fun ⟨hblock, hkey, hlow, hlist, hpage⟩ => ⟨hlow, hlist, hblock, hpage, hkey⟩⟩

-- TEST PROTECTION

/-- What TEST PROTECTION finds permitted. -/
theorem permissions_fetch_iff (s : State) (t : Target) (key : BitVec 4) (e : Addr) : (s.permissions t key e).1 = true ↔
    s.keyMatch key (s.keyAt t e) = true ∨ keyFetch (s.keyAt t e) = false ∨ s.fetchOverride t.typeR e = true := by
  unfold State.permissions
  rw [Bool.or_eq_true, Bool.or_eq_true, Bool.not_eq_true', or_assoc]

theorem permissions_store_iff (s : State) (t : Target) (key : BitVec 4) (e : Addr) : (s.permissions t key e).2 = true ↔
    s.keyMatch key (s.keyAt t e) = true ∧ ¬ s.lowAddressProtected t.typeR e = true ∧ t.readOnly = false ∧
      (s.space t.space).readOnly (s.blockAt t e) = false := by
  unfold State.permissions
  rw [Bool.and_eq_true, Bool.and_eq_true, Bool.and_eq_true, Bool.not_eq_true', Bool.not_eq_true', Bool.not_eq_true', Bool.not_eq_true,
    and_assoc, and_assoc]

theorem permissionCc_both {p : Bool × Bool} (h1 : p.1 = true) (h2 : p.2 = true) : permissionCc p = 0 := by
  unfold permissionCc
  rw [h1, h2]
  rfl

theorem permissionCc_fetch {p : Bool × Bool} (h1 : p.1 = true) (h2 : ¬ p.2 = true) : permissionCc p = 1 := by
  unfold permissionCc
  rw [h1, (Bool.not_eq_true _).mp h2]
  rfl

theorem permissionCc_none {p : Bool × Bool} (h1 : ¬ p.1 = true) : permissionCc p = 2 := by
  unfold permissionCc
  rw [(Bool.not_eq_true _).mp h1]
  rfl

/-- Settles O42: the condition code is that of `State.permissions`; whether a reference is recorded is not seen. -/
theorem testProtection : Obligations.TestProtection := by
  unfold Obligations.TestProtection
  intro s b1 b2 d1 d2 hsup e key
  have hkey : (s.eaBD b2 d2).extractLsb' 4 4 = key := by
    apply BitVec.eq_of_toNat_eq
    rw [BitVec.extractLsb'_toNat, Nat.shiftRight_eq_div_pow, BitVec.toNat_ofNat]
  have hexec : exec (.tprot b1 d1 b2 d2) s = execTprot b1 d1 b2 d2 s := rfl
  unfold execTprot at hexec
  rw [supervisorOnly_ok s 6 _ hsup, hkey] at hexec
  refine ⟨fun x hx => ?_, fun tg htg => ?_⟩
  · rw [hexec, hx]
    exact (Advanced.start s 6).cc rfl
  · intro a p k keyed fetch store
    rw [htg] at hexec
    have hkeyed : s.keyMatch key (s.keyAt tg e) = true ↔ keyed := keyMatch_iff s key k
    have hfetch : (s.permissions tg key e).1 = true ↔ fetch := by
      rw [permissions_fetch_iff, hkeyed, fetchOverride_iff]
      rfl
    have hstore : (s.permissions tg key e).2 = true ↔ store := by
      rw [permissions_store_iff, hkeyed, lowAddressProtected_iff]
      rfl
    have hcode {c : BitVec 2} (ha : p.assigned (blockOf a) = true) (hc : permissionCc (s.permissions tg key e) = c) :
        completes (exec (.tprot b1 d1 b2 d2) s) s { psw := pswCc s 6 c } := by
      rw [hexec]
      refine guarded_completes (if_pos ha) ?_
      split
      · exact ((Advanced.start s 6).record _ _ _).cc hc
      · exact (Advanced.start s 6).cc hc
    refine ⟨fun ha => ⟨fun hf hs => ?_, fun hf hs => ?_, fun hf => ?_⟩, fun ha hp => ?_⟩
    · exact hcode ha (permissionCc_both (hfetch.mpr hf) (hstore.mpr hs))
    · exact hcode ha (permissionCc_fetch (hfetch.mpr hf) (mt hstore.mp hs))
    · exact hcode ha (permissionCc_none (mt hfetch.mp hf))
    · rw [hexec]
      refine guarded_suppresses s 6 _ _ _ (.addressing false) (if_neg ?_) rfl hp
      exact fun h => Bool.false_ne_true (ha.symm.trans h)

-- storage keys

theorem setKeyAt_cpu (u : State) (t : Target) (ea : Addr) (k : BitVec 7) : (u.setKeyAt t ea k).cpu = u.cpu := State.updateSpace_cpu ..

/-- An instruction that sets one storage key, replaces the PSW and may serialize. -/
theorem Advanced.setsKey {n : Nat} (b : Advanced s u n) (hs : ∀ id, u.space id = s.space id) {t : Target} {ea : Addr} {k : BitVec 7}
    (hk : s.knows t.space = true) {w : State} {p : Psw} (hcpu : ∃ l, w.cpu = { u.cpu with psw := p, staleBytes := l })
    (hsp : ∀ id, w.space id = (u.setKeyAt t ea k).space id) (hf : frame w = frame (u.setKeyAt t ea k)) :
    ∃ v, Host.Outcome.next w = (Host.Outcome.next v : Out) ∧ v.cpu.psw = p ∧ (Effect.mk p [] [] []).onRegisters s v ∧ bytesKept s v ∧
      frame v = frame s ∧ ∀ i x, (v.space i).key x = if i = t.space ∧ x = blockOf (s.absolute t ea) then k else (s.space i).key x := by
  have hblock : u.blockAt t ea = blockOf (s.absolute t ea) := congrArg blockOf (frame_absolute s u b.quiet.rest t ea)
  obtain ⟨hkey, hbytes, hframe⟩ := State.setKey_sets u t.space (u.blockAt t ea) k ((frame_knows s u b.quiet.rest _).trans hk)
  obtain ⟨l, hcpu⟩ := hcpu
  refine ⟨w, rfl, by rw [hcpu], registers_none (fun r => ?_) (fun r => ?_) (fun r => ?_), fun i a => ?_, (hf.trans hframe).trans b.quiet.rest,
    fun i x => ?_⟩
  · rw [← b.gr r]; unfold State.gr; simp only [hcpu]
  · rw [← b.ar r]; unfold State.ar; simp only [hcpu]
  · rw [← b.cr r]; unfold State.cr; simp only [hcpu]
  · rw [hsp, ← b.quiet.bytes i a]
    exact hbytes i a
  · rw [hsp]
    unfold State.setKeyAt
    rw [hkey, hs, hblock]

/-- Settles O40: SSKE serializes besides, which is not seen. -/
theorem storageKeys : Obligations.StorageKeys := by
  unfold Obligations.StorageKeys
  intro s r1 r2 hsup ea sp block k sets
  have h := Advanced.start s 4
  refine ⟨fun hf => ?_, fun hst => ?_⟩
  · show completes (s.supervisorOnly 4 _) s _
    rw [supervisorOnly_ok s 4 _ hsup]
    exact guarded_completes hf (h.one rfl)
  · have hknows : s.knows (s.target r2).space = true := knows_of_operand s _ _ _ _ 1 Nat.one_pos hst
    have hrrbe : exec (.rrbe r1 r2) s = .next (((s.advance 4).setKeyAt (s.target r2) ea (keyWith k false (keyChange k))).setCc
        (BitVec.ofBool (keyReference k) ++ BitVec.ofBool (keyChange k))) :=
      (supervisorOnly_ok s 4 _ hsup).trans (guarded_ok s 4 _ _ _ hst)
    have hsske : exec (.sske r1 r2) s = .next (((s.advance 4).setKeyAt (s.target r2) ea (field (s.gr r1) 24 7)).serialize) :=
      (supervisorOnly_ok s 4 _ hsup).trans (guarded_ok s 4 _ _ _ hst)
    have hcc : BitVec.ofBool (keyReference k) ++ BitVec.ofBool (keyChange k) =
        BitVec.ofNat 2 (2 * (keyReference k).toNat + (keyChange k).toNat) := by
      cases keyReference k <;> cases keyChange k <;> rfl
    constructor
    · rw [hrrbe, ← hcc]
      refine h.setsKey (State.advance_space s 4) hknows ⟨s.cpu.staleBytes, ?_⟩ (State.setCc_space _ _) rfl
      unfold State.setCc State.setPsw
      simp only [setKeyAt_cpu]
      rfl
    · rw [hsske]
      refine h.setsKey (State.advance_space s 4) hknows ⟨[], ?_⟩ (State.serialize_space _) rfl
      unfold State.serialize
      simp only [setKeyAt_cpu]
      rfl

-- TEST BLOCK

theorem noteStaleBlock_space (s : State) (t : Target) (b : Block) (id : SpaceId) : (s.noteStaleBlock t b).space id = s.space id := by
  unfold State.noteStaleBlock
  split <;> cases id <;> rfl

theorem noteStaleBlock_cpu (s : State) (t : Target) (b : Block) : ∃ l, s.noteStaleBlock t b = { s with cpu := { s.cpu with staleBytes := l } } := by
  unfold State.noteStaleBlock
  split
  · exact ⟨_, rfl⟩
  · exact ⟨s.cpu.staleBytes, rfl⟩

/-- A space with one block cleared, and the reference and change bits of its key replaced. -/
def clearedBlock (b : Block) (r c : Bool) (p : Space) : Space :=
  { p with mem := Memory.clearBlock p.mem b }.setKey b (keyWith (p.key b) r c)

theorem clearBlock_eq (s : State) (t : Target) (b : Block) : s.clearBlock t b =
    (s.noteStaleBlock t b).updateSpace t.space (clearedBlock b (coin (s.draw .referenceBit)) (coin (s.draw .changeBit))) := rfl

theorem clearedBlock_asit (b : Block) (r c : Bool) (p : Space) : (clearedBlock b r c p).asit = p.asit := rfl

theorem clearedBlock_frame (b : Block) (r c : Bool) (p : Space) : spaceFrame (clearedBlock b r c p) = spaceFrame p := rfl

theorem clearedBlock_byte (b : Block) (r c : Bool) (p : Space) (a : Addr) :
    (clearedBlock b r c p).byte a = if blockOf a = b then 0 else p.byte a := by
  have hblock : a.toNat / 4096 = b.toNat ↔ blockOf a = b := by rw [← toNat_blockOf, BitVec.toNat_inj]
  have hread : (clearedBlock b r c p).byte a = if a.toNat / 4096 = b.toNat then 0 else p.byte a := Memory.read_clearBlock _ b _
  rw [hread]
  simp only [hblock]

theorem clearedBlock_key (b : Block) (r c : Bool) (p : Space) (x : Block) :
    (clearedBlock b r c p).key x = if x = b then keyWith (p.key b) r c else p.key x := Space.key_setKey ..

/-- The bytes of a block cleared to zero; at most the reference and change bits of its key change. -/
theorem clearBlock_space (s : State) (t : Target) (b : Block) (hk : s.knows t.space = true) (i : SpaceId) (a : Addr) :
    if i = t.space ∧ blockOf a = b then
      ((s.clearBlock t b).space i).byte a = 0 ∧ field (((s.clearBlock t b).space i).key (blockOf a)) 0 5 = field ((s.space i).key (blockOf a)) 0 5
    else ((s.clearBlock t b).space i).byte a = (s.space i).byte a ∧ ((s.clearBlock t b).space i).key (blockOf a) = (s.space i).key (blockOf a) := by
  have hknows : (s.noteStaleBlock t b).knows t.space = true := by
    obtain ⟨l, hl⟩ := noteStaleBlock_cpu s t b
    rw [hl]
    exact hk
  rw [clearBlock_eq, State.space_updateSpace _ _ _ (clearedBlock_asit b _ _), noteStaleBlock_space, noteStaleBlock_space, hknows]
  by_cases hi : i = t.space
  · subst hi
    rw [if_pos (c := t.space = t.space ∧ true = true) ⟨rfl, rfl⟩, clearedBlock_byte, clearedBlock_key]
    by_cases hb : blockOf a = b
    · rw [if_pos ⟨rfl, hb⟩, if_pos hb, if_pos hb, keyWith_field, hb]
      exact ⟨rfl, rfl⟩
    · rw [if_neg fun h => hb h.2, if_neg hb, if_neg hb]
      exact ⟨rfl, rfl⟩
  · rw [if_neg fun h => hi h.1, if_neg fun h => hi h.1]
    exact ⟨rfl, rfl⟩

theorem clearBlock_cpu (s : State) (t : Target) (b : Block) : ∃ l, (s.clearBlock t b).cpu = { s.cpu with staleBytes := l } := by
  obtain ⟨l, hl⟩ := noteStaleBlock_cpu s t b
  refine ⟨l, ?_⟩
  rw [clearBlock_eq, State.updateSpace_cpu, hl]

theorem clearBlock_frame (s : State) (t : Target) (b : Block) : frame (s.clearBlock t b) = frame s := by
  obtain ⟨l, hl⟩ := noteStaleBlock_cpu s t b
  rw [clearBlock_eq, frame_updateSpace _ _ _ (clearedBlock_frame b _ _), hl]
  rfl

/-- Settles O41: the two branches on whether the block is usable. -/
theorem testBlock : Obligations.TestBlock := by
  unfold Obligations.TestBlock
  intro s r2 hsup ea sp block hst
  have hknows : s.knows (s.target r2).space = true := knows_of_operand s _ _ _ _ 1 Nat.one_pos hst
  have hexec : exec (.tb r2) s = if (s.space sp).usable block = true then .next ((((s.advance 4).clearBlock (s.target r2) block).setCc 0).setGr 0 0)
      else .next (((s.advance 4).setCc 1).setGr 0 0) := (supervisorOnly_ok s 4 _ hsup).trans (guarded_ok s 4 _ _ _ hst)
  have h := Advanced.start s 4
  rw [hexec]
  by_cases hu : (s.space sp).usable block = true
  · obtain ⟨l, hcpu⟩ := clearBlock_cpu (s.advance 4) (s.target r2) block
    have hspace := clearBlock_space (s.advance 4) (s.target r2) block hknows
    have hframe := clearBlock_frame (s.advance 4) (s.target r2) block
    generalize (s.advance 4).clearBlock (s.target r2) block = v at hcpu hspace hframe
    rw [if_pos hu]
    refine ⟨_, rfl, registers_one (fun r => ?_) (fun r => ?_) (fun r => ?_), hframe, ?_, fun i a => ?_⟩
    · rw [State.gr_setGr, State.setCc_gr]; unfold State.gr; simp only [hcpu]; rfl
    · rw [State.setGr_ar, State.setCc_ar]; unfold State.ar; simp only [hcpu]; rfl
    · rw [State.setGr_cr, State.setCc_cr]; unfold State.cr; simp only [hcpu]; rfl
    · rw [State.setGr_cpu_psw, State.setCc_cpu_psw, hcpu, if_pos hu]; rfl
    · have hia := hspace i a
      rw [State.advance_space] at hia
      rw [State.setGr_space, State.setCc_space]
      simp only [hu, and_true]
      exact hia
  · rw [if_neg hu, if_neg hu]
    refine ⟨_, rfl, registers_one (fun r => ?_) (fun r => ?_) (fun r => ?_), rfl, rfl, fun i a => ?_⟩
    · rw [State.gr_setGr, State.setCc_gr, h.gr]
    · rw [State.setGr_ar, State.setCc_ar, h.ar]
    · rw [State.setGr_cr, State.setCc_cr, h.cr]
    · rw [if_neg fun hc => hu hc.2.2, State.setGr_space, State.setCc_space, State.advance_space]
      exact ⟨rfl, rfl⟩

end Sys2Proof.Machine
end

section
/-! Exceptions of operands: boundaries, access-register translation, protection and addressing (spec/20_memory.md R91, R99, R134, R135,
spec/60_exceptions.md R404, R409 to R413, R425, R426). -/

namespace Sys2Proof.Machine

open Sys2Proof.Safety

variable {s u : State}

-- boundaries

/-- LOAD PSW undergoes the checks of other operands. -/
theorem controlFaults_nil {b : Reg} {ea : Addr} {n : Nat} (h : fetchable s b ea n) : s.operandFaults controlCheck false b ea n = [] := by
  unfold fetchable State.operandFaults at h
  unfold State.operandFaults
  cases hr : s.resolve b with
  | error x =>
    rw [hr] at h
    cases h
  | ok t =>
    rw [hr] at h
    refine List.flatMap_eq_nil_iff.mpr fun e he => ?_
    exact byteFaults_eq_nil_iff t controlCheck false e |>.mpr (byteFaults_eq_nil_iff t operandCheck false e |>.mp (List.flatMap_eq_nil_iff.mp h e he))

theorem guarded_real_suppresses {r : Results} {ok store : Bool} {ea : Addr} {k : State → Out} (hs : ok = false)
    (h : s.accessFaults hostPrimaryTarget controlCheck store ea 4 = []) (ha : s.prefixAreaAssigned = true) :
    suppresses (s.guarded 4 r (specUnless ok ++ s.accessFaults hostPrimaryTarget controlCheck store ea 4) k) s 4 6 :=
  specification_suppresses ok hs h ha

theorem execTrace_suppresses {r1 r3 b2 : Reg} {d2 : Disp} (hsup : s.cpu.psw.problem = false) (hs : aligned (s.eaBD b2 d2) 4 = false)
    (h : bitAt (s.cr 12) 31 = false ∨ fetchable s b2 (s.eaBD b2 d2) 4) (ha : s.prefixAreaAssigned = true) :
    suppresses (execTrace r1 r3 b2 d2 s) s 4 6 := by
  unfold execTrace
  rw [supervisorOnly_ok s 4 _ hsup]
  split
  next hon =>
    exact withFetch_suppresses s 4 {} operandCheck _ b2 _ 4 _ hs (h.resolve_left (hon ▸ Bool.noConfusion)) ha
  next => exact guarded_suppresses s 4 {} _ _ .specification (specUnless_false _ hs) rfl ha

/-- Settles O45: where no access exception competes, the specification exception is the only one. -/
theorem misalignedOperand : Obligations.MisalignedOperand := by
  unfold Obligations.MisalignedOperand
  intro s r1 r3 x2 b2 d2 ha ea n real
  have hn : 4 * (regRange r1 r3).length = n := by rw [regRange_length]
  have hbytes (f : Reg → Word) : (bytesOfWords ((regRange r1 r3).map f)).length = n := by rw [bytesOfWords_length, List.length_map, hn]
  have sup (k : Out) (hsup : s.cpu.psw.problem = false) (h : suppresses k s 4 6) : suppresses (s.supervisorOnly 4 k) s 4 6 :=
    (supervisorOnly_ok s 4 k hsup).symm ▸ h
  have fetch (r : Results) (c : Check) (m k : Nat) (f : State → List Byte → Out) (hs : aligned ea m = false) (hf : s.operandFaults c false b2 ea k = []) :
      suppresses (s.withFetch 4 r c (specUnless (aligned ea m)) b2 ea k f) s 4 6 := withFetch_suppresses s 4 r c _ b2 ea k f hs hf ha
  have store (m : Nat) (bytes : List Byte) (hs : aligned ea m = false) (hst : storable s b2 ea bytes.length) :
      suppresses (s.withStore 4 {} (specUnless (aligned ea m)) b2 ea bytes .next) s 4 6 := withStore_suppresses s 4 {} _ b2 ea bytes _ hs hst ha
  have ex (hs : aligned (s.ea b2 x2 d2) 2 = false) : suppresses (execEx r1 x2 b2 d2 s) s 4 6 := by
    unfold execEx
    simp only [hs, Bool.not_false, if_true]
    exact takeException_suppresses s 4 {} .specification rfl ha
  have lam (hs : aligned ea 4 = false) (hf : fetchable s b2 ea n) : suppresses (execLam r1 r3 b2 d2 s) s 4 6 := by
    unfold execLam
    exact fetch _ _ 4 _ _ hs (hn.symm ▸ hf)
  have stam (hs : aligned ea 4 = false) (hst : storable s b2 ea n) : suppresses (execStam r1 r3 b2 d2 s) s 4 6 :=
    store 4 _ hs ((hbytes s.ar).symm ▸ hst)
  have cs (hs : aligned ea 4 = false) (hst : storable s b2 ea 4) : suppresses (execCs r1 r3 b2 d2 s) s 4 6 := by
    unfold execCs
    exact interlocked_suppresses _ hs hst ha
  have cds (hs : aligned ea 8 = false) (hst : storable s b2 ea 8) : suppresses (execCds r1 r3 b2 d2 s) s 4 6 := by
    unfold execCds
    exact interlocked_suppresses (evenReg r1 && evenReg r3 && aligned ea 8) (by rw [hs, Bool.and_false]) hst ha
  refine ⟨ex, lam, stam, cs, cds, fun hsup => ?_⟩
  have lctl (hs : aligned ea 4 = false) (hf : fetchable s b2 ea n) : suppresses (execLctl r1 r3 b2 d2 s) s 4 6 :=
    sup _ hsup (fetch _ _ 4 _ _ hs (hn.symm ▸ hf))
  have stctl (hs : aligned ea 4 = false) (hst : storable s b2 ea n) : suppresses (execStctl r1 r3 b2 d2 s) s 4 6 :=
    sup _ hsup (store 4 _ hs ((hbytes s.cr).symm ▸ hst))
  have spx (hs : aligned ea 4 = false) (hf : fetchable s b2 ea 4) : suppresses (execSpx b2 d2 s) s 4 6 := sup _ hsup (fetch _ _ 4 4 _ hs hf)
  have stpx (hs : aligned ea 4 = false) (hst : storable s b2 ea 4) : suppresses (execStpx b2 d2 s) s 4 6 :=
    sup _ hsup (store 4 (bytes32 (prefixWord s.cpu.prefixReg)) hs hst)
  have stap (hs : aligned ea 2 = false) (hst : storable s b2 ea 2) : suppresses (execStap b2 d2 s) s 4 6 :=
    sup _ hsup (store 2 (bytes16 s.cpu.address) hs hst)
  have sckc (hs : aligned ea 8 = false) (hf : fetchable s b2 ea 8) : suppresses (execSckc b2 d2 s) s 4 6 := sup _ hsup (fetch _ _ 8 8 _ hs hf)
  have spt (hs : aligned ea 8 = false) (hf : fetchable s b2 ea 8) : suppresses (execSpt b2 d2 s) s 4 6 := sup _ hsup (fetch _ _ 8 8 _ hs hf)
  have lpsw (hs : aligned ea 8 = false) (hf : fetchable s b2 ea 8) : suppresses (execLpsw b2 d2 s) s 4 6 :=
    sup _ hsup (fetch _ _ 8 8 _ hs (controlFaults_nil hf))
  have stckc (hs : aligned ea 8 = false) (hst : storable s b2 ea 8) : suppresses (execStckc b2 d2 s) s 4 6 :=
    sup _ hsup (store 8 (bytes64 s.cpu.clockComparator) hs hst)
  have stpt (hs : aligned ea 8 = false) (hst : storable s b2 ea 8) : suppresses (execStpt b2 d2 s) s 4 6 :=
    sup _ hsup (store 8 (bytes64 s.cpu.cpuTimer) hs hst)
  have lura (hs : aligned real 4 = false) (h : s.accessFaults hostPrimaryTarget controlCheck false real 4 = []) :
      suppresses (execLura r1 r3 s) s 4 6 := sup _ hsup (guarded_real_suppresses hs h ha)
  have stura (hs : aligned real 4 = false) (h : s.accessFaults hostPrimaryTarget controlCheck true real 4 = []) :
      suppresses (execStura r1 r3 s) s 4 6 := sup _ hsup (guarded_real_suppresses hs h ha)
  exact ⟨lctl, stctl, spx, stpx, stap, fun hs hf => ⟨sckc hs hf, spt hs hf, lpsw hs hf⟩, fun hs hst => ⟨stckc hs hst, stpt hs hst⟩,
    fun hs h => execTrace_suppresses (r1 := r1) (r3 := r3) hsup hs h ha, fun hs => ⟨lura hs, stura hs⟩⟩

-- access-register translation

theorem resolve_arMode (h : s.cpu.psw.arMode = true) (b : Reg) : s.resolve b = match s.translate (s.aletFor b) with
    | .hostPrimary => .ok { hostPrimaryTarget with via := .register b }
    | .illFormed => .error .aletSpecification
    | .unassigned => .error (.alenTranslation (s.aletFor b) b)
    | .revoked => .error (.addressingCapability (s.aletFor b) b)
    | .designated space readOnly => .ok { space := space, typeR := false, readOnly := readOnly, via := .register b } := by
  unfold State.resolve
  rw [h]
  rfl

theorem target_of_resolve {b : Reg} {t : Target} (h : s.resolve b = .ok t) : s.target b = t := by
  unfold State.target
  rw [h]

theorem operandFaults_of_error {c : Check} {store : Bool} {b : Reg} {ea : Addr} {n : Nat} {x : ProgExc} (h : s.resolve b = .error x) :
    s.operandFaults c store b ea n = [x] := by
  unfold State.operandFaults
  rw [h]

theorem exec_l_of_error {r1 x2 b2 : Reg} {d2 : Disp} {x : ProgExc} (h : s.resolve b2 = .error x) :
    exec (.l r1 x2 b2 d2) s = s.takeException 4 (loads r1) x := by
  have hfaults : s.operandFaults operandCheck false b2 (s.ea b2 x2 d2) 4 = [x] := operandFaults_of_error h
  show execL r1 x2 b2 d2 s = _
  unfold execL State.withFetch
  rw [hfaults]
  exact guarded_one s 4 _ x _

theorem exec_st_of_error {r1 x2 b2 : Reg} {d2 : Disp} {x : ProgExc} (h : s.resolve b2 = .error x) :
    exec (.st r1 x2 b2 d2) s = s.takeException 4 {} x := by
  have hfaults : s.operandFaults operandCheck true b2 (s.ea b2 x2 d2) (bytes32 (s.gr r1)).length = [x] := operandFaults_of_error h
  have hresult : s.storeResult b2 (s.ea b2 x2 d2) (bytes32 (s.gr r1)).length = none := by
    unfold State.storeResult State.storeResultAt
    rw [h]
  show execSt r1 x2 b2 d2 s = _
  unfold execSt State.withStore
  rw [hfaults, hresult]
  exact guarded_one s 4 _ x _

/-- Settles O46: the translation of the ALET gives the exception, or the target. -/
theorem accessRegisterTranslation : Obligations.AccessRegisterTranslation := by
  unfold Obligations.AccessRegisterTranslation
  intro s r1 x2 b2 d2 harm ha alet used extra
  have hresolve := resolve_arMode harm b2
  have halet (hb : b2 ≠ 0) : s.aletFor b2 = alet := if_neg hb
  have hnone (h : ∀ e, ¬ used e) : s.entryOf alet = none := by
    refine List.find?_eq_none.mpr fun e he hu => h e ?_
    obtain ⟨hu, ha⟩ := Bool.and_eq_true_iff.mp hu
    exact ⟨he, beq_iff_eq.mp ha, bne_iff_ne.mp hu⟩
  have hsome (hsound : accessListSound s) (e : HalEntry) (h : used e) : s.entryOf alet = some e := by
    obtain ⟨he, ha, hu⟩ := h
    exact ha ▸ entryOf_of_used hsound he hu
  refine ⟨fun hb h0 hw => ?_, fun hb h0 hw hn => ?_, fun hsound hb h0 hw e he hr => ?_, fun h => ?_, fun hsound hb h0 hw e he hv => ?_⟩
  · have herror : s.resolve b2 = .error .aletSpecification := by
      rw [hresolve, halet hb]
      unfold State.translate
      rw [if_neg h0, hw]
      rfl
    rw [exec_l_of_error herror, exec_st_of_error herror]
    exact ⟨takeException_suppresses s 4 _ .aletSpecification rfl ha, takeException_suppresses s 4 _ .aletSpecification rfl ha⟩
  · have herror : s.resolve b2 = .error (.alenTranslation alet b2) := by
      rw [hresolve, halet hb, translate_wf h0 hw, hnone hn]
    rw [exec_l_of_error herror, exec_st_of_error herror]
    have henters : entersProgram (s.programInterruption 0x29 (s.ilcOf 4) extra) s { psw := s.cpu.psw } 0x29 (s.ilcOf 4) extra :=
      programInterruption_alet _ _ _ _ ha (Quiet.refl s) (registers_none (fun _ => rfl) (fun _ => rfl) fun _ => rfl) rfl
    exact ⟨henters, henters⟩
  · have herror : s.resolve b2 = .error (.addressingCapability alet b2) := by
      rw [hresolve, halet hb, translate_wf h0 hw, hsome hsound e he]
      simp only [if_pos hr]
    rw [exec_l_of_error herror, exec_st_of_error herror]
    refine ⟨⟨(s.draw (.generalRegister r1.toNat)).setWidth 32, ?_⟩, ?_⟩
    · exact programInterruption_alet (s := (s.setGr r1 _).advance 4) _ _ _ _ ha (((Quiet.refl s).setGr r1 _).advance 4)
        (registers_one (State.gr_setGr s r1 _) (fun _ => rfl) fun _ => rfl) rfl
    · exact programInterruption_alet (s := s.advance 4) _ _ _ _ ha ((Quiet.refl s).advance 4)
        (registers_none (fun _ => rfl) (fun _ => rfl) fun _ => rfl) rfl
  · have hzero : s.aletFor b2 = 0 := by
      unfold State.aletFor
      split
      · rfl
      · exact h.resolve_left ‹_›
    have htarget : s.target b2 = { hostPrimaryTarget with via := .register b2 } := by
      refine target_of_resolve ?_
      rw [hresolve, hzero]
      rfl
    unfold operandSpace operandCells
    rw [htarget]
    exact ⟨rfl, fun _ _ => rfl⟩
  · have htarget : s.target b2 = ⟨s.spaceOf e.asit, false, e.access == .readOnly, .register b2⟩ := by
      refine target_of_resolve ?_
      rw [hresolve, halet hb, translate_wf h0 hw, hsome hsound e he]
      simp only [hv, reduceCtorEq, if_false]
    unfold operandSpace operandCells
    rw [htarget]
    exact ⟨rfl, rfl, fun ea n => List.map_id _⟩

-- protection and addressing exceptions

/-- The results that a terminated or suppressed store leaves behind: stores. -/
theorem ended_store_frame (s : State) (len : Nat) (r : Option (Target × Check × List Addr)) (x : ProgExc) :
    frame (s.ended len { store := r } x) = frame s := by
  have hscramble : frame ((s.scramble { store := r }).advance len) = frame s := by
    cases r with
    | none => rfl
    | some p => exact State.storeBytes_frame s p.1 _
  unfold State.ended
  cases s.ending x with
  | complete => rfl
  | nullify => rfl
  | suppress =>
    cases x with
    | protection block typeR via =>
      simp only [Bool.and_false, Bool.false_eq_true, if_false]
      rfl
    | _ => rfl
  | terminate => exact hscramble

theorem extraStores_apart (v : State) (ilc : Nat) (x : ProgExc) (hx : x.code = 4 ∨ x.code = 5) :
    apart 104 ((40, bytes64 v.cpu.psw.toDWord) :: (140, [0, ilcByte ilc] ++ bytes16 x.code) :: s.extraStores x) := by
  cases x with
  | protection block typeR via => exact apart_protection _ _ _ _ _ _
  | addressing terminates => exact apart_program _ _ _ _
  | _ => exact absurd hx (by simp [ProgExc.code])

/-- Settles O48: whatever exception is chosen and however it ends, the prefix area stays assigned. -/
theorem protectionAndAddressing : Obligations.ProtectionAndAddressing := by
  unfold Obligations.ProtectionAndAddressing
  intro s r1 x2 b2 d2 ha faults hne
  have htakes (c : Half) (hc : c = 4 ∨ c = 5) (h : ∀ x, x ∈ faults → x.code = c) : interruptsWith (exec (.st r1 x2 b2 d2) s) c := by
    have hexec : exec (.st r1 x2 b2 d2) s = s.guarded 4 { store := s.storeResult b2 (s.ea b2 x2 d2) 4 } faults
        (fun s1 => .next (s1.storeOperand (s.target b2) (s.ea b2 x2 d2) (bytes32 (s.gr r1)))) := rfl
    obtain ⟨x, rest, hx⟩ := List.exists_cons_of_ne_nil hne
    have hcode : (s.choose x rest).code = c := h _ (hx ▸ choose_mem s x rest)
    rw [hexec, hx, guarded_cons, ← hcode]
    refine programInterruption_interruptsWith _ _ _ _ ?_ (extraStores_apart _ _ _ (hcode ▸ hc))
    exact (frame_prefixAreaAssigned s _ (ended_store_frame s 4 _ _)).trans ha
  exact ⟨htakes 4 (.inl rfl), htakes 5 (.inr rfl)⟩

end Sys2Proof.Machine
end

section
/-! A CPU's turn (spec/30_encoding.md R180, R181, spec/60_exceptions.md R421, R431, R445, R488, R489, R495). -/

namespace Sys2Proof.Machine

open Sys2Proof.Safety

variable {s : State}

-- the turn

theorem step_of_noInput (h : s.inputs = []) : step s = s.cpuStep := by
  unfold step State.stepInputs
  rw [h]

theorem step_operating (h : s.inputs = []) (ho : s.cpu.status = .operating) : step s = s.nextDraw.operate := by
  rw [step_of_noInput h]
  unfold State.cpuStep
  rw [ho]

theorem operate_invalid (h : s.cpu.psw.valid = false) : s.operate = s.earlyException := by
  unfold State.operate
  rw [h]
  rfl

theorem operate_pending {p : Pending} (hv : s.cpu.psw.valid = true) (hp : s.pending = some p) : s.operate = s.takePending p := by
  unfold State.operate
  rw [hv, hp]
  rfl

theorem operate_quiet (hv : s.cpu.psw.valid = true) (hp : s.pending = none) : s.operate =
    if s.cpu.stopRequest ≠ .none then .next s.performStop else if s.cpu.psw.disabledWait then .fault .disabledWait
      else if s.cpu.psw.wait then .next s else s.process := by
  unfold State.operate
  rw [hv, hp]
  rfl

theorem disabledWait_false {p : Psw} (h : p.wait = false) : p.disabledWait = false := by
  unfold Psw.disabledWait
  rw [h]
  rfl

theorem operate_process (hv : s.cpu.psw.valid = true) (hp : s.pending = none) (hs : s.cpu.stopRequest = .none) (hw : s.cpu.psw.wait = false) :
    s.operate = s.process := by
  rw [operate_quiet hv hp, if_neg (not_not_intro hs), if_neg (Bool.not_eq_true _ ▸ disabledWait_false hw), if_neg (Bool.not_eq_true _ ▸ hw)]

theorem process_unaligned (h : aligned s.cpu.psw.ia 2 = false) : s.process = s.programInterruption 6 0 [] := by
  unfold State.process
  rw [h]
  rfl

theorem process_per (ha : aligned s.cpu.psw.ia 2 = true) (hp : s.cpu.psw.per = true) : s.process = .refused .programEventRecording := by
  unfold State.process
  simp only [ha, hp, Bool.not_true, Bool.false_eq_true, if_false, if_true]

theorem process_branchTracing (ha : aligned s.cpu.psw.ia 2 = true) (hp : s.cpu.psw.per = false) (hb : bitAt (s.cr 12) 0 = true) :
    s.process = .refused .branchTracing := by
  unfold State.process
  simp only [ha, hp, hb, Bool.not_true, Bool.false_eq_true, if_false, if_true]

section
variable (ha : aligned s.cpu.psw.ia 2 = true) (hp : s.cpu.psw.per = false) (hb : bitAt (s.cr 12) 0 = false)
include ha hp hb

theorem process_instruction {i : Instr} {v : State} (h : s.fetchCode false 0 s.cpu.psw.ia = .instruction i v) : s.process = exec i v := by
  unfold State.process
  simp only [ha, hp, hb, h, Bool.not_true, Bool.false_eq_true, if_false]

theorem process_undecoded {c0 c1 : Byte} (h : s.fetchCode false 0 s.cpu.psw.ia = .undecoded c0 c1) : s.process = .refused (.noRowForOpcode c0 c1) := by
  unfold State.process
  simp only [ha, hp, hb, h, Bool.not_true, Bool.false_eq_true, if_false]

theorem process_faults {len : Nat} {cc : Bool} {x : ProgExc} {rest : List ProgExc} (h : s.fetchCode false 0 s.cpu.psw.ia = .faults len cc x rest) :
    s.process = if (s.choose x rest).isAccess then s.fetchException cc (s.choose x rest) else s.takeException len {} (s.choose x rest) := by
  unfold State.process
  simp only [ha, hp, hb, h, Bool.not_true, Bool.false_eq_true, if_false]

end

/-- Settles O51: the fetch meets no exception, and the mask of a fetch that is no EXECUTE's is zero. -/
theorem stepRunsTheDecodedInstruction : Obligations.StepRunsTheDecodedInstruction := by
  unfold Obligations.StepRunsTheDecodedInstruction
  intro s hin ho hv hpend hstop hwait hal hper hbr hstale ia code len hf
  obtain ⟨c0, c1, hc⟩ := codeAt_two s ia
  have hcode : code 2 = [c0, c1] := hc
  have hlen : len = instrLength c0 := by show instrLength ((code 2).headD 0) = _; rw [hcode]; rfl
  have hstep : step s = s.nextDraw.process := (step_operating hin ho).trans (operate_process hv hpend hstop hwait)
  rw [hstep, hcode, hlen]
  rw [hlen] at hf
  obtain ⟨hok, herr⟩ := fetchCode_of_noFaults (s := s.nextDraw) (target := false) (m := 0) hstale hc hf
  rw [orSecond_zero] at hok herr
  refine ⟨fun i hi => process_instruction (s := s.nextDraw) hal hper hbr (hok i hi), fun x hx => ?_⟩
  rw [process_undecoded (s := s.nextDraw) hal hper hbr (herr x hx)]
  exact congrArg (fun c => Host.Outcome.refused (Refusal.noRowForOpcode c0 c)) BitVec.or_zero

-- the exceptions of the fetch

/-- What a first halfword alone can raise is no access exception, and suppresses. -/
theorem opcodeFaults_plain {target : Bool} {i : Instr} {y : ProgExc} (h : y ∈ s.opcodeFaults target i) : y.isAccess = false ∧ y.plain = true := by
  have one {x : ProgExc} (hx : x.isAccess = false ∧ x.plain = true) (h : y ∈ [x]) : y.isAccess = false ∧ y.plain = true :=
    List.mem_singleton.mp h ▸ hx
  have ite {c : Prop} [Decidable c] {l m : List ProgExc} (hl : y ∈ l → y.isAccess = false ∧ y.plain = true)
      (hm : y ∈ m → y.isAccess = false ∧ y.plain = true) (h : y ∈ if c then l else m) : y.isAccess = false ∧ y.plain = true := by
    split at h
    · exact hl h
    · exact hm h
  have nil (h : y ∈ ([] : List ProgExc)) : y.isAccess = false ∧ y.plain = true := nomatch h
  refine ite (one ⟨rfl, rfl⟩) (ite (fun h => ?_) (ite (one ⟨rfl, rfl⟩) fun h => ?_)) h
  · split at h
    · exact one ⟨rfl, rfl⟩ h
    · exact one ⟨rfl, rfl⟩ h
  · split at h
    · exact ite nil (one ⟨rfl, rfl⟩) h
    · exact ite nil (one ⟨rfl, rfl⟩) h
    · exact ite (one ⟨rfl, rfl⟩) nil h
    · exact ite nil (ite nil (ite (one ⟨rfl, rfl⟩) nil)) h
    · exact ite nil (one ⟨rfl, rfl⟩) h
    · exact nil h

theorem isAccess_of_fetch {x : ProgExc} (hx : (∃ b, x = .protection b true .instruction) ∨ x = .addressing false) : x.isAccess = true := by
  obtain ⟨b, rfl⟩ | rfl := hx
  · rfl
  · rfl

/-- An exception of the fetch of an instruction: its ending leaves the condition code at any value at most (R402, R412). -/
theorem fetchException_enters (hp : s.prefixAreaAssigned = true) (cc : Bool) {x : ProgExc}
    (hx : (∃ b, x = .protection b true .instruction) ∨ x = .addressing false) :
    ∃ ilc c extra, 1 ≤ ilc ∧ ilc ≤ 3 ∧
      (x.code = 5 ∧ c = s.cpu.psw.cc ∧ extra = [] ∨
        x.code = 4 ∧ (s.cfg.sopInstalled = false → c = s.cpu.psw.cc) ∧ ∃ w b, extra = [(144, bytes32 w), (160, [b])]) ∧
      entersProgram (s.fetchException cc x) s
        { psw := { s.cpu.psw with ia := wrapMode s.cpu.psw.amode (s.cpu.psw.ia + BitVec.ofNat 31 (2 * ilc)), cc := c } } x.code ilc extra := by
  have hilc : 1 ≤ (s.draw .fetchLength).toNat % 3 + 1 ∧ (s.draw .fetchLength).toNat % 3 + 1 ≤ 3 := by omega
  obtain ⟨b, rfl⟩ | rfl := hx
  · by_cases hb : (cc && s.suppressionBit) = true
    · have hsop : s.cfg.sopInstalled = true := (Bool.and_eq_true_iff.mp (Bool.and_eq_true_iff.mp hb).2).1
      refine ⟨_, (s.draw .conditionCode).setWidth 2, s.extraStores (.protection b true .instruction), hilc.1, hilc.2,
        .inr ⟨rfl, fun h => Bool.noConfusion (hsop.symm.trans h), s.teid b true .instruction, s.protectionAccessId .instruction, rfl⟩, ?_⟩
      unfold State.fetchException State.fetchSuppressed
      simp only [if_pos hb]
      exact programInterruption_protection _ _ _ _ hp (((Quiet.refl s).setCc _).setIa _) (registers_none (fun _ => rfl) (fun _ => rfl) fun _ => rfl) rfl
    · refine ⟨_, s.cpu.psw.cc, s.extraStores (.protection b true .instruction), hilc.1, hilc.2,
        .inr ⟨rfl, fun _ => rfl, s.teid b true .instruction, s.protectionAccessId .instruction, rfl⟩, ?_⟩
      unfold State.fetchException State.fetchSuppressed
      simp only [if_neg hb]
      exact programInterruption_protection _ _ _ _ hp ((Quiet.refl s).setIa _) (registers_none (fun _ => rfl) (fun _ => rfl) fun _ => rfl) rfl
  · exact ⟨_, s.cpu.psw.cc, [], hilc.1, hilc.2, .inl ⟨rfl, rfl, rfl⟩,
      programInterruption_enters _ _ hp ((Quiet.refl s).setIa _) (registers_none (fun _ => rfl) (fun _ => rfl) fun _ => rfl) rfl⟩

theorem fetchCode_headFaults {target : Bool} {m : Byte} {a : Addr} {x : ProgExc} {rest : List ProgExc}
    (h : s.accessFaults instructionTarget controlCheck false a 2 = x :: rest) : ∃ cc, s.fetchCode target m a = .faults 2 cc x rest := by
  refine ⟨headSetsCc (orSecond m (s.codeBytes (if target then 6 else 0) a 2)), ?_⟩
  unfold State.fetchCode
  rw [h]

theorem fetchCode_laterFaults {a : Addr} {c0 c1 : Byte} {x : ProgExc} {rest : List ProgExc} (hs : s.cpu.staleBytes = []) (hc : codeAt s a 2 = [c0, c1])
    (h : s.accessFaults instructionTarget controlCheck false a 2 = [])
    (hx : s.accessFaults instructionTarget controlCheck false (a + 2) (instrLength c0 - 2) = x :: rest) :
    (∀ i, decode (padded [c0, c1]) = .ok i →
      s.fetchCode false 0 a = .faults (instrLength c0) (setsConditionCode i) x (rest ++ s.opcodeFaults false i)) ∧
    (∀ e, decode (padded [c0, c1]) = .error e → s.fetchCode false 0 a = .undecoded c0 c1) := by
  constructor <;> intro i hi <;> unfold State.fetchCode
  all_goals simp only [codeBytes_eq hs, hc, orSecond_zero, h, List.headD_cons, hx, hi]
  rfl

-- which interruption is pending

theorem pending_exigent {m : MachineCheck} (h : s.exigent = some m) :
    s.pending = some (if s.cpu.psw.machineCheck then .machineCheck m else .checkStop) := by
  unfold State.pending
  rw [h]

theorem pending_repressible {m : MachineCheck} (he : s.exigent = none) (h : s.repressible = some m) : s.pending = some (.machineCheck m) := by
  unfold State.pending
  rw [he, h]

section
variable (he : s.exigent = none) (hr : s.repressible = none)
include he hr

theorem pending_external {e : External} (h : s.externalEnabled = some e) : s.pending = some (.external e) := by
  unfold State.pending
  rw [he, hr, h]

theorem pending_io {i : IoInterruption} (hx : s.externalEnabled = none) (h : s.ioEnabled = some i) : s.pending = some (.io i) := by
  unfold State.pending
  rw [he, hr, hx, h]

theorem pending_restart (hx : s.externalEnabled = none) (hi : s.ioEnabled = none) :
    s.pending = if s.cpu.restartPending then some .restart else none := by
  unfold State.pending
  rw [he, hr, hx, hi]

end

-- the stop

/-- The CPU stopped. -/
def State.stoppedCpu (s : State) : State := { s with cpu := { s.cpu with status := .stopped, stopRequest := .none } }

theorem stoppedCpu_completes (s : State) : completes (.next s.stoppedCpu) s { psw := s.cpu.psw } State.stoppedCpu := by
  have hspace (id : SpaceId) : s.stoppedCpu.space id = s.space id := by cases id <;> rfl
  refine ⟨_, rfl, rfl, registers_none (fun _ => rfl) (fun _ => rfl) fun _ => rfl, fun i a => ?_, fun i b => ?_, rfl⟩
  · rw [hspace]
  · rw [hspace]
    exact keyKept_refl _

/-- A status stored at the end of an instruction, or of a turn (R488). -/
theorem completes_storesStatus {u : State} {e : Effect} {other : State → State} (h : completes (.next u) s e other) (base : Addr) (c : Cpu)
    (hs : statusStorable u base) : completesStore (.next (u.storeStatusOf base c)) s e .hostPrimary (statusCells base c) other := by
  obtain ⟨t, ht, hp, ⟨hg, ha, hc⟩, hb, hk, hf⟩ := h
  cases ht
  have hcpu := State.storeAbsolute_cpu u (statusCells base c)
  rw [State.storeStatusOf_storable u base c hs]
  refine ⟨_, rfl, by rw [hcpu, hp], ⟨fun r => ?_, fun r => ?_, fun r => ?_⟩, fun i a => ?_,
    keysKept_trans hk (State.storeAbsolute_keysKept u _), (State.storeAbsolute_frame u _).trans hf, State.storeAbsolute_recorded u _⟩
  · rw [← hg r]; unfold State.gr; simp only [hcpu]
  · rw [← ha r]; unfold State.ar; simp only [hcpu]
  · rw [← hc r]; unfold State.cr; simp only [hcpu]
  · rw [State.storeAbsolute_stored u _ (statusCells_nodup base c), hb]
    split
    · exact withCells_congr _ _ _ _ (hb i a)
    · rfl

theorem performStop_stores (h : s.cpu.stopRequest = .stopAndStoreStatus) (hs : statusStorable s 0) :
    completesStore (.next s.performStop) s { psw := s.cpu.psw } .hostPrimary (statusCells 0 s.cpu) State.stoppedCpu := by
  have hstop : s.performStop = s.stoppedCpu.storeStatusOf 0 s.stoppedCpu.cpu := by
    unfold State.performStop
    rw [if_pos h]
    rfl
  rw [hstop]
  exact completes_storesStatus (stoppedCpu_completes s) 0 s.stoppedCpu.cpu hs

theorem performStop_plain (h : s.cpu.stopRequest = .stop ∨ ¬ statusStorable s 0) : s.performStop = s.stoppedCpu := by
  unfold State.performStop
  split
  next hs => exact State.storeStatusOf_not_storable s.stoppedCpu 0 _ (h.resolve_left (hs ▸ StopRequest.noConfusion))
  next => rfl

-- the statement

/-- Settles O50: each case is the branch of `State.operate` or `State.process` that it names. -/
theorem turnOfACpu : Obligations.TurnOfACpu := by
  unfold Obligations.TurnOfACpu
  intro s hin u now stopped ia head len fetchFaults fetchException
  have hnow : now.onRegisters u u := ⟨fun _ => rfl, fun _ => rfl, fun _ => rfl⟩
  have raises (cc : Bool) (hp : s.prefixAreaAssigned = true) {l : List ProgExc} {x : ProgExc} (hx : x ∈ l)
      (hcase : (∃ b, x = .protection b true .instruction) ∨ x = .addressing false) (h : step s = u.fetchException cc x) : fetchException l := by
    obtain ⟨ilc, c, extra, h1, h3, hextra, henters⟩ := fetchException_enters (s := u) hp cc hcase
    exact ⟨x, ilc, c, extra, hx, h1, h3, hextra, h ▸ henters⟩
  refine ⟨fun h => ?_, fun hs hr => ?_, fun ho hv hp => ?_, fun ho hv => ?_⟩
  · rw [step_of_noInput hin]
    unfold State.cpuStep
    obtain h | h | ⟨h, hr⟩ := h
    · rw [h]
    · rw [h]
    · rw [h, hr]
      rfl
  · rw [step_of_noInput hin]
    unfold State.cpuStep
    rw [hs, hr]
    rfl
  · rw [step_operating hin ho, operate_invalid (s := s.nextDraw) hv]
    have hearly : u.earlyException = if !(Psw.ofDWord (be64 (s.realBytes 104 8))).valid then .fault .programInterruptionLoop
        else u.programInterruption 6 0 [] := by
      show (if (s.prefixAreaAssigned && !(Psw.ofDWord (be64 (s.realBytes 104 8))).valid) = true then _ else _) = _
      rw [hp, Bool.true_and]
      rfl
    rw [hearly]
    refine ⟨fun h => ?_, fun h => ?_⟩
    · rw [h]
      exact programInterruption_enters _ _ hp (Quiet.refl u) hnow rfl
    · rw [h]
      rfl
  · have hstep : step s = u.operate := step_operating hin ho
    have taken {p : Pending} (h : u.pending = some p) : step s = u.takePending p := hstep.trans (operate_pending hv h)
    refine ⟨fun m he hm => taken (p := .machineCheck m) ?_, fun m he hm => taken (p := .checkStop) ?_, fun m he hr => taken (pending_repressible he hr),
      fun he hr => ⟨fun e hx => taken (pending_external he hr hx), fun i hx hi => taken (pending_io he hr hx hi),
      fun hx hi => ⟨fun hrs => taken (p := .restart) ?_, fun hrs => ?_⟩⟩⟩
    · rw [pending_exigent he, if_pos (show u.cpu.psw.machineCheck = true from hm)]
    · rw [pending_exigent he, if_neg (show ¬ u.cpu.psw.machineCheck = true from hm ▸ Bool.false_ne_true)]
    · rw [pending_restart he hr hx hi, if_pos (show u.cpu.restartPending = true from hrs)]
    · have hquiet : u.pending = none := by
        rw [pending_restart he hr hx hi, if_neg (show ¬ u.cpu.restartPending = true from hrs ▸ Bool.false_ne_true)]
      have hstops (h : s.cpu.stopRequest ≠ .none) : step s = .next u.performStop :=
        hstep.trans ((operate_quiet (s := u) hv hquiet).trans (if_pos h))
      have hwaits (h : s.cpu.stopRequest = .none) : step s = if s.cpu.psw.disabledWait then .fault .disabledWait
          else if s.cpu.psw.wait then .next u else u.process :=
        hstep.trans ((operate_quiet (s := u) hv hquiet).trans (if_neg (not_not_intro h)))
      refine ⟨fun hs => ?_, fun hs => ⟨fun hst => ?_, fun hst => ?_⟩, fun hs hd => ?_, fun hs hd hw => ?_, fun hs hw => ?_⟩
      · rw [hstops (hs ▸ StopRequest.noConfusion)]
        exact congrArg _ (performStop_plain (s := u) (.inl hs))
      · rw [hstops (hs ▸ StopRequest.noConfusion)]
        exact performStop_stores (s := u) hs hst
      · rw [hstops (hs ▸ StopRequest.noConfusion)]
        exact congrArg _ (performStop_plain (s := u) (.inr hst))
      · rw [hwaits hs, if_pos hd]
      · rw [hwaits hs, if_neg (Bool.not_eq_true _ ▸ hd), if_pos hw]
      have hproc : step s = u.process := hstep.trans (operate_process (s := u) hv hquiet hs hw)
      refine ⟨fun hal hp => ?_, fun hal hper => ?_, fun hal hper hbr => ?_, fun hal hper hbr hp => ⟨fun hne => ?_, fun hnil hne hstale => ?_⟩⟩
      · rw [hproc, process_unaligned (s := u) hal]
        exact programInterruption_enters _ _ hp (Quiet.refl u) hnow rfl
      · rw [hproc]
        exact process_per hal hper
      · rw [hproc]
        exact process_branchTracing hal hper hbr
      · obtain ⟨x, rest, hx⟩ := List.exists_cons_of_ne_nil hne
        obtain ⟨cc, hf⟩ := fetchCode_headFaults (s := u) (target := false) (m := 0) hx
        have hmem : u.choose x rest ∈ fetchFaults ia 2 := hx ▸ choose_mem u x rest
        refine raises cc hp hmem (u.instructionFaults_cases _ _ _ hmem) ?_
        rw [hproc, process_faults (s := u) hal hper hbr hf, if_pos (isAccess_of_fetch (u.instructionFaults_cases _ _ _ hmem))]
      · obtain ⟨x, rest, hx⟩ := List.exists_cons_of_ne_nil hne
        obtain ⟨c0, c1, hc⟩ := codeAt_two s ia
        have hhead : head = [c0, c1] := hc
        have hlen : len = instrLength c0 := by show instrLength (head.headD 0) = _; rw [hhead]; rfl
        rw [hlen] at hx
        obtain ⟨hok, herr⟩ := fetchCode_laterFaults (s := u) hstale hc hnil hx
        rw [hhead, hlen]
        refine ⟨fun i hi => ?_, fun e he => hproc.trans (process_undecoded (s := u) hal hper hbr (herr e he))⟩
        have hstepf := hproc.trans (process_faults (s := u) hal hper hbr (hok i hi))
        have hmem := choose_mem u x (rest ++ u.opcodeFaults false i)
        generalize u.choose x (rest ++ u.opcodeFaults false i) = y at hstepf hmem
        rcases List.mem_append.mp (List.cons_append ▸ hmem : y ∈ (x :: rest) ++ u.opcodeFaults false i) with hy | hy
        · rw [← hx] at hy
          refine .inl (raises (setsConditionCode i) hp hy (u.instructionFaults_cases _ _ _ hy) ?_)
          rw [hstepf, if_pos (isAccess_of_fetch (u.instructionFaults_cases _ _ _ hy))]
        · obtain ⟨hacc, hplain⟩ := opcodeFaults_plain hy
          refine .inr ⟨y, hy, ?_⟩
          rw [hstepf, hacc]
          exact takeException_suppresses u _ {} y hplain hp

end Sys2Proof.Machine
end

section
/-! The external, input/output, restart and machine-check interruptions (spec/60_exceptions.md R430, R440, R442 to R444, R465, R466). -/

namespace Sys2Proof.Machine

open Sys2Proof.Safety

variable {s : State}

-- fields apart from one another

/-- Two intervals, given by their first number and their length, have no number in common. -/
abbrev separate (p q : Nat × Nat) : Prop := p.1 + p.2 ≤ q.1 ∨ q.1 + q.2 ≤ p.1

/-- Intervals in the prefix area, apart from one another and from the new PSW. -/
abbrev separated (new : Nat) (shape : List (Nat × Nat)) : Prop :=
  shape.Pairwise separate ∧ ∀ p, p ∈ (new, 8) :: shape → p.1 + p.2 ≤ 4096 ∧ (p ∈ shape → separate p (new, 8))

/-- The place and the length of each field. -/
def fieldShape (fields : List (Nat × List Byte)) : List (Nat × Nat) := fields.map (fun f => (f.1, f.2.length))

theorem apart_of_separated {new : Nat} {fields : List (Nat × List Byte)} (h : separated new (fieldShape fields)) : apart new fields := by
  obtain ⟨hpair, hin⟩ := h
  have mem_iff (f : Nat × List Byte) (n : Nat) : n ∈ (List.range f.2.length).map (fun i => f.1 + i) ↔ f.1 ≤ n ∧ n < f.1 + f.2.length := by
    rw [List.mem_map]
    constructor
    · rintro ⟨i, hi, rfl⟩
      have := List.mem_range.mp hi
      omega
    · rintro ⟨h1, h2⟩
      exact ⟨n - f.1, List.mem_range.mpr (by omega), by omega⟩
  refine ⟨?_, fun n hn => ?_, (hin _ (List.mem_cons_self ..)).1⟩
  · refine List.pairwise_flatMap.mpr ⟨fun f _ => ?_, (List.pairwise_map.mp hpair).imp fun {f g} hfg n hf m hg hnm => ?_⟩
    · exact List.Pairwise.map _ (fun i j hij h => hij (Nat.add_left_cancel h)) List.nodup_range
    · have hf := (mem_iff f n).mp hf
      have hg := (mem_iff g m).mp hg
      unfold separate at hfg
      omega
  · obtain ⟨f, hf, hn⟩ := List.mem_flatMap.mp hn
    have hn := (mem_iff f n).mp hn
    have hmem : (f.1, f.2.length) ∈ fieldShape fields := List.mem_map_of_mem hf
    obtain ⟨hend, hnew⟩ := hin _ (List.mem_cons_of_mem _ hmem)
    have hnew := hnew hmem
    unfold separate at hnew
    omega

/-- An interruption of a CPU between instructions. -/
theorem interrupt_now {old new : Nat} {ident : List (Nat × List Byte)} {p : Psw} (ha : s.prefixAreaAssigned = true) (hp : s.cpu.psw = p)
    (h : separated new ((old, 8) :: fieldShape ident)) : enters (s.interrupt old new ident) s { psw := p } old new ident :=
  interrupt_enters old new ident ha (Quiet.refl s) (registers_none (fun _ => rfl) (fun _ => rfl) fun _ => rfl) hp (apart_of_separated h)

-- external interruptions

theorem takeExternal_enters {e : External} {v : State} {p : Psw} {source code : Half} {parameter : List (Nat × List Byte)} (ha : v.prefixAreaAssigned = true)
    (hv : s.clearExternal e = v) (hp : v.cpu.psw = p) (hi : e.ident = [(132, bytes16 source), (134, bytes16 code)] ++ parameter)
    (hs : fieldShape parameter = [] ∨ fieldShape parameter = [(128, 4)]) :
    enters (s.takeExternal e) v { psw := p } 24 88 ([(132, bytes16 source), (134, bytes16 code)] ++ parameter) := by
  unfold State.takeExternal
  rw [hv, hi]
  refine interrupt_now ha hp ?_
  show separated 88 ((24, 8) :: (132, 2) :: (134, 2) :: fieldShape parameter)
  obtain h | h := hs
  · rw [h]; decide
  · rw [h]; decide

theorem mem_take_one {α : Type} (l : List α) (a : α) : a ∈ l.take 1 ↔ l.head? = some a := by
  cases l with
  | nil => exact ⟨nofun, nofun⟩
  | cons b rest =>
    rw [List.take_succ_cons, List.take_zero, List.mem_singleton, List.head?_cons, Option.some_inj, eq_comm]

theorem timerPending_iff (s : State) : s.timerPending = true ↔ s.cpu.cpuTimer.toInt < 0 := by
  unfold State.timerPending
  rw [BitVec.msb_eq_toInt, decide_eq_true_iff]

theorem mem_ite_singleton {α : Type} {c : Prop} [Decidable c] {x y : α} : y ∈ (if c then [x] else []) ↔ c ∧ y = x := by
  split
  · rw [List.mem_singleton]; exact ⟨fun h => ⟨‹_›, h⟩, And.right⟩
  · exact ⟨nofun, fun h => absurd h.1 ‹_›⟩

theorem provided_iff (h : HostSignal) : h.provided = true ↔ h.code ≠ 0x1003 ∧ h.code ≠ 0x1406 := by
  unfold HostSignal.provided
  rw [Bool.and_eq_true, bne_iff_ne, bne_iff_ne]

/-- The listed conditions are those pending (R442). -/
theorem mem_externals (s : State) (e : External) : e ∈ s.externals ↔ externalPending s e := by
  unfold State.externals
  simp only [List.mem_append, mem_ite_singleton, List.mem_map, mem_take_one, Option.mem_toList, List.mem_filter]
  cases e with
  | interruptKey => simp [externalPending]
  | malfunctionAlert a => simp [externalPending]
  | emergencySignal a => simp [externalPending]
  | externalCall a => simp [externalPending]
  | clockComparator => simp [externalPending, State.comparatorPending]
  | cpuTimer => simp [externalPending, timerPending_iff]
  | serviceSignal p => simp [externalPending]
  | hostSignal h => simp [externalPending, provided_iff]

/-- Conditions listed in the order of their ranks, up to this one. -/
def Ranked (n : Nat) (l : List External) : Prop := l.Pairwise (fun e f => externalRank e ≤ externalRank f) ∧ ∀ e, e ∈ l → externalRank e ≤ n

theorem Ranked.append {n : Nat} {l m : List External} (h : Ranked n l) (hm : ∀ e, e ∈ m → externalRank e = n + 1) : Ranked (n + 1) (l ++ m) := by
  obtain ⟨hl, hb⟩ := h
  refine ⟨List.pairwise_append.mpr ⟨hl, ?_, fun e he f hf => ?_⟩, fun e he => ?_⟩
  · exact List.pairwise_of_forall_mem_list fun e he f hf => Nat.le_of_eq ((hm e he).trans (hm f hf).symm)
  · rw [hm f hf]
    exact Nat.le_succ_of_le (hb e he)
  · rcases List.mem_append.mp he with he | he
    · exact Nat.le_succ_of_le (hb e he)
    · exact Nat.le_of_eq (hm e he)

theorem rank_of_map {α : Type} {l : List α} {f : α → External} {n : Nat} (h : ∀ a, externalRank (f a) = n) : ∀ e, e ∈ l.map f → externalRank e = n := by
  intro e he
  obtain ⟨a, -, rfl⟩ := List.mem_map.mp he
  exact h a

theorem rank_of_ite {c : Prop} [Decidable c] {x : External} {n : Nat} (h : externalRank x = n) :
    ∀ e, e ∈ (if c then [x] else []) → externalRank e = n := fun _ he => (mem_ite_singleton.mp he).2 ▸ h

theorem externals_ranked (s : State) : Ranked 7 s.externals := by
  have hkey : Ranked 0 (if s.cpu.interruptKey then [External.interruptKey] else []) := by
    split
    · exact ⟨List.pairwise_singleton _ _, fun e he => List.mem_singleton.mp he ▸ Nat.le_refl 0⟩
    · exact ⟨.nil, nofun⟩
  unfold State.externals
  refine Ranked.append (n := 6) (Ranked.append (n := 5) (Ranked.append (n := 4) (Ranked.append (n := 3) (Ranked.append (n := 2)
    (Ranked.append (n := 1) (Ranked.append (n := 0) hkey ?_) ?_) ?_) ?_) ?_) ?_) ?_
  · exact rank_of_map fun _ => rfl
  · exact rank_of_map fun _ => rfl
  · exact rank_of_map fun _ => rfl
  · exact rank_of_ite rfl
  · exact rank_of_ite rfl
  · exact rank_of_map fun _ => rfl
  · exact rank_of_map fun _ => rfl

theorem externalMask_eq (e : External) : externalMask e = e.maskBit := by
  cases e with
  | hostSignal h =>
    show hostMaskBit h.maskBit = h.maskBit.number
    cases h.maskBit <;> rfl
  | _ => rfl

theorem find_externals {p : External → Bool} {e : External} (h : s.externals.find? p = some e) :
    e ∈ s.externals ∧ p e = true ∧ ∀ f, f ∈ s.externals → p f = true → externalRank e ≤ externalRank f := by
  refine ⟨List.mem_of_find?_eq_some h, List.find?_some h, fun f hf hpf => ?_⟩
  obtain ⟨-, before, after, hl, hbefore⟩ := List.find?_eq_some_iff_append.mp h
  rw [hl] at hf
  have hsorted := (externals_ranked s).1
  rw [hl] at hsorted
  rcases List.mem_append.mp hf with hf | hf
  · have := hbefore f hf
    rw [hpf] at this
    cases this
  · rcases List.mem_cons.mp hf with rfl | hf
    · exact Nat.le_refl _
    · exact (List.pairwise_cons.mp (List.pairwise_append.mp hsorted).2.1).1 f hf

-- the first of those that meet a condition

/-- An optional choice of the first member that meets a condition, where choices are made at all. -/
theorem find_where {α : Type} {on : Bool} {l : List α} {p : α → Bool} {q : α → Prop} (hq : ∀ x, q x ↔ on = true ∧ x ∈ l ∧ p x = true) :
    (∀ x, (if on then l.find? p else none) = some x → q x) ∧ (∀ x, q x → (if on then l.find? p else none) ≠ none) := by
  refine ⟨fun x h => ?_, fun x hx h => ?_⟩
  · split at h
    · exact (hq x).mpr ⟨‹_›, List.mem_of_find?_eq_some h, List.find?_some h⟩
    · cases h
  · obtain ⟨hon, hl, hp⟩ := (hq x).mp hx
    rw [if_pos hon] at h
    exact List.find?_eq_none.mp h x hl hp

-- machine checks

theorem machineCheckIdent_separated (v : State) (m : MachineCheck) : separated 112 ((48, 8) :: fieldShape (v.machineCheckIdent m)) := by
  have hw (r : Vector Word 16) : (bytesOfWords r.toList).length = 64 := by rw [bytesOfWords_length, Vector.length_toList]
  have hshape : fieldShape (v.machineCheckIdent m) =
      [(216, 8), (224, 8), (232, 8), (288, 64), (352, 32), (384, 64), (448, 64)] ++ (if m.damage.isSome then [(244, 4)] else []) ++
        (if m.failing.isSome then [(248, 4), (256, 8)] else []) := by
    unfold State.machineCheckIdent fieldShape
    cases m.damage <;> cases m.failing <;> simp [hw, bytes64_length, bytes32_length]
  rw [hshape]
  cases m.damage.isSome <;> cases m.failing.isSome <;> decide

theorem clearMachineCheck_eq (s : State) (m : MachineCheck) : s.clearMachineCheck m =
    if m ∈ s.cpu.machineChecks then { s with cpu := { s.cpu with machineChecks := s.cpu.machineChecks.erase m } }
    else { s with channelReports := s.channelReports.erase m } := by
  unfold State.clearMachineCheck
  simp only [List.contains_iff_mem]

theorem clearMachineCheck_kept (s : State) (m : MachineCheck) : (s.clearMachineCheck m).cfg = s.cfg ∧ (s.clearMachineCheck m).hp = s.hp ∧
    ∃ l, (s.clearMachineCheck m).cpu = { s.cpu with machineChecks := l } := by
  rw [clearMachineCheck_eq]
  split
  · exact ⟨rfl, rfl, _, rfl⟩
  · exact ⟨rfl, rfl, s.cpu.machineChecks, rfl⟩

theorem not_lost {m : MachineCheck} {x : SavedEntity} {α : Type} {a b : α} (h : x ∉ m.lost) : (if m.lost.contains x then a else b) = b :=
  if_neg (mt List.contains_iff_mem.mp h)

theorem storedCode_eq (m : MachineCheck) : m.storedCode = if m.failing = none then m.code &&& 0xFFFFFF7FFFFFFFFF else m.code := by
  unfold MachineCheck.storedCode
  cases m.failing <;> rfl

theorem machineCheckMask_eq (x : McSubclass) : machineCheckMask x = x.maskBit := by cases x <;> rfl

/-- The state from which a machine-check interruption stores: the condition no longer pending, the lost registers at any value. -/
def State.checkedState (s : State) (m : MachineCheck) : State := (s.clearMachineCheck m).lose m

theorem takeMachineCheck_enters (ha : s.prefixAreaAssigned = true) (m : MachineCheck) :
    enters (s.takeMachineCheck m) (s.checkedState m) { psw := s.cpu.psw } 48 112 ((s.checkedState m).machineCheckIdent m) := by
  obtain ⟨-, hhp, l, hcpu⟩ := clearMachineCheck_kept s m
  have hassigned : (s.checkedState m).prefixAreaAssigned = s.prefixAreaAssigned := by
    show (s.clearMachineCheck m).hp.assigned (s.clearMachineCheck m).cpu.prefixReg = _
    rw [hhp, hcpu]
    rfl
  have hpsw : (s.checkedState m).cpu.psw = s.cpu.psw := by
    show (s.clearMachineCheck m).cpu.psw = _
    rw [hcpu]
  exact interrupt_now (hassigned.trans ha) hpsw (machineCheckIdent_separated _ m)

section
variable (s) (m : MachineCheck)

theorem checkedState_gr (h : .generalRegisters ∉ m.lost) : (s.checkedState m).cpu.gr = s.cpu.gr := by
  obtain ⟨-, -, l, hcpu⟩ := clearMachineCheck_kept s m
  refine (not_lost h : (s.checkedState m).cpu.gr = (s.clearMachineCheck m).cpu.gr).trans ?_
  rw [hcpu]

theorem checkedState_ar (h : .accessRegisters ∉ m.lost) : (s.checkedState m).cpu.ar = s.cpu.ar := by
  obtain ⟨-, -, l, hcpu⟩ := clearMachineCheck_kept s m
  refine (not_lost h : (s.checkedState m).cpu.ar = (s.clearMachineCheck m).cpu.ar).trans ?_
  rw [hcpu]

theorem checkedState_cr (h : .controlRegisters ∉ m.lost) : (s.checkedState m).cpu.cr = s.cpu.cr := by
  obtain ⟨-, -, l, hcpu⟩ := clearMachineCheck_kept s m
  refine (not_lost h : (s.checkedState m).cpu.cr = (s.clearMachineCheck m).cpu.cr).trans ?_
  rw [hcpu]

theorem checkedState_comparator (h : .clockComparator ∉ m.lost) : (s.checkedState m).cpu.clockComparator = s.cpu.clockComparator := by
  obtain ⟨-, -, l, hcpu⟩ := clearMachineCheck_kept s m
  refine (not_lost h : (s.checkedState m).cpu.clockComparator = (s.clearMachineCheck m).cpu.clockComparator).trans ?_
  rw [hcpu]

theorem checkedState_timer (h : .cpuTimer ∉ m.lost) : (s.checkedState m).cpu.cpuTimer = s.cpu.cpuTimer := by
  obtain ⟨-, -, l, hcpu⟩ := clearMachineCheck_kept s m
  refine (not_lost h : (s.checkedState m).cpu.cpuTimer = (s.clearMachineCheck m).cpu.cpuTimer).trans ?_
  rw [hcpu]

/-- A floating-point register of an entity that is not lost, or that the CPU does not have (R26). -/
theorem checkedState_fpr (i : Fin 16)
    (h : i.val ∈ s.fprNumbers → (if i.val ∈ [0, 2, 4, 6] then SavedEntity.floatRegisters else .extendedFloatRegisters) ∉ m.lost) :
    (s.checkedState m).cpu.fpr[i] = s.cpu.fpr[i] := by
  obtain ⟨hcfg, -, l, hcpu⟩ := clearMachineCheck_kept s m
  have hnumbers : (s.clearMachineCheck m).fprNumbers = s.fprNumbers := by
    unfold State.fprNumbers
    rw [hcfg]
  refine (State.lose_fpr_kept (s.clearMachineCheck m) m i.val i.isLt fun hl => ?_).trans ?_
  · obtain ⟨hi, hx⟩ := (State.mem_lostFloats _ m _).mp hl
    exact h (hnumbers ▸ hi) hx
  · simp only [hcpu]
    rfl

end

/-- The first four floating-point registers are one entity, the others are another, which the CPU may not have. -/
theorem checkedState_floats (s : State) (m : MachineCheck) :
    (.floatRegisters ∉ m.lost → ∀ i : Fin 16, i = 0 ∨ i = 2 ∨ i = 4 ∨ i = 6 → (s.checkedState m).cpu.fpr[i] = s.cpu.fpr[i]) ∧
    (.extendedFloatRegisters ∉ m.lost ∨ s.cfg.fpExtInstalled = false →
      ∀ i : Fin 16, i ≠ 0 → i ≠ 2 → i ≠ 4 → i ≠ 6 → (s.checkedState m).cpu.fpr[i] = s.cpu.fpr[i]) := by
  have hfirst : ∀ i : Fin 16, i = 0 ∨ i = 2 ∨ i = 4 ∨ i = 6 ↔ i.val ∈ [0, 2, 4, 6] := by decide
  refine ⟨fun h i hi => checkedState_fpr s m i fun _ => ?_, fun h i h0 h2 h4 h6 => checkedState_fpr s m i fun hn => ?_⟩
  · rw [if_pos ((hfirst i).mp hi)]
    exact h
  · have hi : ¬ i.val ∈ [0, 2, 4, 6] := fun hi => by
      rcases (hfirst i).mpr hi with h | h | h | h
      · exact h0 h
      · exact h2 h
      · exact h4 h
      · exact h6 h
    rw [if_neg hi]
    refine h.resolve_right fun hf => hi ?_
    unfold State.fprNumbers at hn
    rwa [hf] at hn

-- the statement

/-- Settles O49: what each interruption stores is apart from the rest, and the condition answered is the first listed that is enabled. -/
theorem interruptions : Obligations.Interruptions := by
  unfold Obligations.Interruptions
  intro s c now external externalOn ioOn repressibleOn
  refine ⟨fun ha => ⟨?_, fun a rest h => ?_, fun a rest h => ?_, fun a => ?_, ?_, ?_, fun p => ?_, fun h => ?_, fun i => ?_, ?_, fun m => ?_⟩, ?_, ?_, ?_, ?_⟩
  · exact takeExternal_enters ha rfl rfl rfl (.inl rfl)
  · exact takeExternal_enters ha (by unfold State.clearExternal; rw [h]; rfl) rfl rfl (.inl rfl)
  · exact takeExternal_enters ha (by unfold State.clearExternal; rw [h]; rfl) rfl rfl (.inl rfl)
  · exact takeExternal_enters ha rfl rfl rfl (.inl rfl)
  · exact takeExternal_enters ha rfl rfl rfl (.inl rfl)
  · exact takeExternal_enters ha rfl rfl rfl (.inl rfl)
  · exact takeExternal_enters ha rfl rfl rfl (.inr rfl)
  · exact takeExternal_enters ha rfl rfl rfl (.inr rfl)
  · exact interrupt_now ha rfl (show separated 120 [(56, 8), (184, 4), (188, 4)] by decide)
  · exact interrupt_now ha rfl (show separated 0 [(8, 8)] by decide)
  · refine ⟨(s.checkedState m).cpu.gr, (s.checkedState m).cpu.ar, (s.checkedState m).cpu.cr, (s.checkedState m).cpu.fpr,
      (s.checkedState m).cpu.clockComparator, (s.checkedState m).cpu.cpuTimer, ?_⟩
    intro u
    obtain ⟨hfloat, hextended⟩ := checkedState_floats s m
    refine ⟨checkedState_gr s m, checkedState_ar s m, checkedState_cr s m, fun h => ⟨hfloat h 0 (by decide), hfloat h 2 (by decide),
      hfloat h 4 (by decide), hfloat h 6 (by decide)⟩, hextended, checkedState_comparator s m, checkedState_timer s m, ?_⟩
    have hu : u = s.clearMachineCheck m := (clearMachineCheck_eq s m).symm
    clear_value u
    subst hu
    have hasit : (s.checkedState m).hp.asit = s.hp.asit := congrArg Space.asit (clearMachineCheck_kept s m).2.1
    have h := takeMachineCheck_enters ha m
    unfold State.machineCheckIdent State.failingAsit at h
    rw [storedCode_eq, hasit] at h
    cases hd : m.damage <;> cases hf : m.failing <;> rw [hd, hf] at h <;> exact h
  · have hon (e : External) : externalOn e ↔ s.cpu.psw.externalEnabled = true ∧ e ∈ s.externals ∧ bitAt (s.cr 0) e.maskBit = true := by
      rw [mem_externals, ← externalMask_eq]
      rfl
    refine ⟨fun e he => ?_, (find_where hon).2⟩
    refine ⟨(find_where hon).1 e he, fun f hf => ?_⟩
    obtain ⟨hx, hmem, hmask⟩ := (hon f).mp hf
    unfold State.externalEnabled at he
    rw [if_pos hx] at he
    exact (find_externals he).2.2 f hmem hmask
  · exact find_where (fun i => Iff.rfl)
  · refine find_where fun m => ?_
    rw [List.mem_append, Bool.and_eq_true, Bool.not_eq_true', ← machineCheckMask_eq]
  · exact ⟨fun m h => ⟨List.mem_of_find?_eq_some h, List.find?_some (p := MachineCheck.exigent) h⟩,
      fun m hm he h => List.find?_eq_none.mp h m hm he⟩

end Sys2Proof.Machine
end

section
/-! SIGNAL PROCESSOR (spec/44_modified_instructions_b.md R277). -/

namespace Sys2Proof.Machine

open Sys2Proof.Safety

variable {s u : State}

-- a change of the addressed CPU

/-- A change of a CPU that leaves the general, access and control registers and the PSW. -/
structure KeepsRegisters (f : Cpu → Cpu) : Prop where
  gr : ∀ c, (f c).gr = c.gr
  ar : ∀ c, (f c).ar = c.ar
  cr : ∀ c, (f c).cr = c.cr
  psw : ∀ c, (f c).psw = c.psw
  rest : ∀ c, cpuFrame (f c) = f (cpuFrame c)

/-- An instruction that completes and then changes the addressed CPU: another one in any way, its own but for its registers. -/
theorem completes_onCpu {e : Effect} {address : Half} {f : Cpu → Cpu} (h : completes (.next u) s e) (hu : u.cpu.address = s.cpu.address)
    (hf : s.cpu.address ≠ address ∨ KeepsRegisters f) : completes (.next (u.onCpu address f)) s e (fun v => v.onCpu address f) := by
  obtain ⟨t, ht, hp, ⟨hg, ha, hc⟩, hb, hk, hframe⟩ := h
  cases ht
  by_cases ho : u.cpu.address = address
  · have hkeeps := hf.resolve_left (fun h => h (hu ▸ ho))
    have hown : u.onCpu address f = { u with cpu := f u.cpu } := if_pos ho
    have hframeOwn : (frame u).onCpu address f = { frame u with cpu := f (cpuFrame u.cpu) } := if_pos ho
    refine ⟨_, rfl, ?_, ⟨fun r => ?_, fun r => ?_, fun r => ?_⟩, fun i a => ?_, fun i b => ?_, ?_⟩
    · rw [hown]
      exact (hkeeps.psw _).trans hp
    · rw [hown, ← hg r]; unfold State.gr; simp only [hkeeps.gr]
    · rw [hown, ← ha r]; unfold State.ar; simp only [hkeeps.ar]
    · rw [hown, ← hc r]; unfold State.cr; simp only [hkeeps.cr]
    · rw [onCpu_space]; exact hb i a
    · rw [onCpu_space]; exact hk i b
    · rw [show frame s = frame u from hframe.symm]
      show _ = (frame u).onCpu address f
      rw [hown, hframeOwn, ← hkeeps.rest]
      rfl
  · have hother : u.onCpu address f = { u with others := u.others.map (fun c => if c.address == address then f c else c) } := if_neg ho
    have hframeOther : (frame u).onCpu address f =
        { frame u with others := u.others.map (fun c => if c.address == address then f c else c) } := if_neg ho
    refine ⟨_, rfl, ?_, ⟨fun r => ?_, fun r => ?_, fun r => ?_⟩, fun i a => ?_, fun i b => ?_, ?_⟩
    · rw [hother]; exact hp
    · rw [hother]; exact hg r
    · rw [hother]; exact ha r
    · rw [hother]; exact hc r
    · rw [onCpu_space]; exact hb i a
    · rw [onCpu_space]; exact hk i b
    · rw [show frame s = frame u from hframe.symm]
      show _ = (frame u).onCpu address f
      rw [hframeOther, hother]
      rfl

theorem keepsRegisters_where {f : Cpu → Cpu} (hf : KeepsRegisters f) (g : Cpu → Prop) [DecidablePred g] (hg : ∀ c, g (cpuFrame c) ↔ g c) :
    KeepsRegisters (fun c => if g c then f c else c) := by
  have cases {P : Cpu → Cpu → Prop} (hP : ∀ c, P c (f c)) (hr : ∀ c, P c c) (c : Cpu) : P c (if g c then f c else c) := by
    split
    · exact hP c
    · exact hr c
  refine ⟨cases (P := fun c d => d.gr = c.gr) hf.gr fun _ => rfl, cases (P := fun c d => d.ar = c.ar) hf.ar fun _ => rfl,
    cases (P := fun c d => d.cr = c.cr) hf.cr fun _ => rfl, cases (P := fun c d => d.psw = c.psw) hf.psw fun _ => rfl, fun c => ?_⟩
  simp only [hg]
  split
  · exact hf.rest c
  · rfl

theorem keepsRegisters_start : KeepsRegisters Cpu.start :=
  keepsRegisters_where (f := fun c => { c with status := .operating })
    ⟨fun _ => rfl, fun _ => rfl, fun _ => rfl, fun _ => rfl, fun _ => rfl⟩ (fun c => c.status = .stopped) fun _ => Iff.rfl

theorem keepsRegisters_stop (how : StopRequest) : KeepsRegisters (fun c => c.stop how) :=
  keepsRegisters_where (f := fun c => { c with stopRequest := if c.stopRequest = .stopAndStoreStatus then .stopAndStoreStatus else how })
    ⟨fun _ => rfl, fun _ => rfl, fun _ => rfl, fun _ => rfl, fun _ => rfl⟩ (fun c => c.status = .operating) fun _ => Iff.rfl

theorem keepsRegisters_externalCall (a : Half) : KeepsRegisters (fun c => { c with externalCall := some a }) :=
  ⟨fun _ => rfl, fun _ => rfl, fun _ => rfl, fun _ => rfl, fun _ => rfl⟩

theorem keepsRegisters_emergencySignal (a : Half) : KeepsRegisters (fun c => { c with emergencySignals := addSignal a c.emergencySignals }) :=
  ⟨fun _ => rfl, fun _ => rfl, fun _ => rfl, fun _ => rfl, fun _ => rfl⟩

theorem keepsRegisters_restart : KeepsRegisters (fun c => { c with restartPending := true }) :=
  ⟨fun _ => rfl, fun _ => rfl, fun _ => rfl, fun _ => rfl, fun _ => rfl⟩

-- the orders

/-- The outcome of an order. -/
def orderOut (u : State) (r1 : Reg) : OrderResult → Out
  | .accepted v => .next v
  | .status w => .next ((u.setCc 1).setGr r1 w)

/-- An order to a CPU that is not busy and for which the environment reports nothing. -/
theorem exec_sigp_order {r1 r3 b2 : Reg} {d2 : Disp} {c : Cpu} (hsup : s.cpu.psw.problem = false) (hc : s.cpuAt (field (s.gr r3) 16 16) = some c)
    (hb : c.busy = false) (he : c.environmentStatus = 0) : exec (.sigp r1 r3 b2 d2) s = orderOut (s.advance 4).serialize r1
      (((s.advance 4).serialize.setCc 0).order ((s.eaBD b2 d2).setWidth 8) (field (s.gr r3) 16 16) c (s.gr (oddOf r1))) := by
  have hsignal (v : State) (code : Byte) (target : Half) (param : Word) : v.signal code target c param = v.order code target c param := by
    unfold State.signal
    exact if_neg fun h => h.2 he
  show execSigp r1 r3 b2 d2 s = _
  unfold execSigp
  simp only [supervisorOnly_ok s 4 _ hsup, hc, hb, Bool.false_eq_true, if_false, hsignal]
  cases State.order _ _ _ _ _ <;> rfl

section
variable {code : Byte} {t : Half} {c : Cpu} {p : Word}

theorem order_sense (h : code.toNat = 1) : s.order code t c p = if c.senseStatus = 0 then .accepted s else .status c.senseStatus := by
  unfold State.order
  rw [h]
  rfl

theorem order_externalCall (h : code.toNat = 2) : s.order code t c p =
    if c.externalCall.isSome then .status (statusBit 24) else s.orderCpu t c (fun o => { o with externalCall := some s.cpu.address }) := by
  unfold State.order
  rw [h]
  rfl

theorem order_emergencySignal (h : code.toNat = 3) :
    s.order code t c p = s.orderCpu t c (fun o => { o with emergencySignals := addSignal s.cpu.address o.emergencySignals }) := by
  unfold State.order
  rw [h]
  rfl

theorem order_start (h : code.toNat = 4) : s.order code t c p = s.orderCpu t c Cpu.start := by
  unfold State.order
  rw [h]
  rfl

theorem order_stop (h : code.toNat = 5) : s.order code t c p = s.orderCpu t c (fun o => o.stop .stop) := by
  unfold State.order
  rw [h]
  rfl

theorem order_restart (h : code.toNat = 6) : s.order code t c p = s.orderCpu t c (fun o => { o with restartPending := true }) := by
  unfold State.order
  rw [h]
  rfl

theorem order_stopAndStoreStatus (h : code.toNat = 9) : s.order code t c p =
    if c.status = .stopped then .accepted (s.storeStatusOf 0 c) else s.orderCpu t c (fun o => o.stop .stopAndStoreStatus) := by
  unfold State.order
  rw [h]
  rfl

theorem order_initialReset (h : code.toNat = 0x0b) : s.order code t c p = s.orderReset t Cpu.initialReset := by
  unfold State.order
  rw [h]
  rfl

theorem order_reset (h : code.toNat = 0x0c) : s.order code t c p = s.orderReset t Cpu.cpuReset := by
  unfold State.order
  rw [h]
  rfl

theorem order_setPrefix (h : code.toNat = 0x0d) : s.order code t c p =
    stoppedOrder c (s.hp.assigned (field p 1 19)) (s.onCpu t (Cpu.withPrefix (field p 1 19))) := by
  unfold State.order
  rw [h]
  rfl

theorem order_storeStatus (h : code.toNat = 0x0e) : s.order code t c p =
    stoppedOrder c (s.statusBlockOk (blockOf (field p 1 22 ++ 0#9))) (s.storeStatusOf (field p 1 22 ++ 0#9) c) := by
  unfold State.order
  rw [h]
  rfl

theorem order_unassigned (h : code.toNat = 0 ∨ code.toNat = 7 ∨ code.toNat = 8 ∨ code.toNat = 0x0a ∨ 0x0f ≤ code.toNat) :
    s.order code t c p = .status (statusBit 30) := by
  unfold State.order
  split
  case h_12 => rfl
  all_goals omega

theorem orderCpu_accepted (h : c.status ≠ .checkStop) (f : Cpu → Cpu) : s.orderCpu t c f = .accepted (s.onCpu t f) := if_neg h

/-- A reset order of a CPU to itself (log entry 25). -/
theorem orderReset_own (s : State) (h : t = s.cpu.address) (f : Cpu → Cpu) :
    s.orderReset t f = .accepted s ∨ s.orderReset t f = .status (statusBit 22) := by
  unfold State.orderReset
  rw [if_neg (not_not_intro h)]
  split
  · exact .inl rfl
  · exact .inr rfl

theorem stoppedOrder_accepted (h : c.status = .stopped) : stoppedOrder c true u = .accepted u := by
  unfold stoppedOrder
  rw [if_pos h]
  rfl

theorem stoppedOrder_notUsable (h : c.status = .stopped) : stoppedOrder c false u = .status (statusBit 23) := by
  unfold stoppedOrder
  rw [if_pos h]
  rfl

theorem stoppedOrder_notStopped (h : c.status ≠ .stopped) : stoppedOrder c true u = .status (statusBit 22) := by
  unfold stoppedOrder
  rw [if_neg h]
  rfl

theorem senseStatus_eq (he : c.environmentStatus = 0) (hs : c.status ≠ .checkStop) : c.senseStatus =
    (if c.externalCall = none then 0 else statusBit 24) ||| (if c.status = .stopped then statusBit 25 else 0) := by
  unfold Cpu.senseStatus
  rw [he, if_neg hs]
  simp only [BitVec.ofNat_eq_ofNat, BitVec.zero_or, BitVec.or_zero]
  cases c.externalCall <;> rfl

end

theorem statusBlockOk_iff (s : State) (a : Addr) : s.statusBlockOk (blockOf a) = true ↔ statusStorable s a := by
  unfold State.statusBlockOk statusStorable
  rw [Bool.and_eq_true, Bool.not_eq_true']

theorem stopAndStoreStatus_eq : (fun c : Cpu => c.stop .stopAndStoreStatus) =
    fun c => if c.status = .operating then { c with stopRequest := .stopAndStoreStatus } else c := by
  funext c
  unfold Cpu.stop
  rw [ite_self]

/-- Settles O44: the order code is the last byte of the second-operand address; each order is the equation of its code. -/
theorem signalProcessor : Obligations.SignalProcessor := by
  unfold Obligations.SignalProcessor
  intro s r1 r3 b2 d2 hsup order address param block area o status bit accepts reset initialReset storesStatus
  have hadv : Advanced s (s.advance 4).serialize 4 := (Advanced.start s 4).serialize
  have hdone (cc : BitVec 2) : completes (.next ((s.advance 4).serialize.setCc cc)) s { psw := pswCc s 4 cc } := hadv.cc rfl
  refine ⟨fun hown hother => ?_, fun c hc hb => ?_, fun c hc hb he hns => ?_⟩
  · have hnone : s.cpuAt address = none := by
      unfold State.cpuAt
      rw [if_neg hown]
      exact List.find?_eq_none.mpr fun c hc h => hother c hc (beq_iff_eq.mp h)
    have ho : o = .next ((s.advance 4).serialize.setCc 3) := by
      show execSigp r1 r3 b2 d2 s = _
      unfold execSigp
      simp only [supervisorOnly_ok s 4 _ hsup, show s.cpuAt (field (s.gr r3) 16 16) = none from hnone]
    exact ho ▸ hdone 3
  · have ho : o = .next ((s.advance 4).serialize.setCc 2) := by
      show execSigp r1 r3 b2 d2 s = _
      unfold execSigp
      simp only [supervisorOnly_ok s 4 _ hsup, show s.cpuAt (field (s.gr r3) 16 16) = some c from hc, hb, if_true]
    exact ho ▸ hdone 2
  have hcode : ((s.eaBD b2 d2).setWidth 8 : Byte).toNat = order := BitVec.toNat_setWidth ..
  have ho : o = orderOut (s.advance 4).serialize r1 (((s.advance 4).serialize.setCc 0).order ((s.eaBD b2 d2).setWidth 8) address c param) :=
    exec_sigp_order hsup hc hb he
  have accepted {v : State} (h : ((s.advance 4).serialize.setCc 0).order ((s.eaBD b2 d2).setWidth 8) address c param = .accepted v) : o = .next v :=
    ho.trans (congrArg _ h)
  have stored {w w' : Word} (h : ((s.advance 4).serialize.setCc 0).order ((s.eaBD b2 d2).setWidth 8) address c param = .status w) (hw : w = w') :
      status w' := by
    show completes o s _
    rw [ho, h]
    exact hadv.oneCc hw rfl
  have changes {f g : Cpu → Cpu} (hf : s.cpu.address ≠ address ∨ KeepsRegisters f) (hg : f = g)
      (h : ((s.advance 4).serialize.setCc 0).order ((s.eaBD b2 d2).setWidth 8) address c param =
        .accepted (((s.advance 4).serialize.setCc 0).onCpu address f)) : accepts g := by
    show completes o s _ _
    rw [accepted h, ← hg]
    exact completes_onCpu (hdone 0) rfl hf
  have stores {base : Addr} (hb : statusStorable s base) (h : ((s.advance 4).serialize.setCc 0).order ((s.eaBD b2 d2).setWidth 8) address c param =
        .accepted (((s.advance 4).serialize.setCc 0).storeStatusOf base c)) : storesStatus base c := by
    show completesStore o s _ _ _
    rw [accepted h]
    exact completes_storesStatus (hdone 0) base c hb
  have plain {f : Cpu → Cpu} (h : KeepsRegisters f) : s.cpu.address ≠ address ∨ KeepsRegisters f := .inr h
  have code {n : Nat} (h : order = n) : ((s.eaBD b2 d2).setWidth 8 : Byte).toNat = n := hcode.trans h
  refine ⟨fun h => ⟨fun hw => ?_, fun hw => ?_⟩, fun h hx => ?_, fun h hx => ?_, fun h => ?_, fun h => ?_, fun h => ?_, fun h => ?_, fun h hs => ?_,
    fun h hs hb => ?_, fun h ha => ?_, fun h ha => ?_, fun h ha => ?_, fun h hs ha hb => ?_, fun h hs hb => ?_, fun h hs hb => ?_,
    fun h hs hb => ?_, fun h hs hb => ?_, fun h hs hb => ?_, fun h => ?_⟩
  · refine (accepted ((order_sense (code h)).trans (if_pos ?_))).symm ▸ hdone 0
    rw [senseStatus_eq he hns]
    exact hw
  · refine stored ((order_sense (code h)).trans (if_neg ?_)) (senseStatus_eq he hns)
    rw [senseStatus_eq he hns]
    exact hw
  · exact changes (plain (keepsRegisters_externalCall s.cpu.address)) rfl
      ((order_externalCall (code h)).trans ((if_neg (by rw [hx]; exact Bool.false_ne_true)).trans (orderCpu_accepted hns _)))
  · exact stored ((order_externalCall (code h)).trans (if_pos (Option.isSome_iff_ne_none.mpr hx))) rfl
  · exact changes (plain (keepsRegisters_emergencySignal s.cpu.address)) rfl
      ((order_emergencySignal (code h)).trans (orderCpu_accepted hns _))
  · exact changes (plain keepsRegisters_start) rfl ((order_start (code h)).trans (orderCpu_accepted hns _))
  · exact changes (plain (keepsRegisters_stop .stop)) rfl ((order_stop (code h)).trans (orderCpu_accepted hns _))
  · exact changes (plain keepsRegisters_restart) rfl
      ((order_restart (code h)).trans (orderCpu_accepted hns _))
  · exact changes (plain (keepsRegisters_stop .stopAndStoreStatus)) stopAndStoreStatus_eq
      ((order_stopAndStoreStatus (code h)).trans ((if_neg hs).trans (orderCpu_accepted hns _)))
  · exact stores hb ((order_stopAndStoreStatus (code h)).trans (if_pos hs))
  · exact changes (.inl ha) rfl ((order_initialReset (code h)).trans (if_pos (Ne.symm ha)))
  · exact changes (.inl ha) rfl ((order_reset (code h)).trans (if_pos (Ne.symm ha)))
  · have hreset : ((s.advance 4).serialize.setCc 0).order ((s.eaBD b2 d2).setWidth 8) address c param = .accepted ((s.advance 4).serialize.setCc 0) ∨
        ((s.advance 4).serialize.setCc 0).order ((s.eaBD b2 d2).setWidth 8) address c param = .status (statusBit 22) := by
      rcases h with h | h
      · rw [order_initialReset (code h)]
        exact orderReset_own ((s.advance 4).serialize.setCc 0) ha.symm _
      · rw [order_reset (code h)]
        exact orderReset_own ((s.advance 4).serialize.setCc 0) ha.symm _
    rcases hreset with h | h
    · left
      rw [accepted h]
      exact hdone 0
    · exact .inr (stored h rfl)
  · exact changes (.inl ha) rfl ((order_setPrefix (code h)).trans (hb ▸ stoppedOrder_accepted hs))
  · exact stored ((order_setPrefix (code h)).trans (hb ▸ stoppedOrder_notUsable hs)) rfl
  · exact stored ((order_setPrefix (code h)).trans (hb ▸ stoppedOrder_notStopped hs)) rfl
  · exact stores hb ((order_storeStatus (code h)).trans ((statusBlockOk_iff s area).mpr hb ▸ stoppedOrder_accepted hs))
  · exact stored ((order_storeStatus (code h)).trans
      ((Bool.not_eq_true _).mp (mt (statusBlockOk_iff s area).mp hb) ▸ stoppedOrder_notUsable hs)) rfl
  · exact stored ((order_storeStatus (code h)).trans ((statusBlockOk_iff s area).mpr hb ▸ stoppedOrder_notStopped hs)) rfl
  · rw [← hcode] at h
    exact stored (order_unassigned h) rfl

end Sys2Proof.Machine
end
